-- ==== Sys2Proof/Word.lean ====
section
/-! DEFINITION. The word types of the part: bytes on the link, two-byte fields, line positions and time stamps. -/

namespace Sys2Proof

/-- One byte of a frame (R170). -/
abbrev Byte := BitVec 8

/-- A two-byte field: an order NUMBER, a notice number, a tag (R170, R35, R155). -/
abbrev Half := BitVec 16

/-- A line position: a 32-bit count of ticks that wraps (00_scope.md, Conventions). -/
abbrev Position := BitVec 32

/-- A time stamp: a 32-bit count of milliseconds that wraps (00_scope.md, Conventions). -/
abbrev TimeStamp := BitVec 32

/-- The tag of a tracked item, 1 to 65535 (R35). -/
abbrev Tag := BitVec 16

/-- A diverter station: station number `n`, from 1 to 16, is index `n - 1` (00_scope.md, Conventions). -/
abbrev Station := Fin 16

end Sys2Proof
end

