-- ==== Sys2Proof/Syntax.lean ====
section
/-! DEFINITION. The commands of the part: one constructor of `Instr` per row of spec/opcode_table.json, with its operands. -/

namespace Sys2Proof

/-- The level of a photo-eye input (R177: energised is BLOCKED). -/
inductive EyeLevel where
  | clear
  | blocked
  deriving DecidableEq, Repr

/-- The level of the line stop input (R177: de-energised is ACTIVE). -/
inductive StopLevel where
  | inactive
  | active
  deriving DecidableEq, Repr

/-- The levels of the two encoder channels at one sample (R2, R3). -/
structure Sample where
  a : Bool
  b : Bool
  deriving DecidableEq, Repr

/-- The input levels that the part samples when a reset ends (R2, R18, R86, R117, R178).
The exit eye is not among them: the level sampled when a reset ends yields no edge (R56) and no rule keeps it. -/
structure Levels where
  encoder : Sample
  entryEye : EyeLevel
  confirmEyes : Vector EyeLevel 16
  lineStop : StopLevel
  /-- strap S0 closed to signal common -/
  strap0Closed : Bool
  /-- strap S1 closed to signal common -/
  strap1Closed : Bool
  deriving DecidableEq, Repr

/-- The commands. An order row carries the order's NUMBER and its payload as received (R170), so that the form checks
of R150 are part of its meaning. -/
inductive Instr where
  -- orders (R172)
  | cfgl (number : Half) (payload : List Byte)
  | cfgd (number : Half) (payload : List Byte)
  | cmit (number : Half) (payload : List Byte)
  | rdcf (number : Half) (payload : List Byte)
  | strt (number : Half) (payload : List Byte)
  | stop (number : Half) (payload : List Byte)
  | halt (number : Half) (payload : List Byte)
  | clr (number : Half) (payload : List Byte)
  | rstr (number : Half) (payload : List Byte)
  | asgn (number : Half) (payload : List Byte)
  | drop (number : Half) (payload : List Byte)
  | qitm (number : Half) (payload : List Byte)
  | list (number : Half) (payload : List Byte)
  | opnd (number : Half) (payload : List Byte)
  | clsd (number : Half) (payload : List Byte)
  | adjd (number : Half) (payload : List Byte)
  | qdst (number : Half) (payload : List Byte)
  | dena (number : Half) (payload : List Byte)
  | ddis (number : Half) (payload : List Byte)
  | tfir (number : Half) (payload : List Byte)
  | link (number : Half) (payload : List Byte)
  | wind (number : Half) (payload : List Byte)
  | ack (number : Half) (payload : List Byte)
  | rsum (number : Half) (payload : List Byte)
  | stat (number : Half) (payload : List Byte)
  | unknownKind (number : Half) (kind : Byte) (payload : List Byte)
  | orderReplay (number : Half) (kind : Byte) (payload : List Byte)
  -- the encoder
  | forwardTick
  | reverseTick
  | illegalTransition
  | standstillTimerExpiry
  -- watch deliveries
  | fireWatch (tag : Tag)
  | runoffWatch (tag : Tag)
  | lateWatch (diverter : Nat) (tag : Tag)
  | releaseWatch (diverter : Nat) (tag : Tag)
  | lengthLimitWatch
  -- the entry and exit eyes
  | entryEyeLeadingEdge
  | entryEyeTrailingEdge
  | exitEyeLeadingEdge
  -- the arbiter and the diverters
  | slotGrant
  | maxOnExpiry (diverter : Nat)
  | recoveryTimerExpiry (diverter : Nat)
  | pulseTimerExpiry (diverter : Nat)
  -- the confirm monitors
  | deadlineTimerExpiry (diverter : Nat)
  | confirmEyeLeadingEdge (diverter : Nat)
  | confirmEyeTrailingEdge (diverter : Nat)
  | chuteTimerExpiry (diverter : Nat)
  -- the line
  | lineStopChange (level : StopLevel)
  | drainComplete
  -- resets
  | powerOn (levels : Levels)
  | pinReset (levels : Levels)
  | rstrReset (levels : Levels)
  -- the link
  | goodOrderFrame (byte : Byte)
  | frameDiscard (byte : Byte)
  | characterFault
  | gapTimerExpiry
  | transmitComplete
  | retryTimerExpiry
  | supervisionTimerExpiry
  | characterReceived (byte : Byte)
  deriving DecidableEq, Repr

end Sys2Proof
end

