-- ==== Sys2Proof/Decode.lean ====
section
/-! DEFINITION. Commands spelled by words. No row of spec/opcode_table.json gives bits, so no word spells a command; the
frames of the control link are judged by the receiver (R144 to R147), in Machine/Link.lean. -/

namespace Sys2Proof

/-- The command a word spells by the table's bits: none, since no row gives any. -/
def decodeTableWord (_nbits _w : Nat) : Option Instr := none

end Sys2Proof
end

