-- ==== Sys2Proof/Config.lean ====
section
/-! DEFINITION. What is fixed for the part: the capacities of 00_scope.md and the field levels that `State.reset` names.
The spec leaves no result value open, so there is no free value here. -/

namespace Sys2Proof.Config

/-- Tracking table, entries (R34). -/
def tableCapacity : Nat := 96

/-- Push list and pending list, entries per diverter (R62). -/
def listCapacity : Nat := 4

/-- Report queue, notices (R157, R158). -/
def queueCapacity : Nat := 64

/-- Places of the report queue that ordinary notices may fill (R158). -/
def ordinaryCapacity : Nat := 60

/-- Received-order buffer, frames (R148). -/
def orderBufferCapacity : Nat := 2

/-- Largest payload of a frame, bytes (R170). -/
def payloadCapacity : Nat := 48

/-- Duration of the receiver's gap timer, ms (R145). -/
def gapTime : Nat := 5

/-- Largest configured offset, ticks (R133, R134). -/
def offsetLimit : Nat := 1048575

/-- The value at which the 16-bit counts are held (R100, R142). -/
def countLimit : Nat := 65535

/-- DESIGN CHOICE (entry 1): the input levels `State.reset` takes as sampled when its reset ended: no item in front of any
eye, the line's stop circuit closed, both encoder channels low, both straps open. -/
def resetLevels : Levels where
  encoder := ⟨false, false⟩
  entryEye := .clear
  confirmEyes := Vector.replicate 16 .clear
  lineStop := .inactive
  strap0Closed := false
  strap1Closed := false

end Sys2Proof.Config
end

