-- ==== Sys2Proof/Machine/State.lean ====
section
/-! DEFINITION. The state of the part as plain data: every piece of state the spec names, the outcomes' reasons, and the
state right after a reset. -/

namespace Sys2Proof.Machine

/-- Why a step stops with a fault: never. The spec gives the part no event that stops it; a refused order is an answer
(R153). No meaning raises a fault, so this type has no constructor (safe). -/
inductive Fault
  deriving DecidableEq, Repr

/-- Why a step refuses a command. -/
inductive Refusal where
  /-- Raised by `exec` for a row without a meaning. Safe: nothing follows from it. No row is left so. -/
  | notModelled (mnemonic : String)
  /-- Raised by a meaning whose operands name nothing: a diverter number outside 1 to 16, or UNKNOWN_KIND with a KIND that
  names an order (entry 22). Safe: such a term is no command of the part. -/
  | illFormed
  deriving DecidableEq, Repr

/-- A timer: stopped, or running with the time stamp from which it may expire (R1, R62, R86, R142, R157, R164). -/
abbrev Timer := Option TimeStamp

/-- A destination: 0 is the run-off, 1 to 16 are the stations (R1). -/
inductive Dest where
  | runOff
  | station (d : Station)
  deriving DecidableEq, Repr

/-! ### Position counter and watch list (01) -/

/-- The belt flag (R2, R8). -/
inductive BeltFlag where
  | stopped
  | moving
  deriving DecidableEq, Repr

/-- The position counter's items of state (R2, R8). -/
structure PositionCounter where
  position : Position
  reference : Sample
  highWater : Position
  belt : BeltFlag
  standstill : Timer
  faultLatch : Bool
  deriving DecidableEq, Repr

/-- The kind of a watch with the identity it carries (R10). -/
inductive WatchKind where
  | fire (tag : Tag)
  | runoff (tag : Tag)
  | late (d : Station) (tag : Tag)
  | release (d : Station) (tag : Tag)
  | lengthLimit
  deriving DecidableEq, Repr

/-- A watch (R10). -/
structure Watch where
  position : Position
  kind : WatchKind
  deriving DecidableEq, Repr

/-! ### Induction unit (02) -/

/-- The measuring slot (R18). -/
inductive Slot where
  | empty
  | opened (lead : Position) (refused : Bool)
  | closed
  deriving DecidableEq, Repr

/-- The induction unit's items of state (R18). -/
structure InductionUnit where
  eye : EyeLevel
  slot : Slot
  lastTrailing : Option Position
  nextTag : Tag
  hold : Bool
  deriving DecidableEq, Repr

/-! ### Tracking table (03) -/

/-- The flags of an entry (R35). -/
structure EntryFlags where
  gapShort : Bool := false
  overlength : Bool := false
  viaAlternate : Bool := false
  truncated : Bool := false
  exitSeen : Bool := false
  lateSeen : Bool := false
  deriving DecidableEq, Repr

/-- The run-off reasons (R39). -/
inductive Reason where
  | none
  | noAssign
  | lateAssign
  | destClosed
  | noSlot
  | recovery
  | limit
  | disabled
  | dropped
  | gapShort
  | overlength
  | linkLost
  deriving DecidableEq, Repr

/-- The state of an entry (R35, R36). -/
inductive EntryState where
  | travelling
  | pending
  | pushing
  | confirming
  | frozen
  deriving DecidableEq, Repr

/-- An entry of the tracking table (R35). -/
structure Entry where
  tag : Tag
  lead : Position
  length : Nat
  flags : EntryFlags
  assigned : Option Dest
  target : Dest
  reason : Reason
  state : EntryState
  reservedWith : Option Station
  confirmDeadline : Option TimeStamp
  stateAtHalt : Option EntryState
  deriving DecidableEq, Repr

/-! ### Diverters and arbiter (04) -/

/-- The state of a diverter (R62, R63). -/
inductive DiverterState where
  | off
  | idle
  | waiting
  | energised
  | recovery
  deriving DecidableEq, Repr

/-- The state a diverter controller holds (R62). -/
structure Diverter where
  state : DiverterState
  disabled : Bool
  testPulse : Bool
  push : List Tag
  pending : List Tag
  maxOnTimer : Timer
  recoveryTimer : Timer
  pulseTimer : Timer
  output : Bool
  deriving DecidableEq, Repr

/-- The state the drive slot arbiter holds (R64). The waiting set is the set of stations whose bit is true. -/
structure Arbiter where
  budget : Nat
  slotsInUse : Nat
  waiting : Vector Bool 16
  lastGranted : Station
  deriving DecidableEq, Repr

/-! ### Confirm monitors (05) -/

/-- The chute state (R86, R95). -/
inductive ChuteState where
  | clear
  | filling
  | full
  | emptying
  deriving DecidableEq, Repr

/-- The state a confirm monitor holds (R86); each entry's deadline is a field of the entry. -/
structure Monitor where
  confirm : List Tag
  deadlineTimer : Timer
  eye : EyeLevel
  chute : ChuteState
  chuteTimer : Timer
  deriving DecidableEq, Repr

/-! ### Destinations (06) -/

/-- The causes set (R100, R102). -/
structure Causes where
  host : Bool := false
  batchEnd : Bool := false
  chute : Bool := false
  disabled : Bool := false
  deriving DecidableEq, Repr

/-- A destination record (R100, R101). -/
structure DestRecord where
  base : Nat
  autoReload : Bool
  remaining : Nat
  outstanding : Nat
  filled : Nat
  serial : Half
  causes : Causes
  deriving DecidableEq, Repr

/-! ### Line state controller (07) -/

/-- The line state (R117). -/
inductive LineState where
  | idle
  | ready
  | running
  | draining
  | halted
  deriving DecidableEq, Repr

/-- The halt cause (R117, R124). -/
inductive HaltCause where
  | none
  | order
  | lineStop
  | encoder
  | reverse
  | link
  deriving DecidableEq, Repr

/-- The line state controller's items of state (R117). -/
structure LineController where
  state : LineState
  haltCause : HaltCause
  runPermit : Bool
  lineStop : StopLevel
  deriving DecidableEq, Repr

/-- What reset the part (R131). -/
inductive ResetCause where
  | power
  | pin
  | order
  deriving DecidableEq, Repr

/-! ### Configuration (08) -/

/-- The arbiter's priority mode (R66, R133). -/
inductive PriorityMode where
  | fixed
  | rotating
  deriving DecidableEq, Repr

/-- The line record (R133). -/
structure LineRecord where
  minLength : Nat
  maxLength : Nat
  minGap : Nat
  runoffOffset : Nat
  exitEye : Bool
  priority : PriorityMode
  exitTolerance : Nat
  reverseTolerance : Nat
  standstillTime : Nat
  holdThreshold : Nat
  driveBudget : Nat
  deriving DecidableEq, Repr

/-- A diverter record (R134). -/
structure DiverterRecord where
  installed : Bool
  offset : Nat
  advance : Nat
  lateMargin : Nat
  releaseMargin : Nat
  maxOn : Nat
  recovery : Nat
  confirmTime : Nat
  chuteFullTime : Nat
  chuteClearTime : Nat
  alternate : Nat
  deriving DecidableEq, Repr

/-- One copy of the configuration (R132). -/
structure Configuration where
  line : LineRecord
  diverters : Vector DiverterRecord 16
  deriving DecidableEq, Repr

/-! ### Control link (09) -/

/-- The link rates (R142, R178). -/
inductive LinkRate where
  | baud115200
  | baud230400
  | baud460800
  | baud921600
  deriving DecidableEq, Repr

/-- A frame less its SYNC, LEN and CRC, which its other fields determine (R170). -/
structure Frame where
  cls : Byte
  kind : Byte
  number : Half
  payload : List Byte
  deriving DecidableEq, Repr

/-- The last order record with its stored answer (R149). -/
structure LastOrder where
  number : Half
  kind : Byte
  answer : Frame
  deriving DecidableEq, Repr

/-- The transmitter: free, or sending the bytes of a frame, which is the answer in the answer slot or a notice (R152). -/
inductive Transmitter where
  | free
  | sending (isAnswer : Bool) (bytes : List Byte)
  deriving DecidableEq, Repr

/-- The receiver: HUNTING, or ASSEMBLING with the bytes of the frame so far (R142, R144). -/
inductive Receiver where
  | hunting
  | assembling (held : List Byte)
  deriving DecidableEq, Repr

/-- The state the link unit holds (R142), and whether RSTR waits for its answer to be sent (R130). -/
structure LinkUnit where
  rate : LinkRate
  receiver : Receiver
  gapTimer : Timer
  orders : List Frame
  answer : Option Frame
  last : Option LastOrder
  transmitter : Transmitter
  framingErrors : Nat
  overruns : Nat
  resetDue : Bool
  deriving DecidableEq, Repr

/-! ### Report queue (10) -/

/-- What moved the line, as LINESTATE names it (R128). -/
inductive LineCause where
  | commit
  | start
  | drain
  | drained
  | clear
  | halt (cause : HaltCause)
  deriving DecidableEq, Repr

/-- Why an item was not tracked (R26, R33). -/
inductive NoTrackReason where
  | tableFull
  | draining
  deriving DecidableEq, Repr

/-- The result of an item (R38). -/
inductive OutcomeResult where
  | sorted
  | unconfirmed
  | runoff
  deriving DecidableEq, Repr

/-- The kind and payload of a notice (R156). -/
inductive NoticeBody where
  | restart (cause : ResetCause)
  | lineState (src dst : LineState) (cause : LineCause)
  | link (restored : Bool)
  | inducted (tag : Tag) (length : Nat) (flags : EntryFlags)
  | noTrack (reason : NoTrackReason) (length : Nat)
  | outcome (tag : Tag) (assigned : Option Dest) (reached : Dest) (result : OutcomeResult) (reason : Reason)
      (flags : EntryFlags)
  | exitMissing (tag : Tag)
  | exitUnexpected
  | dest (d : Station) (causes : Causes) (remaining : Nat)
  | batch (d : Station) (serial : Half) (filled : Nat) (reloaded : Bool)
  | chute (d : Station) (full : Bool)
  | stray (d : Station)
  | belt (flag : BeltFlag)
  | cleared (count : Nat)
  deriving DecidableEq, Repr

/-- A notice: the common header and the body (R155). -/
structure Notice where
  number : Half
  timeStamp : TimeStamp
  position : Position
  gap : Nat
  body : NoticeBody
  deriving DecidableEq, Repr

/-- The state the report queue holds (R157). -/
structure ReportQueue where
  notices : List Notice
  head : Half
  next : Half
  sendPointer : Half
  highestSent : Half
  window : Nat
  retryTime : Nat
  retryTimer : Timer
  drops : Nat
  deriving DecidableEq, Repr

/-! ### Link supervisor (11) -/

/-- The link state (R164). -/
inductive LinkState where
  | up
  | lost
  deriving DecidableEq, Repr

/-- The loss action (R164, R166). -/
inductive LossAction where
  | continueOn
  | runoffAll
  | halt
  deriving DecidableEq, Repr

/-- The state the link supervisor holds (R164). -/
structure Supervisor where
  state : LinkState
  time : Nat
  action : LossAction
  timer : Timer
  deriving DecidableEq, Repr

/-! ### The part -/

/-- The state of the part. `held` is the cause of a reset that has begun and not ended (R129, R130); `pending` is the
queue of commands that wait, first in first out. -/
structure State where
  timeStamp : TimeStamp
  counter : PositionCounter
  watches : List Watch
  induction : InductionUnit
  table : List Entry
  diverters : Vector Diverter 16
  arbiter : Arbiter
  monitors : Vector Monitor 16
  destinations : Vector DestRecord 16
  runOff : DestRecord
  line : LineController
  pendingConfig : Configuration
  config : Configuration
  link : LinkUnit
  queue : ReportQueue
  supervisor : Supervisor
  held : Option ResetCause
  pending : List Instr
  deriving DecidableEq, Repr

/-! ### Reset values -/

/-- The reset contents of the line record (R132, R133). -/
def LineRecord.default : LineRecord where
  minLength := 50
  maxLength := 4000
  minGap := 100
  runoffOffset := 0
  exitEye := false
  priority := .rotating
  exitTolerance := 200
  reverseTolerance := 64
  standstillTime := 500
  holdThreshold := 80
  driveBudget := 4

/-- The reset contents of a diverter record (R132, R134). -/
def DiverterRecord.default : DiverterRecord where
  installed := false
  offset := 0
  advance := 0
  lateMargin := 0
  releaseMargin := 0
  maxOn := 500
  recovery := 50
  confirmTime := 1000
  chuteFullTime := 3000
  chuteClearTime := 2000
  alternate := 0

/-- The reset contents of a configuration copy (R132). -/
def Configuration.default : Configuration where
  line := LineRecord.default
  diverters := Vector.replicate 16 DiverterRecord.default

/-- A diverter controller after a reset (R62). -/
def Diverter.atReset : Diverter where
  state := .off
  disabled := false
  testPulse := false
  push := []
  pending := []
  maxOnTimer := none
  recoveryTimer := none
  pulseTimer := none
  output := false

/-- A station's destination record after a reset or a commit (R100). -/
def DestRecord.atReset : DestRecord where
  base := 0
  autoReload := false
  remaining := 0
  outstanding := 0
  filled := 0
  serial := 0
  causes := { host := true }

/-- Record 0 after a reset or a commit (R101). -/
def DestRecord.runOffAtReset : DestRecord where
  base := 0
  autoReload := false
  remaining := 0
  outstanding := 0
  filled := 0
  serial := 0
  causes := {}

/-- The report queue after a reset: the RESTART notice alone (R131, R157). -/
def ReportQueue.atReset (cause : ResetCause) : ReportQueue where
  notices := [{ number := 0, timeStamp := 0, position := 0, gap := 0, body := .restart cause }]
  head := 0
  next := 1
  sendPointer := 0
  highestSent := 65535
  window := 4
  retryTime := 200
  retryTimer := none
  drops := 0

/-- The part right after power-on (R131): the values the chapters give, with the input levels of `Config.resetLevels`
(entry 1), before the transmitter has taken the RESTART notice (entry 8). No command waits. -/
def State.reset : State where
  timeStamp := 0
  counter :=
    { position := 0, reference := Config.resetLevels.encoder, highWater := 0, belt := .stopped, standstill := none,
      faultLatch := false }
  watches := []
  induction :=
    { eye := Config.resetLevels.entryEye, slot := .empty, lastTrailing := none, nextTag := 1, hold := false }
  table := []
  diverters := Vector.replicate 16 Diverter.atReset
  arbiter := { budget := 4, slotsInUse := 0, waiting := Vector.replicate 16 false, lastGranted := 15 }
  monitors :=
    Vector.replicate 16 { confirm := [], deadlineTimer := none, eye := .clear, chute := .clear, chuteTimer := none }
  destinations := Vector.replicate 16 DestRecord.atReset
  runOff := DestRecord.runOffAtReset
  line := { state := .idle, haltCause := .none, runPermit := false, lineStop := Config.resetLevels.lineStop }
  pendingConfig := Configuration.default
  config := Configuration.default
  link :=
    { rate := .baud115200, receiver := .hunting, gapTimer := none, orders := [], answer := none, last := none,
      transmitter := .free, framingErrors := 0, overruns := 0, resetDue := false }
  queue := ReportQueue.atReset .power
  supervisor := { state := .up, time := 0, action := .continueOn, timer := none }
  held := none
  pending := []

end Sys2Proof.Machine
end

