-- ==== Sys2Proof/Machine/Codes.lean ====
section
/-! DEFINITION. The numeric codes of kinds, results and payload fields (R170, R172, R173). -/

namespace Sys2Proof.Machine

/-! ### Classes and kinds -/

/-- The value of SYNC (R170). -/
def syncByte : Byte := 0xA6

/-- CLASS of an order (R170). -/
def classOrder : Byte := 1

/-- CLASS of an answer (R170). -/
def classAnswer : Byte := 2

/-- CLASS of a notice (R170). -/
def classNotice : Byte := 3

/-- The twenty-five orders (09_the_control_link.md, section 9.8). -/
inductive OrderKind where
  | cfgl | cfgd | cmit | rdcf | strt | stop | halt | clr | rstr | asgn | drop | qitm | list
  | opnd | clsd | adjd | qdst | dena | ddis | tfir | link | wind | ack | rsum | stat
  deriving DecidableEq, Repr

/-- The twenty-five orders as a list. -/
def OrderKind.all : List OrderKind :=
  [.cfgl, .cfgd, .cmit, .rdcf, .strt, .stop, .halt, .clr, .rstr, .asgn, .drop, .qitm, .list,
   .opnd, .clsd, .adjd, .qdst, .dena, .ddis, .tfir, .link, .wind, .ack, .rsum, .stat]

/-- The KIND code of an order (R172). -/
def OrderKind.code : OrderKind → Byte
  | .cfgl => 0x01
  | .cfgd => 0x02
  | .cmit => 0x03
  | .rdcf => 0x04
  | .strt => 0x10
  | .stop => 0x11
  | .halt => 0x12
  | .clr => 0x13
  | .rstr => 0x14
  | .asgn => 0x20
  | .drop => 0x21
  | .qitm => 0x22
  | .list => 0x23
  | .opnd => 0x30
  | .clsd => 0x31
  | .adjd => 0x32
  | .qdst => 0x33
  | .dena => 0x34
  | .ddis => 0x35
  | .tfir => 0x36
  | .link => 0x40
  | .wind => 0x41
  | .ack => 0x42
  | .rsum => 0x43
  | .stat => 0x44

/-- The order a KIND code names, if it names one (R172). -/
def OrderKind.ofCode (k : Byte) : Option OrderKind :=
  OrderKind.all.find? (fun o => o.code == k)

/-- The payload length fixed for an order (R172). -/
def OrderKind.payloadLength : OrderKind → Nat
  | .cfgl => 20
  | .cfgd => 26
  | .cmit => 0
  | .rdcf => 2
  | .strt => 0
  | .stop => 0
  | .halt => 0
  | .clr => 0
  | .rstr => 0
  | .asgn => 4
  | .drop => 2
  | .qitm => 2
  | .list => 1
  | .opnd => 4
  | .clsd => 1
  | .adjd => 4
  | .qdst => 1
  | .dena => 1
  | .ddis => 1
  | .tfir => 4
  | .link => 6
  | .wind => 1
  | .ack => 2
  | .rsum => 0
  | .stat => 1

/-- The payload bytes a kind's layout marks reserved (R174). -/
def OrderKind.reserved : OrderKind → List Nat
  | .cfgd => [25]
  | .asgn => [3]
  | .adjd => [1]
  | .tfir => [1]
  | .link => [3]
  | _ => []

/-- The KIND code of a notice (R172). -/
def NoticeBody.code : NoticeBody → Byte
  | .restart _ => 0x80
  | .lineState _ _ _ => 0x81
  | .link _ => 0x82
  | .inducted _ _ _ => 0x83
  | .noTrack _ _ => 0x84
  | .outcome _ _ _ _ _ _ => 0x85
  | .exitMissing _ => 0x86
  | .exitUnexpected => 0x86
  | .dest _ _ _ => 0x87
  | .batch _ _ _ _ => 0x88
  | .chute _ _ => 0x89
  | .stray _ => 0x8A
  | .belt _ => 0x8B
  | .cleared _ => 0x8C

/-! ### Results -/

/-- The result codes (R153). -/
inductive Result where
  | done
  | unknownKind
  | badLength
  | badArg
  | state
  | noSuchTag
  | late
  | busy
  | linkLost
  | configInvalid
  deriving DecidableEq, Repr

/-- The numeric value of a result code (R173). -/
def Result.code : Result → Byte
  | .done => 0
  | .unknownKind => 1
  | .badLength => 2
  | .badArg => 3
  | .state => 4
  | .noSuchTag => 5
  | .late => 6
  | .busy => 7
  | .linkLost => 8
  | .configInvalid => 9

/-! ### Payload fields (R173) -/

/-- no/yes and absent/present. -/
def boolCode (b : Bool) : Byte := if b then 1 else 0

/-- The no/yes value of a code, if the table defines it. -/
def boolOfCode (b : Byte) : Option Bool :=
  if b = 0 then some false else if b = 1 then some true else none

/-- The code of an entry state. -/
def EntryState.code : EntryState → Byte
  | .travelling => 0
  | .pending => 1
  | .pushing => 2
  | .confirming => 3
  | .frozen => 4

/-- The code of a reason. -/
def Reason.code : Reason → Byte
  | .none => 0
  | .noAssign => 1
  | .lateAssign => 2
  | .destClosed => 3
  | .noSlot => 4
  | .recovery => 5
  | .limit => 6
  | .disabled => 7
  | .dropped => 8
  | .gapShort => 9
  | .overlength => 10
  | .linkLost => 11

/-- The code of an outcome result. -/
def OutcomeResult.code : OutcomeResult → Byte
  | .sorted => 0
  | .unconfirmed => 1
  | .runoff => 2

/-- The code of a line state. -/
def LineState.code : LineState → Byte
  | .idle => 0
  | .ready => 1
  | .running => 2
  | .draining => 3
  | .halted => 4

/-- The code of a halt cause. -/
def HaltCause.code : HaltCause → Byte
  | .none => 0
  | .order => 6
  | .lineStop => 7
  | .encoder => 8
  | .reverse => 9
  | .link => 10

/-- The code of a LINESTATE cause. -/
def LineCause.code : LineCause → Byte
  | .commit => 1
  | .start => 2
  | .drain => 3
  | .drained => 4
  | .clear => 5
  | .halt c => c.code

/-- The code of a link state. -/
def LinkState.code : LinkState → Byte
  | .up => 0
  | .lost => 1

/-- The code of a priority mode. -/
def PriorityMode.code : PriorityMode → Byte
  | .fixed => 0
  | .rotating => 1

/-- The priority mode a code names, if the table defines it. -/
def PriorityMode.ofCode (b : Byte) : Option PriorityMode :=
  if b = 0 then some .fixed else if b = 1 then some .rotating else none

/-- The loss action a code names, if the table defines it. -/
def LossAction.ofCode (b : Byte) : Option LossAction :=
  if b = 0 then some .continueOn else if b = 1 then some .runoffAll else if b = 2 then some .halt else none

/-- The code of a RESTART cause. -/
def ResetCause.code : ResetCause → Byte
  | .power => 0
  | .pin => 1
  | .order => 2

/-- The code of a NOTRACK reason (R176). -/
def NoTrackReason.code : NoTrackReason → Byte
  | .tableFull => 0
  | .draining => 1

/-- The code of the belt flag (R175, R176). -/
def BeltFlag.code : BeltFlag → Byte
  | .stopped => 0
  | .moving => 1

/-- The number of a station, 1 to 16 (R1). -/
def stationNumber (d : Station) : Nat := d.val + 1

/-- The station of a number, if it names one (R1). -/
def stationOf (n : Nat) : Option Station :=
  if h : 1 ≤ n ∧ n ≤ 16 then some ⟨n - 1, by omega⟩ else none

/-- The number of a destination, 0 to 16 (R1). -/
def Dest.number : Dest → Nat
  | .runOff => 0
  | .station d => stationNumber d

/-- The destination of a number, if it names one (R1). -/
def Dest.ofNumber (n : Nat) : Option Dest :=
  if n = 0 then some .runOff else (stationOf n).map .station

/-- A destination as one byte. -/
def Dest.byte (d : Dest) : Byte := BitVec.ofNat 8 d.number

/-- An absent or present destination as one byte, 0xFF when absent (R175, R176). -/
def destByte : Option Dest → Byte
  | none => 0xFF
  | some d => d.byte

end Sys2Proof.Machine
end

