-- ==== Sys2Proof/Machine/Flags.lean ====
section
/-! DEFINITION. Flag sets and cause sets: their bytes (R173), which reasons are forced (R39), which notice kinds may use
the kept places (R156), and which refusals of orders a LOST link makes (R168). -/

namespace Sys2Proof.Machine

/-- One bit of a flag byte. -/
def flagBit (b : Bool) (i : Nat) : Byte := if b then 1#8 <<< i else 0#8

/-- The flags byte: bit 0 GAP_SHORT, 1 OVERLENGTH, 2 VIA_ALTERNATE, 3 TRUNCATED, 4 EXIT_SEEN, 5 LATE_SEEN (R173). -/
def EntryFlags.byte (f : EntryFlags) : Byte :=
  flagBit f.gapShort 0 ||| flagBit f.overlength 1 ||| flagBit f.viaAlternate 2 ||| flagBit f.truncated 3
    ||| flagBit f.exitSeen 4 ||| flagBit f.lateSeen 5

/-- The causes byte: bit 0 HOST, 1 BATCH_END, 2 CHUTE, 3 DISABLED (R173). -/
def Causes.byte (c : Causes) : Byte :=
  flagBit c.host 0 ||| flagBit c.batchEnd 1 ||| flagBit c.chute 2 ||| flagBit c.disabled 3

/-- Whether the causes set is empty. -/
def Causes.isEmpty (c : Causes) : Bool := !(c.host || c.batchEnd || c.chute || c.disabled)

/-- Whether a reason is forced (R39). -/
def Reason.forced : Reason → Bool
  | .gapShort => true
  | .overlength => true
  | .dropped => true
  | .linkLost => true
  | _ => false

/-- Whether a notice kind may use the kept places of the report queue (R156). -/
def NoticeBody.kept : NoticeBody → Bool
  | .restart _ => true
  | .lineState _ _ _ => true
  | .link _ => true
  | _ => false

/-- The reason a newly admitted entry carries (R28). -/
def admittedReason (f : EntryFlags) : Reason :=
  if f.overlength then .overlength else if f.gapShort then .gapShort else .none

/-- The run-off reason chosen at removal (R53). -/
def runoffReason (e : Entry) : Reason :=
  if e.reason ≠ .none then e.reason
  else if e.flags.lateSeen then .lateAssign
  else if e.assigned.isNone then .noAssign
  else .none

end Sys2Proof.Machine
end

