-- ==== Sys2Proof/Machine/Bytes.lean ====
section
/-! DEFINITION. Byte order, the CRC, the bytes of a frame, and the payloads of notices (R170, R171, R176). -/

namespace Sys2Proof.Machine

/-! ### Fields in bytes, least significant byte first -/

/-- A two-byte field. -/
def bytes2 (h : Half) : List Byte := [h.extractLsb' 0 8, h.extractLsb' 8 8]

/-- A three-byte field. -/
def bytes3 (w : BitVec 32) : List Byte := [w.extractLsb' 0 8, w.extractLsb' 8 8, w.extractLsb' 16 8]

/-- A four-byte field. -/
def bytes4 (w : BitVec 32) : List Byte :=
  [w.extractLsb' 0 8, w.extractLsb' 8 8, w.extractLsb' 16 8, w.extractLsb' 24 8]

/-- A count as one byte. -/
def count1 (n : Nat) : Byte := BitVec.ofNat 8 n

/-- A count as a two-byte field. -/
def count2 (n : Nat) : List Byte := bytes2 (BitVec.ofNat 16 n)

/-- A count as a four-byte field. -/
def count4 (n : Nat) : List Byte := bytes4 (BitVec.ofNat 32 n)

/-- The byte at an offset of a payload. -/
def byteAt (p : List Byte) (i : Nat) : Byte := p.getD i 0

/-- The two-byte field at an offset of a payload. -/
def halfAt (p : List Byte) (i : Nat) : Half := byteAt p (i + 1) ++ byteAt p i

/-- The four-byte field at an offset of a payload. -/
def wordAt (p : List Byte) (i : Nat) : BitVec 32 := halfAt p (i + 2) ++ halfAt p i

/-! ### The CRC (R171) -/

/-- One bit through the CRC register, polynomial 0x1021. -/
def crcBit (r : Half) : Half := if r.msb then (r <<< 1) ^^^ 0x1021#16 else r <<< 1

/-- One byte through the CRC register, most significant bit first. -/
def crcByte (r : Half) (b : Byte) : Half :=
  (fun x => crcBit (crcBit (crcBit (crcBit (crcBit (crcBit (crcBit (crcBit x))))))))
    (r ^^^ ((b.setWidth 16) <<< 8))

/-- The CRC of a run of bytes: register set to 0xFFFF, no final value. -/
def crc (bs : List Byte) : Half := bs.foldl crcByte 0xFFFF#16

/-! ### Frames (R170) -/

/-- The bytes a CRC is computed over: LEN through the last payload byte. -/
def Frame.body (f : Frame) : List Byte :=
  count1 f.payload.length :: f.cls :: f.kind :: (bytes2 f.number ++ f.payload)

/-- The bytes of a frame on the line. -/
def Frame.bytes (f : Frame) : List Byte := syncByte :: (f.body ++ bytes2 (crc f.body))

/-! ### Notice payloads (R176) -/

/-- The kind-specific fields of a notice, from offset 9. -/
def NoticeBody.fields : NoticeBody → List Byte
  | .restart c => [c.code]
  | .lineState src dst c => [src.code, dst.code, c.code]
  | .link restored => [boolCode restored]
  | .inducted tag length flags => bytes2 tag ++ count2 length ++ [flags.byte]
  | .noTrack reason length => [reason.code, 0] ++ count2 length
  | .outcome tag assigned reached result reason flags =>
      bytes2 tag ++ [destByte assigned, reached.byte, result.code, reason.code, flags.byte]
  | .exitMissing tag => [0, 0] ++ bytes2 tag
  | .exitUnexpected => [1, 0, 0, 0]
  | .dest d causes remaining => [count1 (stationNumber d), causes.byte] ++ count2 remaining
  | .batch d serial filled reloaded =>
      [count1 (stationNumber d), boolCode reloaded] ++ bytes2 serial ++ count2 filled
  | .chute d full => [count1 (stationNumber d), boolCode full]
  | .stray d => [count1 (stationNumber d)]
  | .belt flag => [flag.code]
  | .cleared count => [count1 count]

/-- The payload of a notice: the common header and the kind's fields. -/
def Notice.payload (n : Notice) : List Byte :=
  bytes4 n.timeStamp ++ bytes4 n.position ++ [count1 n.gap] ++ n.body.fields

/-- The frame of a notice (R170, R176). -/
def Notice.frame (n : Notice) : Frame :=
  { cls := classNotice, kind := n.body.code, number := n.number, payload := n.payload }

end Sys2Proof.Machine
end

