-- ==== Sys2Proof/Machine/Operands.lean ====
section
/-! DEFINITION. The operand fields of the order payloads (R174). The form checks of R150 come before any of these. -/

namespace Sys2Proof.Machine

/-- A one-byte number at an offset of a payload. -/
def number1 (p : List Byte) (i : Nat) : Nat := (byteAt p i).toNat

/-- A two-byte number at an offset of a payload. -/
def number2 (p : List Byte) (i : Nat) : Nat := (halfAt p i).toNat

/-- A four-byte number at an offset of a payload. -/
def number4 (p : List Byte) (i : Nat) : Nat := (wordAt p i).toNat

/-- A value within the limits of its range. -/
def inRange (lo n hi : Nat) : Bool := decide (lo ≤ n) && decide (n ≤ hi)

/-- The line record a CFGL payload carries; none when a code names nothing (R133, R174). -/
def lineRecordOf (p : List Byte) : Option LineRecord :=
  match boolOfCode (byteAt p 10), PriorityMode.ofCode (byteAt p 11) with
  | some eye, some mode =>
    some
      { minLength := number2 p 0, maxLength := number2 p 2, minGap := number2 p 4, runoffOffset := number4 p 6,
        exitEye := eye, priority := mode, exitTolerance := number2 p 12, reverseTolerance := number2 p 14,
        standstillTime := number2 p 16, holdThreshold := number1 p 18, driveBudget := number1 p 19 }
  | _, _ => none

/-- The ranges of the line record's fields (R133). A two-byte min gap is always in its range. -/
def LineRecord.inRange (r : LineRecord) : Bool :=
  Machine.inRange 1 r.minLength 65535 && Machine.inRange 1 r.maxLength 65535 && Machine.inRange 0 r.minGap 65535
    && Machine.inRange 1 r.runoffOffset Config.offsetLimit && Machine.inRange 1 r.exitTolerance 4095
    && Machine.inRange 0 r.reverseTolerance 4095 && Machine.inRange 50 r.standstillTime 5000
    && Machine.inRange 1 r.holdThreshold 96 && Machine.inRange 1 r.driveBudget 8

/-- The bytes of a line record in the CFGL layout (R174, R175). -/
def LineRecord.bytes (r : LineRecord) : List Byte :=
  count2 r.minLength ++ count2 r.maxLength ++ count2 r.minGap ++ count4 r.runoffOffset ++ [boolCode r.exitEye]
    ++ [r.priority.code] ++ count2 r.exitTolerance ++ count2 r.reverseTolerance ++ count2 r.standstillTime
    ++ [count1 r.holdThreshold] ++ [count1 r.driveBudget]

/-- The diverter record a CFGD payload carries; none when the installed code names nothing (R134, R174). -/
def diverterRecordOf (p : List Byte) : Option DiverterRecord :=
  match boolOfCode (byteAt p 1) with
  | some inst =>
    some
      { installed := inst, offset := number4 p 2, advance := number4 p 6, lateMargin := number2 p 10,
        releaseMargin := number2 p 12, maxOn := number2 p 14, recovery := number2 p 16, confirmTime := number2 p 18,
        chuteFullTime := number2 p 20, chuteClearTime := number2 p 22, alternate := number1 p 24 }
  | none => none

/-- The ranges of a diverter record's fields, by its installed value (R134). -/
def DiverterRecord.inRange (r : DiverterRecord) : Bool :=
  (if r.installed then Machine.inRange 1 r.offset Config.offsetLimit && decide (r.advance < r.offset)
    else Machine.inRange 0 r.offset Config.offsetLimit && Machine.inRange 0 r.advance Config.offsetLimit)
    && Machine.inRange 0 r.lateMargin 65535 && Machine.inRange 0 r.releaseMargin 65535
    && Machine.inRange 10 r.maxOn 2000 && Machine.inRange 0 r.recovery 1000 && Machine.inRange 10 r.confirmTime 5000
    && Machine.inRange 100 r.chuteFullTime 30000 && Machine.inRange 100 r.chuteClearTime 30000
    && Machine.inRange 0 r.alternate 16

/-- The bytes of a diverter record from its installed field onward, with its reserved byte (R174, R175). -/
def DiverterRecord.bytes (r : DiverterRecord) : List Byte :=
  [boolCode r.installed] ++ count4 r.offset ++ count4 r.advance ++ count2 r.lateMargin ++ count2 r.releaseMargin
    ++ count2 r.maxOn ++ count2 r.recovery ++ count2 r.confirmTime ++ count2 r.chuteFullTime
    ++ count2 r.chuteClearTime ++ [count1 r.alternate] ++ [0]

end Sys2Proof.Machine
end

