-- ==== Sys2Proof/Machine/Ops.lean ====
section
/-! DEFINITION. The shared operations over the state: positions and timers, one home for every register with its
accessors, the watch list, the tracking table's lookups, and the shape of an event. The part takes no exception. -/

namespace Sys2Proof.Machine

/-! ### Events -/

/-- An event of the part: while a reset that has begun has not ended nothing is acted on (R129, R130). -/
def event (f : State → State) (s : State) : Host.Outcome State Fault Refusal :=
  .next (if s.held.isSome then s else f s)

/-- An event of diverter number `n`; a number outside 1 to 16 names no diverter (entry 22). -/
def stationEvent (n : Nat) (f : Station → State → State) (s : State) : Host.Outcome State Fault Refusal :=
  match stationOf n with
  | some d => event (f d) s
  | none => .refused .illFormed

/-! ### Positions and timers (R1) -/

/-- Position (or time stamp) `a` has reached `b`: the signed 32-bit difference is zero or positive (R1, R88). -/
def reached (a b : BitVec 32) : Bool := decide (0 ≤ (a - b).toInt)

/-- A configured distance or duration as a 32-bit number. -/
def ticks (n : Nat) : BitVec 32 := BitVec.ofNat 32 n

/-- A timer started now for `n` milliseconds (R1). -/
def timerFor (n : Nat) (s : State) : Timer := some (s.timeStamp + ticks n)

/-- Whether a timer runs and the time stamp has reached its expiry (R1, entry 3). -/
def expired (t : Timer) (s : State) : Bool :=
  match t with
  | some e => reached s.timeStamp e
  | none => false

/-- The reverse excursion (R5). -/
def excursion (c : PositionCounter) : Nat := (c.highWater - c.position).toNat

/-- The line position is behind the high-water mark (R5). -/
def behind (c : PositionCounter) : Bool := decide (0 < excursion c)

/-- The line is RUNNING or DRAINING. -/
def LineState.working : LineState → Bool
  | .running => true
  | .draining => true
  | _ => false

/-! ### Configuration of the active copy (R132) -/

/-- The active record of a diverter. -/
def State.record (s : State) (d : Station) : DiverterRecord := s.config.diverters[d]

/-- The diverter is installed (00_scope.md, Conventions). -/
def State.installed (s : State) (d : Station) : Bool := (s.record d).installed

/-- A destination that orders may name: the run-off, or an installed station (R41, R109). -/
def State.destInstalled (s : State) : Dest → Bool
  | .runOff => true
  | .station d => s.installed d

/-- The fire point of an item for a station (00_scope.md, Derived positions). -/
def firePoint (r : DiverterRecord) (e : Entry) : Position := e.lead + ticks r.offset - ticks r.advance

/-- The late point of an item at a station. -/
def latePoint (r : DiverterRecord) (e : Entry) : Position := e.lead + ticks r.offset + ticks r.lateMargin

/-- The release point of an item at a station. -/
def releasePoint (r : DiverterRecord) (e : Entry) : Position :=
  e.lead + ticks e.length + ticks r.offset + ticks r.releaseMargin

/-- The run-off point of an item: with the exit tolerance when the exit eye is present. -/
def runoffPoint (l : LineRecord) (e : Entry) : Position :=
  e.lead + ticks l.runoffOffset + (if l.exitEye then ticks l.exitTolerance else 0)

/-- The point at which an item's way to a destination is decided: its fire point, or its run-off point (R42). -/
def State.destPoint (s : State) (d : Dest) (e : Entry) : Position :=
  match d with
  | .runOff => runoffPoint s.config.line e
  | .station d => firePoint (s.record d) e

/-! ### Registers of the blocks -/

/-- A diverter controller. -/
def State.diverter (s : State) (d : Station) : Diverter := s.diverters[d]

/-- Change one diverter controller. -/
def setDiverter (d : Station) (f : Diverter → Diverter) (s : State) : State :=
  { s with diverters := s.diverters.set d (f s.diverters[d]) }

/-- A confirm monitor. -/
def State.monitor (s : State) (d : Station) : Monitor := s.monitors[d]

/-- Change one confirm monitor. -/
def setMonitor (d : Station) (f : Monitor → Monitor) (s : State) : State :=
  { s with monitors := s.monitors.set d (f s.monitors[d]) }

/-- The record of a station's destination. -/
def State.destination (s : State) (d : Station) : DestRecord := s.destinations[d]

/-- Change one station's destination record. -/
def setDestination (d : Station) (f : DestRecord → DestRecord) (s : State) : State :=
  { s with destinations := s.destinations.set d (f s.destinations[d]) }

/-- Whether a diverter is in the waiting set (R64). -/
def State.waits (s : State) (d : Station) : Bool := s.arbiter.waiting[d]

/-- Put a diverter into the waiting set or take it out (R64). -/
def setWaiting (d : Station) (b : Bool) (s : State) : State :=
  { s with arbiter := { s.arbiter with waiting := s.arbiter.waiting.set d b } }

/-- A drive slot is free (R64). -/
def State.slotFree (s : State) : Bool := decide (s.arbiter.slotsInUse < s.arbiter.budget)

/-- Take a drive slot. -/
def takeSlot (s : State) : State := { s with arbiter := { s.arbiter with slotsInUse := s.arbiter.slotsInUse + 1 } }

/-- Give a drive slot back. -/
def freeSlot (s : State) : State := { s with arbiter := { s.arbiter with slotsInUse := s.arbiter.slotsInUse - 1 } }

/-- Diverters in ENERGISED (R154). -/
def State.energisedCount (s : State) : Nat := s.diverters.toList.countP (fun v => v.state == .energised)

/-! ### Tracking table -/

/-- The entry with a tag (R34). -/
def State.entry (s : State) (tag : Tag) : Option Entry := s.table.find? (fun e => e.tag == tag)

/-- Change the entry with a tag. -/
def setEntry (tag : Tag) (f : Entry → Entry) (s : State) : State :=
  { s with table := s.table.map (fun e => if e.tag == tag then f e else e) }

/-- The number of entries (R34). -/
def State.occupancy (s : State) : Nat := s.table.length

/-! ### The watch list (R10 to R16) -/

/-- The tag of the entry a watch serves (R10). -/
def WatchKind.tag? : WatchKind → Option Tag
  | .fire t => some t
  | .runoff t => some t
  | .late _ t => some t
  | .release _ t => some t
  | .lengthLimit => none

/-- A new watch goes after every watch whose position it has reached and before the first it has not (R11). -/
def insertSorted (w : Watch) : List Watch → List Watch
  | [] => [w]
  | v :: rest => if reached w.position v.position then v :: insertSorted w rest else w :: v :: rest

/-- Place a watch on the list (R11). -/
def insertWatch (position : Position) (kind : WatchKind) (s : State) : State :=
  { s with watches := insertSorted ⟨position, kind⟩ s.watches }

/-- Take an entry's watch out of the list (R14). -/
def removeWatch (tag : Tag) (s : State) : State :=
  { s with watches := s.watches.filter (fun w => w.kind.tag? != some tag) }

/-- Take the LENGTH_LIMIT watch out of the list (R14). -/
def removeLengthLimit (s : State) : State :=
  { s with watches := s.watches.filter (fun w => w.kind != .lengthLimit) }

/-- A watch to be inserted here is delivered at once: its position has been reached and it would stand first in the list
(R13; among watches that wait their turn in a delivery run it takes its own place, R12, entry 11). -/
def dueAtOnce (position : Position) (s : State) : Bool :=
  reached s.counter.position position &&
    (match s.watches with
      | [] => true
      | v :: _ => !reached position v.position)

/-! ### The induction hold output (R32) -/

/-- Re-evaluate the induction hold output against the occupancy and the line state (R32). -/
def evaluateHold (s : State) : State :=
  { s with induction := { s.induction with
      hold := (s.line.state == .ready || s.line.state == .running || s.line.state == .draining)
        && decide (s.config.line.holdThreshold ≤ s.occupancy) } }

/-- Take an entry out of the table; the induction unit hears of the new occupancy (R34). -/
def removeEntry (tag : Tag) (s : State) : State :=
  evaluateHold { s with table := s.table.filter (fun e => e.tag != tag) }

end Sys2Proof.Machine
end

