-- ==== Sys2Proof/Machine/Notices.lean ====
section
/-! DEFINITION. The report queue and the transmitter's choice (R152, R155 to R163), and the orders WIND and ACK.
A notice is submitted in the step that causes it; the transmitter, when it is free, takes the next frame at once. -/

namespace Sys2Proof.Machine

/-! ### Queue arithmetic (R157) -/

/-- The distance of a notice number from the head (R157). -/
def ReportQueue.distance (q : ReportQueue) (n : Half) : Nat := (n - q.head).toNat

/-- The occupancy: the distance of the next number from the head (R157). -/
def ReportQueue.occupancy (q : ReportQueue) : Nat := q.distance q.next

/-- The in-flight count: the distance of highest sent from the head, plus 1, modulo 65536 (R157). -/
def ReportQueue.inFlight (q : ReportQueue) : Nat := q.distance (q.highestSent + 1)

/-- The send pointer names a held notice within the window (R159). -/
def ReportQueue.eligible (q : ReportQueue) : Bool :=
  q.sendPointer != q.next && decide (q.distance q.sendPointer < q.window)

/-- A submitted notice is admitted or dropped by its kind and the occupancy (R158). -/
def ReportQueue.offer (body : NoticeBody) (timeStamp : TimeStamp) (position : Position) (q : ReportQueue) :
    ReportQueue :=
  if q.occupancy < (if body.kept then Config.queueCapacity else Config.ordinaryCapacity) then
    { q with
      notices := q.notices ++
        [{ number := q.next, timeStamp := timeStamp, position := position, gap := q.drops, body := body }]
      next := q.next + 1
      drops := 0 }
  else { q with drops := min 255 (q.drops + 1) }

/-- Record the notice at the send pointer as sent (R159, R162). -/
def ReportQueue.recordSent (timeStamp : TimeStamp) (q : ReportQueue) : ReportQueue :=
  if q.sendPointer = q.highestSent + 1 then
    { q with
      highestSent := q.sendPointer
      sendPointer := q.sendPointer + 1
      retryTimer := if q.inFlight = 0 then some (timeStamp + ticks q.retryTime) else q.retryTimer }
  else { q with sendPointer := q.sendPointer + 1 }

/-! ### The transmitter -/

/-- A free transmitter starts the next frame: the answer, or else an eligible notice (R152). -/
def startNext (s : State) : State :=
  match s.link.transmitter, s.link.answer with
  | .free, some f => { s with link := { s.link with transmitter := .sending true f.bytes } }
  | .free, none =>
    if s.queue.eligible then
      match s.queue.notices[s.queue.distance s.queue.sendPointer]? with
      | some n =>
        { s with
          link := { s.link with transmitter := .sending false n.frame.bytes }
          queue := s.queue.recordSent s.timeStamp }
      | none => s
    else s
  | .sending _ _, _ => s

/-- Submit a notice: its stamps are the time and the position of this moment; admission follows within the step, and a
free transmitter takes an eligible notice at once (R155, R158, R159, entry 7). -/
def submit (body : NoticeBody) (s : State) : State :=
  startNext { s with queue := s.queue.offer body s.timeStamp s.counter.position }

/-! ### Answers and refusals (R151, R153, R175) -/

/-- What an order's owner answers: the result and the data that follow it. -/
structure Reply where
  result : Result
  data : List Byte
  deriving DecidableEq, Repr

/-- The payload of an answer (R175). -/
def Reply.bytes (r : Reply) : List Byte := r.result.code :: r.data

/-- An order's rule: from its payload and the state to the changed state and the answer (R149). -/
abbrev OrderRule := List Byte → State → State × Reply

/-- A refusal: nothing changes (R153). -/
def refuse (r : Result) (s : State) : State × Reply := (s, ⟨r, []⟩)

/-- DONE without data (R175). -/
def done (s : State) : State × Reply := (s, ⟨.done, []⟩)

/-- The form checks before an order's own rule: the payload length, then the reserved bytes (R150). -/
def formChecked (k : OrderKind) (own : OrderRule) : OrderRule := fun p s =>
  if p.length ≠ k.payloadLength then refuse .badLength s
  else if k.reserved.any (fun i => byteAt p i != 0) then refuse .badArg s
  else own p s

/-- The first check of the orders that a LOST link refuses (R168). -/
def linkChecked (own : OrderRule) : OrderRule := fun p s =>
  if s.supervisor.state = .lost then refuse .linkLost s else own p s

/-! ### WIND and ACK -/

/-- The queue after WIND w (R160, R162). -/
def ReportQueue.setWindow (w : Nat) (timeStamp : TimeStamp) (q : ReportQueue) : ReportQueue :=
  { q with
    window := w
    retryTimer :=
      if w = 0 then none
      else if q.window = 0 ∧ 0 < q.inFlight then some (timeStamp + ticks q.retryTime)
      else q.retryTimer }

/-- WIND (R160). The new window may make a notice eligible. -/
def wind : OrderRule := formChecked .wind fun p s =>
  if 16 < number1 p 0 then refuse .badArg s
  else done (startNext { s with queue := s.queue.setWindow (number1 p 0) s.timeStamp })

/-- The queue after a valid ACK n (R161, R162). -/
def ReportQueue.acknowledge (n : Half) (timeStamp : TimeStamp) (q : ReportQueue) : ReportQueue :=
  let q' : ReportQueue :=
    { q with
      notices := q.notices.drop (q.distance n + 1)
      head := n + 1
      sendPointer := if q.distance q.sendPointer ≤ q.distance n then n + 1 else q.sendPointer }
  { q' with
    retryTimer := if 0 < q'.inFlight ∧ 0 < q'.window then some (timeStamp + ticks q'.retryTime) else none }

/-- ACK (R161). -/
def ack : OrderRule := formChecked .ack fun p s =>
  if s.queue.distance (halfAt p 0) < s.queue.inFlight then
    done (startNext { s with queue := s.queue.acknowledge (halfAt p 0) s.timeStamp })
  else refuse .badArg s

/-! ### Retransmission -/

/-- The retry timer's expiry: the queue goes back to its head and the timer restarts (R162). -/
def retryExpiry (s : State) : State :=
  if expired s.queue.retryTimer s then
    startNext
      { s with queue := { s.queue with
          sendPointer := s.queue.head
          retryTimer := timerFor s.queue.retryTime s } }
  else s

/-- RETRY_TIMER_EXPIRY. -/
def execRetryTimerExpiry (s : State) : Host.Outcome State Fault Refusal := event retryExpiry s

end Sys2Proof.Machine
end

