-- ==== Sys2Proof/Machine/Destinations.lean ====
section
/-! DEFINITION. The destination table (R100 to R116): reserve, return, consume, terminal count, causes, and the orders
OPND, CLSD, ADJD and QDST. -/

namespace Sys2Proof.Machine

/-- A destination whose base is above 0 (R100). -/
def DestRecord.counted (r : DestRecord) : Bool := decide (0 < r.base)

/-- The admission test (R103). -/
def DestRecord.admits (r : DestRecord) : Bool := r.causes.isEmpty && (!r.counted || decide (0 < r.remaining))

/-- One unit reserved (R104). -/
def DestRecord.reserve (r : DestRecord) : DestRecord :=
  { r with outstanding := r.outstanding + 1, remaining := if r.counted then r.remaining - 1 else r.remaining }

/-- One unit returned (R105). -/
def DestRecord.giveBack (r : DestRecord) : DestRecord :=
  { r with outstanding := r.outstanding - 1, remaining := if r.counted then r.remaining + 1 else r.remaining }

/-- One unit consumed (R106). -/
def DestRecord.consume (r : DestRecord) : DestRecord :=
  { r with
    outstanding := r.outstanding - 1
    filled := if r.counted then r.filled + 1 else min Config.countLimit (r.filled + 1) }

/-- The terminal count test (R107). -/
def DestRecord.atTerminalCount (r : DestRecord) : Bool :=
  r.counted && decide (r.remaining = 0) && decide (r.outstanding = 0) && !r.causes.batchEnd

/-- One run-off removal counted in record 0 (R101). -/
def DestRecord.countRunoff (r : DestRecord) : DestRecord :=
  if r.filled = Config.countLimit then { r with filled := 0, serial := r.serial + 1 }
  else { r with filled := r.filled + 1 }

/-- Submit DEST(d) with the causes set and the remaining count as they stand (R102). -/
def submitDest (d : Station) (s : State) : State :=
  submit (.dest d (s.destination d).causes (s.destination d).remaining) s

/-- Change a causes set; DEST follows when the set changes (R102). -/
def changeCauses (d : Station) (f : Causes → Causes) (s : State) : State :=
  if f (s.destination d).causes = (s.destination d).causes then s
  else submitDest d (setDestination d (fun r => { r with causes := f r.causes }) s)

/-- The unit that an entry holds is returned to the destination its reserved_with names (R105). -/
def returnUnit (tag : Tag) (s : State) : State :=
  match (s.entry tag).bind (·.reservedWith) with
  | some d => setEntry tag (fun e => { e with reservedWith := none }) (setDestination d DestRecord.giveBack s)
  | none => s

/-- The batch ends (R108): BATCH, then the reload or the BATCH_END cause with its DEST. -/
def endBatch (d : Station) (s : State) : State :=
  let r := s.destination d
  let s1 := submit (.batch d r.serial r.filled r.autoReload) s
  if r.autoReload then
    setDestination d (fun r => { r with remaining := r.base, filled := 0, serial := r.serial + 1 }) s1
  else changeCauses d (fun c => { c with batchEnd := true }) s1

/-- The terminal count test with its effect (R107, R108). -/
def terminalCount (d : Station) (s : State) : State :=
  if (s.destination d).atTerminalCount then endBatch d s else s

/-- A unit is consumed at a destination and the terminal count test runs (R106). -/
def consumeUnit (d : Station) (s : State) : State := terminalCount d (setDestination d DestRecord.consume s)

/-! ### Orders -/

/-- The common checks of OPND, CLSD and ADJD after the link check (R109); the order then acts on a station. -/
def destinationChecked (own : Station → OrderRule) : OrderRule := fun p s =>
  if s.line.state = .idle then refuse .state s
  else
    match Dest.ofNumber (number1 p 0) with
    | some (.station d) => if s.installed d then own d p s else refuse .badArg s
    | some .runOff => refuse .badArg s
    | none => refuse .badArg s

/-- The record OPND opens (R110). -/
def DestRecord.openedBy (base : Nat) (autoReload : Bool) (r : DestRecord) : DestRecord :=
  { r with
    base := base
    autoReload := autoReload
    remaining := base
    filled := 0
    serial := r.serial + 1
    causes := { r.causes with host := false, batchEnd := false } }

/-- OPND (R109, R110). -/
def opnd : OrderRule := formChecked .opnd <| linkChecked <| destinationChecked fun d p s =>
  match boolOfCode (byteAt p 1) with
  | none => refuse .badArg s
  | some reload =>
    if 0 < (s.destination d).outstanding then refuse .busy s
    else done (submitDest d (setDestination d (DestRecord.openedBy (number2 p 2) reload) s))

/-- CLSD (R109, R111). -/
def clsd : OrderRule := formChecked .clsd <| linkChecked <| destinationChecked fun d _ s =>
  done (changeCauses d (fun c => { c with host := true }) s)

/-- The record ADJD adjusts (R112). -/
def DestRecord.adjustedTo (remaining : Nat) (r : DestRecord) : DestRecord :=
  { r with remaining := remaining, filled := r.base - r.outstanding - remaining }

/-- ADJD (R109, R112). -/
def adjd : OrderRule := formChecked .adjd <| linkChecked <| destinationChecked fun d p s =>
  if !(s.destination d).counted then refuse .state s
  else if (s.destination d).base < (s.destination d).outstanding + number2 p 2 then refuse .badArg s
  else done (terminalCount d (setDestination d (DestRecord.adjustedTo (number2 p 2)) s))

/-- The data of QDST's answer (R175). -/
def destData (n : Nat) (r : DestRecord) : List Byte :=
  [count1 n, r.causes.byte, boolCode r.autoReload] ++ count2 r.base ++ count2 r.remaining
    ++ [count1 r.outstanding] ++ count2 r.filled ++ bytes2 r.serial

/-- QDST (R109, R113): taken while the link is LOST, and for destination 0. -/
def qdst : OrderRule := formChecked .qdst fun p s =>
  if s.line.state = .idle then refuse .state s
  else
    match Dest.ofNumber (number1 p 0) with
    | some .runOff => (s, ⟨.done, destData 0 s.runOff⟩)
    | some (.station d) =>
      if s.installed d then (s, ⟨.done, destData (stationNumber d) (s.destination d)⟩) else refuse .badArg s
    | none => refuse .badArg s

/-- The destination table takes its commit values (R116): DEST follows, in ascending order, for each installed
destination whose causes set was other than {HOST} before. -/
def resetDestinations (s : State) : State :=
  (List.finRange 16).foldl
    (fun t d => if s.installed d && (s.destination d).causes != { host := true } then submitDest d t else t)
    { s with
      destinations := Vector.replicate 16 DestRecord.atReset
      runOff := { s.runOff with filled := 0, serial := 0 } }

end Sys2Proof.Machine
end

