-- ==== Sys2Proof/Machine/Runoff.lean ====
section
/-! DEFINITION. The way to the run-off: RUNOFF watches and their delivery (R53, R54), and giving an entry back to the
belt (R37). -/

namespace Sys2Proof.Machine

/-- The removal of an entry at its run-off point (R53, R54): EXIT MISSING where it applies, OUTCOME, removal, count. -/
def runoffRemoval (e : Entry) (s : State) : State :=
  let s1 := if s.config.line.exitEye && !e.flags.exitSeen then submit (.exitMissing e.tag) s else s
  let s2 := submit (.outcome e.tag e.assigned .runOff .runoff (runoffReason e) e.flags) s1
  let s3 := removeEntry e.tag s2
  { s3 with runOff := s3.runOff.countRunoff }

/-- Delivery of a RUNOFF watch to the tracking table (R53). -/
def deliverRunoff (tag : Tag) (s : State) : State :=
  match s.entry tag with
  | some e => runoffRemoval e s
  | none => s

/-- Insert an entry's RUNOFF watch at its run-off point; one that is due at once is delivered (R11, R13). -/
def placeRunoff (tag : Tag) (s : State) : State :=
  match s.entry tag with
  | some e =>
    if dueAtOnce (runoffPoint s.config.line e) s then deliverRunoff tag s
    else insertWatch (runoffPoint s.config.line e) (.runoff tag) s
  | none => s

/-- Send an entry to the run-off with a reason: TRAVELLING with target 0, its watch replaced by a RUNOFF watch (R14, R37). -/
def sendToRunoff (tag : Tag) (reason : Reason) (s : State) : State :=
  placeRunoff tag
    (removeWatch tag
      (setEntry tag (fun e => { e with state := .travelling, target := .runOff, reason := reason }) s))

/-- Give an entry that holds a reservation back to the belt: its unit is returned, then it heads for the run-off
(R37, R68, R70, R79, R105, R167). -/
def giveBackToBelt (tag : Tag) (reason : Reason) (s : State) : State := sendToRunoff tag reason (returnUnit tag s)

end Sys2Proof.Machine
end

