-- ==== Sys2Proof/Machine/Confirm.lean ====
section
/-! DEFINITION. The confirm monitors (R86 to R99): the confirm list, completion, matching, deadlines and chute timing. -/

namespace Sys2Proof.Machine

/-! ### The confirm list -/

/-- The deadline timer runs toward the deadline of the first entry of the confirm list (R86, R88 to R90). -/
def aimDeadlineTimer (d : Station) (s : State) : State :=
  setMonitor d
    (fun m => { m with deadlineTimer := (m.confirm.head?.bind s.entry).bind (·.confirmDeadline) }) s

/-- An entry joins the tail of a diverter's confirm list: CONFIRMING, with its deadline (R72, R74, R79, R88). -/
def joinConfirmList (d : Station) (tag : Tag) (s : State) : State :=
  aimDeadlineTimer d
    (setMonitor d (fun m => { m with confirm := m.confirm ++ [tag] })
      (setEntry tag
        (fun e => { e with
          state := .confirming
          confirmDeadline := some (s.timeStamp + ticks (s.record d).confirmTime) }) s))

/-- A push ends early: the RELEASE watch goes, TRUNCATED is set, and the entry joins the confirm list (R74, R79). -/
def truncatePush (d : Station) (tag : Tag) (s : State) : State :=
  joinConfirmList d tag
    (setEntry tag (fun e => { e with flags := { e.flags with truncated := true } }) (removeWatch tag s))

/-- The completion of an entry of a confirm list (R55, R89, R90): the entry leaves the list and the table, its OUTCOME is
submitted, and the unit is consumed. -/
def completeEntry (d : Station) (tag : Tag) (result : OutcomeResult) (s : State) : State :=
  let s1 := setMonitor d (fun m => { m with confirm := m.confirm.filter (fun t => t != tag) }) s
  let s2 :=
    match s.entry tag with
    | some e =>
      consumeUnit d (submit (.outcome tag e.assigned (.station d) result .none e.flags) (removeEntry tag s1))
    | none => s1
  aimDeadlineTimer d s2

/-! ### Deadlines (R89) -/

/-- Whether the confirm deadline of an entry has been reached (R88). -/
def State.deadlineReached (s : State) (tag : Tag) : Bool := expired ((s.entry tag).bind (·.confirmDeadline)) s

/-- The entries of a list whose deadlines have been reached are completed UNCONFIRMED in turn (R89). -/
def completeDue (d : Station) : List Tag → State → State
  | [], s => s
  | tag :: rest, s =>
    if s.deadlineReached tag then completeDue d rest (completeEntry d tag .unconfirmed s) else s

/-- The deadline timer's expiry (R89). -/
def deadlineExpiry (d : Station) (s : State) : State :=
  match (s.monitor d).confirm with
  | tag :: rest => completeDue d rest (completeEntry d tag .unconfirmed s)
  | [] => s

/-! ### Matching (R90, R91) -/

/-- What a leading edge of an installed diverter's confirm eye does to the confirm list (R90, R91). -/
def matchEdge (d : Station) (s : State) : State :=
  if s.line.state.working then
    match (s.monitor d).confirm with
    | tag :: _ => completeEntry d tag .sorted s
    | [] => submit (.stray d) s
  else if s.line.state = .ready then
    match (s.monitor d).confirm with
    | [] => submit (.stray d) s
    | _ :: _ => s
  else s

/-! ### Chute timing (R95) -/

/-- A leading edge in the chute table (R95). -/
def chuteBlocked (d : Station) (s : State) : State :=
  if s.line.state = .idle then s
  else
    match (s.monitor d).chute with
    | .clear =>
      setMonitor d (fun m => { m with chute := .filling, chuteTimer := timerFor (s.record d).chuteFullTime s }) s
    | .emptying => setMonitor d (fun m => { m with chute := .full, chuteTimer := none }) s
    | .filling => s
    | .full => s

/-- A trailing edge in the chute table (R95). -/
def chuteCleared (d : Station) (s : State) : State :=
  if s.line.state = .idle then s
  else
    match (s.monitor d).chute with
    | .filling => setMonitor d (fun m => { m with chute := .clear, chuteTimer := none }) s
    | .full =>
      setMonitor d (fun m => { m with chute := .emptying, chuteTimer := timerFor (s.record d).chuteClearTime s }) s
    | .clear => s
    | .emptying => s

/-- The chute timer's expiry in the chute table (R95, R96): CHUTE, then the DEST of the changed causes set. -/
def chuteExpiry (d : Station) (s : State) : State :=
  match (s.monitor d).chute with
  | .filling =>
    changeCauses d (fun c => { c with chute := true })
      (submit (.chute d true) (setMonitor d (fun m => { m with chute := .full, chuteTimer := none }) s))
  | .emptying =>
    changeCauses d (fun c => { c with chute := false })
      (submit (.chute d false) (setMonitor d (fun m => { m with chute := .clear, chuteTimer := none }) s))
  | .clear => s
  | .full => s

/-- The chute timing of a diverter after a commit, from its eye level (R97). -/
def Monitor.afterCommit (r : DiverterRecord) (timeStamp : TimeStamp) (m : Monitor) : Monitor :=
  if r.installed && m.eye == .blocked then
    { m with chute := .filling, chuteTimer := some (timeStamp + ticks r.chuteFullTime) }
  else { m with chute := .clear, chuteTimer := none }

/-- A monitor at a halt: the confirm list is emptied and the deadline timer stops (R94). -/
def Monitor.atHalt (m : Monitor) : Monitor := { m with confirm := [], deadlineTimer := none }

end Sys2Proof.Machine
end

