-- ==== Sys2Proof/Machine/Diverters.lean ====
section
/-! DEFINITION. The diverter controllers and the drive slot arbiter (R62 to R85): release, recovery, grants, hand-over,
late and release watches, max-on, test pulses, and the orders DDIS, DENA and TFIR. -/

namespace Sys2Proof.Machine

/-! ### Release and recovery (R73, R76) -/

/-- The end of recovery (R76): IDLE, or WAITING in the waiting set when items are held. -/
def endRecovery (d : Station) (s : State) : State :=
  if (s.diverter d).pending = [] then
    setDiverter d (fun v => { v with state := .idle, recoveryTimer := none }) s
  else
    setWaiting d true (setDiverter d (fun v => { v with state := .waiting, recoveryTimer := none }) s)

/-- The release sequence (R73) less the arbiter's examination of the waiting set, which follows at its end. -/
def releaseDiverter (d : Station) (s : State) : State :=
  let s1 := freeSlot (setDiverter d
    (fun v => { v with
      state := .recovery
      output := false
      testPulse := false
      maxOnTimer := none
      pulseTimer := none }) s)
  if (s.record d).recovery = 0 then endRecovery d s1
  else setDiverter d (fun v => { v with recoveryTimer := timerFor (s.record d).recovery s }) s1

/-- Delivery of a RELEASE watch (R72): the entry moves to the confirm list; an emptied push list releases the diverter. -/
def deliverRelease (d : Station) (tag : Tag) (s : State) : State :=
  if tag ∈ (s.diverter d).push then
    let s1 := joinConfirmList d tag
      (setDiverter d (fun v => { v with push := v.push.filter (fun t => t != tag) }) s)
    if (s1.diverter d).push = [] then releaseDiverter d s1 else s1
  else s

/-- Insert an entry's RELEASE watch at its release point; one that is due at once is delivered (R11, R13, R69). -/
def placeRelease (d : Station) (tag : Tag) (s : State) : State :=
  match s.entry tag with
  | some e =>
    if dueAtOnce (releasePoint (s.record d) e) s then deliverRelease d tag s
    else insertWatch (releasePoint (s.record d) e) (.release d tag) s
  | none => s

/-! ### The arbiter (R65, R66, R69) -/

/-- The order in which the waiting set is searched (R66). -/
def searchOrder (mode : PriorityMode) (lastGranted : Station) : List Station :=
  match mode with
  | .fixed => List.finRange 16
  | .rotating => (List.finRange 16).map (fun k => lastGranted + 1 + k)

/-- The waiting diverter the arbiter chooses (R66). -/
def State.chosen (s : State) : Option Station :=
  (searchOrder s.config.line.priority s.arbiter.lastGranted).find? s.waits

/-- A diverter energises with a drive slot: its output comes on, the max-on timer starts, last granted becomes it
(R67, R69). -/
def energise (d : Station) (s : State) : State :=
  let s1 := takeSlot (setDiverter d
    (fun v => { v with state := .energised, output := true, maxOnTimer := timerFor (s.record d).maxOn s }) s)
  { s1 with arbiter := { s1.arbiter with lastGranted := d } }

/-- The tags of a pending list become PUSHING (R69). -/
def markPushing (tags : List Tag) (s : State) : State :=
  tags.foldl (fun t tag => setEntry tag (fun e => { e with state := .pushing }) t) s

/-- A grant to a waiting diverter (R69): every held item moves to the push list, then each LATE watch is replaced by a
RELEASE watch in push-list order; one already reached is released at once. Several that are reached already are released in
push-list order, which is the model's choice where that differs from the list order of R13 (entry 23). -/
def grant (d : Station) (s : State) : State :=
  let held := (s.diverter d).pending
  let s1 := energise d (setWaiting d false s)
  let s2 := markPushing held (setDiverter d (fun v => { v with push := v.push ++ held, pending := [] }) s1)
  held.foldl (fun t tag => placeRelease d tag (removeWatch tag t)) s2

/-- The arbiter grants until no slot is free or no diverter waits (R65); each grant takes one diverter out of the waiting
set and none joins it meanwhile, so sixteen rounds are enough. -/
def arbitrateRounds : Nat → State → State
  | 0, s => s
  | n + 1, s =>
    if s.slotFree then
      match s.chosen with
      | some d => arbitrateRounds n (grant d s)
      | none => s
    else s

/-- The arbiter examines the waiting set (R65). -/
def arbitrate (s : State) : State := arbitrateRounds 16 s

/-- One grant of the arbiter (R65, R69). -/
def grantOne (s : State) : State :=
  if s.slotFree then
    match s.chosen with
    | some d => grant d s
    | none => s
  else s

/-! ### Late watches (R70) -/

/-- An entry leaves a pending list; a WAITING diverter whose list is then empty becomes IDLE and leaves the waiting set
(R45, R70, R167). -/
def leavePending (d : Station) (tag : Tag) (s : State) : State :=
  let s1 := setDiverter d (fun v => { v with pending := v.pending.filter (fun t => t != tag) }) s
  if (s1.diverter d).state = .waiting ∧ (s1.diverter d).pending = [] then
    setWaiting d false (setDiverter d (fun v => { v with state := .idle }) s1)
  else s1

/-- Delivery of a LATE watch (R70): NO_SLOT when the diverter waits for a slot, RECOVERY when it is busy. -/
def deliverLate (d : Station) (tag : Tag) (s : State) : State :=
  if tag ∈ (s.diverter d).pending then
    giveBackToBelt tag (if (s.diverter d).state = .waiting then .noSlot else .recovery) (leavePending d tag s)
  else s

/-- Insert an entry's LATE watch at its late point; one that is due at once is delivered (R11, R13, R67). -/
def placeLate (d : Station) (tag : Tag) (s : State) : State :=
  match s.entry tag with
  | some e =>
    if dueAtOnce (latePoint (s.record d) e) s then deliverLate d tag s
    else insertWatch (latePoint (s.record d) e) (.late d tag) s
  | none => s

/-! ### Hand-over (R67, R68) -/

/-- An entry joins the tail of a push list (R67). -/
def joinPush (d : Station) (tag : Tag) (s : State) : State :=
  placeRelease d tag
    (setEntry tag (fun e => { e with state := .pushing })
      (setDiverter d (fun v => { v with push := v.push ++ [tag] }) s))

/-- An entry joins the tail of a pending list (R67). -/
def joinPending (d : Station) (tag : Tag) (s : State) : State :=
  placeLate d tag
    (setEntry tag (fun e => { e with state := .pending })
      (setDiverter d (fun v => { v with pending := v.pending ++ [tag] }) s))

/-- An entry is held for the next energisation, or given back to the belt when the pending list is full (R67, R68). -/
def holdOrOverflow (d : Station) (tag : Tag) (s : State) : State :=
  if (s.diverter d).pending.length < Config.listCapacity then joinPending d tag s
  else giveBackToBelt tag .limit s

/-- The hand-over of an admitted entry to its diverter (R67). The spec says an OFF diverter cannot be handed an entry
(entry 15). -/
def handOver (d : Station) (tag : Tag) (s : State) : State :=
  match (s.diverter d).state with
  | .idle =>
    if s.slotFree then joinPush d tag (energise d s)
    else joinPending d tag (setWaiting d true (setDiverter d (fun v => { v with state := .waiting }) s))
  | .energised =>
    if !(s.diverter d).testPulse && decide ((s.diverter d).push.length < Config.listCapacity) then joinPush d tag s
    else holdOrOverflow d tag s
  | .waiting => holdOrOverflow d tag s
  | .recovery => holdOrOverflow d tag s
  | .off => s

/-! ### Timer expiries -/

/-- The max-on timer's expiry (R74). -/
def maxOnExpiry (d : Station) (s : State) : State :=
  let pushed := (s.diverter d).push
  let s1 := setDiverter d (fun v => { v with push := [] }) s
  releaseDiverter d (pushed.foldl (fun t tag => truncatePush d tag t) s1)

/-! ### A diverter at a halt and at a commit -/

/-- A diverter at a halt (R84). -/
def Diverter.atHalt (v : Diverter) : Diverter :=
  { v with
    state := if v.state = .off then .off else .idle
    testPulse := false
    push := []
    pending := []
    maxOnTimer := none
    recoveryTimer := none
    pulseTimer := none
    output := false }

/-- A diverter after a commit (R85). -/
def Diverter.afterCommit (r : DiverterRecord) : Diverter :=
  { Diverter.atReset with state := if r.installed then .idle else .off }

/-! ### Orders -/

/-- The common checks of DDIS and DENA after the link check (R78, R80). -/
def diverterChecked (own : Station → OrderRule) : OrderRule := fun p s =>
  if s.line.state = .idle then refuse .state s
  else
    match stationOf (number1 p 0) with
    | some d => if s.installed d then own d p s else refuse .badArg s
    | none => refuse .badArg s

/-- DENA (R80). -/
def dena : OrderRule := formChecked .dena <| linkChecked <| diverterChecked fun d _ s =>
  if (s.diverter d).disabled then
    done (changeCauses d (fun c => { c with disabled := false })
      (setDiverter d (fun v => { v with disabled := false, state := .idle }) s))
  else done s

/-- TFIR (R82). -/
def tfir : OrderRule := formChecked .tfir <| linkChecked fun p s =>
  if s.line.state ≠ .ready then refuse .state s
  else
    match stationOf (number1 p 0) with
    | none => refuse .badArg s
    | some d =>
      if !s.installed d || !inRange 1 (number2 p 2) (s.record d).maxOn then refuse .badArg s
      else if (s.diverter d).state ≠ .idle then refuse .busy s
      else if !s.slotFree then refuse .busy s
      else
        done (takeSlot (setDiverter d
          (fun v => { v with
            state := .energised
            testPulse := true
            push := []
            output := true
            pulseTimer := timerFor (number2 p 2) s }) s))

end Sys2Proof.Machine
end

