-- ==== Sys2Proof/Machine/Induction.lean ====
section
/-! DEFINITION. The induction unit (R18 to R33): the measuring slot, the gap check, admission and tag allocation. -/

namespace Sys2Proof.Machine

/-- The tag after a tag: from 65535 to 1 (R27). -/
def nextTagAfter (t : Tag) : Tag := if t = 65535 then 1 else t + 1

/-- The first tag, from a tag upward, that no entry holds; the first argument bounds the search (R27). -/
def freeTagFrom : Nat → Tag → List Entry → Tag
  | 0, t, _ => t
  | n + 1, t, table => if table.any (fun e => e.tag == t) then freeTagFrom n (nextTagAfter t) table else t

/-- The tag given to an admitted item: the table holds at most 95 entries here, so 96 steps are enough (R27). -/
def State.allocatedTag (s : State) : Tag := freeTagFrom Config.tableCapacity s.induction.nextTag s.table

/-- The gap check (R25): min gap above 0, a last trailing position present, and the signed distance below min gap. -/
def State.gapShort (s : State) (lead : Position) : Bool :=
  match s.induction.lastTrailing with
  | some lt => decide (0 < s.config.line.minGap) && decide ((lead - lt).toInt < (s.config.line.minGap : Int))
  | none => false

/-- The entry an admitted item gets (R28). -/
def newEntry (tag : Tag) (lead : Position) (length : Nat) (flags : EntryFlags) : Entry where
  tag := tag
  lead := lead
  length := length
  flags := flags
  assigned := none
  target := .runOff
  reason := admittedReason flags
  state := .travelling
  reservedWith := none
  confirmDeadline := none
  stateAtHalt := none

/-- Tag allocation, the append with its RUNOFF watch, INDUCTED, and the hold output (R27, R28). -/
def admitItem (lead : Position) (length : Nat) (flags : EntryFlags) (s : State) : State :=
  let tag := s.allocatedTag
  let s1 : State :=
    { s with
      induction := { s.induction with nextTag := nextTagAfter tag }
      table := s.table ++ [newEntry tag lead length flags] }
  evaluateHold (submit (.inducted tag length flags) (placeRunoff tag s1))

/-- An interval offered for admission (R25, R26, R29): the gap check, the outcome, then the last trailing position. -/
def offerInterval (lead : Position) (length : Nat) (refused overlength : Bool) (s : State) : State :=
  let flags : EntryFlags := { gapShort := s.gapShort lead, overlength := overlength }
  let s1 :=
    if refused then submit (.noTrack .draining length) s
    else if Config.tableCapacity ≤ s.occupancy then submit (.noTrack .tableFull length) s
    else admitItem lead length flags s
  { s1 with induction := { s1.induction with lastTrailing := some (lead + ticks length) } }

/-- Change the measuring slot. -/
def setSlot (slot : Slot) (s : State) : State := { s with induction := { s.induction with slot := slot } }

/-- Change the entry eye's level. -/
def setEntryEye (level : EyeLevel) (s : State) : State := { s with induction := { s.induction with eye := level } }

/-- A leading edge of the entry eye (R19, R20). -/
def entryLeadingEdge (s : State) : State :=
  if s.induction.eye = .blocked then s
  else
    let s1 := setEntryEye .blocked s
    if s1.line.state.working && s1.induction.slot == .empty && !behind s1.counter then
      insertWatch (s1.counter.position + ticks s1.config.line.maxLength) .lengthLimit
        (setSlot (.opened s1.counter.position (s1.line.state == .draining)) s1)
    else s1

/-- What a trailing edge does to the measuring slot (R21, R22, R23). -/
def closeMeasurement (s : State) : State :=
  match s.induction.slot with
  | .opened lead refused =>
    if behind s.counter then s
    else
      let length := (s.counter.position - lead).toNat
      let s1 := setSlot .empty (removeLengthLimit s)
      if length < s.config.line.minLength then s1 else offerInterval lead length refused false s1
  | .closed => setSlot .empty s
  | .empty => s

/-- A trailing edge of the entry eye (R19, R21 to R23). -/
def entryTrailingEdge (s : State) : State :=
  if s.induction.eye = .clear then s
  else
    let s1 := setEntryEye .clear s
    if s1.line.state.working then closeMeasurement s1 else s1

/-- Delivery of the LENGTH_LIMIT watch (R24). -/
def deliverLengthLimit (s : State) : State :=
  match s.induction.slot with
  | .opened lead refused =>
    offerInterval lead s.config.line.maxLength refused true
      (setSlot (if s.induction.eye = .blocked then .closed else .empty) s)
  | .closed => s
  | .empty => s

/-- ENTRY_EYE_LEADING_EDGE. -/
def execEntryEyeLeadingEdge (s : State) : Host.Outcome State Fault Refusal := event entryLeadingEdge s

/-- ENTRY_EYE_TRAILING_EDGE. -/
def execEntryEyeTrailingEdge (s : State) : Host.Outcome State Fault Refusal := event entryTrailingEdge s

end Sys2Proof.Machine
end

