-- ==== Sys2Proof/Machine/Tracking.lean ====
section
/-! DEFINITION. The tracking table (R34 to R61): the fire decision, exit verification, and the item orders ASGN, DROP,
QITM and LIST. -/

namespace Sys2Proof.Machine

/-! ### The fire decision (R49 to R51) -/

/-- A destination that admits an item reserves one unit for it, and the item is handed over (R49, R67, R104). -/
def reserveAndHandOver (d : Station) (tag : Tag) (s : State) : State :=
  handOver d tag
    (setEntry tag (fun e => { e with reservedWith := some d }) (setDestination d DestRecord.reserve s))

/-- An item that no destination takes goes to the run-off with reason DEST_CLOSED (R51). -/
def closeToItem (tag : Tag) (s : State) : State :=
  placeRunoff tag (setEntry tag (fun e => { e with target := .runOff, reason := .destClosed }) s)

/-- The decision at an alternate: the alternate is followed for one hop only (R50, R51). -/
def decideAtAlternate (d : Station) (tag : Tag) (s : State) : State :=
  if (s.destination d).admits then reserveAndHandOver d tag s else closeToItem tag s

/-- The item is sent on to the alternate `a` (R50); a fire point already reached is decided at once (R13). -/
def sendToAlternate (a : Station) (e : Entry) (s : State) : State :=
  let s1 := setEntry e.tag
    (fun e => { e with target := .station a, flags := { e.flags with viaAlternate := true } }) s
  if dueAtOnce (firePoint (s.record a) e) s1 then decideAtAlternate a e.tag s1
  else insertWatch (firePoint (s.record a) e) (.fire e.tag) s1

/-- The fire decision of an entry for its target (R49 to R51). -/
def fireDecision (d : Station) (e : Entry) (s : State) : State :=
  if (s.destination d).admits then reserveAndHandOver d e.tag s
  else if e.flags.viaAlternate then closeToItem e.tag s
  else
    match stationOf (s.record d).alternate with
    | some a => sendToAlternate a e s
    | none => closeToItem e.tag s

/-- Delivery of a FIRE watch to the tracking table (R49). -/
def deliverFire (tag : Tag) (s : State) : State :=
  match s.entry tag with
  | some e =>
    match e.target with
    | .station d => fireDecision d e s
    | .runOff => s
  | none => s

/-! ### Exit verification (R56, R57) -/

/-- The entry meets the conditions of R57 at a line position. -/
def Entry.expectedAtExit (l : LineRecord) (position : Position) (e : Entry) : Bool :=
  e.state == .travelling && e.target == .runOff && !e.flags.exitSeen
    && decide (-(l.exitTolerance : Int) ≤ (position - (e.lead + ticks l.runoffOffset)).toInt)
    && decide ((position - (e.lead + ticks l.runoffOffset)).toInt ≤ (l.exitTolerance : Int))

/-- A leading edge of the exit eye (R56, R57). -/
def exitLeadingEdge (s : State) : State :=
  if s.config.line.exitEye && s.line.state.working then
    match s.table.find? (Entry.expectedAtExit s.config.line s.counter.position) with
    | some e => setEntry e.tag (fun e => { e with flags := { e.flags with exitSeen := true } }) s
    | none => submit .exitUnexpected s
  else s

/-- EXIT_EYE_LEADING_EDGE. -/
def execExitEyeLeadingEdge (s : State) : Host.Outcome State Fault Refusal := event exitLeadingEdge s

/-! ### Orders on items -/

/-- The checks of ASGN and DROP before the tag is looked up: link, then line state (R40). -/
def lineChecked (own : OrderRule) : OrderRule := linkChecked fun p s =>
  if s.line.state.working then own p s else refuse .state s

/-- The entry after an ASGN answered DONE (R43). -/
def Entry.assignedTo (d : Dest) (e : Entry) : Entry :=
  { e with
    assigned := some d
    target := d
    reason := .none
    flags := { e.flags with
      viaAlternate := false
      lateSeen := false
      exitSeen := e.flags.exitSeen && d == .runOff } }

/-- The effect of an ASGN answered DONE (R43): the entry's watch is replaced (R14). -/
def assignEntry (d : Dest) (e : Entry) (s : State) : State :=
  insertWatch (s.destPoint d e) (match d with | .runOff => .runoff e.tag | .station _ => .fire e.tag)
    (removeWatch e.tag (setEntry e.tag (Entry.assignedTo d) s))

/-- The effect of row 7 of the ASGN checks (R42). -/
def markLate (e : Entry) (s : State) : State :=
  if e.assigned.isNone then
    setEntry e.tag (fun e => { e with flags := { e.flags with lateSeen := true } }) s
  else s

/-- ASGN (R41 to R43). -/
def asgn : OrderRule := formChecked .asgn <| lineChecked fun p s =>
  match Dest.ofNumber (number1 p 2) with
  | none => refuse .badArg s
  | some d =>
    if !s.destInstalled d then refuse .badArg s
    else
      match s.entry (halfAt p 0) with
      | none => refuse .noSuchTag s
      | some e =>
        if e.reason.forced then refuse .state s
        else if e.state ≠ .travelling then refuse .late s
        else if reached s.counter.position (s.destPoint d e) then (markLate e s, ⟨.late, []⟩)
        else done (assignEntry d e s)

/-- The effect of DROP on a PENDING entry (R45): it leaves its diverter's pending list and its unit is returned. -/
def dropPending (e : Entry) (s : State) : State :=
  giveBackToBelt e.tag .dropped
    (match e.target with
      | .station d => leavePending d e.tag s
      | .runOff => s)

/-- DROP (R45). -/
def drop : OrderRule := formChecked .drop <| lineChecked fun p s =>
  match s.entry (halfAt p 0) with
  | none => refuse .noSuchTag s
  | some e =>
    match e.state with
    | .travelling => done (sendToRunoff e.tag .dropped s)
    | .pending => done (dropPending e s)
    | .pushing => refuse .late s
    | .confirming => refuse .late s
    | .frozen => refuse .late s

/-- The data of QITM's answer (R47, R175). -/
def itemData (index : Nat) (e : Entry) : List Byte :=
  bytes2 e.tag ++ [count1 index] ++ bytes4 e.lead ++ count2 e.length
    ++ [e.flags.byte, destByte e.assigned, e.target.byte, e.reason.code, e.state.code]
    ++ [match e.reservedWith with | some d => count1 (stationNumber d) | none => 0]
    ++ [match e.stateAtHalt with | some st => st.code | none => 0xFF]
    ++ bytes4 (match e.state, e.confirmDeadline with | .confirming, some t => t | _, _ => 0)

/-- QITM (R47). -/
def qitm : OrderRule := formChecked .qitm fun p s =>
  match s.entry (halfAt p 0) with
  | none => refuse .noSuchTag s
  | some e => (s, ⟨.done, itemData (s.table.findIdx (fun x => x.tag == e.tag)) e⟩)

/-- One summary of LIST's answer: tag, lead offset modulo 2^24, state (R175). -/
def summary (base : Position) (e : Entry) : List Byte := bytes2 e.tag ++ bytes3 (e.lead - base) ++ [e.state.code]

/-- The data of LIST's answer (R48, R175). -/
def listData (index : Nat) (table : List Entry) : List Byte :=
  let shown := (table.drop index).take 7
  let base := match shown with | e :: _ => e.lead | [] => 0
  [count1 table.length] ++ bytes4 base ++ shown.flatMap (summary base)

/-- LIST (R48). -/
def list : OrderRule := formChecked .list fun p s =>
  if 95 < number1 p 0 then refuse .badArg s else (s, ⟨.done, listData (number1 p 0) s.table⟩)

/-! ### A halt -/

/-- An entry at a halt (R59). -/
def Entry.atHalt (e : Entry) : Entry :=
  { e with state := .frozen, stateAtHalt := some e.state, confirmDeadline := none }

end Sys2Proof.Machine
end

