-- ==== Sys2Proof/Machine/LineState.lean ====
section
/-! DEFINITION. The line state controller (R117 to R130): the halt, drain completion, the line stop input, and the orders
STRT, STOP, HALT, CLR and RSTR. -/

namespace Sys2Proof.Machine

/-- Change the line state, its halt cause and the run permit together (R117, R119). -/
def setLine (state : LineState) (cause : HaltCause) (permit : Bool) (s : State) : State :=
  { s with line := { s.line with state := state, haltCause := cause, runPermit := permit } }

/-- Submit LINESTATE (R128). -/
def submitLine (src dst : LineState) (cause : LineCause) (s : State) : State := submit (.lineState src dst cause) s

/-! ### Halts (R124, R125) -/

/-- Steps 1 to 7 of a halt (R125): everything but the notice. -/
def freeze (cause : HaltCause) (s : State) : State :=
  let s1 := setSlot .empty { setLine .halted cause false s with watches := [] }
  evaluateHold
    { s1 with
      diverters := s1.diverters.map Diverter.atHalt
      arbiter := { s1.arbiter with slotsInUse := 0, waiting := Vector.replicate 16 false }
      monitors := s1.monitors.map Monitor.atHalt
      table := s1.table.map Entry.atHalt }

/-- A halt with a cause (R125); it is raised only while the line is RUNNING or DRAINING (R124). -/
def haltLine (cause : HaltCause) (s : State) : State :=
  submitLine s.line.state .halted (.halt cause) (freeze cause s)

/-- A halt request: it meets RUNNING or DRAINING, and halts nothing in any other state (R124, R126). -/
def requestHalt (cause : HaltCause) (s : State) : State :=
  if s.line.state.working then haltLine cause s else s

/-! ### Drain completion (R123) -/

/-- The line is drained (R123). -/
def State.drained (s : State) : Bool :=
  s.line.state == .draining && s.table.isEmpty
    && s.diverters.all (fun v => v.state != .energised && v.state != .recovery)

/-- What drain completion does (R30, R32, R123). -/
def completeDrain (s : State) : State :=
  submitLine .draining .ready .drained
    (evaluateHold (removeLengthLimit (setSlot .empty (setLine .ready s.line.haltCause false s))))

/-- The drain completion test, at the end of the event that prompted it (R123). -/
def drainTest (s : State) : State := if s.drained then completeDrain s else s

/-- DRAIN_COMPLETE (R123, entry 13). -/
def execDrainComplete (s : State) : Host.Outcome State Fault Refusal := event drainTest s

/-! ### The line stop input (R118) -/

/-- A change of the line stop level (R118). -/
def lineStopChange (level : StopLevel) (s : State) : State :=
  if level = s.line.lineStop then s
  else
    let s1 : State := { s with line := { s.line with lineStop := level } }
    if level = .active then requestHalt .lineStop s1 else s1

/-- LINE_STOP_CHANGE. -/
def execLineStopChange (level : StopLevel) (s : State) : Host.Outcome State Fault Refusal :=
  event (lineStopChange level) s

/-! ### Orders -/

/-- The conditions of STRT in the order of its table, rows 2 to 5 (R121). -/
def State.mayStart (s : State) : Bool :=
  s.line.state == .ready && s.line.lineStop == .inactive && !s.counter.faultLatch
    && s.config.diverters.any (·.installed)

/-- Set the high-water mark to the line position (R5). -/
def markHighWater (s : State) : State := { s with counter := { s.counter with highWater := s.counter.position } }

/-- Make the last trailing position absent (R29, R30). -/
def forgetTrailing (s : State) : State := { s with induction := { s.induction with lastTrailing := none } }

/-- What STRT answered DONE does (R121). -/
def startLine (s : State) : State :=
  submitLine .ready .running .start
    (evaluateHold (setLine .running s.line.haltCause true (forgetTrailing (markHighWater s))))

/-- STRT (R121). -/
def strt : OrderRule := formChecked .strt <| linkChecked fun _ s =>
  if s.mayStart then done (startLine s) else refuse .state s

/-- What STOP does in RUNNING, before the drain test (R122). -/
def beginDrain (s : State) : State :=
  submitLine .running .draining .drain (evaluateHold (setLine .draining s.line.haltCause s.line.runPermit s))

/-- STOP (R122). -/
def stop : OrderRule := formChecked .stop fun _ s =>
  match s.line.state with
  | .running => done (drainTest (beginDrain s))
  | .draining => done s
  | .idle => refuse .state s
  | .ready => refuse .state s
  | .halted => refuse .state s

/-- HALT (R124). -/
def halt : OrderRule := formChecked .halt fun _ s => done (requestHalt .order s)

/-- Clear the encoder fault latch (R7). -/
def clearLatch (s : State) : State := { s with counter := { s.counter with faultLatch := false } }

/-- Every entry is discarded in table order, with its unit returned (R61). -/
def discardEntries (s : State) : State :=
  { (s.table.map (·.tag)).foldl (fun t tag => returnUnit tag t) s with table := [] }

/-- What both clears do before CLEARED (R127). The count is the number of entries discarded. -/
def clearWork (s : State) : State :=
  { setSlot .empty (forgetTrailing (markHighWater (clearLatch (discardEntries s)))) with watches := [] }

/-- The clear of a halted line (R127). -/
def clearHalted (s : State) : State :=
  submitLine .halted .ready .clear
    (evaluateHold (setLine .ready .none s.line.runPermit (submit (.cleared s.occupancy) (clearWork s))))

/-- The clear of a ready line (R127). -/
def clearReady (s : State) : State := evaluateHold (submit (.cleared s.occupancy) (clearWork s))

/-- CLR (R127). -/
def clr : OrderRule := formChecked .clr fun _ s =>
  if s.line.state = .idle ∨ s.line.state.working then refuse .state s
  else if s.line.lineStop = .active then refuse .state s
  else if s.line.state = .halted then done (clearHalted s)
  else done (clearReady s)

/-- RSTR: the reset begins when the last byte of its answer has been sent (R130). -/
def rstr : OrderRule := formChecked .rstr fun _ s => done { s with link := { s.link with resetDue := true } }

end Sys2Proof.Machine
end

