-- ==== Sys2Proof/Machine/Watches.lean ====
section
/-! DEFINITION. The delivery of watches to their owners and the delivery run (R10, R12), and the delivery commands. -/

namespace Sys2Proof.Machine

/-! ### Delivery -/

/-- A watch that has left the list is handled by its owner (R10). -/
def handle (k : WatchKind) (s : State) : State :=
  match k with
  | .fire tag => deliverFire tag s
  | .runoff tag => deliverRunoff tag s
  | .late d tag => deliverLate d tag s
  | .release d tag => deliverRelease d tag s
  | .lengthLimit => deliverLengthLimit s

/-- The first watch of the list, when the line position has reached it (R12). -/
def State.dueWatch (s : State) : Option Watch :=
  match s.watches with
  | w :: _ => if reached s.counter.position w.position then some w else none
  | [] => none

/-- One delivery: the first watch leaves the list, its owner handles it, and the arbiter examines the waiting set (R12,
R65). -/
def deliver (w : Watch) (s : State) : State := arbitrate (handle w.kind { s with watches := s.watches.tail })

/-- A delivery run (R12): the first watch is delivered while the line position has reached it. -/
def deliveryRun : Nat → State → State
  | 0, s => s
  | n + 1, s =>
    match s.dueWatch with
    | some w => deliveryRun n (deliver w s)
    | none => s

/-- Enough deliveries for one run (entry 18): each delivery takes one watch from the list, and an entry's watch is
replaced at most three times on its way from FIRE over LATE to RUNOFF. -/
def State.runBound (s : State) : Nat := 4 * s.watches.length

/-! ### The delivery commands (entry 12) -/

/-- Deliver the watch a command names: it acts when that watch stands first and has been reached. -/
def deliverNamed (k : WatchKind) (s : State) : State :=
  match s.dueWatch with
  | some w => if w.kind = k then drainTest (deliver w s) else s
  | none => s

/-- FIRE_WATCH (R49). -/
def execFireWatch (tag : Tag) (s : State) : Host.Outcome State Fault Refusal := event (deliverNamed (.fire tag)) s

/-- RUNOFF_WATCH (R53). -/
def execRunoffWatch (tag : Tag) (s : State) : Host.Outcome State Fault Refusal := event (deliverNamed (.runoff tag)) s

/-- LATE_WATCH (R70). -/
def execLateWatch (diverter : Nat) (tag : Tag) (s : State) : Host.Outcome State Fault Refusal :=
  stationEvent diverter (fun d => deliverNamed (.late d tag)) s

/-- RELEASE_WATCH (R72). -/
def execReleaseWatch (diverter : Nat) (tag : Tag) (s : State) : Host.Outcome State Fault Refusal :=
  stationEvent diverter (fun d => deliverNamed (.release d tag)) s

/-- LENGTH_LIMIT_WATCH (R24). -/
def execLengthLimitWatch (s : State) : Host.Outcome State Fault Refusal := event (deliverNamed .lengthLimit) s

end Sys2Proof.Machine
end

