-- ==== Sys2Proof/Machine/Field.lean ====
section
/-! DEFINITION. The events of the arbiter, the diverters' timers and the confirm monitors, and the order DDIS: the block
rules of Diverters and Confirm with the arbiter's examination and the drain test that end each event (R65, R123). -/

namespace Sys2Proof.Machine

/-- The end of an event that may have changed the slots, the waiting set, the diverters or the occupancy (R65, R123). -/
def settle (s : State) : State := drainTest (arbitrate s)

/-! ### The arbiter and the diverters' timers -/

/-- SLOT_GRANT (R65, R69, entry 13). -/
def execSlotGrant (s : State) : Host.Outcome State Fault Refusal := event (fun t => drainTest (grantOne t)) s

/-- The max-on timer of an ENERGISED diverter expires (R74). -/
def maxOnEvent (d : Station) (s : State) : State :=
  if (s.diverter d).state = .energised ∧ expired (s.diverter d).maxOnTimer s then settle (maxOnExpiry d s) else s

/-- MAX_ON_EXPIRY. -/
def execMaxOnExpiry (diverter : Nat) (s : State) : Host.Outcome State Fault Refusal :=
  stationEvent diverter maxOnEvent s

/-- The recovery timer of a diverter in RECOVERY expires (R76). -/
def recoveryEvent (d : Station) (s : State) : State :=
  if (s.diverter d).state = .recovery ∧ expired (s.diverter d).recoveryTimer s then settle (endRecovery d s) else s

/-- RECOVERY_TIMER_EXPIRY. -/
def execRecoveryTimerExpiry (diverter : Nat) (s : State) : Host.Outcome State Fault Refusal :=
  stationEvent diverter recoveryEvent s

/-- The pulse timer of an ENERGISED diverter expires (R83). -/
def pulseEvent (d : Station) (s : State) : State :=
  if (s.diverter d).state = .energised ∧ expired (s.diverter d).pulseTimer s then settle (releaseDiverter d s) else s

/-- PULSE_TIMER_EXPIRY. -/
def execPulseTimerExpiry (diverter : Nat) (s : State) : Host.Outcome State Fault Refusal :=
  stationEvent diverter pulseEvent s

/-! ### The confirm monitors -/

/-- The deadline timer expires (R89). -/
def deadlineEvent (d : Station) (s : State) : State :=
  if expired (s.monitor d).deadlineTimer s then drainTest (deadlineExpiry d s) else s

/-- DEADLINE_TIMER_EXPIRY. -/
def execDeadlineTimerExpiry (diverter : Nat) (s : State) : Host.Outcome State Fault Refusal :=
  stationEvent diverter deadlineEvent s

/-- A confirm eye becomes BLOCKED (R87, R90, R91, R95): the confirm list first, then the chute. -/
def confirmLeading (d : Station) (s : State) : State :=
  if (s.monitor d).eye = .blocked then s
  else
    let s1 := setMonitor d (fun m => { m with eye := .blocked }) s
    if s1.installed d then drainTest (chuteBlocked d (matchEdge d s1)) else s1

/-- CONFIRM_EYE_LEADING_EDGE. -/
def execConfirmEyeLeadingEdge (diverter : Nat) (s : State) : Host.Outcome State Fault Refusal :=
  stationEvent diverter confirmLeading s

/-- A confirm eye becomes CLEAR (R87, R95). -/
def confirmTrailing (d : Station) (s : State) : State :=
  if (s.monitor d).eye = .clear then s
  else
    let s1 := setMonitor d (fun m => { m with eye := .clear }) s
    if s1.installed d then chuteCleared d s1 else s1

/-- CONFIRM_EYE_TRAILING_EDGE. -/
def execConfirmEyeTrailingEdge (diverter : Nat) (s : State) : Host.Outcome State Fault Refusal :=
  stationEvent diverter confirmTrailing s

/-- The chute timer of an installed diverter expires; it is suspended in IDLE (R95, R97). -/
def chuteEvent (d : Station) (s : State) : State :=
  if s.installed d ∧ s.line.state ≠ .idle ∧ expired (s.monitor d).chuteTimer s then chuteExpiry d s else s

/-- CHUTE_TIMER_EXPIRY. -/
def execChuteTimerExpiry (diverter : Nat) (s : State) : Host.Outcome State Fault Refusal :=
  stationEvent diverter chuteEvent s

/-! ### DDIS -/

/-- Step 1 of a disable (R79): a push ends with every item of it in the confirm list. -/
def endPush (d : Station) (s : State) : State :=
  (s.diverter d).push.foldl (fun t tag => truncatePush d tag t) (setDiverter d (fun v => { v with push := [] }) s)

/-- Step 2 of a disable (R79): the held items are given back to the belt. -/
def emptyPending (d : Station) (s : State) : State :=
  (s.diverter d).pending.foldl (fun t tag => giveBackToBelt tag .disabled t)
    (setDiverter d (fun v => { v with pending := [] }) s)

/-- A disabled diverter (R79, steps 1, 3 and 4). -/
def Diverter.disable (v : Diverter) : Diverter :=
  { v with
    state := .off
    disabled := true
    testPulse := false
    maxOnTimer := none
    recoveryTimer := none
    pulseTimer := none
    output := false }

/-- Steps 3 and 4 of a disable (R79): the slot goes back, the waiting set is left, and the diverter is OFF. -/
def switchOff (d : Station) (s : State) : State :=
  setDiverter d Diverter.disable
    (setWaiting d false (if (s.diverter d).state = .energised then freeSlot s else s))

/-- A disable (R79), with the arbiter's examination and the drain test at its end. -/
def disableDiverter (d : Station) (s : State) : State :=
  settle (changeCauses d (fun c => { c with disabled := true }) (switchOff d (emptyPending d (endPush d s))))

/-- DDIS (R78, R79). -/
def ddis : OrderRule := formChecked .ddis <| linkChecked <| diverterChecked fun d _ s =>
  if (s.diverter d).disabled then done s else done (disableDiverter d s)

end Sys2Proof.Machine
end

