-- ==== Sys2Proof/Machine/Counter.lean ====
section
/-! DEFINITION. The position counter (R2 to R9): quadrature decoding, ticks, the high-water mark, the reverse excursion,
the encoder fault latch and standstill detection. -/

namespace Sys2Proof.Machine

/-! ### Quadrature decoding (R3) -/

/-- What the decoder makes of a new sample (R3). -/
inductive Decoded where
  | noChange
  | forward
  | reverse
  | illegal
  deriving DecidableEq, Repr

/-- The sample one step forward in the cycle of R3: 00, 10, 11, 01, 00. -/
def nextSample (x : Sample) : Sample := ⟨!x.b, x.a⟩

/-- The sample one step back in the cycle of R3. -/
def prevSample (x : Sample) : Sample := ⟨x.b, !x.a⟩

/-- The sample with both channels changed. -/
def oppositeSample (x : Sample) : Sample := ⟨!x.a, !x.b⟩

/-- The decoder's classification of a new sample against the reference sample (R3). -/
def classify (reference new : Sample) : Decoded :=
  if new = reference then .noChange
  else if new = nextSample reference then .forward
  else if new = prevSample reference then .reverse
  else .illegal

/-! ### Standstill detection (R8) -/

/-- A tick in standstill detection (R8); suspended in IDLE. -/
def standstillTick (s : State) : State :=
  if s.line.state = .idle then s
  else
    let s1 : State :=
      { s with counter := { s.counter with
          belt := .moving, standstill := timerFor s.config.line.standstillTime s } }
    if s.counter.belt = .stopped then submit (.belt .moving) s1 else s1

/-- The standstill timer's expiry (R8). -/
def standstillExpiry (s : State) : State :=
  if s.line.state ≠ .idle ∧ expired s.counter.standstill s then
    submit (.belt .stopped) { s with counter := { s.counter with belt := .stopped, standstill := none } }
  else s

/-- STANDSTILL_TIMER_EXPIRY. -/
def execStandstillTimerExpiry (s : State) : Host.Outcome State Fault Refusal := event standstillExpiry s

/-! ### Ticks (R4 to R6, R12) -/

/-- The counter after a forward tick has moved it: position, reference sample, high-water mark (R3 to R5). -/
def PositionCounter.forward (c : PositionCounter) : PositionCounter :=
  { c with
    position := c.position + 1
    reference := nextSample c.reference
    highWater := if 0 < (c.position + 1 - c.highWater).toInt then c.position + 1 else c.highWater }

/-- The counter after a reverse tick has moved it: position and reference sample (R3 to R5). -/
def PositionCounter.backward (c : PositionCounter) : PositionCounter :=
  { c with position := c.position - 1, reference := prevSample c.reference }

/-- The delivery run that a forward tick starts (R12). -/
def runDeliveries (s : State) : State := deliveryRun s.runBound s

/-- A forward tick (R4). -/
def forwardTick (s : State) : State :=
  drainTest (runDeliveries (standstillTick { s with counter := s.counter.forward }))

/-- FORWARD_TICK. -/
def execForwardTick (s : State) : Host.Outcome State Fault Refusal := event forwardTick s

/-- The test of the reverse excursion against the reverse tolerance (R6). -/
def reverseTest (s : State) : State :=
  if s.config.line.reverseTolerance < excursion s.counter then requestHalt .reverse s else s

/-- A reverse tick (R4). -/
def reverseTick (s : State) : State := reverseTest (standstillTick { s with counter := s.counter.backward })

/-- REVERSE_TICK. -/
def execReverseTick (s : State) : Host.Outcome State Fault Refusal := event reverseTick s

/-! ### Illegal transitions (R3, R7) -/

/-- The counter after an illegal transition: the new reference sample, and the latch set (R3, R7). -/
def PositionCounter.illegal (c : PositionCounter) : PositionCounter :=
  { c with reference := oppositeSample c.reference, faultLatch := true }

/-- An illegal transition (R7): it asks for a halt when it sets a latch that was clear. -/
def illegalTransition (s : State) : State :=
  let s1 : State := { s with counter := s.counter.illegal }
  if s.counter.faultLatch then s1 else requestHalt .encoder s1

/-- ILLEGAL_TRANSITION. -/
def execIllegalTransition (s : State) : Host.Outcome State Fault Refusal := event illegalTransition s

end Sys2Proof.Machine
end

