-- ==== Sys2Proof/Machine/Configure.lean ====
section
/-! DEFINITION. The configuration store (R132 to R141): CFGL, CFGD, RDCF, and the validation and commit of CMIT. -/

namespace Sys2Proof.Machine

/-! ### Writing the pending copy -/

/-- CFGL (R133). -/
def cfgl : OrderRule := formChecked .cfgl <| linkChecked fun p s =>
  match lineRecordOf p with
  | some r =>
    if r.inRange then done { s with pendingConfig := { s.pendingConfig with line := r } } else refuse .badArg s
  | none => refuse .badArg s

/-- CFGD (R134). -/
def cfgd : OrderRule := formChecked .cfgd <| linkChecked fun p s =>
  match stationOf (number1 p 0), diverterRecordOf p with
  | some d, some r =>
    if r.inRange then
      done { s with pendingConfig := { s.pendingConfig with diverters := s.pendingConfig.diverters.set d r } }
    else refuse .badArg s
  | _, _ => refuse .badArg s

/-! ### Reading either copy (R135) -/

/-- The bytes of a record of a copy: 0 is the line record, 1 to 16 are the diverter records (R135, R175). -/
def Configuration.recordBytes (c : Configuration) (n : Nat) : Option (List Byte) :=
  if n = 0 then some c.line.bytes else (stationOf n).map (fun d => c.diverters[d].bytes)

/-- RDCF (R135). -/
def rdcf : OrderRule := formChecked .rdcf fun p s =>
  match boolOfCode (byteAt p 0) with
  | none => refuse .badArg s
  | some active =>
    match (if active then s.config else s.pendingConfig).recordBytes (number1 p 1) with
    | none => refuse .badArg s
    | some bs => (s, ⟨.done, [byteAt p 0, byteAt p 1] ++ bs⟩)

/-! ### Validation (R137) -/

/-- The installed diverters in ascending order. -/
def Configuration.installedList (c : Configuration) : List Station :=
  (List.finRange 16).filter (fun d => c.diverters[d].installed)

/-- The first station of a list whose offset is not above the offset of the one before it (C3). -/
def firstOutOfOrder (c : Configuration) : List Station → Option Station
  | a :: b :: rest =>
    if c.diverters[b].offset ≤ c.diverters[a].offset then some b else firstOutOfOrder c (b :: rest)
  | _ => none

/-- C4 holds at a station: offset − advance is greater than max length. -/
def Configuration.fireClear (c : Configuration) (d : Station) : Bool :=
  decide (c.line.maxLength < c.diverters[d].offset - c.diverters[d].advance)

/-- C5 holds at a station: its alternate is 0 or an installed diverter with a larger number. -/
def Configuration.alternateUsable (c : Configuration) (d : Station) : Bool :=
  match stationOf c.diverters[d].alternate with
  | some a => c.diverters[a].installed && decide (d < a)
  | none => decide (c.diverters[d].alternate = 0)

/-- C6 holds at a station; `last` says that it is the installed diverter with the highest number. -/
def Configuration.runoffClear (c : Configuration) (last : Bool) (d : Station) : Bool :=
  decide (c.diverters[d].offset + c.diverters[d].lateMargin < c.line.runoffOffset)
    && (!last
      || decide (c.diverters[d].offset + c.diverters[d].releaseMargin + c.line.maxLength < c.line.runoffOffset))

/-- The first failure of the checks C1 to C6: the check code and the diverter number reported (R137). -/
def Configuration.failure (c : Configuration) : Option (Nat × Nat) :=
  let ds := c.installedList
  if ds = [] then some (1, 0)
  else if c.line.maxLength < c.line.minLength then some (2, 0)
  else
    match firstOutOfOrder c ds with
    | some d => some (3, stationNumber d)
    | none =>
      match ds.find? (fun d => !c.fireClear d) with
      | some d => some (4, stationNumber d)
      | none =>
        match ds.find? (fun d => !c.alternateUsable d) with
        | some d => some (5, stationNumber d)
        | none =>
          match ds.find? (fun d => !c.runoffClear (some d == ds.getLast?) d) with
          | some d => some (6, stationNumber d)
          | none => none

/-! ### The commit (R139) -/

/-- Step 2 of the commit (R64, R85): diverters and arbiter from the new active copy. -/
def commitDiverters (s : State) : State :=
  { s with
    diverters := s.config.diverters.map Diverter.afterCommit
    arbiter :=
      { budget := s.config.line.driveBudget, slotsInUse := 0, waiting := Vector.replicate 16 false,
        lastGranted := 15 } }

/-- Step 3 of the commit (R97): the chute timing from the eye levels. -/
def commitChutes (s : State) : State :=
  { s with monitors := s.config.diverters.zipWith (fun r m => m.afterCommit r s.timeStamp) s.monitors }

/-- Step 5 of the commit (R120): IDLE becomes READY with LINESTATE. -/
def commitLine (s : State) : State :=
  if s.line.state = .idle then
    submitLine .idle .ready .commit (setLine .ready s.line.haltCause s.line.runPermit s)
  else s

/-- The commit step (R139). -/
def commit (s : State) : State :=
  commitLine (resetDestinations (commitChutes (commitDiverters { s with config := s.pendingConfig })))

/-- CMIT (R136 to R140). -/
def cmit : OrderRule := formChecked .cmit <| linkChecked fun _ s =>
  if s.line.state = .idle ∨ s.line.state = .ready then
    match s.pendingConfig.failure with
    | some (code, n) => (s, ⟨.configInvalid, [count1 code, count1 n]⟩)
    | none => done (commit s)
  else refuse .state s

end Sys2Proof.Machine
end

