-- ==== Sys2Proof/Machine/Supervision.lean ====
section
/-! DEFINITION. The link supervisor (R164 to R169): LINK, RSUM, the supervision timer and the loss actions. -/

namespace Sys2Proof.Machine

/-- The supervision timer restarts with the full supervision time, or stays stopped when that is 0 (R164). -/
def restartSupervision (s : State) : State :=
  { s with supervisor := { s.supervisor with
      timer := if s.supervisor.time = 0 then none else timerFor s.supervisor.time s } }

/-- LINK: supervision time, loss action and notice retry time together (R165). -/
def link : OrderRule := formChecked .link fun p s =>
  match LossAction.ofCode (byteAt p 2) with
  | none => refuse .badArg s
  | some action =>
    if (number2 p 0 = 0 ∨ inRange 50 (number2 p 0) 10000) ∧ inRange 20 (number2 p 4) 2000 then
      done (restartSupervision
        { s with
          supervisor := { s.supervisor with time := number2 p 0, action := action }
          queue := { s.queue with retryTime := number2 p 4 } })
    else refuse .badArg s

/-- RUNOFF_ALL at one entry (R167). -/
def runoffEntry (e : Entry) (s : State) : State :=
  match e.state, e.target with
  | .travelling, .station _ => sendToRunoff e.tag .linkLost s
  | .pending, .station d => giveBackToBelt e.tag .linkLost (leavePending d e.tag s)
  | _, _ => s

/-- RUNOFF_ALL acts on the tracking table in table order (R167). -/
def runoffAll (s : State) : State := s.table.foldl (fun t e => runoffEntry e t) s

/-- The loss action, in RUNNING or DRAINING (R166). -/
def lossAction (s : State) : State :=
  if s.line.state.working then
    match s.supervisor.action with
    | .continueOn => s
    | .runoffAll => drainTest (runoffAll s)
    | .halt => haltLine .link s
  else s

/-- The supervision timer's expiry (R166): it restarts, and with the link UP the link is lost. -/
def supervisionExpiry (s : State) : State :=
  if expired s.supervisor.timer s then
    let s1 := restartSupervision s
    if s.supervisor.state = .up then
      lossAction (submit (.link false) { s1 with supervisor := { s1.supervisor with state := .lost } })
    else s1
  else s

/-- SUPERVISION_TIMER_EXPIRY. -/
def execSupervisionTimerExpiry (s : State) : Host.Outcome State Fault Refusal := event supervisionExpiry s

/-- RSUM (R169). -/
def rsum : OrderRule := formChecked .rsum fun _ s =>
  if s.supervisor.state = .lost then
    done (submit (.link true)
      (restartSupervision { s with supervisor := { s.supervisor with state := .up } }))
  else done s

end Sys2Proof.Machine
end

