-- ==== Sys2Proof/Machine/Resets.lean ====
section
/-! DEFINITION. Resets (R129 to R131): the reset values of every block, with the input levels sampled when the reset
ends, and the commands POWER_ON, PIN_RESET and RSTR_RESET. -/

namespace Sys2Proof.Machine

/-- The link rate the straps choose (R178). -/
def rateOf (strap1Closed strap0Closed : Bool) : LinkRate :=
  match strap1Closed, strap0Closed with
  | false, false => .baud115200
  | false, true => .baud230400
  | true, false => .baud460800
  | true, true => .baud921600

/-- The part right after a reset with a cause, at sampled levels (R131). The commands that wait outside the part are no
state of the spec's and stay (entry 21). -/
def resetState (cause : ResetCause) (levels : Levels) (s : State) : State :=
  { State.reset with
    counter := { State.reset.counter with reference := levels.encoder }
    induction := { State.reset.induction with eye := levels.entryEye }
    monitors := levels.confirmEyes.map
      (fun e => { confirm := [], deadlineTimer := none, eye := e, chute := .clear, chuteTimer := none })
    line := { State.reset.line with lineStop := levels.lineStop }
    link := { State.reset.link with rate := rateOf levels.strap1Closed levels.strap0Closed }
    queue := ReportQueue.atReset cause
    pending := s.pending }

/-- A whole reset: the reset values, and the free transmitter takes the RESTART notice (R131, R152, entry 8). -/
def resetPart (cause : ResetCause) (levels : Levels) (s : State) : State := startNext (resetState cause levels s)

/-- The input levels the part holds; a reset that RSTR begins shows them until it ends (entry 9). -/
def State.levels (s : State) : Levels where
  encoder := s.counter.reference
  entryEye := s.induction.eye
  confirmEyes := s.monitors.map (·.eye)
  lineStop := s.line.lineStop
  strap0Closed := s.link.rate == .baud230400 || s.link.rate == .baud921600
  strap1Closed := s.link.rate == .baud460800 || s.link.rate == .baud921600

/-- The reset that RSTR waits for begins (R130): outputs off, every block at its reset values, and the part is held until
RSTR_RESET ends the reset (entry 9). -/
def beginOrderReset (s : State) : State := { resetState .order s.levels s with held := some .order }

/-- POWER_ON (R129, R131). -/
def execPowerOn (levels : Levels) (s : State) : Host.Outcome State Fault Refusal := .next (resetPart .power levels s)

/-- PIN_RESET (R129, R131). -/
def execPinReset (levels : Levels) (s : State) : Host.Outcome State Fault Refusal := .next (resetPart .pin levels s)

/-- RSTR_RESET (R130, R131): the end of the reset that RSTR's sent answer began; nothing without it (entry 4). -/
def execRstrReset (levels : Levels) (s : State) : Host.Outcome State Fault Refusal :=
  .next (if s.held = some .order then resetPart .order levels s else s)

end Sys2Proof.Machine
end

