-- ==== Sys2Proof/Machine/Link.lean ====
section
/-! DEFINITION. The link unit (R142 to R154): taking, replaying and answering orders, STAT, the receiver with its
re-examination, and the transmitter's end of a frame. -/

namespace Sys2Proof.Machine

/-! ### STAT (R154) -/

/-- The data of STAT's answer (R175). -/
def statData (s : State) : List Byte :=
  [s.line.state.code, s.line.haltCause.code, s.supervisor.state.code, count1 s.occupancy, count1 s.queue.occupancy,
    s.counter.belt.code, boolCode s.counter.faultLatch, count1 s.energisedCount, 0]
    ++ bytes4 s.counter.position ++ count2 s.link.framingErrors ++ count2 s.link.overruns ++ bytes4 s.timeStamp

/-- STAT (R154): the error counts are cleared after they have been reported. -/
def stat : OrderRule := formChecked .stat fun p s =>
  match boolOfCode (byteAt p 0) with
  | none => refuse .badArg s
  | some clear =>
    (if clear then { s with link := { s.link with framingErrors := 0, overruns := 0 } } else s,
      ⟨.done, statData s⟩)

/-! ### Taking an order (R149 to R151) -/

/-- The rule of an order. -/
def OrderKind.rule : OrderKind → OrderRule
  | .cfgl => Machine.cfgl
  | .cfgd => Machine.cfgd
  | .cmit => Machine.cmit
  | .rdcf => Machine.rdcf
  | .strt => Machine.strt
  | .stop => Machine.stop
  | .halt => Machine.halt
  | .clr => Machine.clr
  | .rstr => Machine.rstr
  | .asgn => Machine.asgn
  | .drop => Machine.drop
  | .qitm => Machine.qitm
  | .list => Machine.list
  | .opnd => Machine.opnd
  | .clsd => Machine.clsd
  | .adjd => Machine.adjd
  | .qdst => Machine.qdst
  | .dena => Machine.dena
  | .ddis => Machine.ddis
  | .tfir => Machine.tfir
  | .link => Machine.link
  | .wind => Machine.wind
  | .ack => Machine.ack
  | .rsum => Machine.rsum
  | .stat => Machine.stat

/-- The rule of an order whose KIND names none (R150). -/
def unknownRule : OrderRule := fun _ s => refuse .unknownKind s

/-- The rule a KIND selects (R150). -/
def ruleOf (kind : Byte) : OrderRule :=
  match OrderKind.ofCode kind with
  | some k => k.rule
  | none => unknownRule

/-- The answer to an order (R151, R175). -/
def answerFrame (number : Half) (kind : Byte) (r : Reply) : Frame :=
  { cls := classAnswer, kind := kind, number := number, payload := r.bytes }

/-- An answer is placed in the answer slot; a free transmitter starts it at once (R151, R152). -/
def placeAnswer (f : Frame) (s : State) : State :=
  startNext { s with link := { s.link with answer := some f } }

/-- Record the last order with its stored answer (R149). -/
def recordOrder (number : Half) (kind : Byte) (f : Frame) (s : State) : State :=
  { s with link := { s.link with last := some ⟨number, kind, f⟩ } }

/-- An order is executed, recorded and answered (R149 to R151). -/
def answerOrder (rule : OrderRule) (number : Half) (kind : Byte) (payload : List Byte) (s : State) : State :=
  let r := rule payload s
  let f := answerFrame number kind r.2
  placeAnswer f (recordOrder number kind f r.1)

/-- The last order record has this NUMBER and KIND (R149). -/
def State.replayed (s : State) (number : Half) (kind : Byte) : Option Frame :=
  match s.link.last with
  | some l => if l.number = number ∧ l.kind = kind then some l.answer else none
  | none => none

/-- The link unit takes an order when the answer slot is empty: a replay, or an execution (R149, entry 5). -/
def takeOrder (rule : OrderRule) (number : Half) (kind : Byte) (payload : List Byte) (s : State) : State :=
  if s.link.answer.isSome then s
  else
    match s.replayed number kind with
    | some f => placeAnswer f s
    | none => answerOrder rule number kind payload s

/-- The order at the head of the received-order buffer is taken when the answer slot is empty; its answer then fills the
slot (R149). -/
def serviceOrders (s : State) : State :=
  match s.link.orders with
  | f :: rest =>
    if s.link.answer.isSome then s
    else takeOrder (ruleOf f.kind) f.number f.kind f.payload { s with link := { s.link with orders := rest } }
  | [] => s

/-! ### The receiver (R144 to R148) -/

/-- What one character makes of the receiver (R144, R146). -/
inductive Verdict where
  /-- no frame ends -/
  | more (r : Receiver)
  /-- the frame is discarded, and these held bytes are examined again -/
  | again (held : List Byte)
  /-- the CRC matches and CLASS is not order -/
  | foreign
  /-- a good order frame -/
  | good (f : Frame)
  deriving DecidableEq, Repr

/-- A complete frame is judged by its CRC and CLASS (R146). -/
def judgeComplete (held : List Byte) : Verdict :=
  let len := number1 held 1
  if crc ((held.drop 1).take (len + 5)) ≠ halfAt held (len + 6) then .again held.tail
  else if byteAt held 2 ≠ classOrder then .foreign
  else .good { cls := byteAt held 2, kind := byteAt held 3, number := halfAt held 4, payload := (held.drop 6).take len }

/-- One character at the receiver (R144). -/
def judge (r : Receiver) (b : Byte) : Verdict :=
  match r with
  | .hunting => if b = syncByte then .more (.assembling [b]) else .more .hunting
  | .assembling before =>
    let held := before ++ [b]
    if held.length < 2 then .more (.assembling held)
    else if Config.payloadCapacity < number1 held 1 then .again held.tail
    else if held.length < number1 held 1 + 8 then .more (.assembling held)
    else judgeComplete held

/-- Put the receiver in a state. -/
def setReceiver (r : Receiver) (s : State) : State := { s with link := { s.link with receiver := r } }

/-- One discard counted (R146). -/
def countDiscard (s : State) : State :=
  { s with link := { s.link with framingErrors := min Config.countLimit (s.link.framingErrors + 1) } }

/-- A good order frame is offered to the received-order buffer (R148). -/
def offerOrder (f : Frame) (s : State) : State :=
  if s.link.orders.length < Config.orderBufferCapacity then
    { s with link := { s.link with orders := s.link.orders ++ [f] } }
  else { s with link := { s.link with overruns := min Config.countLimit (s.link.overruns + 1) } }

/-- A good order frame (R147): supervision restarts, the frame is offered, and the order at the head is taken if it can
be (R149). -/
def goodFrame (f : Frame) (s : State) : State := serviceOrders (offerOrder f (restartSupervision s))

/-- Characters are examined one by one; the held bytes of a discarded frame come first (R146). The first argument bounds
the number of characters examined. -/
def examine : Nat → List Byte → State → State
  | 0, _, s => s
  | _ + 1, [], s => s
  | n + 1, b :: rest, s =>
    match judge s.link.receiver b with
    | .more r => examine n rest (setReceiver r s)
    | .again held => examine n (held ++ rest) (setReceiver .hunting (countDiscard s))
    | .foreign => examine n rest (setReceiver .hunting (countDiscard s))
    | .good f => examine n rest (goodFrame f (setReceiver .hunting s))

/-- The bytes the receiver holds. -/
def Receiver.held : Receiver → List Byte
  | .hunting => []
  | .assembling bs => bs

/-- Enough examinations for one character: each discard drops one byte of at most `n` for good. -/
def examineBound (r : Receiver) : Nat := (r.held.length + 2) * (r.held.length + 2)

/-- The gap timer after a character: it runs from the character's arrival while a frame is assembled (R144 to R146). -/
def setGapTimer (s : State) : State :=
  { s with link := { s.link with
      gapTimer := match s.link.receiver with
        | .assembling _ => timerFor Config.gapTime s
        | .hunting => none } }

/-- A character arrives at the receiver (R144). -/
def receive (b : Byte) (s : State) : State := setGapTimer (examine (examineBound s.link.receiver) [b] s)

/-- The frame being assembled is discarded, and its bytes are dropped (R145, R146). -/
def dropFrame (s : State) : State :=
  match s.link.receiver with
  | .assembling _ => setGapTimer (setReceiver .hunting (countDiscard s))
  | .hunting => s

/-- CHARACTER_RECEIVED (R144, entry 6). -/
def execCharacterReceived (byte : Byte) (s : State) : Host.Outcome State Fault Refusal := event (receive byte) s

/-- The last byte of a good order frame arrives (R147); another byte is not this event (entry 6). -/
def goodOrderByte (byte : Byte) (s : State) : State :=
  match judge s.link.receiver byte with
  | .good _ => receive byte s
  | .more _ => s
  | .again _ => s
  | .foreign => s

/-- GOOD_ORDER_FRAME (R147). -/
def execGoodOrderFrame (byte : Byte) (s : State) : Host.Outcome State Fault Refusal := event (goodOrderByte byte) s

/-- A byte arrives for which the frame is discarded (R146); another byte is not this event (entry 6). -/
def discardByte (byte : Byte) (s : State) : State :=
  match judge s.link.receiver byte with
  | .again _ => receive byte s
  | .foreign => receive byte s
  | .more _ => s
  | .good _ => s

/-- FRAME_DISCARD (R146). -/
def execFrameDiscard (byte : Byte) (s : State) : Host.Outcome State Fault Refusal := event (discardByte byte) s

/-- CHARACTER_FAULT (R143, R146). -/
def execCharacterFault (s : State) : Host.Outcome State Fault Refusal := event dropFrame s

/-- The gap timer's expiry (R145). -/
def gapExpiry (s : State) : State := if expired s.link.gapTimer s then dropFrame s else s

/-- GAP_TIMER_EXPIRY (R145). -/
def execGapTimerExpiry (s : State) : Host.Outcome State Fault Refusal := event gapExpiry s

/-! ### The transmitter's end of a frame (R152) -/

/-- The last byte of a frame is sent (R130, R151, R152): the slot empties after an answer, the next frame is chosen, and
then the next order is taken (entry 7). -/
def transmitComplete (s : State) : State :=
  match s.link.transmitter with
  | .free => s
  | .sending isAnswer _ =>
    let s1 : State :=
      { s with link := { s.link with transmitter := .free, answer := if isAnswer then none else s.link.answer } }
    if isAnswer && s.link.resetDue then beginOrderReset s1 else serviceOrders (startNext s1)

/-- TRANSMIT_COMPLETE. -/
def execTransmitComplete (s : State) : Host.Outcome State Fault Refusal := event transmitComplete s

end Sys2Proof.Machine
end

