-- ==== Sys2Proof/Machine/Orders.lean ====
section
/-! DEFINITION. The order commands: the link unit takes the order frame a command carries (R149, entry 5). Each order's
rule stands with the block that owns it. -/

namespace Sys2Proof.Machine

/-- CFGL (R133). -/
def execCfgl (number : Half) (payload : List Byte) (s : State) : Host.Outcome State Fault Refusal :=
  event (takeOrder Machine.cfgl number (OrderKind.code .cfgl) payload) s

/-- CFGD (R134). -/
def execCfgd (number : Half) (payload : List Byte) (s : State) : Host.Outcome State Fault Refusal :=
  event (takeOrder Machine.cfgd number (OrderKind.code .cfgd) payload) s

/-- CMIT (R136 to R140). -/
def execCmit (number : Half) (payload : List Byte) (s : State) : Host.Outcome State Fault Refusal :=
  event (takeOrder Machine.cmit number (OrderKind.code .cmit) payload) s

/-- RDCF (R135). -/
def execRdcf (number : Half) (payload : List Byte) (s : State) : Host.Outcome State Fault Refusal :=
  event (takeOrder Machine.rdcf number (OrderKind.code .rdcf) payload) s

/-- STRT (R121). -/
def execStrt (number : Half) (payload : List Byte) (s : State) : Host.Outcome State Fault Refusal :=
  event (takeOrder Machine.strt number (OrderKind.code .strt) payload) s

/-- STOP (R122). -/
def execStop (number : Half) (payload : List Byte) (s : State) : Host.Outcome State Fault Refusal :=
  event (takeOrder Machine.stop number (OrderKind.code .stop) payload) s

/-- HALT (R124). -/
def execHalt (number : Half) (payload : List Byte) (s : State) : Host.Outcome State Fault Refusal :=
  event (takeOrder Machine.halt number (OrderKind.code .halt) payload) s

/-- CLR (R127). -/
def execClr (number : Half) (payload : List Byte) (s : State) : Host.Outcome State Fault Refusal :=
  event (takeOrder Machine.clr number (OrderKind.code .clr) payload) s

/-- RSTR (R130). -/
def execRstr (number : Half) (payload : List Byte) (s : State) : Host.Outcome State Fault Refusal :=
  event (takeOrder Machine.rstr number (OrderKind.code .rstr) payload) s

/-- ASGN (R41 to R43). -/
def execAsgn (number : Half) (payload : List Byte) (s : State) : Host.Outcome State Fault Refusal :=
  event (takeOrder Machine.asgn number (OrderKind.code .asgn) payload) s

/-- DROP (R45). -/
def execDrop (number : Half) (payload : List Byte) (s : State) : Host.Outcome State Fault Refusal :=
  event (takeOrder Machine.drop number (OrderKind.code .drop) payload) s

/-- QITM (R47). -/
def execQitm (number : Half) (payload : List Byte) (s : State) : Host.Outcome State Fault Refusal :=
  event (takeOrder Machine.qitm number (OrderKind.code .qitm) payload) s

/-- LIST (R48). -/
def execList (number : Half) (payload : List Byte) (s : State) : Host.Outcome State Fault Refusal :=
  event (takeOrder Machine.list number (OrderKind.code .list) payload) s

/-- OPND (R110). -/
def execOpnd (number : Half) (payload : List Byte) (s : State) : Host.Outcome State Fault Refusal :=
  event (takeOrder Machine.opnd number (OrderKind.code .opnd) payload) s

/-- CLSD (R111). -/
def execClsd (number : Half) (payload : List Byte) (s : State) : Host.Outcome State Fault Refusal :=
  event (takeOrder Machine.clsd number (OrderKind.code .clsd) payload) s

/-- ADJD (R112). -/
def execAdjd (number : Half) (payload : List Byte) (s : State) : Host.Outcome State Fault Refusal :=
  event (takeOrder Machine.adjd number (OrderKind.code .adjd) payload) s

/-- QDST (R113). -/
def execQdst (number : Half) (payload : List Byte) (s : State) : Host.Outcome State Fault Refusal :=
  event (takeOrder Machine.qdst number (OrderKind.code .qdst) payload) s

/-- DENA (R80). -/
def execDena (number : Half) (payload : List Byte) (s : State) : Host.Outcome State Fault Refusal :=
  event (takeOrder Machine.dena number (OrderKind.code .dena) payload) s

/-- DDIS (R78, R79). -/
def execDdis (number : Half) (payload : List Byte) (s : State) : Host.Outcome State Fault Refusal :=
  event (takeOrder Machine.ddis number (OrderKind.code .ddis) payload) s

/-- TFIR (R82). -/
def execTfir (number : Half) (payload : List Byte) (s : State) : Host.Outcome State Fault Refusal :=
  event (takeOrder Machine.tfir number (OrderKind.code .tfir) payload) s

/-- LINK (R165). -/
def execLink (number : Half) (payload : List Byte) (s : State) : Host.Outcome State Fault Refusal :=
  event (takeOrder Machine.link number (OrderKind.code .link) payload) s

/-- WIND (R160). -/
def execWind (number : Half) (payload : List Byte) (s : State) : Host.Outcome State Fault Refusal :=
  event (takeOrder Machine.wind number (OrderKind.code .wind) payload) s

/-- ACK (R161). -/
def execAck (number : Half) (payload : List Byte) (s : State) : Host.Outcome State Fault Refusal :=
  event (takeOrder Machine.ack number (OrderKind.code .ack) payload) s

/-- RSUM (R169). -/
def execRsum (number : Half) (payload : List Byte) (s : State) : Host.Outcome State Fault Refusal :=
  event (takeOrder Machine.rsum number (OrderKind.code .rsum) payload) s

/-- STAT (R154). -/
def execStat (number : Half) (payload : List Byte) (s : State) : Host.Outcome State Fault Refusal :=
  event (takeOrder Machine.stat number (OrderKind.code .stat) payload) s

/-- UNKNOWN_KIND (R150). A KIND that names an order is no such command (entry 22). -/
def execUnknownKind (number : Half) (kind : Byte) (payload : List Byte) (s : State) :
    Host.Outcome State Fault Refusal :=
  match OrderKind.ofCode kind with
  | some _ => .refused .illFormed
  | none => event (takeOrder unknownRule number kind payload) s

/-- The stored answer is placed again when the record has this NUMBER and KIND and the answer slot is empty (R149); an
order that the record does not match is not this event (entry 4). -/
def replayOrder (number : Half) (kind : Byte) (s : State) : State :=
  if s.link.answer.isSome then s
  else
    match s.replayed number kind with
    | some f => placeAnswer f s
    | none => s

/-- ORDER_REPLAY (R149). The payload is not compared. -/
def execOrderReplay (number : Half) (kind : Byte) (_payload : List Byte) (s : State) :
    Host.Outcome State Fault Refusal :=
  event (replayOrder number kind) s

end Sys2Proof.Machine
end

