-- ==== Sys2Proof/Machine/Clock.lean ====
section
/-! DEFINITION. The millisecond count and the timers that have run out (R1, entries 2 and 3). -/

namespace Sys2Proof.Machine

/-- The millisecond count advances by 1 and wraps (00_scope.md, Conventions). -/
def tickTime (s : State) : State := { s with timeStamp := s.timeStamp + 1 }

/-- A running timer that reached its expiry a millisecond ago or earlier: R1 lets it wait no longer. -/
def overdue (t : Timer) (s : State) : Bool :=
  match t with
  | some e => reached s.timeStamp (e + 1)
  | none => false

/-- The expiry command of a timer, when it is overdue. -/
def whenOverdue (t : Timer) (c : Instr) (s : State) : List Instr := if overdue t s then [c] else []

/-- The overdue expiries of one station's diverter and monitor. -/
def stationOverdue (s : State) (d : Station) : List Instr :=
  whenOverdue (s.diverter d).maxOnTimer (.maxOnExpiry (stationNumber d)) s
    ++ whenOverdue (s.diverter d).recoveryTimer (.recoveryTimerExpiry (stationNumber d)) s
    ++ whenOverdue (s.diverter d).pulseTimer (.pulseTimerExpiry (stationNumber d)) s
    ++ whenOverdue (s.monitor d).deadlineTimer (.deadlineTimerExpiry (stationNumber d)) s
    ++ whenOverdue (s.monitor d).chuteTimer (.chuteTimerExpiry (stationNumber d)) s

/-- Every overdue expiry: the stations in ascending order, then the belt and the link (entry 2). -/
def overdueCommands (s : State) : List Instr :=
  (List.finRange 16).flatMap (stationOverdue s)
    ++ whenOverdue s.counter.standstill .standstillTimerExpiry s
    ++ whenOverdue s.link.gapTimer .gapTimerExpiry s
    ++ whenOverdue s.queue.retryTimer .retryTimerExpiry s
    ++ whenOverdue s.supervisor.timer .supervisionTimerExpiry s

end Sys2Proof.Machine
end

