-- ==== Sys2Proof/Machine/Dispatch.lean ====
section
/-! DEFINITION. `exec`: one arm per command, each one direct call of its meaning. -/

namespace Sys2Proof.Machine

def exec (i : Instr) (s : State) : Host.Outcome State Fault Refusal :=
  match i with
  | .cfgl number payload => Sys2Proof.Machine.execCfgl number payload s
  | .cfgd number payload => Sys2Proof.Machine.execCfgd number payload s
  | .cmit number payload => Sys2Proof.Machine.execCmit number payload s
  | .rdcf number payload => Sys2Proof.Machine.execRdcf number payload s
  | .strt number payload => Sys2Proof.Machine.execStrt number payload s
  | .stop number payload => Sys2Proof.Machine.execStop number payload s
  | .halt number payload => Sys2Proof.Machine.execHalt number payload s
  | .clr number payload => Sys2Proof.Machine.execClr number payload s
  | .rstr number payload => Sys2Proof.Machine.execRstr number payload s
  | .asgn number payload => Sys2Proof.Machine.execAsgn number payload s
  | .drop number payload => Sys2Proof.Machine.execDrop number payload s
  | .qitm number payload => Sys2Proof.Machine.execQitm number payload s
  | .list number payload => Sys2Proof.Machine.execList number payload s
  | .opnd number payload => Sys2Proof.Machine.execOpnd number payload s
  | .clsd number payload => Sys2Proof.Machine.execClsd number payload s
  | .adjd number payload => Sys2Proof.Machine.execAdjd number payload s
  | .qdst number payload => Sys2Proof.Machine.execQdst number payload s
  | .dena number payload => Sys2Proof.Machine.execDena number payload s
  | .ddis number payload => Sys2Proof.Machine.execDdis number payload s
  | .tfir number payload => Sys2Proof.Machine.execTfir number payload s
  | .link number payload => Sys2Proof.Machine.execLink number payload s
  | .wind number payload => Sys2Proof.Machine.execWind number payload s
  | .ack number payload => Sys2Proof.Machine.execAck number payload s
  | .rsum number payload => Sys2Proof.Machine.execRsum number payload s
  | .stat number payload => Sys2Proof.Machine.execStat number payload s
  | .unknownKind number kind payload => Sys2Proof.Machine.execUnknownKind number kind payload s
  | .orderReplay number kind payload => Sys2Proof.Machine.execOrderReplay number kind payload s
  | .forwardTick => Sys2Proof.Machine.execForwardTick s
  | .reverseTick => Sys2Proof.Machine.execReverseTick s
  | .illegalTransition => Sys2Proof.Machine.execIllegalTransition s
  | .standstillTimerExpiry => Sys2Proof.Machine.execStandstillTimerExpiry s
  | .fireWatch tag => Sys2Proof.Machine.execFireWatch tag s
  | .runoffWatch tag => Sys2Proof.Machine.execRunoffWatch tag s
  | .lateWatch diverter tag => Sys2Proof.Machine.execLateWatch diverter tag s
  | .releaseWatch diverter tag => Sys2Proof.Machine.execReleaseWatch diverter tag s
  | .lengthLimitWatch => Sys2Proof.Machine.execLengthLimitWatch s
  | .entryEyeLeadingEdge => Sys2Proof.Machine.execEntryEyeLeadingEdge s
  | .entryEyeTrailingEdge => Sys2Proof.Machine.execEntryEyeTrailingEdge s
  | .exitEyeLeadingEdge => Sys2Proof.Machine.execExitEyeLeadingEdge s
  | .slotGrant => Sys2Proof.Machine.execSlotGrant s
  | .maxOnExpiry diverter => Sys2Proof.Machine.execMaxOnExpiry diverter s
  | .recoveryTimerExpiry diverter => Sys2Proof.Machine.execRecoveryTimerExpiry diverter s
  | .pulseTimerExpiry diverter => Sys2Proof.Machine.execPulseTimerExpiry diverter s
  | .deadlineTimerExpiry diverter => Sys2Proof.Machine.execDeadlineTimerExpiry diverter s
  | .confirmEyeLeadingEdge diverter => Sys2Proof.Machine.execConfirmEyeLeadingEdge diverter s
  | .confirmEyeTrailingEdge diverter => Sys2Proof.Machine.execConfirmEyeTrailingEdge diverter s
  | .chuteTimerExpiry diverter => Sys2Proof.Machine.execChuteTimerExpiry diverter s
  | .lineStopChange level => Sys2Proof.Machine.execLineStopChange level s
  | .drainComplete => Sys2Proof.Machine.execDrainComplete s
  | .powerOn levels => Sys2Proof.Machine.execPowerOn levels s
  | .pinReset levels => Sys2Proof.Machine.execPinReset levels s
  | .rstrReset levels => Sys2Proof.Machine.execRstrReset levels s
  | .goodOrderFrame byte => Sys2Proof.Machine.execGoodOrderFrame byte s
  | .frameDiscard byte => Sys2Proof.Machine.execFrameDiscard byte s
  | .characterFault => Sys2Proof.Machine.execCharacterFault s
  | .gapTimerExpiry => Sys2Proof.Machine.execGapTimerExpiry s
  | .transmitComplete => Sys2Proof.Machine.execTransmitComplete s
  | .retryTimerExpiry => Sys2Proof.Machine.execRetryTimerExpiry s
  | .supervisionTimerExpiry => Sys2Proof.Machine.execSupervisionTimerExpiry s
  | .characterReceived byte => Sys2Proof.Machine.execCharacterReceived byte s

end Sys2Proof.Machine
end

