-- ==== Sys2Proof/Machine/Step.lean ====
section
/-! DEFINITION. One step: the command at the front of the queue, or a millisecond boundary when no command waits. -/

namespace Sys2Proof.Machine

/-- The step of an empty queue (entry 2): a millisecond boundary, at which every timer whose time has run out a
millisecond ago queues its expiry. While a reset has begun and not ended, nothing moves (entry 9). -/
def millisecond (s : State) : State :=
  if s.held.isSome then s
  else
    let s1 := tickTime (startNext s)
    { s1 with pending := overdueCommands s1 }

/-- One step. -/
def step (s : State) : Host.Outcome State Fault Refusal :=
  match s.pending with
  | c :: rest => exec c { s with pending := rest }
  | [] => .next (millisecond s)

/-- The state with the command a word spells at the front of its queue; unchanged where the word spells none. -/
def State.withFetchWord (s : State) (nbits w : Nat) : State :=
  match decodeTableWord nbits w with
  | some c => { s with pending := c :: s.pending }
  | none => s

end Sys2Proof.Machine
end

