-- ==== Sys2Proof/WellFormed.lean ====
section
/-! DEFINITION. Which commands are well formed: what the encodings of 12_frame_layouts_and_connections.md and the numbers of
the diverters allow. -/

namespace Sys2Proof

/-- A payload that LEN can carry (R170). -/
def payloadFits (payload : List Byte) : Bool := decide (payload.length ≤ Config.payloadCapacity)

/-- A diverter number (R1). -/
def diverterNumber (n : Nat) : Bool := decide (1 ≤ n) && decide (n ≤ 16)

/-- The command is one of the part's: its payload fits a frame, its diverter exists, and the KIND of UNKNOWN_KIND names no
order. An order with a payload too long for a frame still has a meaning, BAD_LENGTH (entry 22). -/
def Instr.wellFormed : Instr → Bool
  | .cfgl _ p => payloadFits p
  | .cfgd _ p => payloadFits p
  | .cmit _ p => payloadFits p
  | .rdcf _ p => payloadFits p
  | .strt _ p => payloadFits p
  | .stop _ p => payloadFits p
  | .halt _ p => payloadFits p
  | .clr _ p => payloadFits p
  | .rstr _ p => payloadFits p
  | .asgn _ p => payloadFits p
  | .drop _ p => payloadFits p
  | .qitm _ p => payloadFits p
  | .list _ p => payloadFits p
  | .opnd _ p => payloadFits p
  | .clsd _ p => payloadFits p
  | .adjd _ p => payloadFits p
  | .qdst _ p => payloadFits p
  | .dena _ p => payloadFits p
  | .ddis _ p => payloadFits p
  | .tfir _ p => payloadFits p
  | .link _ p => payloadFits p
  | .wind _ p => payloadFits p
  | .ack _ p => payloadFits p
  | .rsum _ p => payloadFits p
  | .stat _ p => payloadFits p
  | .unknownKind _ k p => payloadFits p && (Machine.OrderKind.ofCode k).isNone
  | .orderReplay _ _ p => payloadFits p
  | .forwardTick => true
  | .reverseTick => true
  | .illegalTransition => true
  | .standstillTimerExpiry => true
  | .fireWatch t => t != 0
  | .runoffWatch t => t != 0
  | .lateWatch d t => diverterNumber d && t != 0
  | .releaseWatch d t => diverterNumber d && t != 0
  | .lengthLimitWatch => true
  | .entryEyeLeadingEdge => true
  | .entryEyeTrailingEdge => true
  | .exitEyeLeadingEdge => true
  | .slotGrant => true
  | .maxOnExpiry d => diverterNumber d
  | .recoveryTimerExpiry d => diverterNumber d
  | .pulseTimerExpiry d => diverterNumber d
  | .deadlineTimerExpiry d => diverterNumber d
  | .confirmEyeLeadingEdge d => diverterNumber d
  | .confirmEyeTrailingEdge d => diverterNumber d
  | .chuteTimerExpiry d => diverterNumber d
  | .lineStopChange _ => true
  | .drainComplete => true
  | .powerOn _ => true
  | .pinReset _ => true
  | .rstrReset _ => true
  | .goodOrderFrame _ => true
  | .frameDiscard _ => true
  | .characterFault => true
  | .gapTimerExpiry => true
  | .transmitComplete => true
  | .retryTimerExpiry => true
  | .supervisionTimerExpiry => true
  | .characterReceived _ => true

end Sys2Proof
end

