-- ==== Sys2Proof/Safety.lean ====
section
/-! DEFINITION. What the statements speak of: the parts of the state and the frame of a command, the answer of an order,
the notices of an event, and the laws that every step keeps. -/

namespace Sys2Proof.Machine

/-! ### Frames -/

/-- The parts of the state, as a frame names them. -/
inductive Part where
  | timeStamp
  | counter
  | watches
  | induction
  | table
  | diverters
  | arbiter
  | monitors
  | destinations
  | runOff
  | line
  | pendingConfig
  | config
  /-- link rate, receiver, gap timer, framing error count, overrun count -/
  | reception
  /-- the received-order buffer -/
  | orders
  | answer
  | lastOrder
  | transmitter
  | resetDue
  | queue
  | supervisor
  | held
  /-- the commands that wait -/
  | waitingCommands
  deriving DecidableEq, Repr

/-- A part is as it was. -/
def Part.same (s t : State) : Part → Prop
  | .timeStamp => t.timeStamp = s.timeStamp
  | .counter => t.counter = s.counter
  | .watches => t.watches = s.watches
  | .induction => t.induction = s.induction
  | .table => t.table = s.table
  | .diverters => t.diverters = s.diverters
  | .arbiter => t.arbiter = s.arbiter
  | .monitors => t.monitors = s.monitors
  | .destinations => t.destinations = s.destinations
  | .runOff => t.runOff = s.runOff
  | .line => t.line = s.line
  | .pendingConfig => t.pendingConfig = s.pendingConfig
  | .config => t.config = s.config
  | .reception =>
      t.link.rate = s.link.rate ∧ t.link.receiver = s.link.receiver ∧ t.link.gapTimer = s.link.gapTimer
        ∧ t.link.framingErrors = s.link.framingErrors ∧ t.link.overruns = s.link.overruns
  | .orders => t.link.orders = s.link.orders
  | .answer => t.link.answer = s.link.answer
  | .lastOrder => t.link.last = s.link.last
  | .transmitter => t.link.transmitter = s.link.transmitter
  | .resetDue => t.link.resetDue = s.link.resetDue
  | .queue => t.queue = s.queue
  | .supervisor => t.supervisor = s.supervisor
  | .held => t.held = s.held
  | .waitingCommands => t.pending = s.pending

/-- Every part outside the list is as it was. -/
def UnchangedBut (parts : List Part) (s t : State) : Prop := ∀ p, p ∉ parts → p.same s t

/-- The parts an order's answer changes. -/
def answerParts : List Part := [.answer, .lastOrder, .transmitter]

/-- The parts a notice changes: the queue, and the transmitter when it is free. -/
def noticeParts : List Part := [.queue, .transmitter]

/-! ### Orders and notices -/

/-- The link unit takes and executes an order with this NUMBER and KIND now: the part is not held in reset, the answer
slot is empty, and the last order record is not this order's (R149). -/
abbrev State.takes (s : State) (number : Half) (kind : Byte) : Prop :=
  s.held = none ∧ s.link.answer = none ∧ s.replayed number kind = none

/-- The answer slot and the last order record hold the answer with these payload bytes (R149, R151, R175). -/
def Answered (t : State) (number : Half) (kind : Byte) (payload : List Byte) : Prop :=
  t.link.answer = some { cls := classAnswer, kind := kind, number := number, payload := payload }
    ∧ t.link.last = some ⟨number, kind, { cls := classAnswer, kind := kind, number := number, payload := payload }⟩

/-- The command of an order (R172). -/
def OrderKind.command : OrderKind → Half → List Byte → Instr
  | .cfgl => .cfgl
  | .cfgd => .cfgd
  | .cmit => .cmit
  | .rdcf => .rdcf
  | .strt => .strt
  | .stop => .stop
  | .halt => .halt
  | .clr => .clr
  | .rstr => .rstr
  | .asgn => .asgn
  | .drop => .drop
  | .qitm => .qitm
  | .list => .list
  | .opnd => .opnd
  | .clsd => .clsd
  | .adjd => .adjd
  | .qdst => .qdst
  | .dena => .dena
  | .ddis => .ddis
  | .tfir => .tfir
  | .link => .link
  | .wind => .wind
  | .ack => .ack
  | .rsum => .rsum
  | .stat => .stat

/-- A payload with the length its order fixes and every reserved byte 0 (R150). -/
abbrev OrderKind.formed (k : OrderKind) (payload : List Byte) : Prop :=
  payload.length = k.payloadLength ∧ ∀ i ∈ k.reserved, byteAt payload i = 0

/-- A destination order or a diverter order that passes the common checks for station `d`: the link is UP, the line is not
IDLE, and the payload is formed and names the installed station (R78, R80, R109). -/
abbrev State.grantsStation (s : State) (k : OrderKind) (payload : List Byte) (d : Station) : Prop :=
  s.supervisor.state = .up ∧ s.line.state ≠ .idle ∧ k.formed payload ∧ number1 payload 0 = stationNumber d
    ∧ s.installed d = true

/-- A timer that runs and reached its expiry a millisecond before `now` or earlier, so that R1 lets it wait no longer
(entry 3). -/
def OverdueAt (now : TimeStamp) (timer : Timer) : Prop := ∃ e, timer = some e ∧ 0 ≤ (now - (e + 1)).toInt

/-- The number in two bytes of a payload, least significant byte first (R170). -/
def twoBytes (p : List Byte) (i : Nat) : Nat := (byteAt p i).toNat + 256 * (byteAt p (i + 1)).toNat

/-- The number in four bytes of a payload, least significant byte first (R170). -/
def fourBytes (p : List Byte) (i : Nat) : Nat := twoBytes p i + 65536 * twoBytes p (i + 2)

/-- A check of the commit, C3 to C6, at an installed diverter (R137). C3 is written against every lower installed diverter:
at the first diverter that fails, that says the same as against the next lower one. -/
def Configuration.passes (c : Configuration) (code : Nat) (d : Station) : Prop :=
  match code with
  | 3 => ∀ a : Station, a < d → c.diverters[a].installed = true → c.diverters[a].offset < c.diverters[d].offset
  | 4 => c.line.maxLength < c.diverters[d].offset - c.diverters[d].advance
  | 5 =>
    c.diverters[d].alternate = 0
      ∨ ∃ a : Station, d < a ∧ c.diverters[a].installed = true ∧ c.diverters[d].alternate = stationNumber a
  | 6 =>
    c.diverters[d].offset + c.diverters[d].lateMargin < c.line.runoffOffset
      ∧ ((∀ a : Station, d < a → c.diverters[a].installed = false) →
          c.diverters[d].offset + c.diverters[d].releaseMargin + c.line.maxLength < c.line.runoffOffset)
  | _ => True

/-- A check of the commit at every installed diverter. -/
def Configuration.passesAll (c : Configuration) (code : Nat) : Prop :=
  ∀ d : Station, c.diverters[d].installed = true → c.passes code d

/-- The halt of the line with a cause, less its notice (R59, R84, R94, R125). -/
structure HaltsTo (cause : HaltCause) (s t : State) : Prop where
  line : t.line = { s.line with state := .halted, haltCause := cause, runPermit := false }
  watches : t.watches = []
  diverters : ∀ d, t.diverter d =
    { state := if (s.diverter d).state = .off then .off else .idle, disabled := (s.diverter d).disabled,
      testPulse := false, push := [], pending := [], maxOnTimer := none, recoveryTimer := none, pulseTimer := none,
      output := false }
  slots : t.arbiter = { s.arbiter with slotsInUse := 0, waiting := Vector.replicate 16 false }
  monitors : ∀ d, t.monitor d = { s.monitor d with confirm := [], deadlineTimer := none }
  table : t.table =
    s.table.map (fun e => { e with state := .frozen, stateAtHalt := some e.state, confirmDeadline := none })
  induction : t.induction = { s.induction with slot := .empty, hold := false }

/-- The parts a halt changes. -/
def haltParts : List Part := [.line, .watches, .diverters, .arbiter, .monitors, .table, .induction, .queue, .transmitter]

/-- The line is drained: DRAINING with an empty table and no diverter ENERGISED or in RECOVERY (R123). -/
abbrev State.isDrained (s : State) : Prop :=
  s.line.state = .draining ∧ s.table = []
    ∧ ∀ d, (s.diverter d).state ≠ .energised ∧ (s.diverter d).state ≠ .recovery

/-- The watch a command names stands first in the list, is reached, and the part is not held in reset (R12, entry 12). -/
def State.delivers (s : State) (k : WatchKind) (rest : List Watch) : Prop :=
  s.held = none ∧ ∃ p, s.watches = ⟨p, k⟩ :: rest ∧ reached s.counter.position p = true

/-- The command that delivers a watch of a kind (entry 12). -/
def WatchKind.command : WatchKind → Instr
  | .fire tag => .fireWatch tag
  | .runoff tag => .runoffWatch tag
  | .late d tag => .lateWatch (stationNumber d) tag
  | .release d tag => .releaseWatch (stationNumber d) tag
  | .lengthLimit => .lengthLimitWatch

/-- The line has reached a point, and a watch there would stand before every watch of the list (R13, entry 11). -/
abbrev State.reachedFirst (s : State) (p : Position) (rest : List Watch) : Prop :=
  reached s.counter.position p = true ∧ ∀ w ∈ rest.head?, reached p w.position = false

/-- A destination record admits an item (R103). -/
abbrev DestRecord.open (r : DestRecord) : Prop :=
  r.causes = { host := false, batchEnd := false, chute := false, disabled := false }
    ∧ (r.base = 0 ∨ 0 < r.remaining)

/-- The record after one unit is reserved (R104). -/
def DestRecord.plusOne (r : DestRecord) : DestRecord :=
  { r with outstanding := r.outstanding + 1, remaining := if 0 < r.base then r.remaining - 1 else r.remaining }

/-- The record after one unit is returned (R105). -/
def DestRecord.minusOne (r : DestRecord) : DestRecord :=
  { r with outstanding := r.outstanding - 1, remaining := if 0 < r.base then r.remaining + 1 else r.remaining }

/-- The conditions of R57 for an entry at a line position. -/
abbrev Entry.awaitedAtExit (l : LineRecord) (position : Position) (e : Entry) : Prop :=
  e.state = .travelling ∧ e.target = .runOff ∧ e.flags.exitSeen = false
    ∧ -(l.exitTolerance : Int) ≤ (position - (e.lead + BitVec.ofNat 32 l.runoffOffset)).toInt
    ∧ (position - (e.lead + BitVec.ofNat 32 l.runoffOffset)).toInt ≤ (l.exitTolerance : Int)

/-- Diverter `d` is the one that the arbiter's search meets first (R66). -/
def State.firstInSearch (s : State) (d : Station) : Prop :=
  s.waits d = true
    ∧ match s.config.line.priority with
      | .fixed => ∀ d' : Station, s.waits d' = true → d ≤ d'
      | .rotating => ∀ d' : Station, s.waits d' = true →
          d - (s.arbiter.lastGranted + 1) ≤ d' - (s.arbiter.lastGranted + 1)

/-- The entries of the table that hold a unit of a station (R100). -/
def State.reservedAt (s : State) (d : Station) : Nat := s.table.countP (fun e => e.reservedWith == some d)

/-- The queue after notices have been offered for admission in order (R155, R158). -/
def ReportQueue.afterNotices (bodies : List NoticeBody) (timeStamp : TimeStamp) (position : Position)
    (q : ReportQueue) : ReportQueue :=
  bodies.foldl (fun q b => q.offer b timeStamp position) q

/-- An event that leads from `s` to `t` submitted exactly these notices, in this order, stamped with the time and the
position of `t` (R155, R158). The rest of the report queue is as it was, but that a free transmitter may have started the
notice at the send pointer, which is then recorded as sent (R152, R159, R162, entry 7). -/
structure Submitted (bodies : List NoticeBody) (s t : State) : Prop where
  queue : t.queue =
    { s.queue.afterNotices bodies t.timeStamp t.counter.position with
      sendPointer := t.queue.sendPointer, highestSent := t.queue.highestSent, retryTimer := t.queue.retryTimer }
  busy : s.link.transmitter ≠ .free → t.link.transmitter = s.link.transmitter
  sent :
    (t.queue.sendPointer = s.queue.sendPointer ∧ t.queue.highestSent = s.queue.highestSent
        ∧ t.queue.retryTimer = s.queue.retryTimer)
      ∨ (bodies ≠ [] ∧ s.link.transmitter = .free
        ∧ t.queue.sendPointer = (s.queue.recordSent t.timeStamp).sendPointer
        ∧ t.queue.highestSent = (s.queue.recordSent t.timeStamp).highestSent
        ∧ t.queue.retryTimer = (s.queue.recordSent t.timeStamp).retryTimer
        ∧ ∃ n, t.queue.notices[s.queue.distance s.queue.sendPointer]? = some n
          ∧ t.link.transmitter = .sending false n.frame.bytes)

/-- The tag after a tag, from 65535 to 1 (R27). -/
def tagFollowing (t : Tag) : Tag := if t = 65535 then 1 else t + 1

/-- The first tag that no entry of a table holds, `k` tags on from the next tag (R27). -/
def freeTag (next : Tag) (k : Nat) (table : List Entry) (tag : Tag) : Prop :=
  k < 96 ∧ tag = Nat.iterate tagFollowing k next ∧ (∀ j < k, ∃ e ∈ table, e.tag = Nat.iterate tagFollowing j next)
    ∧ ∀ e ∈ table, e.tag ≠ tag

/-- One item admitted at induction as `flags` say (R25 to R29, R32): the entry with its tag, its RUNOFF watch ahead of the
line, the last trailing position and the hold output. -/
structure Inducts (tag : Tag) (lead : Position) (length : Nat) (flags : EntryFlags) (slot : Slot) (watches : List Watch)
    (s t : State) : Prop where
  table : t.table = s.table ++
    [{ tag := tag, lead := lead, length := length, flags := flags, assigned := none, target := .runOff,
       reason := if flags.overlength = true then .overlength else if flags.gapShort = true then .gapShort else .none,
       state := .travelling, reservedWith := none, confirmDeadline := none, stateAtHalt := none }]
  slot : t.induction.slot = slot
  nextTag : t.induction.nextTag = tagFollowing tag
  lastTrailing : t.induction.lastTrailing = some (lead + BitVec.ofNat 32 length)
  hold : t.induction.hold = decide (s.config.line.holdThreshold ≤ s.table.length + 1)
  watches : t.watches = insertSorted
    ⟨lead + BitVec.ofNat 32 s.config.line.runoffOffset
        + (if s.config.line.exitEye = true then BitVec.ofNat 32 s.config.line.exitTolerance else 0),
      .runoff tag⟩ watches
  notice : Submitted [.inducted tag length flags] s t

/-- The watch list after the watches of entries have been replaced one after another, each by a watch ahead of the line
(R14). -/
def replacedWatches (watch : Entry → Watch) (entries : List Entry) (watches : List Watch) : List Watch :=
  entries.foldl (fun ws e => insertSorted (watch e) (ws.filter (fun w => w.kind.tag? != some e.tag))) watches

/-- The watch list after entries have been sent to the run-off one after another (R14, R37). -/
def runoffWatches (l : LineRecord) (sent : List Entry) (watches : List Watch) : List Watch :=
  replacedWatches (fun e => ⟨runoffPoint l e, .runoff e.tag⟩) sent watches

/-- The induction hold output at an occupancy, in the line state and under the threshold of the state (R32). -/
def State.holdAt (s : State) (occupancy : Nat) : Bool :=
  decide ((s.line.state = .ready ∨ s.line.state = .running ∨ s.line.state = .draining)
    ∧ s.config.line.holdThreshold ≤ occupancy)

/-- The line is drained and passes on to READY (R30, R32, R123), less its notice. -/
structure DrainsTo (s t : State) : Prop where
  line : t.line = { s.line with state := .ready, runPermit := false }
  induction : t.induction =
    { s.induction with slot := .empty, hold := decide (s.config.line.holdThreshold ≤ 0) }
  watches : t.watches = s.watches.filter (fun w => w.kind != .lengthLimit)

/-! ### Releases and grants -/

/-- Every item that diverter `d` holds has its release point ahead of the line. -/
abbrev State.releasesAhead (s : State) (d : Station) : Prop :=
  ∀ tag ∈ (s.diverter d).pending, ∃ e ∈ s.entry tag,
    reached s.counter.position (releasePoint (s.record d) e) = false

/-- An entry after a grant to the diverter that held some tags: PUSHING when its tag is one of them (R69). -/
def Entry.pushedWith (held : List Tag) (e : Entry) : Entry :=
  if e.tag ∈ held then { e with state := .pushing } else e

/-- Diverter `d` released, before any grant (R73, R76): in RECOVERY, or with a recovery time of 0 IDLE, or WAITING with the
items it holds. -/
def State.released (s : State) (d : Station) : Diverter where
  state :=
    if 0 < (s.record d).recovery then .recovery else if (s.diverter d).pending = [] then .idle else .waiting
  disabled := (s.diverter d).disabled
  testPulse := false
  push := []
  pending := (s.diverter d).pending
  maxOnTimer := none
  recoveryTimer :=
    if 0 < (s.record d).recovery then some (s.timeStamp + BitVec.ofNat 32 (s.record d).recovery) else none
  pulseTimer := none
  output := false

/-- The state with diverter `d` replaced, and in the waiting set exactly when it is WAITING. -/
def State.withDiverter (s : State) (d : Station) (v : Diverter) : State :=
  setWaiting d (decide (v.state = .waiting)) (setDiverter d (fun _ => v) s)

/-- The table with the entries of some tags CONFIRMING at station `d`, with their deadlines, and TRUNCATED when their push
was cut short (R72, R74, R79, R88). -/
def State.confirmingTable (s : State) (d : Station) (tags : List Tag) (cut : Bool) : List Entry :=
  s.table.map (fun e =>
    if e.tag ∈ tags then
      { e with
        flags := { e.flags with truncated := e.flags.truncated || cut }
        state := .confirming
        confirmDeadline := some (s.timeStamp + BitVec.ofNat 32 (s.record d).confirmTime) }
    else e)

/-- The monitor of station `d` with more tags at the tail of its confirm list, and its deadline timer toward the deadline
that the first entry of the list has in `t` (R72, R74, R79, R88). -/
def State.monitorWith (s t : State) (d : Station) (tags : List Tag) : Monitor :=
  { s.monitor d with
    confirm := (s.monitor d).confirm ++ tags
    deadlineTimer := (((s.monitor d).confirm ++ tags).head?.bind t.entry).bind (·.confirmDeadline) }

/-- The state with the entries of some tags moved to station `d`'s confirm list (R72, R74, R79, R88). -/
def State.confirming (s : State) (d : Station) (tags : List Tag) (cut : Bool) : State :=
  let t := { s with table := s.confirmingTable d tags cut }
  setMonitor d (fun _ => s.monitorWith t d tags) t

/-- The items of a grant take their RELEASE watches one after another (R69): an item whose release point the line has
reached, and whose watch would stand before every watch of the list, is released at once (R13, entries 11 and 23); any other
has its watch placed (R11). First the tags released at once, in their order, then the watch list that is left. -/
def placedReleases (position : Position) (watch : Entry → Watch) : List Entry → List Watch → List Tag × List Watch
  | [], watches => ([], watches)
  | e :: rest, watches =>
    let others := watches.filter (fun w => w.kind.tag? != some e.tag)
    if reached position (watch e).position = true
        ∧ ∀ w ∈ others.head?, reached (watch e).position w.position = false then
      let r := placedReleases position watch rest others
      (e.tag :: r.1, r.2)
    else placedReleases position watch rest (insertSorted (watch e) others)

/-- The RELEASE watches of a grant to diverter `d`, for every item it holds (R69). -/
def State.grantReleases (s : State) (d : Station) : List Tag × List Watch :=
  placedReleases s.counter.position (fun e => ⟨releasePoint (s.record d) e, .release d e.tag⟩)
    ((s.diverter d).pending.filterMap s.entry) s.watches

/-- The items that a grant to diverter `d` releases at once, past their release points (R13, R69). -/
abbrev State.passedAt (s : State) (d : Station) : List Tag := (s.grantReleases d).1

/-- The items that a grant to diverter `d` leaves in the push list (R69). -/
abbrev State.pushedAt (s : State) (d : Station) : List Tag :=
  (s.diverter d).pending.filter (fun tag => tag ∉ s.passedAt d)

/-- Diverter `d` after a grant (R69): ENERGISED with the items that are still ahead of their release points; with none left
it has released within the grant, into RECOVERY, or IDLE with a recovery time of 0 (R72, R73, R76). -/
def State.grantedDiverter (s : State) (d : Station) : Diverter :=
  if s.pushedAt d = [] then
    { s.released d with
      state := if 0 < (s.record d).recovery then .recovery else .idle
      pending := [] }
  else
    { state := .energised
      disabled := (s.diverter d).disabled
      testPulse := false
      push := s.pushedAt d
      pending := []
      maxOnTimer := some (s.timeStamp + BitVec.ofNat 32 (s.record d).maxOn)
      recoveryTimer := none
      pulseTimer := none
      output := true }

/-- Diverter `d` was granted a slot with every item it held (R69). Each item is PUSHING with a RELEASE watch in place of its
LATE watch, or, when the line has passed its release point, CONFIRMING at the tail of the confirm list (R13, R72). A slot is
in use for the diverter unless it has released within the grant (R73). Every other diverter, entry, watch and monitor is as
it was. -/
structure GrantTo (d : Station) (s t : State) : Prop where
  diverter : t.diverter d = s.grantedDiverter d
  arbiter : t.arbiter =
    { budget := s.arbiter.budget
      slotsInUse := if s.pushedAt d = [] then s.arbiter.slotsInUse else s.arbiter.slotsInUse + 1
      waiting := s.arbiter.waiting.set d false
      lastGranted := d }
  table : t.table =
    State.confirmingTable { s with table := s.table.map (Entry.pushedWith (s.diverter d).pending) } d (s.passedAt d) false
  watches : t.watches = (s.grantReleases d).2
  monitor : t.monitor d = if s.passedAt d = [] then s.monitor d else s.monitorWith t d (s.passedAt d)
  others : ∀ d', d' ≠ d → t.diverter d' = s.diverter d' ∧ t.monitor d' = s.monitor d'

/-- The parts a grant changes. -/
def grantParts : List Part := [.watches, .table, .diverters, .arbiter, .monitors]

/-- The arbiter's grants, each complete before the next choice, until no slot is free or no diverter waits (R65, R66,
R69). -/
inductive Grants : State → State → Prop
  | stay {s : State} (idle : s.slotFree = false ∨ ∀ c, s.waits c = false) : Grants s s
  | next {s t u : State} {c : Station} (free : s.slotFree = true) (first : s.firstInSearch c) (grant : GrantTo c s t)
      (frame : UnchangedBut grantParts s t) (rest : Grants t u) : Grants s u

/-- The slot that an event frees (R65, R66): it stays free when no diverter waits, and otherwise goes to the first waiting
diverter of the search, and on to the next when every item of a grant was past its release point, so that the grant released
at once (R69). `s` is the state that the event leaves before the grants, with the slot still counted as in use. -/
structure FreesSlot (s t : State) : Prop where
  none : (∀ c, s.waits c = false) →
    (∀ c, t.diverter c = s.diverter c) ∧ t.arbiter = { s.arbiter with slotsInUse := s.arbiter.slotsInUse - 1 }
      ∧ t.table = s.table
  granted : ∀ c, s.firstInSearch c → s.pushedAt c ≠ [] → GrantTo c (freeSlot s) t
  grants : ∃ u, Grants (freeSlot s) u ∧ t.diverters = u.diverters ∧ t.arbiter = u.arbiter ∧ t.table = u.table
    ∧ t.monitors = u.monitors ∧ (¬ s.isDrained → t.watches = u.watches)
  budget : t.arbiter.budget = s.arbiter.budget

/-! ### Laws -/

/-- The line state controller and the belt (R7, R8, R117 to R119): the run permit is on in RUNNING and DRAINING alone; a
halt cause is recorded in HALTED alone; a working line has the line stop INACTIVE and the encoder fault latch clear; the
standstill timer runs while the belt flag is MOVING, and the flag is STOPPED in IDLE. -/
def LineLaw (s : State) : Prop :=
  s.line.runPermit = s.line.state.working
    ∧ (s.line.haltCause = .none ↔ s.line.state ≠ .halted)
    ∧ (s.line.state.working = true → s.line.lineStop = .inactive ∧ s.counter.faultLatch = false)
    ∧ (s.counter.belt = .moving ↔ s.counter.standstill.isSome = true)
    ∧ (s.line.state = .idle → s.counter.belt = .stopped)

/-- One diverter with its place in the waiting set: the table of R63 with the capacities of R62. -/
structure DiverterLaw (v : Diverter) (waits : Bool) : Prop where
  output : v.output = true ↔ v.state = .energised
  waiting : waits = true ↔ v.state = .waiting
  pushing : v.push ≠ [] → v.state = .energised ∧ v.testPulse = false
  energised : v.state = .energised → v.testPulse = false → v.push ≠ []
  pulse : v.testPulse = true → v.state = .energised
  disabled : v.disabled = true → v.state = .off
  idle : v.state = .off ∨ v.state = .idle → v.pending = []
  holding : v.state = .waiting → v.pending ≠ []
  pushRoom : v.push.length ≤ Config.listCapacity
  pendingRoom : v.pending.length ≤ Config.listCapacity
  maxOn : v.maxOnTimer.isSome = true ↔ v.state = .energised ∧ v.testPulse = false
  pulseTimer : v.pulseTimer.isSome = true ↔ v.testPulse = true
  recovery : v.recoveryTimer.isSome = true ↔ v.state = .recovery

/-- The diverters and the arbiter (R62 to R64): each diverter keeps its law, slots in use is the number of ENERGISED
diverters, and it does not exceed the budget. -/
def DriveLaw (s : State) : Prop :=
  (∀ d, DiverterLaw (s.diverter d) (s.waits d))
    ∧ s.arbiter.slotsInUse = s.energisedCount
    ∧ s.arbiter.slotsInUse ≤ s.arbiter.budget

/-- A free slot and a waiting diverter are never both present between events (R65). -/
def NoSlotWasted (s : State) : Prop := s.slotFree = true → ∀ d, s.waits d = false

/-- The tracking table's tags (R27, R34, R35): at most 96 entries, no two with one tag, no tag 0, next tag not 0. -/
def TagLaw (s : State) : Prop :=
  s.table.length ≤ Config.tableCapacity
    ∧ (s.table.map (·.tag)).Nodup
    ∧ (∀ e ∈ s.table, e.tag ≠ 0)
    ∧ s.induction.nextTag ≠ 0

/-- The watch an entry holds, by its state and target (R11, R36). -/
def State.watchOf (s : State) (e : Entry) : Option Watch :=
  match e.state, e.target with
  | .travelling, .runOff => some ⟨runoffPoint s.config.line e, .runoff e.tag⟩
  | .travelling, .station d => some ⟨firePoint (s.record d) e, .fire e.tag⟩
  | .pending, .station d => some ⟨latePoint (s.record d) e, .late d e.tag⟩
  | .pushing, .station d => some ⟨releasePoint (s.record d) e, .release d e.tag⟩
  | _, _ => none

/-- The induction watch, which an OPEN measuring slot holds (R20). -/
def State.slotWatch (s : State) : List Watch :=
  match s.induction.slot with
  | .opened lead _ => [⟨lead + BitVec.ofNat 32 s.config.line.maxLength, .lengthLimit⟩]
  | _ => []

/-- The watch list between events (R11, R12, R17): sorted, every watch ahead of the line, one watch for each entry that
holds one and one for an OPEN measuring slot, and no other; the slot is in use in RUNNING and DRAINING alone. -/
structure WatchLaw (s : State) : Prop where
  ahead : ∀ w ∈ s.watches, reached s.counter.position w.position = false
  sorted : s.watches.Pairwise (fun earlier later => reached later.position earlier.position = true)
  each : s.watches.Perm (s.table.filterMap s.watchOf ++ s.slotWatch)
  slot : s.induction.slot ≠ .empty → s.line.state.working = true

/-- The tags of the entries in a state whose target is station `d`. -/
def State.tagsAt (s : State) (st : EntryState) (d : Station) : List Tag :=
  (s.table.filter (fun e => e.state == st && e.target == .station d)).map (·.tag)

/-- Where the entries are (R36, R59, R62, R80, R86, R123): the table is empty in IDLE and READY and all FROZEN in HALTED;
each list of a diverter holds the entries in its state with that target, which hold a unit of it; a diverter is OFF
exactly when it is not installed or disabled. -/
structure PlaceLaw (s : State) : Prop where
  empty : s.line.state = .idle ∨ s.line.state = .ready → s.table = []
  halted : s.line.state = .halted → ∀ e ∈ s.table, e.state = .frozen
  working : s.line.state.working = true → ∀ e ∈ s.table, e.state ≠ .frozen
  travelling : ∀ e ∈ s.table, e.state = .travelling →
    e.reservedWith = none ∧ ∀ d, e.target = .station d → s.installed d = true
  taken : ∀ e ∈ s.table, e.state = .pending ∨ e.state = .pushing ∨ e.state = .confirming →
    ∃ d, e.target = .station d ∧ e.reservedWith = some d ∧ s.installed d = true
  deadline : ∀ e ∈ s.table, e.confirmDeadline.isSome = true ↔ e.state = .confirming
  lists : ∀ d, (s.diverter d).pending.Perm (s.tagsAt .pending d) ∧ (s.diverter d).push.Perm (s.tagsAt .pushing d)
    ∧ (s.monitor d).confirm.Perm (s.tagsAt .confirming d)
  off : ∀ d, (s.diverter d).state = .off ↔ s.installed d = false ∨ (s.diverter d).disabled = true
  closed : ∀ d, (s.diverter d).disabled = true → (s.destination d).causes.disabled = true

/-- The counts of a destination (R100): the units outstanding are held by entries, and the three counts of a counted batch
sum to its base. -/
structure CountLaw (s : State) : Prop where
  outstanding : ∀ d, (s.destination d).outstanding = s.reservedAt d
  counted : ∀ d, 0 < (s.destination d).base →
    (s.destination d).remaining + (s.destination d).outstanding + (s.destination d).filled = (s.destination d).base
  uncounted : ∀ d, (s.destination d).base = 0 → (s.destination d).remaining = 0

/-- The confirm monitors (R86, R88, R95): the deadline timer runs toward the deadline of the first entry of the confirm
list, and the chute timer runs in FILLING and EMPTYING. -/
structure MonitorLaw (s : State) : Prop where
  deadline : ∀ d, (s.monitor d).deadlineTimer =
    ((s.monitor d).confirm.head?.bind s.entry).bind (·.confirmDeadline)
  chute : ∀ d, (s.monitor d).chuteTimer.isSome = true ↔ (s.monitor d).chute = .filling ∨ (s.monitor d).chute = .emptying

/-- A configuration copy whose distances lie in their ranges (R133, R134). -/
structure Configuration.Bounded (c : Configuration) : Prop where
  maxLength : 1 ≤ c.line.maxLength ∧ c.line.maxLength ≤ 65535
  runoff : c.line.runoffOffset ≤ 1048575
  tolerances : c.line.exitTolerance ≤ 4095 ∧ c.line.reverseTolerance ≤ 4095
  stations : ∀ d : Station, c.diverters[d].offset ≤ 1048575 ∧ c.diverters[d].advance ≤ 1048575
    ∧ c.diverters[d].lateMargin ≤ 65535 ∧ c.diverters[d].releaseMargin ≤ 65535

/-- The distances that the signed comparison rests on (R1, R6, R11): the excursion within the tolerance, the leads behind
the high-water mark by less than a bound that no item with a watch can pass, the lengths and the configured distances in
their ranges, and the alternates of installed diverters installed. -/
structure BoundLaw (s : State) : Prop where
  excursion : s.line.state.working = true →
    (s.counter.highWater - s.counter.position).toNat ≤ s.config.line.reverseTolerance
  leads : ∀ e ∈ s.table, (s.watchOf e).isSome = true →
    0 ≤ (s.counter.highWater - e.lead).toInt ∧ (s.counter.highWater - e.lead).toInt ≤ 4194304
  slot : ∀ lead refused, s.induction.slot = .opened lead refused →
    0 ≤ (s.counter.highWater - lead).toInt ∧ (s.counter.highWater - lead).toInt ≤ 4194304
  lengths : ∀ e ∈ s.table, e.length ≤ 65535
  active : s.config.Bounded
  pending : s.pendingConfig.Bounded
  alternates : ∀ d a : Station, s.installed d = true → (s.record d).alternate = stationNumber a → s.installed a = true

/-- The items on the line: their watches, their places, the units they hold, their deadlines, and the distances among
them. -/
structure TrackingLaw (s : State) : Prop where
  watch : WatchLaw s
  place : PlaceLaw s
  count : CountLaw s
  monitor : MonitorLaw s
  bound : BoundLaw s

/-- The report queue (R157, R158, R162): consecutive numbers from the head, at most 64 notices and 60 ordinary ones, the
pointers in their order, and the retry timer running exactly while notices are in flight under a window above 0. -/
structure QueueLaw (q : ReportQueue) : Prop where
  held : q.notices.length = q.occupancy
  room : q.occupancy ≤ Config.queueCapacity
  ordinary : q.notices.countP (fun n => !n.body.kept) ≤ Config.ordinaryCapacity
  numbered : ∀ i n, q.notices[i]? = some n → n.number = q.head + BitVec.ofNat 16 i
  sendInFlight : q.distance q.sendPointer ≤ q.inFlight
  sentHeld : q.inFlight ≤ q.occupancy
  sentFew : q.inFlight ≤ 16
  windowFew : q.window ≤ 16
  dropsFew : q.drops ≤ 255
  timer : q.retryTimer.isSome = true ↔ 0 < q.inFlight ∧ 0 < q.window

/-- The link unit (R142, R145 to R149, R152): counts held at 65535; at most two good order frames wait, and only while the
answer slot is full; the gap timer runs while a frame is assembled; an answer in the slot is being sent or waits for a
notice frame; a reset waits only for an answer. -/
structure LinkLaw (l : LinkUnit) : Prop where
  framing : l.framingErrors ≤ Config.countLimit
  overruns : l.overruns ≤ Config.countLimit
  buffer : l.orders.length ≤ Config.orderBufferCapacity
  buffered : ∀ f ∈ l.orders, f.cls = classOrder ∧ f.payload.length ≤ Config.payloadCapacity
  served : l.orders ≠ [] → l.answer.isSome = true
  gap : l.gapTimer.isSome = true ↔ l.receiver ≠ .hunting
  sending : ∀ bytes, l.transmitter = .sending true bytes → l.answer.isSome = true
  slot : l.answer.isSome = true → l.transmitter ≠ .free
  reset : l.resetDue = true → l.answer.isSome = true

end Sys2Proof.Machine
end

