-- ==== Sys2Proof/Certificates/Slice0/Obligations.lean ====
section
/-! DEFINITION. The statements for the provers, in the order of OBLIGATIONS.json. -/

open Sys2Proof Sys2Proof.Machine

/-! ### The queue of commands -/

/-- The command at the front of the queue is executed on the state with the rest of the queue. -/
def Obligations.FrontCommandRuns : Prop :=
  ∀ (c : Instr) (s : State), step { s with pending := c :: s.pending } = exec c s

/-- With no command waiting a step is a millisecond boundary, which queues exactly the overdue expiries, each once, and lets
a free transmitter start its next frame (the model's choice, entries 2 and 3). -/
def Obligations.EmptyQueueMillisecond : Prop :=
  ∀ s : State, s.pending = [] → s.held = none →
    ∃ t, step s = .next t
      ∧ t.timeStamp = s.timeStamp + 1
      ∧ t.pending.Nodup
      ∧ (∀ c, c ∈ t.pending ↔
          (∃ d, c = .maxOnExpiry (stationNumber d) ∧ OverdueAt t.timeStamp (s.diverter d).maxOnTimer)
          ∨ (∃ d, c = .recoveryTimerExpiry (stationNumber d) ∧ OverdueAt t.timeStamp (s.diverter d).recoveryTimer)
          ∨ (∃ d, c = .pulseTimerExpiry (stationNumber d) ∧ OverdueAt t.timeStamp (s.diverter d).pulseTimer)
          ∨ (∃ d, c = .deadlineTimerExpiry (stationNumber d) ∧ OverdueAt t.timeStamp (s.monitor d).deadlineTimer)
          ∨ (∃ d, c = .chuteTimerExpiry (stationNumber d) ∧ OverdueAt t.timeStamp (s.monitor d).chuteTimer)
          ∨ (c = .standstillTimerExpiry ∧ OverdueAt t.timeStamp s.counter.standstill)
          ∨ (c = .gapTimerExpiry ∧ OverdueAt t.timeStamp s.link.gapTimer)
          ∨ (c = .retryTimerExpiry ∧ OverdueAt t.timeStamp t.queue.retryTimer)
          ∨ (c = .supervisionTimerExpiry ∧ OverdueAt t.timeStamp s.supervisor.timer))
      ∧ (s.link.transmitter ≠ .free → t.queue = s.queue ∧ t.link = s.link)
      ∧ (∀ f, s.link.transmitter = .free → s.link.answer = some f →
          t.queue = s.queue ∧ t.link = { s.link with transmitter := .sending true f.bytes })
      ∧ (s.link.transmitter = .free → s.link.answer = none →
          s.queue.eligible = false ∨ s.queue.notices[s.queue.distance s.queue.sendPointer]? = none →
          t.queue = s.queue ∧ t.link = s.link)
      ∧ (∀ n, s.link.transmitter = .free → s.link.answer = none → s.queue.eligible = true →
          s.queue.notices[s.queue.distance s.queue.sendPointer]? = some n →
          t.queue = s.queue.recordSent s.timeStamp
            ∧ t.link = { s.link with transmitter := .sending false n.frame.bytes })
      ∧ UnchangedBut [.timeStamp, .queue, .transmitter, .waitingCommands] s t

/-- Every well-formed command has a next state and leaves the commands that wait; a number that names no diverter, or a
KIND of UNKNOWN_KIND that names an order, is refused (entry 22). -/
def Obligations.WellFormedCommandsRun : Prop :=
  (∀ (c : Instr) (s : State), c.wellFormed = true → ∃ t, exec c s = .next t ∧ t.pending = s.pending)
    ∧ (∀ (n : Nat) (tag : Tag) (s : State), stationOf n = none →
        exec (.lateWatch n tag) s = .refused .illFormed
          ∧ exec (.releaseWatch n tag) s = .refused .illFormed
          ∧ exec (.maxOnExpiry n) s = .refused .illFormed
          ∧ exec (.recoveryTimerExpiry n) s = .refused .illFormed
          ∧ exec (.pulseTimerExpiry n) s = .refused .illFormed
          ∧ exec (.deadlineTimerExpiry n) s = .refused .illFormed
          ∧ exec (.confirmEyeLeadingEdge n) s = .refused .illFormed
          ∧ exec (.confirmEyeTrailingEdge n) s = .refused .illFormed
          ∧ exec (.chuteTimerExpiry n) s = .refused .illFormed)
    ∧ (∀ (k : OrderKind) (number : Half) (p : List Byte) (s : State),
        exec (.unknownKind number k.code p) s = .refused .illFormed)

/-! ### The items on the line -/

/-- Every step keeps the laws of the items on the line, in every state that keeps the laws of the line, the tags and the
diverters too: the watch list, the places of the entries, the counts of the destinations, and the confirm monitors (R1, R6,
R11, R12, R17, R36, R86, R88, R95, R100). The distances of `BoundLaw` are the model's own: they keep the signed comparison of
R1 and R11 in its range. -/
def Obligations.TrackingLawKept : Prop :=
  ∀ s t : State, LineLaw s → TagLaw s → DriveLaw s → NoSlotWasted s → TrackingLaw s → step s = .next t → TrackingLaw t

/-! ### Resets -/

/-- The reset values that the chapters give (R2, R16, R18, R34, R62, R64, R86, R100, R101, R117, R132 to R134, R142, R157,
R164). The sampled levels in `State.reset` are the model's (entry 1) and are not named here; that no reset is under way and
no command waits is said of the model's own fields (entries 9 and 20). -/
def Obligations.ResetValues : Prop :=
  State.reset.timeStamp = 0
    ∧ State.reset.counter.position = 0
    ∧ State.reset.counter.highWater = 0
    ∧ State.reset.counter.belt = .stopped
    ∧ State.reset.counter.standstill = none
    ∧ State.reset.counter.faultLatch = false
    ∧ State.reset.watches = []
    ∧ State.reset.induction.slot = .empty
    ∧ State.reset.induction.lastTrailing = none
    ∧ State.reset.induction.nextTag = 1
    ∧ State.reset.induction.hold = false
    ∧ State.reset.table = []
    ∧ (∀ d, State.reset.diverter d =
        { state := .off, disabled := false, testPulse := false, push := [], pending := [], maxOnTimer := none,
          recoveryTimer := none, pulseTimer := none, output := false })
    ∧ State.reset.arbiter.budget = 4
    ∧ State.reset.arbiter.slotsInUse = 0
    ∧ (∀ d, State.reset.waits d = false)
    ∧ stationNumber State.reset.arbiter.lastGranted = 16
    ∧ (∀ d, (State.reset.monitor d).confirm = [] ∧ (State.reset.monitor d).deadlineTimer = none
        ∧ (State.reset.monitor d).chute = .clear ∧ (State.reset.monitor d).chuteTimer = none)
    ∧ (∀ d, State.reset.destination d =
        { base := 0, autoReload := false, remaining := 0, outstanding := 0, filled := 0, serial := 0,
          causes := { host := true, batchEnd := false, chute := false, disabled := false } })
    ∧ State.reset.runOff =
        { base := 0, autoReload := false, remaining := 0, outstanding := 0, filled := 0, serial := 0,
          causes := { host := false, batchEnd := false, chute := false, disabled := false } }
    ∧ State.reset.line.state = .idle
    ∧ State.reset.line.haltCause = .none
    ∧ State.reset.line.runPermit = false
    ∧ State.reset.config.line =
        { minLength := 50, maxLength := 4000, minGap := 100, runoffOffset := 0, exitEye := false,
          priority := .rotating, exitTolerance := 200, reverseTolerance := 64, standstillTime := 500,
          holdThreshold := 80, driveBudget := 4 }
    ∧ (∀ d, State.reset.record d =
        { installed := false, offset := 0, advance := 0, lateMargin := 0, releaseMargin := 0, maxOn := 500,
          recovery := 50, confirmTime := 1000, chuteFullTime := 3000, chuteClearTime := 2000, alternate := 0 })
    ∧ State.reset.pendingConfig = State.reset.config
    ∧ State.reset.link.receiver = .hunting
    ∧ State.reset.link.gapTimer = none
    ∧ State.reset.link.orders = []
    ∧ State.reset.link.answer = none
    ∧ State.reset.link.last = none
    ∧ State.reset.link.transmitter = .free
    ∧ State.reset.link.framingErrors = 0
    ∧ State.reset.link.overruns = 0
    ∧ State.reset.link.resetDue = false
    ∧ State.reset.held = none
    ∧ State.reset.pending = []
    ∧ State.reset.queue =
        { notices := [{ number := 0, timeStamp := 0, position := 0, gap := 0, body := .restart .power }], head := 0,
          next := 1, sendPointer := 0, highestSent := 65535, window := 4, retryTime := 200, retryTimer := none,
          drops := 0 }
    ∧ State.reset.supervisor = { state := .up, time := 0, action := .continueOn, timer := none }

/-- POWER_ON, PIN_RESET and RSTR_RESET put every block in its reset values with the levels sampled at the end of the
reset, and leave one RESTART notice with their cause, which the free transmitter starts (R129 to R131; the start is entry 8). -/
def Obligations.ResetCommands : Prop :=
  ∀ (c : Instr) (cause : ResetCause) (l : Levels) (s : State),
    (c = .powerOn l ∧ cause = .power) ∨ (c = .pinReset l ∧ cause = .pin)
      ∨ (c = .rstrReset l ∧ cause = .order ∧ s.held = some .order) →
    ∃ t, exec c s = .next t
      ∧ t.timeStamp = 0
      ∧ t.counter = { State.reset.counter with reference := l.encoder }
      ∧ t.watches = []
      ∧ t.induction = { State.reset.induction with eye := l.entryEye }
      ∧ t.table = []
      ∧ t.diverters = State.reset.diverters
      ∧ t.arbiter = State.reset.arbiter
      ∧ (∀ d, t.monitor d =
          { confirm := [], deadlineTimer := none, eye := l.confirmEyes[d], chute := .clear, chuteTimer := none })
      ∧ t.destinations = State.reset.destinations
      ∧ t.runOff = State.reset.runOff
      ∧ t.line = { state := .idle, haltCause := .none, runPermit := false, lineStop := l.lineStop }
      ∧ t.pendingConfig = State.reset.pendingConfig
      ∧ t.config = State.reset.config
      ∧ t.link.receiver = .hunting
      ∧ t.link.gapTimer = none
      ∧ t.link.orders = []
      ∧ t.link.answer = none
      ∧ t.link.last = none
      ∧ t.link.framingErrors = 0
      ∧ t.link.overruns = 0
      ∧ t.queue =
          { notices := [{ number := 0, timeStamp := 0, position := 0, gap := 0, body := .restart cause }], head := 0,
            next := 1, sendPointer := 1, highestSent := 0, window := 4, retryTime := 200, retryTimer := some 200,
            drops := 0 }
      ∧ t.link.transmitter =
          .sending false
            (Notice.frame { number := 0, timeStamp := 0, position := 0, gap := 0, body := .restart cause }).bytes
      ∧ t.supervisor = State.reset.supervisor
      ∧ t.held = none
      ∧ t.pending = s.pending

/-- The link rate follows the baud straps at the end of every reset and changes at no other command (R178). -/
def Obligations.LinkRateFollowsStraps : Prop :=
  (∀ (c : Instr) (l : Levels) (s : State),
      c = .powerOn l ∨ c = .pinReset l ∨ (c = .rstrReset l ∧ s.held = some .order) →
      ∃ t, exec c s = .next t
        ∧ (l.strap1Closed = false → l.strap0Closed = false → t.link.rate = .baud115200)
        ∧ (l.strap1Closed = false → l.strap0Closed = true → t.link.rate = .baud230400)
        ∧ (l.strap1Closed = true → l.strap0Closed = false → t.link.rate = .baud460800)
        ∧ (l.strap1Closed = true → l.strap0Closed = true → t.link.rate = .baud921600))
    ∧ (∀ (c : Instr) (s t : State), exec c s = .next t → (∀ l, c ≠ .powerOn l) → (∀ l, c ≠ .pinReset l) →
        (∀ l, c ≠ .rstrReset l) → t.link.rate = s.link.rate)

/-! ### Orders in general -/

/-- Every order that is taken places its answer, which a free transmitter starts unless it has started a notice of the same
event (R151, R152; entry 7 on the notice), and the form checks of every order: a wrong payload length, then a reserved byte
that is not 0 (R150). -/
def Obligations.OrderFormChecks : Prop :=
  ∀ (k : OrderKind) (number : Half) (p : List Byte) (s : State), s.takes number k.code →
    (∃ t f, exec (k.command number p) s = .next t
      ∧ t.link.answer = some f
      ∧ Answered t number k.code f.payload
      ∧ (s.link.transmitter ≠ .free → t.link.transmitter = s.link.transmitter)
      ∧ (s.link.transmitter = .free → t.queue = s.queue → t.link.transmitter = .sending true f.bytes)
      ∧ (s.link.transmitter = .free → t.link.transmitter = .sending true f.bytes
          ∨ ∃ n ∈ t.queue.notices, t.link.transmitter = .sending false n.frame.bytes))
    ∧ (p.length ≠ k.payloadLength →
      ∃ t, exec (k.command number p) s = .next t ∧ Answered t number k.code [2] ∧ UnchangedBut answerParts s t)
    ∧ (p.length = k.payloadLength → (∃ i ∈ k.reserved, byteAt p i ≠ 0) →
      ∃ t, exec (k.command number p) s = .next t ∧ Answered t number k.code [3] ∧ UnchangedBut answerParts s t)

/-- The orders that a LOST link refuses, after the form checks (R168). -/
def Obligations.LostLinkRefuses : Prop :=
  ∀ k ∈ ([.asgn, .drop, .strt, .cmit, .cfgl, .cfgd, .opnd, .clsd, .adjd, .dena, .ddis, .tfir] : List OrderKind),
    ∀ (number : Half) (p : List Byte) (s : State), s.takes number k.code → k.formed p → s.supervisor.state = .lost →
      ∃ t, exec (k.command number p) s = .next t ∧ Answered t number k.code [8] ∧ UnchangedBut answerParts s t

/-- An order whose KIND names none is answered UNKNOWN_KIND with that KIND, and one with the NUMBER and KIND of the last
order record is not executed: its stored answer is placed again. A free transmitter starts either answer (R149 to R152). -/
def Obligations.UnknownAndReplayedOrders : Prop :=
  (∀ (number : Half) (kind : Byte) (p : List Byte) (s : State), OrderKind.ofCode kind = none → s.takes number kind →
    ∃ t, exec (.unknownKind number kind p) s = .next t
      ∧ Answered t number kind [1]
      ∧ (s.link.transmitter = .free → t.link.transmitter =
          .sending true (Frame.bytes { cls := classAnswer, kind := kind, number := number, payload := [1] }))
      ∧ (s.link.transmitter ≠ .free → t.link.transmitter = s.link.transmitter)
      ∧ UnchangedBut answerParts s t)
  ∧ (∀ (number : Half) (kind : Byte) (p : List Byte) (f : Frame) (s : State), s.held = none → s.link.answer = none →
    s.link.last = some ⟨number, kind, f⟩ →
    ∃ t, exec (.orderReplay number kind p) s = .next t
      ∧ t.link.answer = some f
      ∧ (s.link.transmitter = .free → t.link.transmitter = .sending true f.bytes)
      ∧ (s.link.transmitter ≠ .free → t.link.transmitter = s.link.transmitter)
      ∧ UnchangedBut [.answer, .transmitter] s t
      ∧ (∀ k : OrderKind, k.code = kind → exec (k.command number p) s = .next t)
      ∧ (OrderKind.ofCode kind = none → exec (.unknownKind number kind p) s = .next t))

/-! ### Configuration orders -/

/-- CFGL and CFGD write one record of the pending copy, whole, when every field is in its range (R133, R134); the fields
stand in the payload where its layout has them, each least significant byte first (R170, R173, R174). -/
def Obligations.ConfigurationWrites : Prop :=
  (∀ (number : Half) (p : List Byte) (s : State), s.takes number OrderKind.cfgl.code → s.supervisor.state = .up →
      OrderKind.cfgl.formed p →
      (∀ r, lineRecordOf p = some r → r.inRange = true →
        ∃ t, exec (.cfgl number p) s = .next t ∧ Answered t number OrderKind.cfgl.code [0]
          ∧ t.pendingConfig = { s.pendingConfig with line := r }
          ∧ UnchangedBut (.pendingConfig :: answerParts) s t)
      ∧ ((∀ r, lineRecordOf p = some r → r.inRange = false) →
        ∃ t, exec (.cfgl number p) s = .next t ∧ Answered t number OrderKind.cfgl.code [3]
          ∧ UnchangedBut answerParts s t))
    ∧ (∀ r : LineRecord, r.inRange = true ↔
        (1 ≤ r.minLength ∧ r.minLength ≤ 65535) ∧ (1 ≤ r.maxLength ∧ r.maxLength ≤ 65535) ∧ r.minGap ≤ 65535
          ∧ (1 ≤ r.runoffOffset ∧ r.runoffOffset ≤ 1048575) ∧ (1 ≤ r.exitTolerance ∧ r.exitTolerance ≤ 4095)
          ∧ r.reverseTolerance ≤ 4095 ∧ (50 ≤ r.standstillTime ∧ r.standstillTime ≤ 5000)
          ∧ (1 ≤ r.holdThreshold ∧ r.holdThreshold ≤ 96) ∧ (1 ≤ r.driveBudget ∧ r.driveBudget ≤ 8))
    ∧ (∀ (number : Half) (p : List Byte) (s : State), s.takes number OrderKind.cfgd.code → s.supervisor.state = .up →
      OrderKind.cfgd.formed p →
      (∀ d r, number1 p 0 = stationNumber d → diverterRecordOf p = some r → r.inRange = true →
        ∃ t, exec (.cfgd number p) s = .next t ∧ Answered t number OrderKind.cfgd.code [0]
          ∧ t.pendingConfig = { s.pendingConfig with diverters := s.pendingConfig.diverters.set d r }
          ∧ UnchangedBut (.pendingConfig :: answerParts) s t)
      ∧ ((stationOf (number1 p 0) = none ∨ ∀ r, diverterRecordOf p = some r → r.inRange = false) →
        ∃ t, exec (.cfgd number p) s = .next t ∧ Answered t number OrderKind.cfgd.code [3]
          ∧ UnchangedBut answerParts s t))
    ∧ (∀ r : DiverterRecord, r.inRange = true ↔
        (r.installed = true → 1 ≤ r.offset ∧ r.advance < r.offset) ∧ r.offset ≤ 1048575 ∧ r.advance ≤ 1048575
          ∧ r.lateMargin ≤ 65535 ∧ r.releaseMargin ≤ 65535 ∧ (10 ≤ r.maxOn ∧ r.maxOn ≤ 2000) ∧ r.recovery ≤ 1000
          ∧ (10 ≤ r.confirmTime ∧ r.confirmTime ≤ 5000) ∧ (100 ≤ r.chuteFullTime ∧ r.chuteFullTime ≤ 30000)
          ∧ (100 ≤ r.chuteClearTime ∧ r.chuteClearTime ≤ 30000) ∧ r.alternate ≤ 16)
    ∧ (∀ (p : List Byte) (r : LineRecord), lineRecordOf p = some r ↔
        r.minLength = twoBytes p 0 ∧ r.maxLength = twoBytes p 2 ∧ r.minGap = twoBytes p 4
          ∧ r.runoffOffset = fourBytes p 6
          ∧ ((byteAt p 10 = 0 ∧ r.exitEye = false) ∨ (byteAt p 10 = 1 ∧ r.exitEye = true))
          ∧ ((byteAt p 11 = 0 ∧ r.priority = .fixed) ∨ (byteAt p 11 = 1 ∧ r.priority = .rotating))
          ∧ r.exitTolerance = twoBytes p 12 ∧ r.reverseTolerance = twoBytes p 14 ∧ r.standstillTime = twoBytes p 16
          ∧ r.holdThreshold = (byteAt p 18).toNat ∧ r.driveBudget = (byteAt p 19).toNat)
    ∧ (∀ (p : List Byte) (r : DiverterRecord), diverterRecordOf p = some r ↔
        ((byteAt p 1 = 0 ∧ r.installed = false) ∨ (byteAt p 1 = 1 ∧ r.installed = true))
          ∧ r.offset = fourBytes p 2 ∧ r.advance = fourBytes p 6 ∧ r.lateMargin = twoBytes p 10
          ∧ r.releaseMargin = twoBytes p 12 ∧ r.maxOn = twoBytes p 14 ∧ r.recovery = twoBytes p 16
          ∧ r.confirmTime = twoBytes p 18 ∧ r.chuteFullTime = twoBytes p 20 ∧ r.chuteClearTime = twoBytes p 22
          ∧ r.alternate = (byteAt p 24).toNat)

/-- RDCF answers with the record of the named copy and changes nothing; the bytes of a record in range are those that CFGL
and CFGD read it from (R135, R174, R175). -/
def Obligations.RdcfReads : Prop :=
  (∀ (number : Half) (p : List Byte) (s : State), s.takes number OrderKind.rdcf.code → OrderKind.rdcf.formed p →
    ∃ t, exec (.rdcf number p) s = .next t
      ∧ UnchangedBut answerParts s t
      ∧ (byteAt p 0 = 0 → byteAt p 1 = 0 →
          Answered t number OrderKind.rdcf.code ([0, 0, 0] ++ s.pendingConfig.line.bytes))
      ∧ (byteAt p 0 = 1 → byteAt p 1 = 0 →
          Answered t number OrderKind.rdcf.code ([0, 1, 0] ++ s.config.line.bytes))
      ∧ (∀ d, byteAt p 0 = 0 → number1 p 1 = stationNumber d →
          Answered t number OrderKind.rdcf.code ([0, 0, byteAt p 1] ++ s.pendingConfig.diverters[d].bytes))
      ∧ (∀ d, byteAt p 0 = 1 → number1 p 1 = stationNumber d →
          Answered t number OrderKind.rdcf.code ([0, 1, byteAt p 1] ++ s.config.diverters[d].bytes))
      ∧ ((byteAt p 0 ≠ 0 ∧ byteAt p 0 ≠ 1) ∨ 16 < number1 p 1 → Answered t number OrderKind.rdcf.code [3]))
  ∧ (∀ r : LineRecord, r.bytes.length = 20 ∧ (r.inRange = true → lineRecordOf r.bytes = some r))
  ∧ (∀ (n : Byte) (r : DiverterRecord), (n :: r.bytes).length = 26 ∧ byteAt (n :: r.bytes) 25 = 0
      ∧ (r.inRange = true → diverterRecordOf (n :: r.bytes) = some r))

/-- A CMIT that its line state or the validation turns away changes nothing (R136, R138). -/
def Obligations.CmitRefused : Prop :=
  ∀ (number : Half) (s : State), s.takes number OrderKind.cmit.code → s.supervisor.state = .up →
    (s.line.state ≠ .idle → s.line.state ≠ .ready →
      ∃ t, exec (.cmit number []) s = .next t ∧ Answered t number OrderKind.cmit.code [4]
        ∧ UnchangedBut answerParts s t)
    ∧ (∀ code n, s.line.state = .idle ∨ s.line.state = .ready → s.pendingConfig.failure = some (code, n) →
      ∃ t, exec (.cmit number []) s = .next t
        ∧ Answered t number OrderKind.cmit.code [9, BitVec.ofNat 8 code, BitVec.ofNat 8 n]
        ∧ UnchangedBut answerParts s t)

/-- A valid CMIT installs the pending copy and re-initialises the diverters, the arbiter, the chute timing, the destination
table and the line (R139, R140). -/
def Obligations.CmitCommits : Prop :=
  ∀ (number : Half) (s : State), s.takes number OrderKind.cmit.code → s.supervisor.state = .up →
    s.line.state = .idle ∨ s.line.state = .ready → s.pendingConfig.failure = none →
    ∃ t, exec (.cmit number []) s = .next t
      ∧ Answered t number OrderKind.cmit.code [0]
      ∧ t.config = s.pendingConfig
      ∧ t.line = { s.line with state := .ready }
      ∧ (∀ d, t.diverter d =
          { state := if s.pendingConfig.diverters[d].installed then .idle else .off, disabled := false,
            testPulse := false, push := [], pending := [], maxOnTimer := none, recoveryTimer := none,
            pulseTimer := none, output := false })
      ∧ t.arbiter.budget = s.pendingConfig.line.driveBudget
      ∧ t.arbiter.slotsInUse = 0
      ∧ (∀ d, t.waits d = false)
      ∧ stationNumber t.arbiter.lastGranted = 16
      ∧ (∀ d, t.monitor d =
          if s.pendingConfig.diverters[d].installed = true ∧ (s.monitor d).eye = .blocked then
            { s.monitor d with
              chute := .filling
              chuteTimer := some (s.timeStamp + BitVec.ofNat 32 s.pendingConfig.diverters[d].chuteFullTime) }
          else { s.monitor d with chute := .clear, chuteTimer := none })
      ∧ (∀ d, t.destination d =
          { base := 0, autoReload := false, remaining := 0, outstanding := 0, filled := 0, serial := 0,
            causes := { host := true, batchEnd := false, chute := false, disabled := false } })
      ∧ t.runOff = { s.runOff with filled := 0, serial := 0 }
      ∧ Submitted
          (((List.finRange 16).filter (fun d => s.pendingConfig.diverters[d].installed
              && (s.destination d).causes != { host := true })).map
                (fun d => NoticeBody.dest d { host := true } 0)
            ++ (if s.line.state = .idle then [.lineState .idle .ready .commit] else [])) s t
      ∧ UnchangedBut ([.config, .line, .diverters, .arbiter, .monitors, .destinations, .runOff, .queue] ++ answerParts)
          s t

/-- Validation finds the first failure in the order C1 to C6 and, within a check, in ascending diverter number (R137). -/
def Obligations.CommitChecks : Prop :=
  ∀ c : Configuration,
    (c.failure = none ↔ (∃ d : Station, c.diverters[d].installed = true) ∧ c.line.minLength ≤ c.line.maxLength
        ∧ c.passesAll 3 ∧ c.passesAll 4 ∧ c.passesAll 5 ∧ c.passesAll 6)
    ∧ ((∀ d : Station, c.diverters[d].installed = false) → c.failure = some (1, 0))
    ∧ ((∃ d : Station, c.diverters[d].installed = true) → c.line.maxLength < c.line.minLength → c.failure = some (2, 0))
    ∧ (∀ (code : Nat) (d : Station), code ∈ [3, 4, 5, 6] → (∃ a : Station, c.diverters[a].installed = true) →
        c.line.minLength ≤ c.line.maxLength → (∀ earlier ∈ [3, 4, 5, 6], earlier < code → c.passesAll earlier) →
        c.diverters[d].installed = true → ¬ c.passes code d →
        (∀ a : Station, a < d → c.diverters[a].installed = true → c.passes code a) →
        c.failure = some (code, stationNumber d))

/-! ### Line orders -/

/-- STRT starts the line from READY when the line stop is INACTIVE, the fault latch is clear and a diverter is installed, and
is answered STATE otherwise (R5, R29, R32, R121, R128). -/
def Obligations.StrtStarts : Prop :=
  ∀ (number : Half) (s : State), s.takes number OrderKind.strt.code → s.supervisor.state = .up →
    (s.line.state = .ready ∧ s.line.lineStop = .inactive ∧ s.counter.faultLatch = false ∧ (∃ d, s.installed d = true) →
      ∃ t, exec (.strt number []) s = .next t
        ∧ Answered t number OrderKind.strt.code [0]
        ∧ t.line = { s.line with state := .running, runPermit := true }
        ∧ t.counter = { s.counter with highWater := s.counter.position }
        ∧ t.induction = { s.induction with
            lastTrailing := none, hold := decide (s.config.line.holdThreshold ≤ s.table.length) }
        ∧ Submitted [.lineState .ready .running .start] s t
        ∧ UnchangedBut ([.line, .counter, .induction, .queue] ++ answerParts) s t)
    ∧ (¬ (s.line.state = .ready ∧ s.line.lineStop = .inactive ∧ s.counter.faultLatch = false
          ∧ ∃ d, s.installed d = true) →
      ∃ t, exec (.strt number []) s = .next t ∧ Answered t number OrderKind.strt.code [4]
        ∧ UnchangedBut answerParts s t)

/-- STOP drains a RUNNING line, and a drained line passes on to READY, within the order or at a later event (R30, R32, R122,
R123). -/
def Obligations.StopDrains : Prop :=
  (∀ (number : Half) (s : State), s.takes number OrderKind.stop.code →
    (s.line.state = .running → ¬ ({ s with line := { s.line with state := .draining } } : State).isDrained →
      ∃ t, exec (.stop number []) s = .next t
        ∧ Answered t number OrderKind.stop.code [0]
        ∧ t.line = { s.line with state := .draining }
        ∧ t.induction = { s.induction with hold := decide (s.config.line.holdThreshold ≤ s.table.length) }
        ∧ Submitted [.lineState .running .draining .drain] s t
        ∧ UnchangedBut ([.line, .induction, .queue] ++ answerParts) s t)
    ∧ (s.line.state = .running → ({ s with line := { s.line with state := .draining } } : State).isDrained →
      ∃ t, exec (.stop number []) s = .next t
        ∧ Answered t number OrderKind.stop.code [0]
        ∧ t.line = { s.line with state := .ready, runPermit := false }
        ∧ t.induction = { s.induction with slot := .empty, hold := decide (s.config.line.holdThreshold ≤ 0) }
        ∧ t.watches = s.watches.filter (fun w => w.kind != .lengthLimit)
        ∧ Submitted [.lineState .running .draining .drain, .lineState .draining .ready .drained] s t
        ∧ UnchangedBut ([.line, .induction, .watches, .queue] ++ answerParts) s t)
    ∧ (s.line.state = .draining →
      ∃ t, exec (.stop number []) s = .next t ∧ Answered t number OrderKind.stop.code [0]
        ∧ UnchangedBut answerParts s t)
    ∧ (s.line.state = .idle ∨ s.line.state = .ready ∨ s.line.state = .halted →
      ∃ t, exec (.stop number []) s = .next t ∧ Answered t number OrderKind.stop.code [4]
        ∧ UnchangedBut answerParts s t))
  ∧ (∀ s : State, s.held = none →
    (s.isDrained →
      ∃ t, exec .drainComplete s = .next t
        ∧ t.line = { s.line with state := .ready, runPermit := false }
        ∧ t.induction = { s.induction with slot := .empty, hold := decide (s.config.line.holdThreshold ≤ 0) }
        ∧ t.watches = s.watches.filter (fun w => w.kind != .lengthLimit)
        ∧ Submitted [.lineState .draining .ready .drained] s t
        ∧ UnchangedBut [.line, .induction, .watches, .queue, .transmitter] s t)
    ∧ (¬ s.isDrained → exec .drainComplete s = .next s))

/-- HALT is answered DONE in every line state and halts a RUNNING or DRAINING line with cause ORDER (R124, R125). -/
def Obligations.HaltOrderHalts : Prop :=
  ∀ (number : Half) (s : State), s.takes number OrderKind.halt.code →
    (s.line.state = .running ∨ s.line.state = .draining →
      ∃ t, exec (.halt number []) s = .next t
        ∧ Answered t number OrderKind.halt.code [0]
        ∧ HaltsTo .order s t
        ∧ Submitted [.lineState s.line.state .halted (.halt .order)] s t
        ∧ UnchangedBut (haltParts ++ answerParts) s t)
    ∧ (s.line.state = .idle ∨ s.line.state = .ready ∨ s.line.state = .halted →
      ∃ t, exec (.halt number []) s = .next t ∧ Answered t number OrderKind.halt.code [0]
        ∧ UnchangedBut answerParts s t)

/-- A line stop change and an illegal transition record their level or their latch in every line state, and halt a RUNNING
or DRAINING line with their cause (R3, R7, R118, R125). -/
def Obligations.FieldHalts : Prop :=
  (∀ s : State, s.held = none →
    (∀ level, level = s.line.lineStop → exec (.lineStopChange level) s = .next s)
    ∧ (s.line.lineStop = .active →
      ∃ t, exec (.lineStopChange .inactive) s = .next t ∧ t.line = { s.line with lineStop := .inactive }
        ∧ UnchangedBut [.line] s t)
    ∧ (s.line.lineStop = .inactive → s.line.state.working = false →
      ∃ t, exec (.lineStopChange .active) s = .next t ∧ t.line = { s.line with lineStop := .active }
        ∧ UnchangedBut [.line] s t)
    ∧ (s.line.lineStop = .inactive → s.line.state.working = true →
      ∃ t, exec (.lineStopChange .active) s = .next t
        ∧ HaltsTo .lineStop { s with line := { s.line with lineStop := .active } } t
        ∧ Submitted [.lineState s.line.state .halted (.halt .lineStop)] s t
        ∧ UnchangedBut haltParts s t))
  ∧ (∀ s : State, s.held = none →
    ∃ t, exec .illegalTransition s = .next t
      ∧ t.counter = { s.counter with
          reference := ⟨!s.counter.reference.a, !s.counter.reference.b⟩, faultLatch := true }
      ∧ (s.line.state.working = true → s.counter.faultLatch = false →
          HaltsTo .encoder s t ∧ Submitted [.lineState s.line.state .halted (.halt .encoder)] s t
            ∧ UnchangedBut (.counter :: haltParts) s t)
      ∧ (s.line.state.working = false ∨ s.counter.faultLatch = true → UnchangedBut [.counter] s t))

/-- CLR clears a HALTED or READY line: the entries are discarded with their units returned, and the latch, the high-water
mark and the watch list are cleared (R61, R105, R115, R127, R128). -/
def Obligations.ClrClears : Prop :=
  ∀ (number : Half) (s : State), s.takes number OrderKind.clr.code → (s.table.map (·.tag)).Nodup →
    (s.line.state = .halted ∨ s.line.state = .ready → s.line.lineStop = .inactive →
      ∃ t, exec (.clr number []) s = .next t
        ∧ Answered t number OrderKind.clr.code [0]
        ∧ t.line = (if s.line.state = .halted then { s.line with state := .ready, haltCause := .none } else s.line)
        ∧ t.table = []
        ∧ t.watches = []
        ∧ t.counter = { s.counter with highWater := s.counter.position, faultLatch := false }
        ∧ t.induction = { s.induction with
            slot := .empty, lastTrailing := none, hold := decide (s.config.line.holdThreshold ≤ 0) }
        ∧ (∀ d, t.destination d = { s.destination d with
            outstanding := (s.destination d).outstanding - s.reservedAt d
            remaining :=
              if 0 < (s.destination d).base then (s.destination d).remaining + s.reservedAt d
              else (s.destination d).remaining })
        ∧ Submitted (.cleared s.table.length :: if s.line.state = .halted then [.lineState .halted .ready .clear] else [])
            s t
        ∧ UnchangedBut ([.line, .table, .watches, .counter, .induction, .destinations, .queue] ++ answerParts) s t)
    ∧ (s.line.state = .idle ∨ s.line.state = .running ∨ s.line.state = .draining ∨ s.line.lineStop = .active →
      ∃ t, exec (.clr number []) s = .next t ∧ Answered t number OrderKind.clr.code [4]
        ∧ UnchangedBut answerParts s t)

/-- RSTR is answered DONE and resets nothing yet; the reset begins, with every output off, when the last byte of its answer
has been sent, and nothing is acted on until it ends (R129, R130; the state between the two ends of the reset is entry 9). -/
def Obligations.RstrResets : Prop :=
  (∀ (number : Half) (s : State), s.takes number OrderKind.rstr.code →
    ∃ t, exec (.rstr number []) s = .next t
      ∧ Answered t number OrderKind.rstr.code [0]
      ∧ t.link.resetDue = true
      ∧ UnchangedBut (.resetDue :: answerParts) s t)
  ∧ (∀ (bytes : List Byte) (s : State), s.held = none → s.link.transmitter = .sending true bytes →
      s.link.resetDue = true →
    ∃ t, exec .transmitComplete s = .next t
      ∧ t.held = some .order
      ∧ t.line.state = .idle
      ∧ t.line.runPermit = false
      ∧ t.induction.hold = false
      ∧ (∀ d, (t.diverter d).output = false)
      ∧ t.table = []
      ∧ t.link.transmitter = .free
      ∧ t.link.answer = none
      ∧ t.link.orders = []
      ∧ t.pending = s.pending)
  ∧ (∀ (c : Instr) (s : State), s.held.isSome = true → c.wellFormed = true → (∀ l, c ≠ .powerOn l) →
      (∀ l, c ≠ .pinReset l) → (∀ l, c ≠ .rstrReset l) → exec c s = .next s)
  ∧ (∀ s : State, s.held.isSome = true → s.pending = [] → step s = .next s)

/-! ### Item orders -/

/-- ASGN answered DONE: the entry takes the destination and its watch is replaced by one at the destination's point
(R14, R41, R43). -/
def Obligations.AsgnAssigns : Prop :=
  ∀ (number : Half) (p : List Byte) (d : Dest) (e : Entry) (s : State), s.takes number OrderKind.asgn.code →
    s.supervisor.state = .up → s.line.state = .running ∨ s.line.state = .draining → OrderKind.asgn.formed p →
    number1 p 2 = d.number → s.destInstalled d = true → s.entry (halfAt p 0) = some e → e.reason.forced = false →
    e.state = .travelling → reached s.counter.position (s.destPoint d e) = false →
    ∃ t, exec (.asgn number p) s = .next t
      ∧ Answered t number OrderKind.asgn.code [0]
      ∧ t.entry (halfAt p 0) = some { e with
          assigned := some d
          target := d
          reason := .none
          flags := { e.flags with
            viaAlternate := false
            lateSeen := false
            exitSeen := match d with | .runOff => e.flags.exitSeen | .station _ => false } }
      ∧ (∀ tag, tag ≠ halfAt p 0 → t.entry tag = s.entry tag)
      ∧ t.table.map (·.tag) = s.table.map (·.tag)
      ∧ t.watches = insertSorted
          ⟨s.destPoint d e, match d with | .runOff => .runoff (halfAt p 0) | .station _ => .fire (halfAt p 0)⟩
          (s.watches.filter (fun w => w.kind.tag? != some (halfAt p 0)))
      ∧ s.destPoint d e =
          (match d with
            | .runOff => e.lead + BitVec.ofNat 32 s.config.line.runoffOffset
                + (if s.config.line.exitEye = true then BitVec.ofNat 32 s.config.line.exitTolerance else 0)
            | .station st => e.lead + BitVec.ofNat 32 (s.record st).offset - BitVec.ofNat 32 (s.record st).advance)
      ∧ UnchangedBut ([.table, .watches] ++ answerParts) s t

/-- ASGN turned away, by the first of its checks that applies (R40 to R42). -/
def Obligations.AsgnRefused : Prop :=
  ∀ (number : Half) (p : List Byte) (s : State), s.takes number OrderKind.asgn.code → s.supervisor.state = .up →
    OrderKind.asgn.formed p →
    (s.line.state.working = false →
      ∃ t, exec (.asgn number p) s = .next t ∧ Answered t number OrderKind.asgn.code [4] ∧ UnchangedBut answerParts s t)
    ∧ (s.line.state.working = true → (∀ d : Dest, number1 p 2 = d.number → s.destInstalled d = false) →
      ∃ t, exec (.asgn number p) s = .next t ∧ Answered t number OrderKind.asgn.code [3] ∧ UnchangedBut answerParts s t)
    ∧ (∀ d : Dest, s.line.state.working = true → number1 p 2 = d.number → s.destInstalled d = true →
      (s.entry (halfAt p 0) = none →
        ∃ t, exec (.asgn number p) s = .next t ∧ Answered t number OrderKind.asgn.code [5]
          ∧ UnchangedBut answerParts s t)
      ∧ (∀ e, s.entry (halfAt p 0) = some e → e.reason.forced = true →
        ∃ t, exec (.asgn number p) s = .next t ∧ Answered t number OrderKind.asgn.code [4]
          ∧ UnchangedBut answerParts s t)
      ∧ (∀ e, s.entry (halfAt p 0) = some e → e.reason.forced = false → e.state ≠ .travelling →
        ∃ t, exec (.asgn number p) s = .next t ∧ Answered t number OrderKind.asgn.code [6]
          ∧ UnchangedBut answerParts s t)
      ∧ (∀ e, s.entry (halfAt p 0) = some e → e.reason.forced = false → e.state = .travelling →
        reached s.counter.position (s.destPoint d e) = true →
        ∃ t, exec (.asgn number p) s = .next t
          ∧ Answered t number OrderKind.asgn.code [6]
          ∧ t.entry (halfAt p 0) = some { e with flags := { e.flags with
              lateSeen := e.flags.lateSeen || e.assigned.isNone } }
          ∧ (∀ tag, tag ≠ halfAt p 0 → t.entry tag = s.entry tag)
          ∧ UnchangedBut (.table :: answerParts) s t))

/-- DROP sends a TRAVELLING or PENDING entry to the run-off with reason DROPPED, ahead of its run-off point; it is turned
away otherwise (R14, R40, R45, R105). -/
def Obligations.DropSends : Prop :=
  ∀ (number : Half) (p : List Byte) (s : State), s.takes number OrderKind.drop.code → s.supervisor.state = .up →
    OrderKind.drop.formed p →
    (s.line.state.working = false →
      ∃ t, exec (.drop number p) s = .next t ∧ Answered t number OrderKind.drop.code [4] ∧ UnchangedBut answerParts s t)
    ∧ (s.line.state.working = true → s.entry (halfAt p 0) = none →
      ∃ t, exec (.drop number p) s = .next t ∧ Answered t number OrderKind.drop.code [5] ∧ UnchangedBut answerParts s t)
    ∧ (∀ e, s.line.state.working = true → s.entry (halfAt p 0) = some e → e.state = .pushing ∨ e.state = .confirming →
      ∃ t, exec (.drop number p) s = .next t ∧ Answered t number OrderKind.drop.code [6] ∧ UnchangedBut answerParts s t)
    ∧ (∀ e, s.line.state.working = true → s.entry (halfAt p 0) = some e → e.state = .travelling →
      reached s.counter.position (runoffPoint s.config.line e) = false →
      ∃ t, exec (.drop number p) s = .next t
        ∧ Answered t number OrderKind.drop.code [0]
        ∧ t.entry (halfAt p 0) = some { e with target := .runOff, reason := .dropped }
        ∧ (∀ tag, tag ≠ halfAt p 0 → t.entry tag = s.entry tag)
        ∧ t.watches = insertSorted ⟨runoffPoint s.config.line e, .runoff (halfAt p 0)⟩
            (s.watches.filter (fun w => w.kind.tag? != some (halfAt p 0)))
        ∧ UnchangedBut ([.table, .watches] ++ answerParts) s t)
    ∧ (∀ e d, s.line.state.working = true → s.entry (halfAt p 0) = some e → e.state = .pending →
      e.target = .station d → e.reservedWith = some d →
      reached s.counter.position (runoffPoint s.config.line e) = false →
      ∃ t, exec (.drop number p) s = .next t
        ∧ Answered t number OrderKind.drop.code [0]
        ∧ t.entry (halfAt p 0) =
            some { e with state := .travelling, target := .runOff, reason := .dropped, reservedWith := none }
        ∧ (∀ tag, tag ≠ halfAt p 0 → t.entry tag = s.entry tag)
        ∧ t.watches = insertSorted ⟨runoffPoint s.config.line e, .runoff (halfAt p 0)⟩
            (s.watches.filter (fun w => w.kind.tag? != some (halfAt p 0)))
        ∧ ((s.diverter d).state = .waiting → (s.diverter d).pending.filter (fun x => x != halfAt p 0) = [] →
            t.diverter d = { s.diverter d with state := .idle, pending := [] }
              ∧ t.arbiter = { s.arbiter with waiting := s.arbiter.waiting.set d false })
        ∧ ((s.diverter d).state ≠ .waiting ∨ (s.diverter d).pending.filter (fun x => x != halfAt p 0) ≠ [] →
            t.diverter d = { s.diverter d with
              pending := (s.diverter d).pending.filter (fun x => x != halfAt p 0) }
              ∧ t.arbiter = s.arbiter)
        ∧ (∀ d', d' ≠ d → t.diverter d' = s.diverter d' ∧ t.waits d' = s.waits d'
            ∧ t.destination d' = s.destination d')
        ∧ t.destination d = { s.destination d with
            outstanding := (s.destination d).outstanding - 1
            remaining :=
              if 0 < (s.destination d).base then (s.destination d).remaining + 1
              else (s.destination d).remaining }
        ∧ UnchangedBut ([.table, .watches, .diverters, .arbiter, .destinations] ++ answerParts) s t)

/-- QITM and LIST answer with entries of the table and change nothing (R47, R48, R175). -/
def Obligations.ItemReads : Prop :=
  (∀ (number : Half) (p : List Byte) (s : State), s.takes number OrderKind.qitm.code → OrderKind.qitm.formed p →
    (s.entry (halfAt p 0) = none →
      ∃ t, exec (.qitm number p) s = .next t ∧ Answered t number OrderKind.qitm.code [5] ∧ UnchangedBut answerParts s t)
    ∧ (∀ (i : Nat) (e : Entry), s.table[i]? = some e → e.tag = halfAt p 0 →
      (∀ j e', j < i → s.table[j]? = some e' → e'.tag ≠ halfAt p 0) →
      ∃ t, exec (.qitm number p) s = .next t
        ∧ Answered t number OrderKind.qitm.code
            (0 :: (bytes2 e.tag ++ [BitVec.ofNat 8 i] ++ bytes4 e.lead ++ bytes2 (BitVec.ofNat 16 e.length)
              ++ [e.flags.byte, destByte e.assigned, e.target.byte, e.reason.code, e.state.code,
                match e.reservedWith with | some d => BitVec.ofNat 8 (stationNumber d) | none => 0,
                match e.stateAtHalt with | some st => st.code | none => 0xFF]
              ++ bytes4 (if e.state = .confirming then e.confirmDeadline.getD 0 else 0)))
        ∧ UnchangedBut answerParts s t))
  ∧ (∀ (number : Half) (p : List Byte) (s : State), s.takes number OrderKind.list.code → OrderKind.list.formed p →
    (95 < number1 p 0 →
      ∃ t, exec (.list number p) s = .next t ∧ Answered t number OrderKind.list.code [3] ∧ UnchangedBut answerParts s t)
    ∧ (number1 p 0 ≤ 95 →
      ∃ t, exec (.list number p) s = .next t
        ∧ (∀ shown, shown = (s.table.drop (number1 p 0)).take 7 →
            Answered t number OrderKind.list.code
              ([0, BitVec.ofNat 8 s.table.length] ++ bytes4 ((shown.head?.map (·.lead)).getD 0)
                ++ shown.flatMap (fun e => bytes2 e.tag
                    ++ bytes3 (e.lead - (shown.head?.map (·.lead)).getD 0) ++ [e.state.code])))
        ∧ UnchangedBut answerParts s t))

/-! ### Destination and diverter orders -/

/-- The orders on a station after the link check: STATE in IDLE, then BAD_ARG for a number that names no installed station
(R78, R80, R109). -/
def Obligations.StationOrdersRefused : Prop :=
  ∀ k ∈ ([.opnd, .clsd, .adjd, .dena, .ddis] : List OrderKind),
    ∀ (number : Half) (p : List Byte) (s : State), s.takes number k.code → k.formed p → s.supervisor.state = .up →
      (s.line.state = .idle →
        ∃ t, exec (k.command number p) s = .next t ∧ Answered t number k.code [4] ∧ UnchangedBut answerParts s t)
      ∧ (s.line.state ≠ .idle → (∀ d, number1 p 0 = stationNumber d → s.installed d = false) →
        ∃ t, exec (k.command number p) s = .next t ∧ Answered t number k.code [3] ∧ UnchangedBut answerParts s t)

/-- OPND opens a station with no units outstanding for a new batch and submits its DEST (R110). -/
def Obligations.OpndOpens : Prop :=
  ∀ (number : Half) (p : List Byte) (d : Station) (s : State), s.takes number OrderKind.opnd.code →
    s.grantsStation .opnd p d →
    (byteAt p 1 ≠ 0 → byteAt p 1 ≠ 1 →
      ∃ t, exec (.opnd number p) s = .next t ∧ Answered t number OrderKind.opnd.code [3] ∧ UnchangedBut answerParts s t)
    ∧ (byteAt p 1 = 0 ∨ byteAt p 1 = 1 → 0 < (s.destination d).outstanding →
      ∃ t, exec (.opnd number p) s = .next t ∧ Answered t number OrderKind.opnd.code [7] ∧ UnchangedBut answerParts s t)
    ∧ (byteAt p 1 = 0 ∨ byteAt p 1 = 1 → (s.destination d).outstanding = 0 →
      ∃ t, exec (.opnd number p) s = .next t
        ∧ Answered t number OrderKind.opnd.code [0]
        ∧ t.destination d =
            { base := number2 p 2, autoReload := decide (byteAt p 1 = 1), remaining := number2 p 2, outstanding := 0,
              filled := 0, serial := (s.destination d).serial + 1,
              causes := { (s.destination d).causes with host := false, batchEnd := false } }
        ∧ (∀ d', d' ≠ d → t.destination d' = s.destination d')
        ∧ Submitted
            [.dest d { (s.destination d).causes with host := false, batchEnd := false } (number2 p 2)] s t
        ∧ UnchangedBut ([.destinations, .queue] ++ answerParts) s t)

/-- CLSD adds HOST to the causes of a station and submits its DEST when the set changes (R102, R111). -/
def Obligations.ClsdCloses : Prop :=
  ∀ (number : Half) (p : List Byte) (d : Station) (s : State), s.takes number OrderKind.clsd.code →
    s.grantsStation .clsd p d →
    ((s.destination d).causes.host = true →
      ∃ t, exec (.clsd number p) s = .next t ∧ Answered t number OrderKind.clsd.code [0] ∧ UnchangedBut answerParts s t)
    ∧ ((s.destination d).causes.host = false →
      ∃ t, exec (.clsd number p) s = .next t
        ∧ Answered t number OrderKind.clsd.code [0]
        ∧ t.destination d =
            { s.destination d with causes := { (s.destination d).causes with host := true } }
        ∧ (∀ d', d' ≠ d → t.destination d' = s.destination d')
        ∧ Submitted [.dest d { (s.destination d).causes with host := true } (s.destination d).remaining] s t
        ∧ UnchangedBut ([.destinations, .queue] ++ answerParts) s t)

/-- ADJD sets remaining of a counted station's batch within its bound, and the terminal count test follows (R107, R108,
R112). -/
def Obligations.AdjdAdjusts : Prop :=
  ∀ (number : Half) (p : List Byte) (d : Station) (s : State), s.takes number OrderKind.adjd.code →
    s.grantsStation .adjd p d →
    ((s.destination d).base = 0 →
      ∃ t, exec (.adjd number p) s = .next t ∧ Answered t number OrderKind.adjd.code [4] ∧ UnchangedBut answerParts s t)
    ∧ (0 < (s.destination d).base → (s.destination d).base < (s.destination d).outstanding + number2 p 2 →
      ∃ t, exec (.adjd number p) s = .next t ∧ Answered t number OrderKind.adjd.code [3] ∧ UnchangedBut answerParts s t)
    ∧ (0 < (s.destination d).base → (s.destination d).outstanding + number2 p 2 ≤ (s.destination d).base →
      ∃ t, exec (.adjd number p) s = .next t
        ∧ Answered t number OrderKind.adjd.code [0]
        ∧ (t.destination d).remaining + (t.destination d).outstanding + (t.destination d).filled = (s.destination d).base
        ∧ (∀ d', d' ≠ d → t.destination d' = s.destination d')
        ∧ (0 < number2 p 2 ∨ 0 < (s.destination d).outstanding ∨ (s.destination d).causes.batchEnd = true →
            t.destination d = { s.destination d with
              remaining := number2 p 2
              filled := (s.destination d).base - (s.destination d).outstanding - number2 p 2 }
            ∧ UnchangedBut (.destinations :: answerParts) s t)
        ∧ (number2 p 2 = 0 → (s.destination d).outstanding = 0 → (s.destination d).causes.batchEnd = false →
            (s.destination d).autoReload = true →
            t.destination d = { s.destination d with
              remaining := (s.destination d).base, filled := 0, serial := (s.destination d).serial + 1 }
            ∧ Submitted [.batch d (s.destination d).serial (s.destination d).base true] s t)
        ∧ (number2 p 2 = 0 → (s.destination d).outstanding = 0 → (s.destination d).causes.batchEnd = false →
            (s.destination d).autoReload = false →
            t.destination d = { s.destination d with
              remaining := 0, filled := (s.destination d).base
              causes := { (s.destination d).causes with batchEnd := true } }
            ∧ Submitted [.batch d (s.destination d).serial (s.destination d).base false,
                .dest d { (s.destination d).causes with batchEnd := true } 0] s t)
        ∧ UnchangedBut ([.destinations, .queue] ++ answerParts) s t)

/-- QDST answers with a destination record and changes nothing (R109, R113, R175). -/
def Obligations.QdstReads : Prop :=
  ∀ (number : Half) (p : List Byte) (s : State), s.takes number OrderKind.qdst.code → OrderKind.qdst.formed p →
    ∃ t, exec (.qdst number p) s = .next t
      ∧ UnchangedBut answerParts s t
      ∧ (s.line.state = .idle → Answered t number OrderKind.qdst.code [4])
      ∧ (s.line.state ≠ .idle → (∀ d : Dest, number1 p 0 = d.number → s.destInstalled d = false) →
          Answered t number OrderKind.qdst.code [3])
      ∧ (∀ (d : Dest) (r : DestRecord), s.line.state ≠ .idle → number1 p 0 = d.number → s.destInstalled d = true →
          r = (match d with | .runOff => s.runOff | .station st => s.destination st) →
          Answered t number OrderKind.qdst.code
            ([0, BitVec.ofNat 8 d.number, r.causes.byte, if r.autoReload = true then 1 else 0]
              ++ bytes2 (BitVec.ofNat 16 r.base) ++ bytes2 (BitVec.ofNat 16 r.remaining)
              ++ [BitVec.ofNat 8 r.outstanding] ++ bytes2 (BitVec.ofNat 16 r.filled) ++ bytes2 r.serial))

/-- DENA makes a disabled diverter IDLE and removes DISABLED from its destination's causes; an enabled one stays as it is
(R80). -/
def Obligations.DenaEnables : Prop :=
  ∀ (number : Half) (p : List Byte) (d : Station) (s : State), s.takes number OrderKind.dena.code →
    s.grantsStation .dena p d →
    ((s.diverter d).disabled = false →
      ∃ t, exec (.dena number p) s = .next t ∧ Answered t number OrderKind.dena.code [0] ∧ UnchangedBut answerParts s t)
    ∧ ((s.diverter d).disabled = true →
      ∃ t, exec (.dena number p) s = .next t
        ∧ Answered t number OrderKind.dena.code [0]
        ∧ t.diverter d = { s.diverter d with disabled := false, state := .idle }
        ∧ t.destination d =
            { s.destination d with causes := { (s.destination d).causes with disabled := false } }
        ∧ (∀ d', d' ≠ d → t.diverter d' = s.diverter d' ∧ t.destination d' = s.destination d')
        ∧ ((s.destination d).causes.disabled = true → Submitted
            [.dest d { (s.destination d).causes with disabled := false } (s.destination d).remaining] s t)
        ∧ UnchangedBut ([.diverters, .destinations, .queue] ++ answerParts) s t)

/-- DDIS switches a diverter off in one step: its push ends with the items CONFIRMING, its held items go back to the belt,
DISABLED joins its destination's causes, and a slot that it held goes to the first waiting diverter (R65, R78, R79, R88). The
order of several items that a grant releases at once is the model's choice (entry 23). -/
def Obligations.DdisDisables : Prop :=
  ∀ (number : Half) (p : List Byte) (d : Station) (s : State), s.takes number OrderKind.ddis.code →
    s.grantsStation .ddis p d →
    ((s.diverter d).disabled = true →
      ∃ t, exec (.ddis number p) s = .next t ∧ Answered t number OrderKind.ddis.code [0] ∧ UnchangedBut answerParts s t)
    ∧ ((s.diverter d).disabled = false → DriveLaw s →
      ∃ t, exec (.ddis number p) s = .next t
        ∧ Answered t number OrderKind.ddis.code [0]
        ∧ t.diverter d =
            { state := .off, disabled := true, testPulse := false, push := [], pending := [], maxOnTimer := none,
              recoveryTimer := none, pulseTimer := none, output := false }
        ∧ t.waits d = false
        ∧ (t.destination d).causes = { (s.destination d).causes with disabled := true }
        ∧ DriveLaw t
        ∧ NoSlotWasted t
        ∧ UnchangedBut ([.watches, .induction, .table, .diverters, .arbiter, .monitors, .destinations, .runOff, .line,
            .queue] ++ answerParts) s t)
    ∧ ((s.diverter d).state = .idle → (s.diverter d).disabled = false → DriveLaw s → NoSlotWasted s → ¬ s.isDrained →
      (s.destination d).causes.disabled = false →
      ∃ t, exec (.ddis number p) s = .next t
        ∧ Submitted [.dest d { (s.destination d).causes with disabled := true } (s.destination d).remaining] s t
        ∧ (∀ d', d' ≠ d → t.diverter d' = s.diverter d' ∧ t.destination d' = s.destination d')
        ∧ UnchangedBut ([.diverters, .destinations, .queue] ++ answerParts) s t)
    ∧ (∀ (tag : Tag) (e : Entry), (s.diverter d).push = [tag] → (s.diverter d).pending = [] → DriveLaw s →
      (∀ d', s.waits d' = false) → s.entry tag = some e → (s.monitor d).confirm = [] →
      ∃ t, exec (.ddis number p) s = .next t
        ∧ t.entry tag = some { e with
            flags := { e.flags with truncated := true }
            state := .confirming
            confirmDeadline := some (s.timeStamp + BitVec.ofNat 32 (s.record d).confirmTime) }
        ∧ (t.monitor d).confirm = [tag]
        ∧ (t.monitor d).deadlineTimer = some (s.timeStamp + BitVec.ofNat 32 (s.record d).confirmTime)
        ∧ t.watches = s.watches.filter (fun w => w.kind.tag? != some tag)
        ∧ t.arbiter.slotsInUse = s.arbiter.slotsInUse - 1)
    ∧ (∀ (tag : Tag) (e : Entry), (s.diverter d).push = [] → (s.diverter d).pending = [tag] → DriveLaw s →
      NoSlotWasted s → s.entry tag = some e → e.reservedWith = some d → (s.diverter d).state ≠ .energised →
      reached s.counter.position (runoffPoint s.config.line e) = false →
      ∃ t, exec (.ddis number p) s = .next t
        ∧ t.entry tag =
            some { e with state := .travelling, target := .runOff, reason := .disabled, reservedWith := none }
        ∧ t.watches = insertSorted ⟨runoffPoint s.config.line e, .runoff tag⟩
            (s.watches.filter (fun w => w.kind.tag? != some tag))
        ∧ (t.destination d).outstanding = (s.destination d).outstanding - 1)
    ∧ (∀ (items table : List Entry) (watches : List Watch) (left : State) (drained : List NoticeBody),
      (s.diverter d).disabled = false → TagLaw s → DriveLaw s → NoSlotWasted s → PlaceLaw s → MonitorLaw s →
      items = (s.diverter d).pending.filterMap s.entry →
      (∀ e ∈ items, reached s.counter.position (runoffPoint s.config.line e) = false) →
      table = (s.confirmingTable d (s.diverter d).push true).map (fun e =>
        if e.tag ∈ (s.diverter d).pending then
          { e with state := .travelling, target := .runOff, reason := .disabled, reservedWith := none }
        else e) →
      watches = runoffWatches s.config.line items
        (s.watches.filter (fun w => (s.diverter d).push.all (fun tag => w.kind.tag? != some tag))) →
      left = setMonitor d (fun _ => s.monitorWith { s with table := table } d (s.diverter d).push)
        { s.withDiverter d { Diverter.atReset with disabled := true } with table := table, watches := watches } →
      drained = (if left.isDrained then [.lineState .draining .ready .drained] else []) →
      ∃ t, exec (.ddis number p) s = .next t
        ∧ (∀ tag ∈ (s.diverter d).push, ∀ e ∈ s.entry tag, t.entry tag = some { e with
            flags := { e.flags with truncated := true }
            state := .confirming
            confirmDeadline := some (s.timeStamp + BitVec.ofNat 32 (s.record d).confirmTime) })
        ∧ t.monitor d = { s.monitor d with
            confirm := (s.monitor d).confirm ++ (s.diverter d).push
            deadlineTimer :=
              if (s.monitor d).confirm = [] ∧ (s.diverter d).push ≠ [] then
                some (s.timeStamp + BitVec.ofNat 32 (s.record d).confirmTime)
              else (s.monitor d).deadlineTimer }
        ∧ (∀ e ∈ items, t.entry e.tag =
            some { e with state := .travelling, target := .runOff, reason := .disabled, reservedWith := none })
        ∧ t.destination d = { s.destination d with
            outstanding := (s.destination d).outstanding - items.length
            remaining :=
              if 0 < (s.destination d).base then (s.destination d).remaining + items.length
              else (s.destination d).remaining
            causes := { (s.destination d).causes with disabled := true } }
        ∧ (∀ d', d' ≠ d → t.destination d' = s.destination d'
            ∧ ((∀ c, s.waits c = true → s.releasesAhead c) → t.monitor d' = s.monitor d'))
        ∧ Submitted
            ((if (s.destination d).causes.disabled = true then []
              else [.dest d { (s.destination d).causes with disabled := true } (t.destination d).remaining]) ++ drained) s t
        ∧ ((s.diverter d).state = .energised → FreesSlot left t)
        ∧ ((s.diverter d).state ≠ .energised →
            (∀ d', t.diverter d' = left.diverter d') ∧ t.arbiter = left.arbiter ∧ t.table = table)
        ∧ (left.isDrained → DrainsTo left t
            ∧ UnchangedBut ([.watches, .diverters, .arbiter, .destinations, .induction, .line, .queue] ++ answerParts) s t)
        ∧ (¬ left.isDrained →
            ((s.diverter d).state ≠ .energised ∨ (∀ c, s.waits c = false) → t.watches = watches)
            ∧ UnchangedBut ([.watches, .table, .diverters, .arbiter, .monitors, .destinations, .queue] ++ answerParts)
                s t))

/-- TFIR energises an idle diverter of a READY line for a test pulse when a slot is free (R82). -/
def Obligations.TfirPulses : Prop :=
  ∀ (number : Half) (p : List Byte) (s : State), s.takes number OrderKind.tfir.code → s.supervisor.state = .up →
    OrderKind.tfir.formed p →
    (s.line.state ≠ .ready →
      ∃ t, exec (.tfir number p) s = .next t ∧ Answered t number OrderKind.tfir.code [4] ∧ UnchangedBut answerParts s t)
    ∧ (s.line.state = .ready → (∀ d, number1 p 0 = stationNumber d → s.installed d = false
          ∨ number2 p 2 = 0 ∨ (s.record d).maxOn < number2 p 2) →
      ∃ t, exec (.tfir number p) s = .next t ∧ Answered t number OrderKind.tfir.code [3] ∧ UnchangedBut answerParts s t)
    ∧ (∀ d, s.line.state = .ready → number1 p 0 = stationNumber d → s.installed d = true → 1 ≤ number2 p 2 →
      number2 p 2 ≤ (s.record d).maxOn →
      ((s.diverter d).state ≠ .idle ∨ s.arbiter.budget ≤ s.arbiter.slotsInUse →
        ∃ t, exec (.tfir number p) s = .next t ∧ Answered t number OrderKind.tfir.code [7]
          ∧ UnchangedBut answerParts s t)
      ∧ ((s.diverter d).state = .idle → s.arbiter.slotsInUse < s.arbiter.budget →
        ∃ t, exec (.tfir number p) s = .next t
          ∧ Answered t number OrderKind.tfir.code [0]
          ∧ t.diverter d = { s.diverter d with
              state := .energised, testPulse := true, push := [], output := true,
              pulseTimer := some (s.timeStamp + BitVec.ofNat 32 (number2 p 2)) }
          ∧ (∀ d', d' ≠ d → t.diverter d' = s.diverter d')
          ∧ t.arbiter = { s.arbiter with slotsInUse := s.arbiter.slotsInUse + 1 }
          ∧ UnchangedBut ([.diverters, .arbiter] ++ answerParts) s t))

/-! ### Link orders -/

/-- LINK sets supervision time, loss action and retry time together, or none of them (R165). -/
def Obligations.LinkSets : Prop :=
  ∀ (number : Half) (p : List Byte) (s : State), s.takes number OrderKind.link.code → OrderKind.link.formed p →
    ((1 ≤ number2 p 0 ∧ number2 p 0 ≤ 49) ∨ 10000 < number2 p 0 ∨ 2 < number1 p 2 ∨ number2 p 4 < 20
        ∨ 2000 < number2 p 4 →
      ∃ t, exec (.link number p) s = .next t ∧ Answered t number OrderKind.link.code [3] ∧ UnchangedBut answerParts s t)
    ∧ (number2 p 0 = 0 ∨ (50 ≤ number2 p 0 ∧ number2 p 0 ≤ 10000) → number1 p 2 ≤ 2 → 20 ≤ number2 p 4 →
      number2 p 4 ≤ 2000 →
      ∃ t, exec (.link number p) s = .next t
        ∧ Answered t number OrderKind.link.code [0]
        ∧ t.supervisor =
            { state := s.supervisor.state, time := number2 p 0,
              action := if number1 p 2 = 0 then .continueOn else if number1 p 2 = 1 then .runoffAll else .halt,
              timer := if number2 p 0 = 0 then none else some (s.timeStamp + BitVec.ofNat 32 (number2 p 0)) }
        ∧ t.queue = { s.queue with retryTime := number2 p 4 }
        ∧ UnchangedBut ([.supervisor, .queue] ++ answerParts) s t)

/-- WIND sets the window and works the retry timer; a free transmitter takes a notice that it makes eligible (R159, R160,
R162; the moment of that choice is entry 7). -/
def Obligations.WindSets : Prop :=
  ∀ (number : Half) (p : List Byte) (s : State), s.takes number OrderKind.wind.code → OrderKind.wind.formed p →
    (16 < number1 p 0 →
      ∃ t, exec (.wind number p) s = .next t ∧ Answered t number OrderKind.wind.code [3] ∧ UnchangedBut answerParts s t)
    ∧ (∀ q : ReportQueue, number1 p 0 ≤ 16 →
      q = { s.queue with
        window := number1 p 0
        retryTimer :=
          if number1 p 0 = 0 then none
          else if s.queue.window = 0 ∧ 0 < s.queue.inFlight then
            some (s.timeStamp + BitVec.ofNat 32 s.queue.retryTime)
          else s.queue.retryTimer } →
      ∃ t, exec (.wind number p) s = .next t
        ∧ Answered t number OrderKind.wind.code [0]
        ∧ (s.link.transmitter ≠ .free ∨ q.eligible = false → t.queue = q)
        ∧ (s.link.transmitter = .free → q.eligible = true → q.notices[q.distance q.sendPointer]? ≠ none →
            t.queue = q.recordSent s.timeStamp)
        ∧ UnchangedBut (.queue :: answerParts) s t)

/-- A valid ACK removes the notices from the head through its number; any other changes nothing (R161, R162; entry 7). -/
def Obligations.AckAcknowledges : Prop :=
  ∀ (number : Half) (p : List Byte) (s : State), s.takes number OrderKind.ack.code → OrderKind.ack.formed p →
    (s.queue.inFlight ≤ s.queue.distance (halfAt p 0) →
      ∃ t, exec (.ack number p) s = .next t ∧ Answered t number OrderKind.ack.code [3] ∧ UnchangedBut answerParts s t)
    ∧ (∀ (n : Nat) (q : ReportQueue), n = s.queue.distance (halfAt p 0) → n < s.queue.inFlight →
      q = { s.queue with
        notices := s.queue.notices.drop (n + 1)
        head := halfAt p 0 + 1
        sendPointer := if s.queue.distance s.queue.sendPointer ≤ n then halfAt p 0 + 1 else s.queue.sendPointer
        retryTimer :=
          if 0 < (s.queue.highestSent + 1 - (halfAt p 0 + 1)).toNat ∧ 0 < s.queue.window then
            some (s.timeStamp + BitVec.ofNat 32 s.queue.retryTime)
          else none } →
      ∃ t, exec (.ack number p) s = .next t
        ∧ Answered t number OrderKind.ack.code [0]
        ∧ (s.link.transmitter ≠ .free ∨ q.eligible = false → t.queue = q)
        ∧ (s.link.transmitter = .free → q.eligible = true → q.notices[q.distance q.sendPointer]? ≠ none →
            t.queue = q.recordSent s.timeStamp)
        ∧ UnchangedBut (.queue :: answerParts) s t)

/-- STAT answers with the status and clears the error counts on request (R154, R175). -/
def Obligations.StatReports : Prop :=
  ∀ (number : Half) (p : List Byte) (s : State), s.takes number OrderKind.stat.code → OrderKind.stat.formed p →
    (byteAt p 0 ≠ 0 → byteAt p 0 ≠ 1 →
      ∃ t, exec (.stat number p) s = .next t ∧ Answered t number OrderKind.stat.code [3] ∧ UnchangedBut answerParts s t)
    ∧ (byteAt p 0 = 0 ∨ byteAt p 0 = 1 →
      ∃ t, exec (.stat number p) s = .next t
        ∧ Answered t number OrderKind.stat.code
            ([0, s.line.state.code, s.line.haltCause.code, s.supervisor.state.code, BitVec.ofNat 8 s.table.length,
                BitVec.ofNat 8 s.queue.occupancy, if s.counter.belt = .moving then 1 else 0,
                if s.counter.faultLatch = true then 1 else 0, BitVec.ofNat 8 s.energisedCount, 0]
              ++ bytes4 s.counter.position ++ bytes2 (BitVec.ofNat 16 s.link.framingErrors)
              ++ bytes2 (BitVec.ofNat 16 s.link.overruns) ++ bytes4 s.timeStamp)
        ∧ (byteAt p 0 = 0 → UnchangedBut answerParts s t)
        ∧ (byteAt p 0 = 1 → t.link.framingErrors = 0 ∧ t.link.overruns = 0 ∧ t.link.rate = s.link.rate
            ∧ t.link.receiver = s.link.receiver ∧ t.link.gapTimer = s.link.gapTimer)
        ∧ UnchangedBut (.reception :: answerParts) s t)

/-- The loss of the link and its return: the supervision timer's expiry with its loss actions, and RSUM (R105, R166, R167,
R169). That the expiry of a timer that has not expired changes nothing is the model's choice (entries 3 and 4). -/
def Obligations.LinkLostAndRestored : Prop :=
  (∀ s : State, s.held = none →
    (expired s.supervisor.timer s = false → exec .supervisionTimerExpiry s = .next s)
    ∧ (∀ timer, expired s.supervisor.timer s = true →
      timer = (if s.supervisor.time = 0 then none else some (s.timeStamp + BitVec.ofNat 32 s.supervisor.time)) →
      (s.supervisor.state = .lost →
        ∃ t, exec .supervisionTimerExpiry s = .next t ∧ t.supervisor = { s.supervisor with timer := timer }
          ∧ UnchangedBut [.supervisor] s t)
      ∧ (s.supervisor.state = .up → s.line.state.working = false ∨ s.supervisor.action = .continueOn →
        ∃ t, exec .supervisionTimerExpiry s = .next t
          ∧ t.supervisor = { s.supervisor with state := .lost, timer := timer }
          ∧ Submitted [.link false] s t
          ∧ UnchangedBut [.supervisor, .queue, .transmitter] s t)
      ∧ (s.supervisor.state = .up → s.line.state.working = true → s.supervisor.action = .halt →
        ∃ t, exec .supervisionTimerExpiry s = .next t
          ∧ t.supervisor = { s.supervisor with state := .lost, timer := timer }
          ∧ HaltsTo .link s t
          ∧ Submitted [.link false, .lineState s.line.state .halted (.halt .link)] s t
          ∧ UnchangedBut (.supervisor :: haltParts) s t)
      ∧ (s.supervisor.state = .up → s.line.state.working = true → s.supervisor.action = .runoffAll → s.table ≠ [] →
        (s.table.map (·.tag)).Nodup →
        (∀ e ∈ s.table, e.target ≠ .runOff → e.state = .travelling ∨ e.state = .pending →
          reached s.counter.position (runoffPoint s.config.line e) = false) →
        (∀ e ∈ s.table, ∀ d, e.state = .pending → e.target = .station d → e.reservedWith = some d) →
        ∃ t, exec .supervisionTimerExpiry s = .next t
          ∧ t.supervisor = { s.supervisor with state := .lost, timer := timer }
          ∧ t.table = s.table.map (fun e =>
              if e.target ≠ .runOff ∧ (e.state = .travelling ∨ e.state = .pending) then
                { e with
                  state := .travelling, target := .runOff, reason := .linkLost
                  reservedWith := if e.state = .pending then none else e.reservedWith }
              else e)
          ∧ Submitted [.link false] s t
          ∧ UnchangedBut [.supervisor, .queue, .transmitter, .table, .watches, .diverters, .arbiter, .destinations] s t)
      ∧ (s.supervisor.state = .up → s.line.state.working = true → s.supervisor.action = .runoffAll → s.table = [] →
        ∃ t, exec .supervisionTimerExpiry s = .next t
          ∧ t.supervisor = { s.supervisor with state := .lost, timer := timer }
          ∧ (¬ s.isDrained → Submitted [.link false] s t ∧ UnchangedBut [.supervisor, .queue, .transmitter] s t)
          ∧ (s.isDrained → Submitted [.link false, .lineState .draining .ready .drained] s t ∧ DrainsTo s t
              ∧ UnchangedBut [.supervisor, .queue, .transmitter, .line, .induction, .watches] s t))
      ∧ (∀ sent : List Entry, s.supervisor.state = .up → s.line.state.working = true → s.supervisor.action = .runoffAll →
        s.table ≠ [] → TagLaw s → DriveLaw s → PlaceLaw s →
        sent = s.table.filter (fun e => e.target != .runOff && (e.state == .travelling || e.state == .pending)) →
        (∀ e ∈ sent, reached s.counter.position (runoffPoint s.config.line e) = false) →
        ∃ t, exec .supervisionTimerExpiry s = .next t
          ∧ t.watches = runoffWatches s.config.line sent s.watches
          ∧ (∀ d, t.diverter d = { s.diverter d with
              pending := []
              state := if (s.diverter d).state = .waiting then .idle else (s.diverter d).state })
          ∧ t.arbiter = { s.arbiter with waiting := Vector.replicate 16 false }
          ∧ (∀ d, t.destination d = { s.destination d with
              outstanding := (s.destination d).outstanding - (s.diverter d).pending.length
              remaining :=
                if 0 < (s.destination d).base then (s.destination d).remaining + (s.diverter d).pending.length
                else (s.destination d).remaining }))))
  ∧ (∀ (number : Half) (s : State), s.takes number OrderKind.rsum.code →
    (s.supervisor.state = .up →
      ∃ t, exec (.rsum number []) s = .next t ∧ Answered t number OrderKind.rsum.code [0] ∧ UnchangedBut answerParts s t)
    ∧ (s.supervisor.state = .lost →
      ∃ t, exec (.rsum number []) s = .next t
        ∧ Answered t number OrderKind.rsum.code [0]
        ∧ t.supervisor = { s.supervisor with
            state := .up
            timer :=
              if s.supervisor.time = 0 then none else some (s.timeStamp + BitVec.ofNat 32 s.supervisor.time) }
        ∧ Submitted [.link true] s t
        ∧ UnchangedBut ([.supervisor, .queue] ++ answerParts) s t))

/-! ### The belt -/

/-- A forward tick moves the counter, the high-water mark and standstill detection, and delivers the watches it reaches one
after another, each as its delivery command does; afterwards every watch is ahead of the line (R3 to R5, R8, R12; the bound
is entry 18, the delivery commands are entry 12). -/
def Obligations.ForwardTickCounts : Prop :=
  (∀ reference new : Sample,
    (classify reference new = .noChange ↔ new = reference)
    ∧ (classify reference new = .forward ↔ (reference, new) ∈
        [(⟨false, false⟩, ⟨true, false⟩), (⟨true, false⟩, ⟨true, true⟩), (⟨true, true⟩, ⟨false, true⟩),
          ((⟨false, true⟩, ⟨false, false⟩) : Sample × Sample)])
    ∧ (classify reference new = .reverse ↔ (reference, new) ∈
        [(⟨true, false⟩, ⟨false, false⟩), (⟨true, true⟩, ⟨true, false⟩), (⟨false, true⟩, ⟨true, true⟩),
          ((⟨false, false⟩, ⟨false, true⟩) : Sample × Sample)]))
  ∧ (∀ (c : PositionCounter) (s : State), s.held = none →
    c.position = s.counter.position + 1 →
    classify s.counter.reference c.reference = .forward →
    c.highWater =
      (if 0 < (s.counter.position + 1 - s.counter.highWater).toInt then s.counter.position + 1
        else s.counter.highWater) →
    c.faultLatch = s.counter.faultLatch →
    c.belt = (if s.line.state = .idle then s.counter.belt else .moving) →
    c.standstill =
      (if s.line.state = .idle then s.counter.standstill
        else some (s.timeStamp + BitVec.ofNat 32 s.config.line.standstillTime)) →
    (∃ t, exec .forwardTick s = .next t ∧ t.counter = c ∧ t.timeStamp = s.timeStamp ∧ t.config = s.config)
    ∧ (s.watches = [] ∨ (∃ w rest, s.watches = w :: rest ∧ reached c.position w.position = false) → ¬ s.isDrained →
      ∃ t, exec .forwardTick s = .next t
        ∧ Submitted (if s.line.state ≠ .idle ∧ s.counter.belt = .stopped then [.belt .moving] else []) s t
        ∧ UnchangedBut [.counter, .queue, .transmitter] s t)
    ∧ (∀ (n : Nat) (v : Nat → State),
      v 0 = (if s.line.state ≠ .idle ∧ s.counter.belt = .stopped then submit (.belt .moving) { s with counter := c }
        else { s with counter := c }) →
      (∀ i < n, ∃ w rest, (v i).watches = w :: rest ∧ reached (v i).counter.position w.position = true
        ∧ v (i + 1) = deliver w (v i)) →
      (∀ w ∈ (v n).watches.head?, reached (v n).counter.position w.position = false) → n ≤ 4 * s.watches.length →
      exec .forwardTick s = .next (drainTest (v n)))
    ∧ (LineLaw s → TagLaw s → DriveLaw s → NoSlotWasted s → TrackingLaw s →
      ∃ t, exec .forwardTick s = .next t ∧ ∀ w ∈ t.watches, reached t.counter.position w.position = false))
  ∧ (∀ (w : Watch) (rest : List Watch) (s : State), s.held = none → s.watches = w :: rest →
    reached s.counter.position w.position = true → exec w.kind.command s = .next (drainTest (deliver w s)))

/-- A reverse tick moves the counter back, counts as movement, delivers nothing, and halts a RUNNING or DRAINING line once
the excursion exceeds the tolerance; the standstill timer's expiry stops the belt flag (R3 to R6, R8, R15). That the expiry
of a timer that has not expired changes nothing is the model's choice (entries 3 and 4). -/
def Obligations.ReverseTickAndStandstill : Prop :=
  (∀ (c : PositionCounter) (s : State), s.held = none →
    c.position = s.counter.position - 1 →
    classify s.counter.reference c.reference = .reverse →
    c.highWater = s.counter.highWater →
    c.faultLatch = s.counter.faultLatch →
    c.belt = (if s.line.state = .idle then s.counter.belt else .moving) →
    c.standstill =
      (if s.line.state = .idle then s.counter.standstill
        else some (s.timeStamp + BitVec.ofNat 32 s.config.line.standstillTime)) →
    ∃ t, exec .reverseTick s = .next t
      ∧ t.counter = c
      ∧ (s.line.state.working = true → s.config.line.reverseTolerance < (c.highWater - c.position).toNat →
          HaltsTo .reverse s t
          ∧ Submitted ((if s.counter.belt = .stopped then [.belt .moving] else [])
              ++ [.lineState s.line.state .halted (.halt .reverse)]) s t
          ∧ UnchangedBut (.counter :: haltParts) s t)
      ∧ (s.line.state.working = false ∨ (c.highWater - c.position).toNat ≤ s.config.line.reverseTolerance →
          Submitted (if s.line.state ≠ .idle ∧ s.counter.belt = .stopped then [.belt .moving] else []) s t
          ∧ UnchangedBut [.counter, .queue, .transmitter] s t))
  ∧ (∀ s : State, s.held = none →
    (s.line.state ≠ .idle → expired s.counter.standstill s = true →
      ∃ t, exec .standstillTimerExpiry s = .next t
        ∧ t.counter = { s.counter with belt := .stopped, standstill := none }
        ∧ Submitted [.belt .stopped] s t
        ∧ UnchangedBut [.counter, .queue, .transmitter] s t)
    ∧ (s.line.state = .idle ∨ expired s.counter.standstill s = false → exec .standstillTimerExpiry s = .next s))

/-! ### Watch deliveries -/

/-- A FIRE watch runs the fire decision for its entry: the destination admits and the item is handed over, or the item goes
to the alternate, or to the run-off; a release, late, run-off or fire point that the line has reached already is acted on
within the decision (R13, R49 to R51, R67, R68, R103, R104). -/
def Obligations.FireWatchDecides : Prop :=
  ∀ (tag : Tag) (rest : List Watch) (e : Entry) (d : Station) (s : State), s.delivers (.fire tag) rest → DriveLaw s →
    NoSlotWasted s → s.entry tag = some e → e.target = .station d → rest.all (fun w => w.kind.tag? != some tag) = true →
    ((s.destination d).open → (s.diverter d).state = .idle → s.slotFree = true →
      reached s.counter.position (releasePoint (s.record d) e) = false →
      ∃ t, exec (.fireWatch tag) s = .next t
        ∧ t.diverter d = { s.diverter d with
            state := .energised, output := true, push := [tag]
            maxOnTimer := some (s.timeStamp + BitVec.ofNat 32 (s.record d).maxOn) }
        ∧ t.arbiter = { s.arbiter with slotsInUse := s.arbiter.slotsInUse + 1, lastGranted := d }
        ∧ t.entry tag = some { e with state := .pushing, reservedWith := some d }
        ∧ t.watches = insertSorted ⟨releasePoint (s.record d) e, .release d tag⟩ rest
        ∧ t.destination d = (s.destination d).plusOne
        ∧ (∀ d', d' ≠ d → t.diverter d' = s.diverter d' ∧ t.destination d' = s.destination d')
        ∧ (∀ tag', tag' ≠ tag → t.entry tag' = s.entry tag')
        ∧ UnchangedBut [.watches, .table, .diverters, .arbiter, .destinations] s t)
    ∧ ((s.destination d).open → (s.diverter d).state = .idle → s.slotFree = false →
      reached s.counter.position (latePoint (s.record d) e) = false →
      ∃ t, exec (.fireWatch tag) s = .next t
        ∧ t.diverter d = { s.diverter d with state := .waiting, pending := [tag] }
        ∧ t.waits d = true
        ∧ t.entry tag = some { e with state := .pending, reservedWith := some d }
        ∧ t.watches = insertSorted ⟨latePoint (s.record d) e, .late d tag⟩ rest
        ∧ t.destination d = (s.destination d).plusOne
        ∧ (∀ d', d' ≠ d → t.diverter d' = s.diverter d' ∧ t.waits d' = s.waits d'
            ∧ t.destination d' = s.destination d')
        ∧ (∀ tag', tag' ≠ tag → t.entry tag' = s.entry tag')
        ∧ UnchangedBut [.watches, .table, .diverters, .arbiter, .destinations] s t)
    ∧ ((s.destination d).open → (s.diverter d).state = .energised → (s.diverter d).testPulse = false →
      (s.diverter d).push.length < 4 → reached s.counter.position (releasePoint (s.record d) e) = false →
      ∃ t, exec (.fireWatch tag) s = .next t
        ∧ t.diverter d = { s.diverter d with push := (s.diverter d).push ++ [tag] }
        ∧ t.entry tag = some { e with state := .pushing, reservedWith := some d }
        ∧ t.watches = insertSorted ⟨releasePoint (s.record d) e, .release d tag⟩ rest
        ∧ t.destination d = (s.destination d).plusOne
        ∧ (∀ d', d' ≠ d → t.diverter d' = s.diverter d' ∧ t.destination d' = s.destination d')
        ∧ (∀ tag', tag' ≠ tag → t.entry tag' = s.entry tag')
        ∧ UnchangedBut [.watches, .table, .diverters, .destinations] s t)
    ∧ ((s.destination d).open → (s.diverter d).state = .waiting ∨ (s.diverter d).state = .recovery
        ∨ ((s.diverter d).state = .energised ∧ ((s.diverter d).testPulse = true ∨ 4 ≤ (s.diverter d).push.length)) →
      ((s.diverter d).pending.length < 4 → reached s.counter.position (latePoint (s.record d) e) = false →
        ∃ t, exec (.fireWatch tag) s = .next t
          ∧ t.diverter d = { s.diverter d with pending := (s.diverter d).pending ++ [tag] }
          ∧ t.entry tag = some { e with state := .pending, reservedWith := some d }
          ∧ t.watches = insertSorted ⟨latePoint (s.record d) e, .late d tag⟩ rest
          ∧ t.destination d = (s.destination d).plusOne
          ∧ (∀ d', d' ≠ d → t.diverter d' = s.diverter d' ∧ t.destination d' = s.destination d')
          ∧ (∀ tag', tag' ≠ tag → t.entry tag' = s.entry tag')
          ∧ UnchangedBut [.watches, .table, .diverters, .destinations] s t)
      ∧ ((s.diverter d).pending.length = 4 → reached s.counter.position (runoffPoint s.config.line e) = false →
        ∃ t, exec (.fireWatch tag) s = .next t
          ∧ t.entry tag =
              some { e with state := .travelling, target := .runOff, reason := .limit, reservedWith := none }
          ∧ t.watches = insertSorted ⟨runoffPoint s.config.line e, .runoff tag⟩ rest
          ∧ (∀ tag', tag' ≠ tag → t.entry tag' = s.entry tag')
          ∧ UnchangedBut [.watches, .table] s t))
    ∧ (¬ (s.destination d).open → e.flags.viaAlternate = true ∨ (s.record d).alternate = 0 →
      reached s.counter.position (runoffPoint s.config.line e) = false →
      ∃ t, exec (.fireWatch tag) s = .next t
        ∧ t.entry tag = some { e with target := .runOff, reason := .destClosed }
        ∧ t.watches = insertSorted ⟨runoffPoint s.config.line e, .runoff tag⟩ rest
        ∧ (∀ tag', tag' ≠ tag → t.entry tag' = s.entry tag')
        ∧ UnchangedBut [.watches, .table] s t)
    ∧ (∀ a : Station, ¬ (s.destination d).open → e.flags.viaAlternate = false →
      (s.record d).alternate = stationNumber a → reached s.counter.position (firePoint (s.record a) e) = false →
      ∃ t, exec (.fireWatch tag) s = .next t
        ∧ t.entry tag = some { e with target := .station a, flags := { e.flags with viaAlternate := true } }
        ∧ t.watches = insertSorted ⟨firePoint (s.record a) e, .fire tag⟩ rest
        ∧ (∀ tag', tag' ≠ tag → t.entry tag' = s.entry tag')
        ∧ UnchangedBut [.watches, .table] s t)
    ∧ ((s.destination d).open → s.reachedFirst (releasePoint (s.record d) e) rest →
      ((s.diverter d).state = .idle → s.slotFree = true →
        ∃ t, exec (.fireWatch tag) s = .next t
          ∧ t.diverter d = s.released d
          ∧ t.arbiter = { s.arbiter with lastGranted := d }
          ∧ t.entry tag = some { e with
              state := .confirming, reservedWith := some d
              confirmDeadline := some (s.timeStamp + BitVec.ofNat 32 (s.record d).confirmTime) }
          ∧ t.monitor d = s.monitorWith t d [tag]
          ∧ t.watches = rest
          ∧ t.destination d = (s.destination d).plusOne
          ∧ (∀ d', d' ≠ d → t.diverter d' = s.diverter d' ∧ t.monitor d' = s.monitor d'
              ∧ t.destination d' = s.destination d')
          ∧ (∀ tag', tag' ≠ tag → t.entry tag' = s.entry tag')
          ∧ UnchangedBut [.watches, .table, .diverters, .arbiter, .monitors, .destinations] s t)
      ∧ ((s.diverter d).state = .energised → (s.diverter d).testPulse = false → (s.diverter d).push.length < 4 →
        tag ∉ (s.diverter d).push →
        ∃ t, exec (.fireWatch tag) s = .next t
          ∧ t.entry tag = some { e with
              state := .confirming, reservedWith := some d
              confirmDeadline := some (s.timeStamp + BitVec.ofNat 32 (s.record d).confirmTime) }
          ∧ t.monitor d = s.monitorWith t d [tag]
          ∧ t.watches = rest
          ∧ t.destination d = (s.destination d).plusOne
          ∧ (∀ d', d' ≠ d → t.monitor d' = s.monitor d' ∧ t.destination d' = s.destination d')
          ∧ (∀ tag', tag' ≠ tag → t.entry tag' = s.entry tag')
          ∧ UnchangedBut [.watches, .table, .monitors, .destinations] s t))
    ∧ ((s.destination d).open → s.reachedFirst (latePoint (s.record d) e) rest →
      reached s.counter.position (runoffPoint s.config.line e) = false →
      ((s.diverter d).state = .idle ∧ s.slotFree = false)
        ∨ (((s.diverter d).state = .waiting ∨ (s.diverter d).state = .recovery
            ∨ ((s.diverter d).state = .energised ∧ ((s.diverter d).testPulse = true ∨ 4 ≤ (s.diverter d).push.length)))
          ∧ (s.diverter d).pending.length < 4 ∧ tag ∉ (s.diverter d).pending) →
      ∃ t, exec (.fireWatch tag) s = .next t
        ∧ t.entry tag = some { e with
            state := .travelling, target := .runOff, reservedWith := none
            reason := if (s.diverter d).state = .idle ∨ (s.diverter d).state = .waiting then .noSlot else .recovery }
        ∧ t.watches = insertSorted ⟨runoffPoint s.config.line e, .runoff tag⟩ rest
        ∧ (∀ tag', tag' ≠ tag → t.entry tag' = s.entry tag')
        ∧ UnchangedBut [.watches, .table] s t)
    ∧ (∀ (reason : Reason) (left : State) (drained : List NoticeBody),
      s.reachedFirst (runoffPoint s.config.line e) rest →
      left = { s with table := s.table.filter (fun x => x.tag != tag), watches := rest } →
      drained = (if left.isDrained then [.lineState .draining .ready .drained] else []) →
      ((s.destination d).open ∧ (s.diverter d).pending.length = 4 ∧ reason = .limit
          ∧ ((s.diverter d).state = .waiting ∨ (s.diverter d).state = .recovery
            ∨ ((s.diverter d).state = .energised ∧ ((s.diverter d).testPulse = true ∨ 4 ≤ (s.diverter d).push.length))))
        ∨ (¬ (s.destination d).open ∧ (e.flags.viaAlternate = true ∨ (s.record d).alternate = 0)
          ∧ reason = .destClosed) →
      ∃ t, exec (.fireWatch tag) s = .next t
        ∧ t.table = left.table
        ∧ t.runOff =
            (if s.runOff.filled = 65535 then { s.runOff with filled := 0, serial := s.runOff.serial + 1 }
              else { s.runOff with filled := s.runOff.filled + 1 })
        ∧ Submitted ((if s.config.line.exitEye = true ∧ e.flags.exitSeen = false then [.exitMissing tag] else [])
            ++ [.outcome tag e.assigned .runOff .runoff reason e.flags] ++ drained) s t
        ∧ (left.isDrained → DrainsTo left t
            ∧ UnchangedBut [.table, .watches, .runOff, .induction, .line, .queue, .transmitter] s t)
        ∧ (¬ left.isDrained →
            t.watches = rest ∧ t.induction = { s.induction with hold := s.holdAt left.table.length }
            ∧ UnchangedBut [.table, .watches, .runOff, .induction, .queue, .transmitter] s t))
    ∧ (∀ a : Station, ¬ (s.destination d).open → e.flags.viaAlternate = false →
      (s.record d).alternate = stationNumber a → s.reachedFirst (firePoint (s.record a) e) rest →
      exec (.fireWatch tag) s = exec (.fireWatch tag)
        { s with
          table := s.table.map (fun x =>
            if x.tag = tag then { x with target := .station a, flags := { x.flags with viaAlternate := true } } else x)
          watches := ⟨firePoint (s.record a) e, .fire tag⟩ :: rest })

/-- A RUNOFF watch removes its entry at the run-off with the reason chosen there, the hold output follows the occupancy and
the last removal completes a drain; the exit eye marks the oldest entry it awaits (R32, R53, R54, R56, R57, R101, R123). -/
def Obligations.RunoffWatchAndExitEye : Prop :=
  (∀ (tag : Tag) (rest : List Watch) (e : Entry) (s left : State) (drained : List NoticeBody),
    s.delivers (.runoff tag) rest → NoSlotWasted s → s.entry tag = some e →
    left = { s with table := s.table.filter (fun x => x.tag != tag), watches := rest } →
    drained = (if left.isDrained then [.lineState .draining .ready .drained] else []) →
    ∃ t, exec (.runoffWatch tag) s = .next t
      ∧ t.table = left.table
      ∧ t.runOff =
          (if s.runOff.filled = 65535 then { s.runOff with filled := 0, serial := s.runOff.serial + 1 }
            else { s.runOff with filled := s.runOff.filled + 1 })
      ∧ Submitted ((if s.config.line.exitEye = true ∧ e.flags.exitSeen = false then [.exitMissing tag] else [])
          ++ [.outcome tag e.assigned .runOff .runoff
            (if e.reason ≠ .none then e.reason else if e.flags.lateSeen = true then .lateAssign
              else if e.assigned = none then .noAssign else .none) e.flags] ++ drained) s t
      ∧ (left.isDrained → DrainsTo left t
          ∧ UnchangedBut [.table, .watches, .runOff, .induction, .line, .queue, .transmitter] s t)
      ∧ (¬ left.isDrained →
          t.watches = rest ∧ t.induction = { s.induction with hold := s.holdAt left.table.length }
          ∧ UnchangedBut [.table, .watches, .runOff, .induction, .queue, .transmitter] s t))
  ∧ (∀ s : State, s.held = none →
    (s.config.line.exitEye = false ∨ s.line.state.working = false → exec .exitEyeLeadingEdge s = .next s)
    ∧ (s.config.line.exitEye = true → s.line.state.working = true →
      (∀ pre e post, s.table = pre ++ e :: post → (s.table.map (·.tag)).Nodup →
        e.awaitedAtExit s.config.line s.counter.position →
        (∀ x ∈ pre, ¬ x.awaitedAtExit s.config.line s.counter.position) →
        ∃ t, exec .exitEyeLeadingEdge s = .next t
          ∧ t.table = pre ++ { e with flags := { e.flags with exitSeen := true } } :: post
          ∧ UnchangedBut [.table] s t)
      ∧ ((∀ x ∈ s.table, ¬ x.awaitedAtExit s.config.line s.counter.position) →
        ∃ t, exec .exitEyeLeadingEdge s = .next t ∧ Submitted [.exitUnexpected] s t
          ∧ UnchangedBut [.queue, .transmitter] s t)))

/-- A LATE watch takes its entry out of the pending list, returns its unit and sends it to the run-off: NO_SLOT from a
WAITING diverter, RECOVERY from a busy one (R70, R105). -/
def Obligations.LateWatchMisses : Prop :=
  ∀ (d : Station) (tag : Tag) (rest : List Watch) (e : Entry) (s : State), s.delivers (.late d tag) rest →
    NoSlotWasted s → tag ∈ (s.diverter d).pending → s.entry tag = some e → e.reservedWith = some d →
    reached s.counter.position (runoffPoint s.config.line e) = false →
    ∃ t, exec (.lateWatch (stationNumber d) tag) s = .next t
      ∧ t.entry tag = some { e with
          state := .travelling, target := .runOff, reservedWith := none
          reason := if (s.diverter d).state = .waiting then .noSlot else .recovery }
      ∧ t.watches = insertSorted ⟨runoffPoint s.config.line e, .runoff tag⟩
          (rest.filter (fun w => w.kind.tag? != some tag))
      ∧ ((s.diverter d).state = .waiting → (s.diverter d).pending.filter (fun x => x != tag) = [] →
          t.diverter d = { s.diverter d with state := .idle, pending := [] }
            ∧ t.arbiter = { s.arbiter with waiting := s.arbiter.waiting.set d false })
      ∧ ((s.diverter d).state ≠ .waiting ∨ (s.diverter d).pending.filter (fun x => x != tag) ≠ [] →
          t.diverter d = { s.diverter d with pending := (s.diverter d).pending.filter (fun x => x != tag) }
            ∧ t.arbiter = s.arbiter)
      ∧ t.destination d = (s.destination d).minusOne
      ∧ (∀ d', d' ≠ d → t.diverter d' = s.diverter d' ∧ t.waits d' = s.waits d' ∧ t.destination d' = s.destination d')
      ∧ (∀ tag', tag' ≠ tag → t.entry tag' = s.entry tag')
      ∧ UnchangedBut [.watches, .table, .diverters, .arbiter, .destinations] s t

/-- A RELEASE watch moves its entry to the confirm list, and the last one releases the diverter into its recovery, or out of
one of no time with the items it holds, and the slot goes to the first waiting diverter, and on from a grant that releases at
once (R13, R65, R66, R69, R72, R73, R76, R88). The order of several items that a grant releases at once is the model's choice
(entry 23). -/
def Obligations.ReleaseWatchReleases : Prop :=
  ∀ (d : Station) (tag : Tag) (rest : List Watch) (e : Entry) (s : State), s.delivers (.release d tag) rest →
    DriveLaw s → NoSlotWasted s → tag ∈ (s.diverter d).push → s.entry tag = some e →
    ∃ t, exec (.releaseWatch (stationNumber d) tag) s = .next t
      ∧ DriveLaw t
      ∧ NoSlotWasted t
      ∧ ((∀ d', s.waits d' = false) ∨ (s.diverter d).push.filter (fun x => x != tag) ≠ [] →
          (s.record d).recovery ≠ 0 ∨ (s.diverter d).pending = [] ∨ (s.diverter d).push.filter (fun x => x != tag) ≠ [] →
          t.entry tag = some { e with
            state := .confirming, confirmDeadline := some (s.timeStamp + BitVec.ofNat 32 (s.record d).confirmTime) }
          ∧ t.monitor d = s.monitorWith t d [tag]
          ∧ t.watches = rest
          ∧ (∀ d', d' ≠ d → t.diverter d' = s.diverter d' ∧ t.monitor d' = s.monitor d')
          ∧ (∀ tag', tag' ≠ tag → t.entry tag' = s.entry tag')
          ∧ UnchangedBut [.watches, .table, .diverters, .arbiter, .monitors] s t)
      ∧ ((s.diverter d).push.filter (fun x => x != tag) ≠ [] →
          t.diverter d = { s.diverter d with push := (s.diverter d).push.filter (fun x => x != tag) }
          ∧ t.arbiter = s.arbiter)
      ∧ ((s.diverter d).push.filter (fun x => x != tag) = [] → (∀ d', s.waits d' = false) →
          (0 < (s.record d).recovery →
            t.diverter d = { s.diverter d with
              state := .recovery, output := false, push := [], maxOnTimer := none
              recoveryTimer := some (s.timeStamp + BitVec.ofNat 32 (s.record d).recovery) }
            ∧ t.arbiter = { s.arbiter with slotsInUse := s.arbiter.slotsInUse - 1 })
          ∧ ((s.record d).recovery = 0 → (s.diverter d).pending = [] →
            t.diverter d = { s.diverter d with state := .idle, output := false, push := [], maxOnTimer := none }
            ∧ t.arbiter = { s.arbiter with slotsInUse := s.arbiter.slotsInUse - 1 }))
      ∧ (∀ left : State, TagLaw s → PlaceLaw s → MonitorLaw s →
          left = State.confirming { s.withDiverter d (s.released d) with watches := rest } d [tag] false →
          t.entry tag = some { e with
            state := .confirming, confirmDeadline := some (s.timeStamp + BitVec.ofNat 32 (s.record d).confirmTime) }
          ∧ (t.monitor d).deadlineTimer =
              (if (s.monitor d).confirm = [] then some (s.timeStamp + BitVec.ofNat 32 (s.record d).confirmTime)
                else (s.monitor d).deadlineTimer)
          ∧ ((∀ c, left.waits c = true → s.releasesAhead c) →
              t.monitor d = s.monitorWith t d [tag] ∧ ∀ d', d' ≠ d → t.monitor d' = s.monitor d')
          ∧ ((s.diverter d).push.filter (fun x => x != tag) = [] → FreesSlot left t
              ∧ ((∀ c, left.waits c = false) → t.watches = rest))
          ∧ UnchangedBut [.watches, .table, .diverters, .arbiter, .monitors] s t)

/-! ### Induction -/

/-- The entry eye opens and closes the measuring slot, and the item measured is discarded as noise, refused or admitted with
the first tag that no entry holds (R19 to R29, R32, R33). That an edge to the level the eye already has changes nothing is
the model's choice (entry 4). -/
def Obligations.EntryEyeMeasures : Prop :=
  (∀ s : State, s.held = none →
    (s.induction.eye = .blocked → exec .entryEyeLeadingEdge s = .next s)
    ∧ (s.induction.eye = .clear → s.line.state.working = true → s.induction.slot = .empty →
      s.counter.highWater = s.counter.position →
      ∃ t, exec .entryEyeLeadingEdge s = .next t
        ∧ t.induction = { s.induction with
            eye := .blocked, slot := .opened s.counter.position (decide (s.line.state = .draining)) }
        ∧ t.watches = insertSorted
            ⟨s.counter.position + BitVec.ofNat 32 s.config.line.maxLength, .lengthLimit⟩ s.watches
        ∧ UnchangedBut [.induction, .watches] s t)
    ∧ (s.induction.eye = .clear → s.line.state.working = false ∨ s.induction.slot ≠ .empty
        ∨ s.counter.highWater ≠ s.counter.position →
      ∃ t, exec .entryEyeLeadingEdge s = .next t ∧ t.induction = { s.induction with eye := .blocked }
        ∧ UnchangedBut [.induction] s t))
  ∧ (∀ s : State, s.held = none →
    (s.induction.eye = .clear → exec .entryEyeTrailingEdge s = .next s)
    ∧ (s.induction.eye = .blocked → s.line.state.working = false ∨ s.induction.slot = .empty
        ∨ (s.induction.slot ≠ .closed ∧ s.counter.highWater ≠ s.counter.position) →
      ∃ t, exec .entryEyeTrailingEdge s = .next t ∧ t.induction = { s.induction with eye := .clear }
        ∧ UnchangedBut [.induction] s t)
    ∧ (s.induction.eye = .blocked → s.line.state.working = true → s.induction.slot = .closed →
      ∃ t, exec .entryEyeTrailingEdge s = .next t ∧ t.induction = { s.induction with eye := .clear, slot := .empty }
        ∧ UnchangedBut [.induction] s t)
    ∧ (∀ lead refused length watches, s.induction.eye = .blocked → s.line.state.working = true →
      s.induction.slot = .opened lead refused → s.counter.highWater = s.counter.position →
      length = (s.counter.position - lead).toNat → watches = s.watches.filter (fun w => w.kind != .lengthLimit) →
      (length < s.config.line.minLength →
        ∃ t, exec .entryEyeTrailingEdge s = .next t
          ∧ t.induction = { s.induction with eye := .clear, slot := .empty }
          ∧ t.watches = watches
          ∧ UnchangedBut [.induction, .watches] s t)
      ∧ (s.config.line.minLength ≤ length → refused = true ∨ 96 ≤ s.table.length →
        ∃ t, exec .entryEyeTrailingEdge s = .next t
          ∧ t.induction = { s.induction with
              eye := .clear, slot := .empty, lastTrailing := some (lead + BitVec.ofNat 32 length) }
          ∧ t.watches = watches
          ∧ Submitted [.noTrack (if refused = true then .draining else .tableFull) length] s t
          ∧ UnchangedBut [.induction, .watches, .queue, .transmitter] s t)
      ∧ (∀ gapShort k tag, s.config.line.minLength ≤ length → refused = false → s.table.length < 96 →
        freeTag s.induction.nextTag k s.table tag →
        (gapShort = true ↔ 0 < s.config.line.minGap
          ∧ ∃ lt, s.induction.lastTrailing = some lt ∧ (lead - lt).toInt < (s.config.line.minGap : Int)) →
        reached s.counter.position (lead + BitVec.ofNat 32 s.config.line.runoffOffset
          + (if s.config.line.exitEye = true then BitVec.ofNat 32 s.config.line.exitTolerance else 0)) = false →
        ∃ t, exec .entryEyeTrailingEdge s = .next t
          ∧ Inducts tag lead length { gapShort := gapShort, overlength := false } .empty watches s t
          ∧ t.induction.eye = .clear
          ∧ UnchangedBut [.induction, .table, .watches, .queue, .transmitter] s t)))

/-- The LENGTH_LIMIT watch offers the interval so far as OVERLENGTH and closes the slot (R24, R26 to R28). -/
def Obligations.LengthLimitWatchOffers : Prop :=
  ∀ (lead : Position) (refused : Bool) (rest : List Watch) (slot : Slot) (s : State), s.delivers .lengthLimit rest →
    NoSlotWasted s → ¬ s.isDrained → s.line.state.working = true → s.induction.slot = .opened lead refused →
    slot = (if s.induction.eye = .blocked then .closed else .empty) →
    (refused = true ∨ 96 ≤ s.table.length →
      ∃ t, exec .lengthLimitWatch s = .next t
        ∧ t.induction = { s.induction with
            slot := slot, lastTrailing := some (lead + BitVec.ofNat 32 s.config.line.maxLength) }
        ∧ t.watches = rest
        ∧ Submitted [.noTrack (if refused = true then .draining else .tableFull) s.config.line.maxLength] s t
        ∧ UnchangedBut [.induction, .watches, .queue, .transmitter] s t)
    ∧ (∀ gapShort k tag, refused = false → s.table.length < 96 → freeTag s.induction.nextTag k s.table tag →
      (gapShort = true ↔ 0 < s.config.line.minGap
        ∧ ∃ lt, s.induction.lastTrailing = some lt ∧ (lead - lt).toInt < (s.config.line.minGap : Int)) →
      reached s.counter.position (lead + BitVec.ofNat 32 s.config.line.runoffOffset
        + (if s.config.line.exitEye = true then BitVec.ofNat 32 s.config.line.exitTolerance else 0)) = false →
      ∃ t, exec .lengthLimitWatch s = .next t
        ∧ Inducts tag lead s.config.line.maxLength { gapShort := gapShort, overlength := true } slot rest s t
        ∧ t.induction.eye = s.induction.eye
        ∧ UnchangedBut [.induction, .table, .watches, .queue, .transmitter] s t)

/-! ### The arbiter and the diverters' timers -/

/-- A grant energises the first waiting diverter of the search order with every item it holds, and releases at once each item
that is already past its release point, and the diverter with the last of them (R13, R64 to R66, R69, R72, R73). Under the
laws the items released are those whose release point the line has reached. Their order is the model's choice (entry 23). -/
def Obligations.SlotGrantChooses : Prop :=
  ∀ s : State, s.held = none → DriveLaw s →
    (∀ d, s.slotFree = true → s.firstInSearch d → s.releasesAhead d ∨ TagLaw s ∧ PlaceLaw s →
      ∃ t, exec .slotGrant s = .next t
        ∧ GrantTo d s t
        ∧ t.arbiter.budget = s.arbiter.budget
        ∧ (∀ tag e, tag ∈ s.pushedAt d → s.entry tag = some e → t.entry tag = some { e with state := .pushing })
        ∧ (∀ tag e, tag ∈ s.passedAt d → s.entry tag = some e →
            t.entry tag = some { e with
              state := .confirming
              confirmDeadline := some (s.timeStamp + BitVec.ofNat 32 (s.record d).confirmTime) })
        ∧ (s.releasesAhead d → s.passedAt d = [] ∧ t.arbiter.slotsInUse = s.arbiter.slotsInUse + 1
            ∧ UnchangedBut [.watches, .table, .diverters, .arbiter] s t)
        ∧ UnchangedBut grantParts s t)
    ∧ (∀ d, TagLaw s → TrackingLaw s →
      s.passedAt d = (s.diverter d).pending.filter (fun tag =>
        (s.entry tag).any (fun e => reached s.counter.position (releasePoint (s.record d) e))))
    ∧ (s.slotFree = false ∨ (∀ d, s.waits d = false) → ¬ s.isDrained → exec .slotGrant s = .next s)

/-- The max-on, recovery and pulse timers of a diverter: truncation and release, the end of recovery, the end of a test
pulse, the slot that a release frees, and the drain that the end of a recovery completes (R65, R66, R69, R73, R74, R76, R83,
R88, R123). That the expiry of a timer that has not expired changes nothing is the model's choice (entries 3 and 4), and so is
the order of several items that a grant releases at once (entry 23). -/
def Obligations.DiverterTimersExpire : Prop :=
  ∀ (d : Station) (s : State), s.held = none → DriveLaw s → NoSlotWasted s →
    ((s.diverter d).state = .energised → expired (s.diverter d).maxOnTimer s = true → (∀ d', s.waits d' = false) →
      0 < (s.record d).recovery →
      ∃ t, exec (.maxOnExpiry (stationNumber d)) s = .next t
        ∧ t.diverter d = { s.diverter d with
            state := .recovery, output := false, push := [], maxOnTimer := none, testPulse := false, pulseTimer := none
            recoveryTimer := some (s.timeStamp + BitVec.ofNat 32 (s.record d).recovery) }
        ∧ t.arbiter = { s.arbiter with slotsInUse := s.arbiter.slotsInUse - 1 }
        ∧ t.monitor d = s.monitorWith t d (s.diverter d).push
        ∧ (∀ d', d' ≠ d → t.diverter d' = s.diverter d' ∧ t.monitor d' = s.monitor d')
        ∧ (∀ tag e, tag ∈ (s.diverter d).push → s.entry tag = some e →
            t.entry tag = some { e with
              flags := { e.flags with truncated := true }
              state := .confirming
              confirmDeadline := some (s.timeStamp + BitVec.ofNat 32 (s.record d).confirmTime) })
        ∧ (∀ tag, tag ∉ (s.diverter d).push → t.entry tag = s.entry tag)
        ∧ t.watches = s.watches.filter (fun w => (s.diverter d).push.all (fun tag => w.kind.tag? != some tag))
        ∧ UnchangedBut [.watches, .table, .diverters, .arbiter, .monitors] s t)
    ∧ ((s.diverter d).state = .recovery → expired (s.diverter d).recoveryTimer s = true →
      (∀ (left : State) (drained : List NoticeBody), (s.diverter d).pending = [] →
        left = s.withDiverter d { s.diverter d with state := .idle, recoveryTimer := none } →
        drained = (if left.isDrained then [.lineState .draining .ready .drained] else []) →
        ∃ t, exec (.recoveryTimerExpiry (stationNumber d)) s = .next t
          ∧ t.diverter d = { s.diverter d with state := .idle, recoveryTimer := none }
          ∧ (∀ d', d' ≠ d → t.diverter d' = s.diverter d')
          ∧ Submitted drained s t
          ∧ (left.isDrained → DrainsTo s t
              ∧ UnchangedBut [.diverters, .line, .induction, .watches, .queue, .transmitter] s t)
          ∧ (¬ left.isDrained → UnchangedBut [.diverters] s t))
      ∧ ((s.diverter d).pending ≠ [] → s.slotFree = false → s.table ≠ [] →
        ∃ t, exec (.recoveryTimerExpiry (stationNumber d)) s = .next t
          ∧ t.diverter d = { s.diverter d with state := .waiting, recoveryTimer := none }
          ∧ t.arbiter = { s.arbiter with waiting := s.arbiter.waiting.set d true }
          ∧ (∀ d', d' ≠ d → t.diverter d' = s.diverter d')
          ∧ UnchangedBut [.diverters, .arbiter] s t)
      ∧ ((s.diverter d).pending ≠ [] → s.slotFree = true → s.releasesAhead d ∨ TagLaw s ∧ PlaceLaw s →
        ∃ t, exec (.recoveryTimerExpiry (stationNumber d)) s = .next t
          ∧ GrantTo d s t
          ∧ (s.releasesAhead d → t.arbiter.slotsInUse = s.arbiter.slotsInUse + 1
              ∧ UnchangedBut [.watches, .table, .diverters, .arbiter] s t)
          ∧ UnchangedBut grantParts s t))
    ∧ ((s.diverter d).state = .energised → expired (s.diverter d).pulseTimer s = true → (∀ d', s.waits d' = false) →
      0 < (s.record d).recovery →
      ∃ t, exec (.pulseTimerExpiry (stationNumber d)) s = .next t
        ∧ t.diverter d = { s.diverter d with
            state := .recovery, output := false, testPulse := false, pulseTimer := none, maxOnTimer := none
            recoveryTimer := some (s.timeStamp + BitVec.ofNat 32 (s.record d).recovery) }
        ∧ t.arbiter = { s.arbiter with slotsInUse := s.arbiter.slotsInUse - 1 }
        ∧ (∀ d', d' ≠ d → t.diverter d' = s.diverter d')
        ∧ UnchangedBut [.diverters, .arbiter] s t)
    ∧ (∀ left : State, (s.diverter d).state = .energised → expired (s.diverter d).maxOnTimer s = true → TagLaw s →
      PlaceLaw s → MonitorLaw s →
      left = State.confirming { s.withDiverter d (s.released d) with
          watches := s.watches.filter (fun w => (s.diverter d).push.all (fun tag => w.kind.tag? != some tag)) }
        d (s.diverter d).push true →
      ∃ t, exec (.maxOnExpiry (stationNumber d)) s = .next t
        ∧ FreesSlot left t
        ∧ (∀ tag ∈ (s.diverter d).push, ∀ e ∈ s.entry tag, t.entry tag = some { e with
            flags := { e.flags with truncated := true }
            state := .confirming
            confirmDeadline := some (s.timeStamp + BitVec.ofNat 32 (s.record d).confirmTime) })
        ∧ (t.monitor d).deadlineTimer =
            (if (s.monitor d).confirm = [] then some (s.timeStamp + BitVec.ofNat 32 (s.record d).confirmTime)
              else (s.monitor d).deadlineTimer)
        ∧ ((∀ c, left.waits c = true → s.releasesAhead c) →
            t.monitor d = s.monitorWith t d (s.diverter d).push ∧ ∀ d', d' ≠ d → t.monitor d' = s.monitor d')
        ∧ ((∀ c, left.waits c = false) → t.watches = left.watches)
        ∧ UnchangedBut [.watches, .table, .diverters, .arbiter, .monitors] s t)
    ∧ (∀ (left : State) (drained : List NoticeBody), (s.diverter d).state = .energised →
      expired (s.diverter d).pulseTimer s = true → TagLaw s → PlaceLaw s → left = s.withDiverter d (s.released d) →
      drained = (if left.isDrained then [.lineState .draining .ready .drained] else []) →
      ∃ t, exec (.pulseTimerExpiry (stationNumber d)) s = .next t
        ∧ FreesSlot left t
        ∧ Submitted drained s t
        ∧ (left.isDrained → DrainsTo s t
            ∧ UnchangedBut [.diverters, .arbiter, .line, .induction, .watches, .queue, .transmitter] s t)
        ∧ (¬ left.isDrained →
            ((∀ c, left.waits c = false) → UnchangedBut [.diverters, .arbiter] s t)
            ∧ UnchangedBut [.watches, .table, .diverters, .arbiter, .monitors] s t))
    ∧ ((s.diverter d).state ≠ .energised ∨ expired (s.diverter d).maxOnTimer s = false →
        exec (.maxOnExpiry (stationNumber d)) s = .next s)
    ∧ ((s.diverter d).state ≠ .recovery ∨ expired (s.diverter d).recoveryTimer s = false →
        exec (.recoveryTimerExpiry (stationNumber d)) s = .next s)
    ∧ ((s.diverter d).state ≠ .energised ∨ expired (s.diverter d).pulseTimer s = false →
        exec (.pulseTimerExpiry (stationNumber d)) s = .next s)

/-! ### The confirm monitors -/

/-- A leading edge completes the first entry of the confirm list SORTED or submits STRAY, and a deadline completes every entry
that is due UNCONFIRMED; the units are consumed, the batch ends at terminal count, and the last removal completes a drain
(R55, R87 to R91, R95, R106 to R108, R123). That an edge to the level the eye already has and the expiry of a timer that has
not expired change nothing is the model's choice (entries 3 and 4). -/
def Obligations.ConfirmsAndDeadlines : Prop :=
  ∀ (d : Station) (s : State), s.held = none →
    ((s.monitor d).eye = .blocked → exec (.confirmEyeLeadingEdge (stationNumber d)) s = .next s)
    ∧ ((s.monitor d).eye = .clear → s.installed d = false →
      ∃ t, exec (.confirmEyeLeadingEdge (stationNumber d)) s = .next t
        ∧ t.monitor d = { s.monitor d with eye := .blocked }
        ∧ (∀ d', d' ≠ d → t.monitor d' = s.monitor d')
        ∧ UnchangedBut [.monitors] s t)
    ∧ ((s.monitor d).eye = .clear → s.installed d = true → ¬ s.isDrained →
      (s.monitor d).confirm = [] ∨ s.line.state = .halted ∨ s.line.state = .idle →
      ∃ t, exec (.confirmEyeLeadingEdge (stationNumber d)) s = .next t
        ∧ t.monitor d = { s.monitor d with
            eye := .blocked
            chute := if s.line.state = .idle then (s.monitor d).chute
              else match (s.monitor d).chute with | .clear => .filling | .emptying => .full | c => c
            chuteTimer := if s.line.state = .idle then (s.monitor d).chuteTimer
              else match (s.monitor d).chute with
                | .clear => some (s.timeStamp + BitVec.ofNat 32 (s.record d).chuteFullTime)
                | .emptying => none
                | _ => (s.monitor d).chuteTimer }
        ∧ (∀ d', d' ≠ d → t.monitor d' = s.monitor d')
        ∧ Submitted (if s.line.state = .halted ∨ s.line.state = .idle then [] else [.stray d]) s t
        ∧ UnchangedBut [.monitors, .queue, .transmitter] s t)
    ∧ (∀ (edge : Bool) (c : Instr) (result : OutcomeResult) (due rest : List Tag) (r : DestRecord) (left : State)
        (outcomes drained : List NoticeBody),
      (edge = true → c = .confirmEyeLeadingEdge (stationNumber d) ∧ result = .sorted ∧ (s.monitor d).eye = .clear
        ∧ s.installed d = true ∧ s.line.state.working = true ∧ due.length = 1) →
      (edge = false → c = .deadlineTimerExpiry (stationNumber d) ∧ result = .unconfirmed
        ∧ expired (s.monitor d).deadlineTimer s = true ∧ due ≠ [] ∧ (∀ tag ∈ due.tail, s.deadlineReached tag = true)
        ∧ ∀ next ∈ rest.head?, s.deadlineReached next = false) →
      (s.monitor d).confirm = due ++ rest → due.Nodup → (∀ tag ∈ due, tag ∉ rest ∧ s.entry tag ≠ none) →
      due.length = 1 ∨ due.length ≤ (s.destination d).outstanding →
      r = { s.destination d with
        outstanding := (s.destination d).outstanding - due.length
        filled :=
          if 0 < (s.destination d).base then (s.destination d).filled + due.length
          else min 65535 ((s.destination d).filled + due.length) } →
      left = { s with table := s.table.filter (fun x => !due.contains x.tag) } →
      outcomes = due.filterMap (fun tag =>
        (s.entry tag).map (fun e => .outcome tag e.assigned (.station d) result .none e.flags)) →
      drained = (if left.isDrained then [.lineState .draining .ready .drained] else []) →
      ∃ t, exec c s = .next t
        ∧ t.monitor d =
            { confirm := rest
              deadlineTimer := (rest.head?.bind s.entry).bind (·.confirmDeadline)
              eye := if edge = true then .blocked else (s.monitor d).eye
              chute := if edge = true then
                  (match (s.monitor d).chute with | .clear => .filling | .emptying => .full | x => x)
                else (s.monitor d).chute
              chuteTimer := if edge = true then
                  (match (s.monitor d).chute with
                    | .clear => some (s.timeStamp + BitVec.ofNat 32 (s.record d).chuteFullTime)
                    | .emptying => none
                    | _ => (s.monitor d).chuteTimer)
                else (s.monitor d).chuteTimer }
        ∧ t.table = left.table
        ∧ (0 < r.remaining ∨ 0 < r.outstanding ∨ r.base = 0 ∨ r.causes.batchEnd = true →
            t.destination d = r ∧ Submitted (outcomes ++ drained) s t)
        ∧ (r.remaining = 0 → r.outstanding = 0 → 0 < r.base → r.causes.batchEnd = false → r.autoReload = true →
            t.destination d = { r with remaining := r.base, filled := 0, serial := r.serial + 1 }
            ∧ Submitted (outcomes ++ [.batch d r.serial r.filled true] ++ drained) s t)
        ∧ (r.remaining = 0 → r.outstanding = 0 → 0 < r.base → r.causes.batchEnd = false → r.autoReload = false →
            t.destination d = { r with causes := { r.causes with batchEnd := true } }
            ∧ Submitted (outcomes ++ [.batch d r.serial r.filled false, .dest d { r.causes with batchEnd := true } 0]
                ++ drained) s t)
        ∧ (∀ d', d' ≠ d → t.monitor d' = s.monitor d' ∧ t.destination d' = s.destination d')
        ∧ (left.isDrained → DrainsTo s t
            ∧ UnchangedBut [.table, .watches, .monitors, .destinations, .induction, .line, .queue, .transmitter] s t)
        ∧ (¬ left.isDrained →
            t.induction = { s.induction with hold := s.holdAt left.table.length }
            ∧ UnchangedBut [.table, .monitors, .destinations, .induction, .queue, .transmitter] s t))
    ∧ (expired (s.monitor d).deadlineTimer s = false → exec (.deadlineTimerExpiry (stationNumber d)) s = .next s)

/-- A trailing edge and the chute timer in the chute table, with the CHUTE cause of the destination (R87, R95, R96). That an
edge to the level the eye already has and the expiry of a timer that has not expired change nothing is the model's choice
(entries 3 and 4). -/
def Obligations.ChuteTiming : Prop :=
  ∀ (d : Station) (s : State), s.held = none →
    ((s.monitor d).eye = .clear → exec (.confirmEyeTrailingEdge (stationNumber d)) s = .next s)
    ∧ ((s.monitor d).eye = .blocked →
      ∃ t, exec (.confirmEyeTrailingEdge (stationNumber d)) s = .next t
        ∧ (s.installed d = false ∨ s.line.state = .idle ∨ (s.monitor d).chute = .clear
            ∨ (s.monitor d).chute = .emptying → t.monitor d = { s.monitor d with eye := .clear })
        ∧ (s.installed d = true → s.line.state ≠ .idle → (s.monitor d).chute = .filling →
            t.monitor d = { s.monitor d with eye := .clear, chute := .clear, chuteTimer := none })
        ∧ (s.installed d = true → s.line.state ≠ .idle → (s.monitor d).chute = .full →
            t.monitor d = { s.monitor d with
              eye := .clear, chute := .emptying
              chuteTimer := some (s.timeStamp + BitVec.ofNat 32 (s.record d).chuteClearTime) })
        ∧ (∀ d', d' ≠ d → t.monitor d' = s.monitor d')
        ∧ UnchangedBut [.monitors] s t)
    ∧ (∀ full : Bool, s.installed d = true → s.line.state ≠ .idle → expired (s.monitor d).chuteTimer s = true →
      (s.monitor d).chute = (if full = true then .filling else .emptying) →
      ∃ t, exec (.chuteTimerExpiry (stationNumber d)) s = .next t
        ∧ t.monitor d = { s.monitor d with chute := if full = true then .full else .clear, chuteTimer := none }
        ∧ t.destination d = { s.destination d with causes := { (s.destination d).causes with chute := full } }
        ∧ Submitted (.chute d full ::
            if (s.destination d).causes.chute = full then []
            else [.dest d { (s.destination d).causes with chute := full } (s.destination d).remaining]) s t
        ∧ (∀ d', d' ≠ d → t.monitor d' = s.monitor d' ∧ t.destination d' = s.destination d')
        ∧ UnchangedBut [.monitors, .destinations, .queue, .transmitter] s t)
    ∧ (s.installed d = false ∨ s.line.state = .idle ∨ expired (s.monitor d).chuteTimer s = false →
        exec (.chuteTimerExpiry (stationNumber d)) s = .next s)

/-! ### The link -/

/-- A character in HUNTING and in ASSEMBLING, and the last byte of a good order frame: supervision restarts and the frame is
buffered, lost to an overrun, or taken at once, whatever its KIND (R144, R145, R147 to R150). -/
def Obligations.FramesReceived : Prop :=
  ∀ (b : Byte) (s : State), s.held = none →
    (s.link.receiver = .hunting →
      ∃ t, exec (.characterReceived b) s = .next t
        ∧ t.link.receiver = (if b = 0xA6 then .assembling [b] else .hunting)
        ∧ t.link.gapTimer = (if b = 0xA6 then some (s.timeStamp + 5) else none)
        ∧ t.link.framingErrors = s.link.framingErrors
        ∧ t.link.overruns = s.link.overruns
        ∧ t.link.rate = s.link.rate
        ∧ UnchangedBut [.reception] s t)
    ∧ (∀ held, s.link.receiver = .assembling held → held ≠ [] → number1 (held ++ [b]) 1 ≤ 48 →
      (held ++ [b]).length < number1 (held ++ [b]) 1 + 8 →
      ∃ t, exec (.characterReceived b) s = .next t
        ∧ t.link.receiver = .assembling (held ++ [b])
        ∧ t.link.gapTimer = some (s.timeStamp + 5)
        ∧ t.link.framingErrors = s.link.framingErrors
        ∧ t.link.overruns = s.link.overruns
        ∧ t.link.rate = s.link.rate
        ∧ UnchangedBut [.reception] s t)
    ∧ (∀ (held : List Byte) (f : Frame) (timer : Timer), s.link.receiver = .assembling held → held ++ [b] = f.bytes →
      f.cls = classOrder → f.payload.length ≤ 48 →
      timer = (if s.supervisor.time = 0 then none else some (s.timeStamp + BitVec.ofNat 32 s.supervisor.time)) →
      exec (.characterReceived b) s = exec (.goodOrderFrame b) s
      ∧ (∀ g, s.link.answer = some g →
        ∃ t, exec (.goodOrderFrame b) s = .next t
          ∧ t.supervisor = { s.supervisor with timer := timer }
          ∧ t.link = { s.link with
              receiver := .hunting
              gapTimer := none
              orders := if s.link.orders.length < 2 then s.link.orders ++ [f] else s.link.orders
              overruns :=
                if s.link.orders.length < 2 then s.link.overruns else min 65535 (s.link.overruns + 1) }
          ∧ UnchangedBut [.reception, .orders, .supervisor] s t)
      ∧ (∀ k : OrderKind, s.link.answer = none → s.link.orders = [] → f.kind = k.code →
        exec (.goodOrderFrame b) s = exec (k.command f.number f.payload)
          { s with
            supervisor := { s.supervisor with timer := timer }
            link := { s.link with receiver := .hunting, gapTimer := none } })
      ∧ (s.link.answer = none → s.link.orders = [] → OrderKind.ofCode f.kind = none →
        exec (.goodOrderFrame b) s = exec (.unknownKind f.number f.kind f.payload)
          { s with
            supervisor := { s.supervisor with timer := timer }
            link := { s.link with receiver := .hunting, gapTimer := none } }))

/-- A discarded frame adds 1 to the framing error count, and the receiver goes back to HUNTING unless a held byte starts a
frame: after a wrong CRC the held bytes from the second on are received again (R144 to R146). -/
def Obligations.FramesDiscarded : Prop :=
  ∀ s : State, s.held = none →
    (∀ b held, s.link.receiver = .assembling held →
      (held.length = 1 ∧ 48 < b.toNat ∧ b ≠ 0xA6)
        ∨ (∃ f : Frame, held ++ [b] = f.bytes ∧ f.cls ≠ classOrder ∧ f.payload.length ≤ 48)
        ∨ (2 ≤ held.length ∧ number1 held 1 ≤ 48 ∧ (held ++ [b]).length = number1 held 1 + 8
            ∧ crc ((held.drop 1).take (number1 held 1 + 5)) ≠ halfAt (held ++ [b]) (number1 held 1 + 6)
            ∧ 0xA6 ∉ (held ++ [b]).tail) →
      ∃ t, exec (.frameDiscard b) s = .next t
        ∧ t.link.receiver = .hunting
        ∧ t.link.gapTimer = none
        ∧ t.link.framingErrors = min 65535 (s.link.framingErrors + 1)
        ∧ t.link.overruns = s.link.overruns
        ∧ t.link.rate = s.link.rate
        ∧ UnchangedBut [.reception] s t
        ∧ exec (.characterReceived b) s = .next t)
    ∧ (∀ b held (v : Nat → State), s.link.receiver = .assembling held → 2 ≤ held.length → number1 held 1 ≤ 48 →
      (held ++ [b]).length = number1 held 1 + 8 →
      crc ((held.drop 1).take (number1 held 1 + 5)) ≠ halfAt (held ++ [b]) (number1 held 1 + 6) →
      v 0 = { s with link := { s.link with
        receiver := .hunting, gapTimer := none, framingErrors := min 65535 (s.link.framingErrors + 1) } } →
      (∀ i x, (held ++ [b]).tail[i]? = some x → exec (.characterReceived x) (v i) = .next (v (i + 1))) →
      exec (.frameDiscard b) s = .next (v held.length))
    ∧ (∀ b held, s.link.receiver = .assembling held → held.length = 1 → b = 0xA6 →
      ∃ t, exec (.frameDiscard b) s = .next t
        ∧ t.link.receiver = .assembling [b]
        ∧ t.link.gapTimer = some (s.timeStamp + 5)
        ∧ t.link.framingErrors = min 65535 (s.link.framingErrors + 1)
        ∧ t.link.overruns = s.link.overruns
        ∧ t.link.rate = s.link.rate
        ∧ UnchangedBut [.reception] s t)
    ∧ (s.link.receiver = .hunting → exec .characterFault s = .next s)
    ∧ (∀ held, s.link.receiver = .assembling held →
      ∃ t, exec .characterFault s = .next t
        ∧ t.link.receiver = .hunting
        ∧ t.link.gapTimer = none
        ∧ t.link.framingErrors = min 65535 (s.link.framingErrors + 1)
        ∧ t.link.overruns = s.link.overruns
        ∧ t.link.rate = s.link.rate
        ∧ UnchangedBut [.reception] s t
        ∧ (expired s.link.gapTimer s = true → exec .gapTimerExpiry s = .next t))
    ∧ (expired s.link.gapTimer s = false → exec .gapTimerExpiry s = .next s)

/-- The last byte of a frame frees the transmitter, and an answer's frees the slot: a waiting answer, an eligible notice and
a buffered order, whatever its KIND, follow (R149 to R152, R159; entry 7 on the order of the last two). -/
def Obligations.TransmitterTurns : Prop :=
  ∀ s : State, s.held = none →
    (s.link.transmitter = .free → exec .transmitComplete s = .next s)
    ∧ (∀ bytes f, s.link.transmitter = .sending false bytes → s.link.answer = some f →
      ∃ t, exec .transmitComplete s = .next t ∧ t.link.transmitter = .sending true f.bytes
        ∧ UnchangedBut [.transmitter] s t)
    ∧ (∀ (isAnswer : Bool) (bytes : List Byte), s.link.transmitter = .sending isAnswer bytes →
      (isAnswer = true → s.link.resetDue = false) → (isAnswer = false → s.link.answer = none) →
      (s.link.orders = [] → s.queue.eligible = false →
        ∃ t, exec .transmitComplete s = .next t ∧ t.link.transmitter = .free ∧ t.link.answer = none
          ∧ UnchangedBut [.transmitter, .answer] s t)
      ∧ (∀ n, s.link.orders = [] → s.queue.eligible = true →
        s.queue.notices[s.queue.distance s.queue.sendPointer]? = some n →
        ∃ t, exec .transmitComplete s = .next t ∧ t.link.transmitter = .sending false n.frame.bytes
          ∧ t.link.answer = none ∧ t.queue = s.queue.recordSent s.timeStamp
          ∧ UnchangedBut [.transmitter, .answer, .queue] s t)
      ∧ (∀ (c : Instr) (f : Frame) (rest : List Frame), s.link.orders = f :: rest →
        (∃ k : OrderKind, f.kind = k.code ∧ c = k.command f.number f.payload)
          ∨ (OrderKind.ofCode f.kind = none ∧ c = .unknownKind f.number f.kind f.payload) →
        (s.queue.eligible = false →
          exec .transmitComplete s = exec c
            { s with link := { s.link with transmitter := .free, answer := none, orders := rest } })
        ∧ (∀ n, s.queue.eligible = true → s.queue.notices[s.queue.distance s.queue.sendPointer]? = some n →
          exec .transmitComplete s = exec c
            { s with
              link := { s.link with transmitter := .sending false n.frame.bytes, answer := none, orders := rest }
              queue := s.queue.recordSent s.timeStamp })))

/-- The retry timer's expiry sends the queue back to its head and restarts (R162). That the expiry of a timer that has not
expired changes nothing is the model's choice (entries 3 and 4), and so is a free transmitter's start within the step
(entry 7). -/
def Obligations.RetryGoesBack : Prop :=
  ∀ s : State, s.held = none →
    (expired s.queue.retryTimer s = false → exec .retryTimerExpiry s = .next s)
    ∧ (∀ q : ReportQueue, expired s.queue.retryTimer s = true →
      q = { s.queue with
        sendPointer := s.queue.head
        retryTimer := some (s.timeStamp + BitVec.ofNat 32 s.queue.retryTime) } →
      ∃ t, exec .retryTimerExpiry s = .next t
        ∧ (s.link.transmitter ≠ .free → t.queue = q ∧ t.link = s.link)
        ∧ (∀ n, s.link.transmitter = .free → s.link.answer = none → q.eligible = true → q.notices[0]? = some n →
            t.queue = q.recordSent s.timeStamp ∧ t.link.transmitter = .sending false n.frame.bytes)
        ∧ (s.link.transmitter = .free → s.link.answer = none → q.eligible = false → t.queue = q ∧ t.link = s.link)
        ∧ UnchangedBut [.queue, .transmitter] s t)

/-- Admission to the report queue (R158): by kind and occupancy, with consecutive numbers and the drops in the next gap; which
notice may be sent, and what its sending leaves: the pointers, and the retry timer started when nothing was in flight (R159,
R162). -/
def Obligations.NoticeAdmission : Prop :=
  ∀ (q : ReportQueue) (b : NoticeBody) (time : TimeStamp) (position : Position),
    (q.occupancy < (if b.kept = true then 64 else 60) →
      q.offer b time position = { q with
        notices := q.notices ++
          [{ number := q.next, timeStamp := time, position := position, gap := q.drops, body := b }]
        next := q.next + 1
        drops := 0 })
    ∧ ((if b.kept = true then 64 else 60) ≤ q.occupancy →
      q.offer b time position = { q with drops := min 255 (q.drops + 1) })
    ∧ (b.kept = true ↔ (∃ c, b = .restart c) ∨ (∃ x y c, b = .lineState x y c) ∨ ∃ r, b = .link r)
    ∧ (q.eligible = true ↔ q.sendPointer ≠ q.next ∧ (q.sendPointer - q.head).toNat < q.window)
    ∧ q.recordSent time = { q with
        sendPointer := q.sendPointer + 1
        highestSent := if q.sendPointer = q.highestSent + 1 then q.sendPointer else q.highestSent
        retryTimer :=
          if q.sendPointer = q.highestSent + 1 ∧ (q.highestSent + 1 - q.head).toNat = 0 then
            some (time + BitVec.ofNat 32 q.retryTime)
          else q.retryTimer }

/-! ### Laws that every step keeps -/

/-- The laws hold right after power-on. -/
def Obligations.LawsAtReset : Prop :=
  LineLaw State.reset ∧ TagLaw State.reset ∧ QueueLaw State.reset.queue ∧ LinkLaw State.reset.link
    ∧ DriveLaw State.reset ∧ NoSlotWasted State.reset ∧ TrackingLaw State.reset

/-- Every step keeps the law of the line state controller and the belt, and the law of the tags (R7, R8, R27, R34, R35,
R117 to R119). -/
def Obligations.LineAndTagLawsKept : Prop :=
  (∀ s t : State, LineLaw s → step s = .next t → LineLaw t)
    ∧ (∀ s t : State, TagLaw s → step s = .next t → TagLaw t)

/-- Every step keeps the law of the report queue (R157, R158, R162). -/
def Obligations.QueueLawKept : Prop :=
  ∀ s t : State, QueueLaw s.queue → step s = .next t → QueueLaw t.queue

/-- Every step keeps the law of the link unit (R142, R145 to R149, R152). -/
def Obligations.LinkLawKept : Prop :=
  ∀ s t : State, LinkLaw s.link → step s = .next t → LinkLaw t.link

/-- Every step keeps the law of the diverters and the arbiter: the table of R63, slots in use equal to the energised
diverters and within the budget, and no slot free beside a waiting diverter (R62 to R65). -/
def Obligations.DriveLawKept : Prop :=
  ∀ s t : State, DriveLaw s → NoSlotWasted s → step s = .next t → DriveLaw t ∧ NoSlotWasted t
end

