-- ==== Sys2Proof/Laws/State.lean ====
section
/-! SUPPORT. One lemma per field and update of the state, each true by computation, so that no proof unfolds a record
update. -/

namespace Sys2Proof.Machine

/-! ### setDiverter -/

section

variable (d : Station) (f : Diverter → Diverter) (s : State)

@[simp] theorem setDiverter_timeStamp : (setDiverter d f s).timeStamp = s.timeStamp := rfl
@[simp] theorem setDiverter_counter : (setDiverter d f s).counter = s.counter := rfl
@[simp] theorem setDiverter_watches : (setDiverter d f s).watches = s.watches := rfl
@[simp] theorem setDiverter_induction : (setDiverter d f s).induction = s.induction := rfl
@[simp] theorem setDiverter_table : (setDiverter d f s).table = s.table := rfl
@[simp] theorem setDiverter_diverters : (setDiverter d f s).diverters = s.diverters.set d (f s.diverters[d]) := rfl
@[simp] theorem setDiverter_arbiter : (setDiverter d f s).arbiter = s.arbiter := rfl
@[simp] theorem setDiverter_monitors : (setDiverter d f s).monitors = s.monitors := rfl
@[simp] theorem setDiverter_destinations : (setDiverter d f s).destinations = s.destinations := rfl
@[simp] theorem setDiverter_runOff : (setDiverter d f s).runOff = s.runOff := rfl
@[simp] theorem setDiverter_line : (setDiverter d f s).line = s.line := rfl
@[simp] theorem setDiverter_pendingConfig : (setDiverter d f s).pendingConfig = s.pendingConfig := rfl
@[simp] theorem setDiverter_config : (setDiverter d f s).config = s.config := rfl
@[simp] theorem setDiverter_link : (setDiverter d f s).link = s.link := rfl
@[simp] theorem setDiverter_queue : (setDiverter d f s).queue = s.queue := rfl
@[simp] theorem setDiverter_supervisor : (setDiverter d f s).supervisor = s.supervisor := rfl
@[simp] theorem setDiverter_held : (setDiverter d f s).held = s.held := rfl
@[simp] theorem setDiverter_pending : (setDiverter d f s).pending = s.pending := rfl

end

/-! ### setMonitor -/

section

variable (d : Station) (f : Monitor → Monitor) (s : State)

@[simp] theorem setMonitor_timeStamp : (setMonitor d f s).timeStamp = s.timeStamp := rfl
@[simp] theorem setMonitor_counter : (setMonitor d f s).counter = s.counter := rfl
@[simp] theorem setMonitor_watches : (setMonitor d f s).watches = s.watches := rfl
@[simp] theorem setMonitor_induction : (setMonitor d f s).induction = s.induction := rfl
@[simp] theorem setMonitor_table : (setMonitor d f s).table = s.table := rfl
@[simp] theorem setMonitor_diverters : (setMonitor d f s).diverters = s.diverters := rfl
@[simp] theorem setMonitor_arbiter : (setMonitor d f s).arbiter = s.arbiter := rfl
@[simp] theorem setMonitor_monitors : (setMonitor d f s).monitors = s.monitors.set d (f s.monitors[d]) := rfl
@[simp] theorem setMonitor_destinations : (setMonitor d f s).destinations = s.destinations := rfl
@[simp] theorem setMonitor_runOff : (setMonitor d f s).runOff = s.runOff := rfl
@[simp] theorem setMonitor_line : (setMonitor d f s).line = s.line := rfl
@[simp] theorem setMonitor_pendingConfig : (setMonitor d f s).pendingConfig = s.pendingConfig := rfl
@[simp] theorem setMonitor_config : (setMonitor d f s).config = s.config := rfl
@[simp] theorem setMonitor_link : (setMonitor d f s).link = s.link := rfl
@[simp] theorem setMonitor_queue : (setMonitor d f s).queue = s.queue := rfl
@[simp] theorem setMonitor_supervisor : (setMonitor d f s).supervisor = s.supervisor := rfl
@[simp] theorem setMonitor_held : (setMonitor d f s).held = s.held := rfl
@[simp] theorem setMonitor_pending : (setMonitor d f s).pending = s.pending := rfl

end

/-! ### setDestination -/

section

variable (d : Station) (f : DestRecord → DestRecord) (s : State)

@[simp] theorem setDestination_timeStamp : (setDestination d f s).timeStamp = s.timeStamp := rfl
@[simp] theorem setDestination_counter : (setDestination d f s).counter = s.counter := rfl
@[simp] theorem setDestination_watches : (setDestination d f s).watches = s.watches := rfl
@[simp] theorem setDestination_induction : (setDestination d f s).induction = s.induction := rfl
@[simp] theorem setDestination_table : (setDestination d f s).table = s.table := rfl
@[simp] theorem setDestination_diverters : (setDestination d f s).diverters = s.diverters := rfl
@[simp] theorem setDestination_arbiter : (setDestination d f s).arbiter = s.arbiter := rfl
@[simp] theorem setDestination_monitors : (setDestination d f s).monitors = s.monitors := rfl
@[simp] theorem setDestination_destinations :
    (setDestination d f s).destinations = s.destinations.set d (f s.destinations[d]) := rfl
@[simp] theorem setDestination_runOff : (setDestination d f s).runOff = s.runOff := rfl
@[simp] theorem setDestination_line : (setDestination d f s).line = s.line := rfl
@[simp] theorem setDestination_pendingConfig : (setDestination d f s).pendingConfig = s.pendingConfig := rfl
@[simp] theorem setDestination_config : (setDestination d f s).config = s.config := rfl
@[simp] theorem setDestination_link : (setDestination d f s).link = s.link := rfl
@[simp] theorem setDestination_queue : (setDestination d f s).queue = s.queue := rfl
@[simp] theorem setDestination_supervisor : (setDestination d f s).supervisor = s.supervisor := rfl
@[simp] theorem setDestination_held : (setDestination d f s).held = s.held := rfl
@[simp] theorem setDestination_pending : (setDestination d f s).pending = s.pending := rfl

end

/-! ### setWaiting -/

section

variable (d : Station) (b : Bool) (s : State)

@[simp] theorem setWaiting_timeStamp : (setWaiting d b s).timeStamp = s.timeStamp := rfl
@[simp] theorem setWaiting_counter : (setWaiting d b s).counter = s.counter := rfl
@[simp] theorem setWaiting_watches : (setWaiting d b s).watches = s.watches := rfl
@[simp] theorem setWaiting_induction : (setWaiting d b s).induction = s.induction := rfl
@[simp] theorem setWaiting_table : (setWaiting d b s).table = s.table := rfl
@[simp] theorem setWaiting_diverters : (setWaiting d b s).diverters = s.diverters := rfl
@[simp] theorem setWaiting_arbiter :
    (setWaiting d b s).arbiter = { s.arbiter with waiting := s.arbiter.waiting.set d b } := rfl
@[simp] theorem setWaiting_monitors : (setWaiting d b s).monitors = s.monitors := rfl
@[simp] theorem setWaiting_destinations : (setWaiting d b s).destinations = s.destinations := rfl
@[simp] theorem setWaiting_runOff : (setWaiting d b s).runOff = s.runOff := rfl
@[simp] theorem setWaiting_line : (setWaiting d b s).line = s.line := rfl
@[simp] theorem setWaiting_pendingConfig : (setWaiting d b s).pendingConfig = s.pendingConfig := rfl
@[simp] theorem setWaiting_config : (setWaiting d b s).config = s.config := rfl
@[simp] theorem setWaiting_link : (setWaiting d b s).link = s.link := rfl
@[simp] theorem setWaiting_queue : (setWaiting d b s).queue = s.queue := rfl
@[simp] theorem setWaiting_supervisor : (setWaiting d b s).supervisor = s.supervisor := rfl
@[simp] theorem setWaiting_held : (setWaiting d b s).held = s.held := rfl
@[simp] theorem setWaiting_pending : (setWaiting d b s).pending = s.pending := rfl

end

/-! ### takeSlot -/

section

variable (s : State)

@[simp] theorem takeSlot_timeStamp : (takeSlot s).timeStamp = s.timeStamp := rfl
@[simp] theorem takeSlot_counter : (takeSlot s).counter = s.counter := rfl
@[simp] theorem takeSlot_watches : (takeSlot s).watches = s.watches := rfl
@[simp] theorem takeSlot_induction : (takeSlot s).induction = s.induction := rfl
@[simp] theorem takeSlot_table : (takeSlot s).table = s.table := rfl
@[simp] theorem takeSlot_diverters : (takeSlot s).diverters = s.diverters := rfl
@[simp] theorem takeSlot_arbiter :
    (takeSlot s).arbiter = { s.arbiter with slotsInUse := s.arbiter.slotsInUse + 1 } := rfl
@[simp] theorem takeSlot_monitors : (takeSlot s).monitors = s.monitors := rfl
@[simp] theorem takeSlot_destinations : (takeSlot s).destinations = s.destinations := rfl
@[simp] theorem takeSlot_runOff : (takeSlot s).runOff = s.runOff := rfl
@[simp] theorem takeSlot_line : (takeSlot s).line = s.line := rfl
@[simp] theorem takeSlot_pendingConfig : (takeSlot s).pendingConfig = s.pendingConfig := rfl
@[simp] theorem takeSlot_config : (takeSlot s).config = s.config := rfl
@[simp] theorem takeSlot_link : (takeSlot s).link = s.link := rfl
@[simp] theorem takeSlot_queue : (takeSlot s).queue = s.queue := rfl
@[simp] theorem takeSlot_supervisor : (takeSlot s).supervisor = s.supervisor := rfl
@[simp] theorem takeSlot_held : (takeSlot s).held = s.held := rfl
@[simp] theorem takeSlot_pending : (takeSlot s).pending = s.pending := rfl

end

/-! ### freeSlot -/

section

variable (s : State)

@[simp] theorem freeSlot_timeStamp : (freeSlot s).timeStamp = s.timeStamp := rfl
@[simp] theorem freeSlot_counter : (freeSlot s).counter = s.counter := rfl
@[simp] theorem freeSlot_watches : (freeSlot s).watches = s.watches := rfl
@[simp] theorem freeSlot_induction : (freeSlot s).induction = s.induction := rfl
@[simp] theorem freeSlot_table : (freeSlot s).table = s.table := rfl
@[simp] theorem freeSlot_diverters : (freeSlot s).diverters = s.diverters := rfl
@[simp] theorem freeSlot_arbiter :
    (freeSlot s).arbiter = { s.arbiter with slotsInUse := s.arbiter.slotsInUse - 1 } := rfl
@[simp] theorem freeSlot_monitors : (freeSlot s).monitors = s.monitors := rfl
@[simp] theorem freeSlot_destinations : (freeSlot s).destinations = s.destinations := rfl
@[simp] theorem freeSlot_runOff : (freeSlot s).runOff = s.runOff := rfl
@[simp] theorem freeSlot_line : (freeSlot s).line = s.line := rfl
@[simp] theorem freeSlot_pendingConfig : (freeSlot s).pendingConfig = s.pendingConfig := rfl
@[simp] theorem freeSlot_config : (freeSlot s).config = s.config := rfl
@[simp] theorem freeSlot_link : (freeSlot s).link = s.link := rfl
@[simp] theorem freeSlot_queue : (freeSlot s).queue = s.queue := rfl
@[simp] theorem freeSlot_supervisor : (freeSlot s).supervisor = s.supervisor := rfl
@[simp] theorem freeSlot_held : (freeSlot s).held = s.held := rfl
@[simp] theorem freeSlot_pending : (freeSlot s).pending = s.pending := rfl

end

/-! ### setEntry -/

section

variable (tag : Tag) (f : Entry → Entry) (s : State)

@[simp] theorem setEntry_timeStamp : (setEntry tag f s).timeStamp = s.timeStamp := rfl
@[simp] theorem setEntry_counter : (setEntry tag f s).counter = s.counter := rfl
@[simp] theorem setEntry_watches : (setEntry tag f s).watches = s.watches := rfl
@[simp] theorem setEntry_induction : (setEntry tag f s).induction = s.induction := rfl
@[simp] theorem setEntry_table :
    (setEntry tag f s).table = s.table.map (fun e => if e.tag == tag then f e else e) := rfl
@[simp] theorem setEntry_diverters : (setEntry tag f s).diverters = s.diverters := rfl
@[simp] theorem setEntry_arbiter : (setEntry tag f s).arbiter = s.arbiter := rfl
@[simp] theorem setEntry_monitors : (setEntry tag f s).monitors = s.monitors := rfl
@[simp] theorem setEntry_destinations : (setEntry tag f s).destinations = s.destinations := rfl
@[simp] theorem setEntry_runOff : (setEntry tag f s).runOff = s.runOff := rfl
@[simp] theorem setEntry_line : (setEntry tag f s).line = s.line := rfl
@[simp] theorem setEntry_pendingConfig : (setEntry tag f s).pendingConfig = s.pendingConfig := rfl
@[simp] theorem setEntry_config : (setEntry tag f s).config = s.config := rfl
@[simp] theorem setEntry_link : (setEntry tag f s).link = s.link := rfl
@[simp] theorem setEntry_queue : (setEntry tag f s).queue = s.queue := rfl
@[simp] theorem setEntry_supervisor : (setEntry tag f s).supervisor = s.supervisor := rfl
@[simp] theorem setEntry_held : (setEntry tag f s).held = s.held := rfl
@[simp] theorem setEntry_pending : (setEntry tag f s).pending = s.pending := rfl

end

/-! ### insertWatch -/

section

variable (p : Position) (k : WatchKind) (s : State)

@[simp] theorem insertWatch_timeStamp : (insertWatch p k s).timeStamp = s.timeStamp := rfl
@[simp] theorem insertWatch_counter : (insertWatch p k s).counter = s.counter := rfl
@[simp] theorem insertWatch_watches : (insertWatch p k s).watches = insertSorted ⟨p, k⟩ s.watches := rfl
@[simp] theorem insertWatch_induction : (insertWatch p k s).induction = s.induction := rfl
@[simp] theorem insertWatch_table : (insertWatch p k s).table = s.table := rfl
@[simp] theorem insertWatch_diverters : (insertWatch p k s).diverters = s.diverters := rfl
@[simp] theorem insertWatch_arbiter : (insertWatch p k s).arbiter = s.arbiter := rfl
@[simp] theorem insertWatch_monitors : (insertWatch p k s).monitors = s.monitors := rfl
@[simp] theorem insertWatch_destinations : (insertWatch p k s).destinations = s.destinations := rfl
@[simp] theorem insertWatch_runOff : (insertWatch p k s).runOff = s.runOff := rfl
@[simp] theorem insertWatch_line : (insertWatch p k s).line = s.line := rfl
@[simp] theorem insertWatch_pendingConfig : (insertWatch p k s).pendingConfig = s.pendingConfig := rfl
@[simp] theorem insertWatch_config : (insertWatch p k s).config = s.config := rfl
@[simp] theorem insertWatch_link : (insertWatch p k s).link = s.link := rfl
@[simp] theorem insertWatch_queue : (insertWatch p k s).queue = s.queue := rfl
@[simp] theorem insertWatch_supervisor : (insertWatch p k s).supervisor = s.supervisor := rfl
@[simp] theorem insertWatch_held : (insertWatch p k s).held = s.held := rfl
@[simp] theorem insertWatch_pending : (insertWatch p k s).pending = s.pending := rfl

end

/-! ### removeWatch -/

section

variable (tag : Tag) (s : State)

@[simp] theorem removeWatch_timeStamp : (removeWatch tag s).timeStamp = s.timeStamp := rfl
@[simp] theorem removeWatch_counter : (removeWatch tag s).counter = s.counter := rfl
@[simp] theorem removeWatch_watches :
    (removeWatch tag s).watches = s.watches.filter (fun w => w.kind.tag? != some tag) := rfl
@[simp] theorem removeWatch_induction : (removeWatch tag s).induction = s.induction := rfl
@[simp] theorem removeWatch_table : (removeWatch tag s).table = s.table := rfl
@[simp] theorem removeWatch_diverters : (removeWatch tag s).diverters = s.diverters := rfl
@[simp] theorem removeWatch_arbiter : (removeWatch tag s).arbiter = s.arbiter := rfl
@[simp] theorem removeWatch_monitors : (removeWatch tag s).monitors = s.monitors := rfl
@[simp] theorem removeWatch_destinations : (removeWatch tag s).destinations = s.destinations := rfl
@[simp] theorem removeWatch_runOff : (removeWatch tag s).runOff = s.runOff := rfl
@[simp] theorem removeWatch_line : (removeWatch tag s).line = s.line := rfl
@[simp] theorem removeWatch_pendingConfig : (removeWatch tag s).pendingConfig = s.pendingConfig := rfl
@[simp] theorem removeWatch_config : (removeWatch tag s).config = s.config := rfl
@[simp] theorem removeWatch_link : (removeWatch tag s).link = s.link := rfl
@[simp] theorem removeWatch_queue : (removeWatch tag s).queue = s.queue := rfl
@[simp] theorem removeWatch_supervisor : (removeWatch tag s).supervisor = s.supervisor := rfl
@[simp] theorem removeWatch_held : (removeWatch tag s).held = s.held := rfl
@[simp] theorem removeWatch_pending : (removeWatch tag s).pending = s.pending := rfl

end

/-! ### removeLengthLimit -/

section

variable (s : State)

@[simp] theorem removeLengthLimit_timeStamp : (removeLengthLimit s).timeStamp = s.timeStamp := rfl
@[simp] theorem removeLengthLimit_counter : (removeLengthLimit s).counter = s.counter := rfl
@[simp] theorem removeLengthLimit_watches :
    (removeLengthLimit s).watches = s.watches.filter (fun w => w.kind != .lengthLimit) := rfl
@[simp] theorem removeLengthLimit_induction : (removeLengthLimit s).induction = s.induction := rfl
@[simp] theorem removeLengthLimit_table : (removeLengthLimit s).table = s.table := rfl
@[simp] theorem removeLengthLimit_diverters : (removeLengthLimit s).diverters = s.diverters := rfl
@[simp] theorem removeLengthLimit_arbiter : (removeLengthLimit s).arbiter = s.arbiter := rfl
@[simp] theorem removeLengthLimit_monitors : (removeLengthLimit s).monitors = s.monitors := rfl
@[simp] theorem removeLengthLimit_destinations : (removeLengthLimit s).destinations = s.destinations := rfl
@[simp] theorem removeLengthLimit_runOff : (removeLengthLimit s).runOff = s.runOff := rfl
@[simp] theorem removeLengthLimit_line : (removeLengthLimit s).line = s.line := rfl
@[simp] theorem removeLengthLimit_pendingConfig : (removeLengthLimit s).pendingConfig = s.pendingConfig := rfl
@[simp] theorem removeLengthLimit_config : (removeLengthLimit s).config = s.config := rfl
@[simp] theorem removeLengthLimit_link : (removeLengthLimit s).link = s.link := rfl
@[simp] theorem removeLengthLimit_queue : (removeLengthLimit s).queue = s.queue := rfl
@[simp] theorem removeLengthLimit_supervisor : (removeLengthLimit s).supervisor = s.supervisor := rfl
@[simp] theorem removeLengthLimit_held : (removeLengthLimit s).held = s.held := rfl
@[simp] theorem removeLengthLimit_pending : (removeLengthLimit s).pending = s.pending := rfl

end

/-! ### setSlot -/

section

variable (slot : Slot) (s : State)

@[simp] theorem setSlot_timeStamp : (setSlot slot s).timeStamp = s.timeStamp := rfl
@[simp] theorem setSlot_counter : (setSlot slot s).counter = s.counter := rfl
@[simp] theorem setSlot_watches : (setSlot slot s).watches = s.watches := rfl
@[simp] theorem setSlot_induction : (setSlot slot s).induction = { s.induction with slot := slot } := rfl
@[simp] theorem setSlot_table : (setSlot slot s).table = s.table := rfl
@[simp] theorem setSlot_diverters : (setSlot slot s).diverters = s.diverters := rfl
@[simp] theorem setSlot_arbiter : (setSlot slot s).arbiter = s.arbiter := rfl
@[simp] theorem setSlot_monitors : (setSlot slot s).monitors = s.monitors := rfl
@[simp] theorem setSlot_destinations : (setSlot slot s).destinations = s.destinations := rfl
@[simp] theorem setSlot_runOff : (setSlot slot s).runOff = s.runOff := rfl
@[simp] theorem setSlot_line : (setSlot slot s).line = s.line := rfl
@[simp] theorem setSlot_pendingConfig : (setSlot slot s).pendingConfig = s.pendingConfig := rfl
@[simp] theorem setSlot_config : (setSlot slot s).config = s.config := rfl
@[simp] theorem setSlot_link : (setSlot slot s).link = s.link := rfl
@[simp] theorem setSlot_queue : (setSlot slot s).queue = s.queue := rfl
@[simp] theorem setSlot_supervisor : (setSlot slot s).supervisor = s.supervisor := rfl
@[simp] theorem setSlot_held : (setSlot slot s).held = s.held := rfl
@[simp] theorem setSlot_pending : (setSlot slot s).pending = s.pending := rfl

end

/-! ### setEntryEye -/

section

variable (level : EyeLevel) (s : State)

@[simp] theorem setEntryEye_timeStamp : (setEntryEye level s).timeStamp = s.timeStamp := rfl
@[simp] theorem setEntryEye_counter : (setEntryEye level s).counter = s.counter := rfl
@[simp] theorem setEntryEye_watches : (setEntryEye level s).watches = s.watches := rfl
@[simp] theorem setEntryEye_induction : (setEntryEye level s).induction = { s.induction with eye := level } := rfl
@[simp] theorem setEntryEye_table : (setEntryEye level s).table = s.table := rfl
@[simp] theorem setEntryEye_diverters : (setEntryEye level s).diverters = s.diverters := rfl
@[simp] theorem setEntryEye_arbiter : (setEntryEye level s).arbiter = s.arbiter := rfl
@[simp] theorem setEntryEye_monitors : (setEntryEye level s).monitors = s.monitors := rfl
@[simp] theorem setEntryEye_destinations : (setEntryEye level s).destinations = s.destinations := rfl
@[simp] theorem setEntryEye_runOff : (setEntryEye level s).runOff = s.runOff := rfl
@[simp] theorem setEntryEye_line : (setEntryEye level s).line = s.line := rfl
@[simp] theorem setEntryEye_pendingConfig : (setEntryEye level s).pendingConfig = s.pendingConfig := rfl
@[simp] theorem setEntryEye_config : (setEntryEye level s).config = s.config := rfl
@[simp] theorem setEntryEye_link : (setEntryEye level s).link = s.link := rfl
@[simp] theorem setEntryEye_queue : (setEntryEye level s).queue = s.queue := rfl
@[simp] theorem setEntryEye_supervisor : (setEntryEye level s).supervisor = s.supervisor := rfl
@[simp] theorem setEntryEye_held : (setEntryEye level s).held = s.held := rfl
@[simp] theorem setEntryEye_pending : (setEntryEye level s).pending = s.pending := rfl

end

/-! ### forgetTrailing -/

section

variable (s : State)

@[simp] theorem forgetTrailing_timeStamp : (forgetTrailing s).timeStamp = s.timeStamp := rfl
@[simp] theorem forgetTrailing_counter : (forgetTrailing s).counter = s.counter := rfl
@[simp] theorem forgetTrailing_watches : (forgetTrailing s).watches = s.watches := rfl
@[simp] theorem forgetTrailing_induction :
    (forgetTrailing s).induction = { s.induction with lastTrailing := none } := rfl
@[simp] theorem forgetTrailing_table : (forgetTrailing s).table = s.table := rfl
@[simp] theorem forgetTrailing_diverters : (forgetTrailing s).diverters = s.diverters := rfl
@[simp] theorem forgetTrailing_arbiter : (forgetTrailing s).arbiter = s.arbiter := rfl
@[simp] theorem forgetTrailing_monitors : (forgetTrailing s).monitors = s.monitors := rfl
@[simp] theorem forgetTrailing_destinations : (forgetTrailing s).destinations = s.destinations := rfl
@[simp] theorem forgetTrailing_runOff : (forgetTrailing s).runOff = s.runOff := rfl
@[simp] theorem forgetTrailing_line : (forgetTrailing s).line = s.line := rfl
@[simp] theorem forgetTrailing_pendingConfig : (forgetTrailing s).pendingConfig = s.pendingConfig := rfl
@[simp] theorem forgetTrailing_config : (forgetTrailing s).config = s.config := rfl
@[simp] theorem forgetTrailing_link : (forgetTrailing s).link = s.link := rfl
@[simp] theorem forgetTrailing_queue : (forgetTrailing s).queue = s.queue := rfl
@[simp] theorem forgetTrailing_supervisor : (forgetTrailing s).supervisor = s.supervisor := rfl
@[simp] theorem forgetTrailing_held : (forgetTrailing s).held = s.held := rfl
@[simp] theorem forgetTrailing_pending : (forgetTrailing s).pending = s.pending := rfl

end

/-! ### markHighWater -/

section

variable (s : State)

@[simp] theorem markHighWater_timeStamp : (markHighWater s).timeStamp = s.timeStamp := rfl
@[simp] theorem markHighWater_counter :
    (markHighWater s).counter = { s.counter with highWater := s.counter.position } := rfl
@[simp] theorem markHighWater_watches : (markHighWater s).watches = s.watches := rfl
@[simp] theorem markHighWater_induction : (markHighWater s).induction = s.induction := rfl
@[simp] theorem markHighWater_table : (markHighWater s).table = s.table := rfl
@[simp] theorem markHighWater_diverters : (markHighWater s).diverters = s.diverters := rfl
@[simp] theorem markHighWater_arbiter : (markHighWater s).arbiter = s.arbiter := rfl
@[simp] theorem markHighWater_monitors : (markHighWater s).monitors = s.monitors := rfl
@[simp] theorem markHighWater_destinations : (markHighWater s).destinations = s.destinations := rfl
@[simp] theorem markHighWater_runOff : (markHighWater s).runOff = s.runOff := rfl
@[simp] theorem markHighWater_line : (markHighWater s).line = s.line := rfl
@[simp] theorem markHighWater_pendingConfig : (markHighWater s).pendingConfig = s.pendingConfig := rfl
@[simp] theorem markHighWater_config : (markHighWater s).config = s.config := rfl
@[simp] theorem markHighWater_link : (markHighWater s).link = s.link := rfl
@[simp] theorem markHighWater_queue : (markHighWater s).queue = s.queue := rfl
@[simp] theorem markHighWater_supervisor : (markHighWater s).supervisor = s.supervisor := rfl
@[simp] theorem markHighWater_held : (markHighWater s).held = s.held := rfl
@[simp] theorem markHighWater_pending : (markHighWater s).pending = s.pending := rfl

end

/-! ### clearLatch -/

section

variable (s : State)

@[simp] theorem clearLatch_timeStamp : (clearLatch s).timeStamp = s.timeStamp := rfl
@[simp] theorem clearLatch_counter : (clearLatch s).counter = { s.counter with faultLatch := false } := rfl
@[simp] theorem clearLatch_watches : (clearLatch s).watches = s.watches := rfl
@[simp] theorem clearLatch_induction : (clearLatch s).induction = s.induction := rfl
@[simp] theorem clearLatch_table : (clearLatch s).table = s.table := rfl
@[simp] theorem clearLatch_diverters : (clearLatch s).diverters = s.diverters := rfl
@[simp] theorem clearLatch_arbiter : (clearLatch s).arbiter = s.arbiter := rfl
@[simp] theorem clearLatch_monitors : (clearLatch s).monitors = s.monitors := rfl
@[simp] theorem clearLatch_destinations : (clearLatch s).destinations = s.destinations := rfl
@[simp] theorem clearLatch_runOff : (clearLatch s).runOff = s.runOff := rfl
@[simp] theorem clearLatch_line : (clearLatch s).line = s.line := rfl
@[simp] theorem clearLatch_pendingConfig : (clearLatch s).pendingConfig = s.pendingConfig := rfl
@[simp] theorem clearLatch_config : (clearLatch s).config = s.config := rfl
@[simp] theorem clearLatch_link : (clearLatch s).link = s.link := rfl
@[simp] theorem clearLatch_queue : (clearLatch s).queue = s.queue := rfl
@[simp] theorem clearLatch_supervisor : (clearLatch s).supervisor = s.supervisor := rfl
@[simp] theorem clearLatch_held : (clearLatch s).held = s.held := rfl
@[simp] theorem clearLatch_pending : (clearLatch s).pending = s.pending := rfl

end

/-! ### setLine -/

section

variable (l : LineState) (c : HaltCause) (p : Bool) (s : State)

@[simp] theorem setLine_timeStamp : (setLine l c p s).timeStamp = s.timeStamp := rfl
@[simp] theorem setLine_counter : (setLine l c p s).counter = s.counter := rfl
@[simp] theorem setLine_watches : (setLine l c p s).watches = s.watches := rfl
@[simp] theorem setLine_induction : (setLine l c p s).induction = s.induction := rfl
@[simp] theorem setLine_table : (setLine l c p s).table = s.table := rfl
@[simp] theorem setLine_diverters : (setLine l c p s).diverters = s.diverters := rfl
@[simp] theorem setLine_arbiter : (setLine l c p s).arbiter = s.arbiter := rfl
@[simp] theorem setLine_monitors : (setLine l c p s).monitors = s.monitors := rfl
@[simp] theorem setLine_destinations : (setLine l c p s).destinations = s.destinations := rfl
@[simp] theorem setLine_runOff : (setLine l c p s).runOff = s.runOff := rfl
@[simp] theorem setLine_line :
    (setLine l c p s).line = { s.line with state := l, haltCause := c, runPermit := p } := rfl
@[simp] theorem setLine_pendingConfig : (setLine l c p s).pendingConfig = s.pendingConfig := rfl
@[simp] theorem setLine_config : (setLine l c p s).config = s.config := rfl
@[simp] theorem setLine_link : (setLine l c p s).link = s.link := rfl
@[simp] theorem setLine_queue : (setLine l c p s).queue = s.queue := rfl
@[simp] theorem setLine_supervisor : (setLine l c p s).supervisor = s.supervisor := rfl
@[simp] theorem setLine_held : (setLine l c p s).held = s.held := rfl
@[simp] theorem setLine_pending : (setLine l c p s).pending = s.pending := rfl

end

/-! ### setReceiver -/

section

variable (r : Receiver) (s : State)

@[simp] theorem setReceiver_timeStamp : (setReceiver r s).timeStamp = s.timeStamp := rfl
@[simp] theorem setReceiver_counter : (setReceiver r s).counter = s.counter := rfl
@[simp] theorem setReceiver_watches : (setReceiver r s).watches = s.watches := rfl
@[simp] theorem setReceiver_induction : (setReceiver r s).induction = s.induction := rfl
@[simp] theorem setReceiver_table : (setReceiver r s).table = s.table := rfl
@[simp] theorem setReceiver_diverters : (setReceiver r s).diverters = s.diverters := rfl
@[simp] theorem setReceiver_arbiter : (setReceiver r s).arbiter = s.arbiter := rfl
@[simp] theorem setReceiver_monitors : (setReceiver r s).monitors = s.monitors := rfl
@[simp] theorem setReceiver_destinations : (setReceiver r s).destinations = s.destinations := rfl
@[simp] theorem setReceiver_runOff : (setReceiver r s).runOff = s.runOff := rfl
@[simp] theorem setReceiver_line : (setReceiver r s).line = s.line := rfl
@[simp] theorem setReceiver_pendingConfig : (setReceiver r s).pendingConfig = s.pendingConfig := rfl
@[simp] theorem setReceiver_config : (setReceiver r s).config = s.config := rfl
@[simp] theorem setReceiver_link : (setReceiver r s).link = { s.link with receiver := r } := rfl
@[simp] theorem setReceiver_queue : (setReceiver r s).queue = s.queue := rfl
@[simp] theorem setReceiver_supervisor : (setReceiver r s).supervisor = s.supervisor := rfl
@[simp] theorem setReceiver_held : (setReceiver r s).held = s.held := rfl
@[simp] theorem setReceiver_pending : (setReceiver r s).pending = s.pending := rfl

end

/-! ### countDiscard -/

section

variable (s : State)

@[simp] theorem countDiscard_timeStamp : (countDiscard s).timeStamp = s.timeStamp := rfl
@[simp] theorem countDiscard_counter : (countDiscard s).counter = s.counter := rfl
@[simp] theorem countDiscard_watches : (countDiscard s).watches = s.watches := rfl
@[simp] theorem countDiscard_induction : (countDiscard s).induction = s.induction := rfl
@[simp] theorem countDiscard_table : (countDiscard s).table = s.table := rfl
@[simp] theorem countDiscard_diverters : (countDiscard s).diverters = s.diverters := rfl
@[simp] theorem countDiscard_arbiter : (countDiscard s).arbiter = s.arbiter := rfl
@[simp] theorem countDiscard_monitors : (countDiscard s).monitors = s.monitors := rfl
@[simp] theorem countDiscard_destinations : (countDiscard s).destinations = s.destinations := rfl
@[simp] theorem countDiscard_runOff : (countDiscard s).runOff = s.runOff := rfl
@[simp] theorem countDiscard_line : (countDiscard s).line = s.line := rfl
@[simp] theorem countDiscard_pendingConfig : (countDiscard s).pendingConfig = s.pendingConfig := rfl
@[simp] theorem countDiscard_config : (countDiscard s).config = s.config := rfl
@[simp] theorem countDiscard_link :
    (countDiscard s).link = { s.link with framingErrors := min Config.countLimit (s.link.framingErrors + 1) } := rfl
@[simp] theorem countDiscard_queue : (countDiscard s).queue = s.queue := rfl
@[simp] theorem countDiscard_supervisor : (countDiscard s).supervisor = s.supervisor := rfl
@[simp] theorem countDiscard_held : (countDiscard s).held = s.held := rfl
@[simp] theorem countDiscard_pending : (countDiscard s).pending = s.pending := rfl

end

/-! ### recordOrder -/

section

variable (n : Half) (k : Byte) (f : Frame) (s : State)

@[simp] theorem recordOrder_timeStamp : (recordOrder n k f s).timeStamp = s.timeStamp := rfl
@[simp] theorem recordOrder_counter : (recordOrder n k f s).counter = s.counter := rfl
@[simp] theorem recordOrder_watches : (recordOrder n k f s).watches = s.watches := rfl
@[simp] theorem recordOrder_induction : (recordOrder n k f s).induction = s.induction := rfl
@[simp] theorem recordOrder_table : (recordOrder n k f s).table = s.table := rfl
@[simp] theorem recordOrder_diverters : (recordOrder n k f s).diverters = s.diverters := rfl
@[simp] theorem recordOrder_arbiter : (recordOrder n k f s).arbiter = s.arbiter := rfl
@[simp] theorem recordOrder_monitors : (recordOrder n k f s).monitors = s.monitors := rfl
@[simp] theorem recordOrder_destinations : (recordOrder n k f s).destinations = s.destinations := rfl
@[simp] theorem recordOrder_runOff : (recordOrder n k f s).runOff = s.runOff := rfl
@[simp] theorem recordOrder_line : (recordOrder n k f s).line = s.line := rfl
@[simp] theorem recordOrder_pendingConfig : (recordOrder n k f s).pendingConfig = s.pendingConfig := rfl
@[simp] theorem recordOrder_config : (recordOrder n k f s).config = s.config := rfl
@[simp] theorem recordOrder_link : (recordOrder n k f s).link = { s.link with last := some ⟨n, k, f⟩ } := rfl
@[simp] theorem recordOrder_queue : (recordOrder n k f s).queue = s.queue := rfl
@[simp] theorem recordOrder_supervisor : (recordOrder n k f s).supervisor = s.supervisor := rfl
@[simp] theorem recordOrder_held : (recordOrder n k f s).held = s.held := rfl
@[simp] theorem recordOrder_pending : (recordOrder n k f s).pending = s.pending := rfl

end

/-! ### tickTime -/

section

variable (s : State)

@[simp] theorem tickTime_timeStamp : (tickTime s).timeStamp = s.timeStamp + 1 := rfl
@[simp] theorem tickTime_counter : (tickTime s).counter = s.counter := rfl
@[simp] theorem tickTime_watches : (tickTime s).watches = s.watches := rfl
@[simp] theorem tickTime_induction : (tickTime s).induction = s.induction := rfl
@[simp] theorem tickTime_table : (tickTime s).table = s.table := rfl
@[simp] theorem tickTime_diverters : (tickTime s).diverters = s.diverters := rfl
@[simp] theorem tickTime_arbiter : (tickTime s).arbiter = s.arbiter := rfl
@[simp] theorem tickTime_monitors : (tickTime s).monitors = s.monitors := rfl
@[simp] theorem tickTime_destinations : (tickTime s).destinations = s.destinations := rfl
@[simp] theorem tickTime_runOff : (tickTime s).runOff = s.runOff := rfl
@[simp] theorem tickTime_line : (tickTime s).line = s.line := rfl
@[simp] theorem tickTime_pendingConfig : (tickTime s).pendingConfig = s.pendingConfig := rfl
@[simp] theorem tickTime_config : (tickTime s).config = s.config := rfl
@[simp] theorem tickTime_link : (tickTime s).link = s.link := rfl
@[simp] theorem tickTime_queue : (tickTime s).queue = s.queue := rfl
@[simp] theorem tickTime_supervisor : (tickTime s).supervisor = s.supervisor := rfl
@[simp] theorem tickTime_held : (tickTime s).held = s.held := rfl
@[simp] theorem tickTime_pending : (tickTime s).pending = s.pending := rfl

end

/-! ### evaluateHold -/

section

variable (s : State)

@[simp] theorem evaluateHold_timeStamp : (evaluateHold s).timeStamp = s.timeStamp := rfl
@[simp] theorem evaluateHold_counter : (evaluateHold s).counter = s.counter := rfl
@[simp] theorem evaluateHold_watches : (evaluateHold s).watches = s.watches := rfl
@[simp] theorem evaluateHold_table : (evaluateHold s).table = s.table := rfl
@[simp] theorem evaluateHold_diverters : (evaluateHold s).diverters = s.diverters := rfl
@[simp] theorem evaluateHold_arbiter : (evaluateHold s).arbiter = s.arbiter := rfl
@[simp] theorem evaluateHold_monitors : (evaluateHold s).monitors = s.monitors := rfl
@[simp] theorem evaluateHold_destinations : (evaluateHold s).destinations = s.destinations := rfl
@[simp] theorem evaluateHold_runOff : (evaluateHold s).runOff = s.runOff := rfl
@[simp] theorem evaluateHold_line : (evaluateHold s).line = s.line := rfl
@[simp] theorem evaluateHold_pendingConfig : (evaluateHold s).pendingConfig = s.pendingConfig := rfl
@[simp] theorem evaluateHold_config : (evaluateHold s).config = s.config := rfl
@[simp] theorem evaluateHold_link : (evaluateHold s).link = s.link := rfl
@[simp] theorem evaluateHold_queue : (evaluateHold s).queue = s.queue := rfl
@[simp] theorem evaluateHold_supervisor : (evaluateHold s).supervisor = s.supervisor := rfl
@[simp] theorem evaluateHold_held : (evaluateHold s).held = s.held := rfl
@[simp] theorem evaluateHold_pending : (evaluateHold s).pending = s.pending := rfl
@[simp] theorem evaluateHold_eye : (evaluateHold s).induction.eye = s.induction.eye := rfl
@[simp] theorem evaluateHold_slot : (evaluateHold s).induction.slot = s.induction.slot := rfl
@[simp] theorem evaluateHold_lastTrailing : (evaluateHold s).induction.lastTrailing = s.induction.lastTrailing := rfl
@[simp] theorem evaluateHold_nextTag : (evaluateHold s).induction.nextTag = s.induction.nextTag := rfl

end

/-! ### removeEntry -/

section

variable (tag : Tag) (s : State)

@[simp] theorem removeEntry_timeStamp : (removeEntry tag s).timeStamp = s.timeStamp := rfl
@[simp] theorem removeEntry_counter : (removeEntry tag s).counter = s.counter := rfl
@[simp] theorem removeEntry_watches : (removeEntry tag s).watches = s.watches := rfl
@[simp] theorem removeEntry_table : (removeEntry tag s).table = s.table.filter (fun e => e.tag != tag) := rfl
@[simp] theorem removeEntry_diverters : (removeEntry tag s).diverters = s.diverters := rfl
@[simp] theorem removeEntry_arbiter : (removeEntry tag s).arbiter = s.arbiter := rfl
@[simp] theorem removeEntry_monitors : (removeEntry tag s).monitors = s.monitors := rfl
@[simp] theorem removeEntry_destinations : (removeEntry tag s).destinations = s.destinations := rfl
@[simp] theorem removeEntry_runOff : (removeEntry tag s).runOff = s.runOff := rfl
@[simp] theorem removeEntry_line : (removeEntry tag s).line = s.line := rfl
@[simp] theorem removeEntry_pendingConfig : (removeEntry tag s).pendingConfig = s.pendingConfig := rfl
@[simp] theorem removeEntry_config : (removeEntry tag s).config = s.config := rfl
@[simp] theorem removeEntry_link : (removeEntry tag s).link = s.link := rfl
@[simp] theorem removeEntry_queue : (removeEntry tag s).queue = s.queue := rfl
@[simp] theorem removeEntry_supervisor : (removeEntry tag s).supervisor = s.supervisor := rfl
@[simp] theorem removeEntry_held : (removeEntry tag s).held = s.held := rfl
@[simp] theorem removeEntry_pending : (removeEntry tag s).pending = s.pending := rfl
@[simp] theorem removeEntry_eye : (removeEntry tag s).induction.eye = s.induction.eye := rfl
@[simp] theorem removeEntry_slot : (removeEntry tag s).induction.slot = s.induction.slot := rfl
@[simp] theorem removeEntry_lastTrailing : (removeEntry tag s).induction.lastTrailing = s.induction.lastTrailing := rfl
@[simp] theorem removeEntry_nextTag : (removeEntry tag s).induction.nextTag = s.induction.nextTag := rfl

end

end Sys2Proof.Machine
end

