-- ==== Sys2Proof/Laws/Queue.lean ====
section
/-! SUPPORT. The report queue: distances, and each operation of the queue keeps the queue's law (R157 to R162). -/

namespace Sys2Proof.Machine

namespace ReportQueue

variable (q : ReportQueue)

/-! ### Distances from the head -/

theorem distance_lt (x : Half) : q.distance x < 65536 := (x - q.head).isLt

theorem distance_head : q.distance q.head = 0 := by simp [distance]

theorem distance_succ (x : Half) (h : q.distance x < 65535) : q.distance (x + 1) = q.distance x + 1 := by
  have e : x + 1 - q.head = (x - q.head) + 1 := by ring
  simp only [distance] at *
  rw [e]
  generalize x - q.head = y at *
  rw [BitVec.toNat_add]
  have one : (1 : BitVec 16).toNat = 1 := by decide
  rw [one]
  omega

theorem distance_inj {x y : Half} (h : q.distance x = q.distance y) : x = y := by
  have : x - q.head = y - q.head := BitVec.eq_of_toNat_eq h
  simpa using this

theorem distance_of_number (i : Nat) (h : i < 65536) : q.distance (q.head + BitVec.ofNat 16 i) = i := by
  have e : q.head + BitVec.ofNat 16 i - q.head = BitVec.ofNat 16 i := by ring
  simp only [distance, e, BitVec.toNat_ofNat]
  omega

theorem number_of_distance (x : Half) : q.head + BitVec.ofNat 16 (q.distance x) = x := by
  rw [distance, BitVec.ofNat_toNat, BitVec.setWidth_eq]
  ring

end ReportQueue

/-! ### Admission (R158) -/

theorem QueueLaw.offer {q : ReportQueue} (h : QueueLaw q) (b : NoticeBody) (ts : TimeStamp) (p : Position) :
    QueueLaw (q.offer b ts p) := by
  obtain ⟨h1, h2, h3, h4, h5, h6, h7, h8, h9, h10⟩ := h
  unfold ReportQueue.offer
  generalize hlim : (if b.kept = true then Config.queueCapacity else Config.ordinaryCapacity) = lim
  have top : lim ≤ 64 := by rw [← hlim]; split <;> decide
  by_cases hlt : q.occupancy < lim
  · rw [if_pos hlt]
    have room : q.occupancy < 64 := by omega
    have occ : q.distance (q.next + 1) = q.occupancy + 1 :=
      q.distance_succ q.next (by simp only [ReportQueue.occupancy] at room ⊢; omega)
    refine ⟨?_, ?_, ?_, ?_, h5, ?_, h7, h8, by simp, h10⟩
    · show (q.notices ++ [_]).length = q.distance (q.next + 1)
      rw [List.length_append, h1, occ]
      rfl
    · show q.distance (q.next + 1) ≤ 64
      omega
    · simp only [List.countP_append, List.countP_singleton]
      have len : q.notices.countP (fun n => !n.body.kept) ≤ q.notices.length := List.countP_le_length
      by_cases k : b.kept = true
      · simpa [k] using h3
      · have hl : lim = 60 := by rw [← hlim, if_neg k]; rfl
        simp only [k, Config.ordinaryCapacity]
        simp
        omega
    · intro i n hn
      simp only at hn ⊢
      rw [List.getElem?_append] at hn
      split at hn
      · exact h4 i n hn
      · rename_i hi
        have hi' : i = q.notices.length := by
          by_contra hne
          rw [List.getElem?_eq_none (by simp; omega)] at hn
          simp at hn
        subst hi'
        simp at hn
        subst hn
        simp only [h1]
        exact (q.number_of_distance q.next).symm
    · show q.inFlight ≤ q.distance (q.next + 1)
      rw [occ]; omega
  · rw [if_neg hlt]
    exact ⟨h1, h2, h3, h4, h5, h6, h7, h8, by simp, h10⟩

theorem QueueLaw.afterNotices {q : ReportQueue} (h : QueueLaw q) (bs : List NoticeBody) (ts : TimeStamp)
    (p : Position) : QueueLaw (q.afterNotices bs ts p) := by
  induction bs generalizing q with
  | nil => exact h
  | cons b bs ih => exact ih (h.offer b ts p)

/-! ### Sending (R159) -/

theorem QueueLaw.recordSent {q : ReportQueue} (h : QueueLaw q) (e : q.eligible = true) (ts : TimeStamp) :
    QueueLaw (q.recordSent ts) := by
  obtain ⟨h1, h2, h3, h4, h5, h6, h7, h8, h9, h10⟩ := h
  simp only [ReportQueue.eligible, Bool.and_eq_true, bne_iff_ne, ne_eq, decide_eq_true_eq] at e
  obtain ⟨hne, hw⟩ := e
  have hocc : q.distance q.sendPointer ≠ q.occupancy := fun c => hne (q.distance_inj c)
  have hs : q.distance (q.sendPointer + 1) = q.distance q.sendPointer + 1 := q.distance_succ _ (by omega)
  unfold ReportQueue.recordSent
  split
  · rename_i heq
    have hi : q.inFlight = q.distance q.sendPointer := by rw [heq]; rfl
    refine ⟨h1, h2, h3, h4, ?_, ?_, ?_, h8, h9, ?_⟩
    · exact le_refl (q.distance (q.sendPointer + 1))
    · show q.distance (q.sendPointer + 1) ≤ q.occupancy
      omega
    · show q.distance (q.sendPointer + 1) ≤ 16
      omega
    · show (if q.inFlight = 0 then some (ts + ticks q.retryTime) else q.retryTimer).isSome = true ↔
        0 < q.distance (q.sendPointer + 1) ∧ 0 < q.window
      split
      · exact ⟨fun _ => ⟨by omega, by omega⟩, fun _ => rfl⟩
      · exact ⟨fun _ => ⟨by omega, by omega⟩, fun _ => h10.mpr ⟨by omega, by omega⟩⟩
  · rename_i heq
    have hi : q.distance q.sendPointer ≠ q.inFlight := fun c => heq (q.distance_inj c)
    refine ⟨h1, h2, h3, h4, ?_, h6, h7, h8, h9, h10⟩
    show q.distance (q.sendPointer + 1) ≤ q.inFlight
    omega

/-! ### WIND, ACK and the retry timer (R160 to R162) -/

theorem QueueLaw.setWindow {q : ReportQueue} (h : QueueLaw q) (w : Nat) (hw : w ≤ 16) (ts : TimeStamp) :
    QueueLaw (q.setWindow w ts) := by
  obtain ⟨h1, h2, h3, h4, h5, h6, h7, h8, h9, h10⟩ := h
  refine ⟨h1, h2, h3, h4, h5, h6, h7, hw, h9, ?_⟩
  show (if w = 0 then none
      else if q.window = 0 ∧ 0 < q.inFlight then some (ts + ticks q.retryTime) else q.retryTimer).isSome = true ↔
    0 < q.inFlight ∧ 0 < w
  split
  · simp; omega
  · split
    · simp; omega
    · rw [h10]; omega

theorem QueueLaw.acknowledge {q : ReportQueue} (h : QueueLaw q) (n : Half) (hn : q.distance n < q.inFlight)
    (ts : TimeStamp) : QueueLaw (q.acknowledge n ts) := by
  obtain ⟨h1, h2, h3, h4, h5, h6, h7, h8, h9, h10⟩ := h
  have ho : q.occupancy ≤ 64 := h2
  -- distances from the new head
  have hnew : ∀ x : Half, q.distance n + 1 ≤ q.distance x →
      (x - (n + 1)).toNat = q.distance x - (q.distance n + 1) := by
    intro x hx
    have e : x - (n + 1) = (x - q.head) - (n - q.head) - 1 := by ring
    have l1 := q.distance_lt x
    have l2 := q.distance_lt n
    simp only [ReportQueue.distance] at *
    rw [e, BitVec.toNat_sub, BitVec.toNat_sub]
    have one : (1 : BitVec 16).toNat = 1 := by decide
    rw [one]
    omega
  have hnext := hnew q.next (by show _ ≤ q.occupancy; omega)
  have hsent := hnew (q.highestSent + 1) (by show _ ≤ q.inFlight; omega)
  have hsend : (if q.distance q.sendPointer ≤ q.distance n then n + 1 else q.sendPointer) - (n + 1) =
      if q.distance q.sendPointer ≤ q.distance n then 0 else q.sendPointer - (n + 1) := by
    split <;> simp
  refine ⟨?_, ?_, ?_, ?_, ?_, ?_, ?_, h8, h9, ?_⟩
  · show (q.notices.drop (q.distance n + 1)).length = (q.next - (n + 1)).toNat
    rw [hnext, List.length_drop, h1]
    rfl
  · show (q.next - (n + 1)).toNat ≤ 64
    rw [hnext]
    have : q.distance q.next = q.occupancy := rfl
    omega
  · refine le_trans ?_ h3
    exact (List.drop_sublist _ _).countP_le
  · intro i x hx
    show x.number = n + 1 + BitVec.ofNat 16 i
    have hx' : q.notices[q.distance n + 1 + i]? = some x := by
      have : (q.notices.drop (q.distance n + 1))[i]? = some x := hx
      rwa [List.getElem?_drop] at this
    have := h4 _ _ hx'
    rw [this]
    have e := q.number_of_distance n
    calc q.head + BitVec.ofNat 16 (q.distance n + 1 + i)
        = q.head + (BitVec.ofNat 16 (q.distance n) + 1 + BitVec.ofNat 16 i) := by
          rw [BitVec.ofNat_add, BitVec.ofNat_add]
          rfl
      _ = (q.head + BitVec.ofNat 16 (q.distance n)) + 1 + BitVec.ofNat 16 i := by ring
      _ = n + 1 + BitVec.ofNat 16 i := by rw [e]
  · show ((if q.distance q.sendPointer ≤ q.distance n then n + 1 else q.sendPointer) - (n + 1)).toNat ≤
      (q.highestSent + 1 - (n + 1)).toNat
    rw [hsend, hsent]
    split
    · simp
    · rename_i hlt
      rw [hnew q.sendPointer (by omega)]
      have : q.distance (q.highestSent + 1) = q.inFlight := rfl
      omega
  · show (q.highestSent + 1 - (n + 1)).toNat ≤ (q.next - (n + 1)).toNat
    rw [hsent, hnext]
    have a : q.distance (q.highestSent + 1) = q.inFlight := rfl
    have b : q.distance q.next = q.occupancy := rfl
    omega
  · show (q.highestSent + 1 - (n + 1)).toNat ≤ 16
    rw [hsent]
    have a : q.distance (q.highestSent + 1) = q.inFlight := rfl
    omega
  · show (if 0 < (q.highestSent + 1 - (n + 1)).toNat ∧ 0 < q.window then some (ts + ticks q.retryTime)
        else none).isSome = true ↔ 0 < (q.highestSent + 1 - (n + 1)).toNat ∧ 0 < q.window
    split <;> simp_all

theorem QueueLaw.goBack {q : ReportQueue} (h : QueueLaw q) (running : q.retryTimer.isSome = true) (t : TimeStamp) :
    QueueLaw { q with sendPointer := q.head, retryTimer := some t } := by
  obtain ⟨h1, h2, h3, h4, h5, h6, h7, h8, h9, h10⟩ := h
  refine ⟨h1, h2, h3, h4, ?_, h6, h7, h8, h9, ?_⟩
  · show q.distance q.head ≤ q.inFlight
    rw [q.distance_head]; omega
  · show (some t).isSome = true ↔ _
    exact ⟨fun _ => h10.mp running, fun _ => rfl⟩

theorem QueueLaw.setRetryTime {q : ReportQueue} (h : QueueLaw q) (n : Nat) : QueueLaw { q with retryTime := n } :=
  ⟨h.held, h.room, h.ordinary, h.numbered, h.sendInFlight, h.sentHeld, h.sentFew, h.windowFew, h.dropsFew, h.timer⟩

theorem QueueLaw.atReset (c : ResetCause) : QueueLaw (ReportQueue.atReset c) := by
  refine ⟨by cases c <;> decide, by cases c <;> decide, by cases c <;> decide, ?_, by cases c <;> decide,
    by cases c <;> decide, by cases c <;> decide, by cases c <;> decide, by cases c <;> decide,
    by cases c <;> decide⟩
  intro i n hn
  cases i with
  | zero => simp [ReportQueue.atReset] at hn; subst hn; simp [ReportQueue.atReset]
  | succ i => simp [ReportQueue.atReset] at hn

end Sys2Proof.Machine
end

