-- ==== Sys2Proof/Laws/Sending.lean ====
section
/-! SUPPORT. What a notice, an answer and the transmitter's choice leave alone, field by field, and what they do to the
queue (R152, R155, R158, R159). -/

namespace Sys2Proof.Machine

/-! ### The transmitter's choice -/

/-- Everything `startNext` can do: nothing, or a free transmitter starts the answer, or an eligible notice that the queue
records as sent (R152, R159). -/
theorem startNext_cases (s : State) :
    startNext s = s
      ∨ (s.link.transmitter = .free ∧ ∃ f, s.link.answer = some f
        ∧ startNext s = { s with link := { s.link with transmitter := .sending true f.bytes } })
      ∨ (s.link.transmitter = .free ∧ s.link.answer = none ∧ s.queue.eligible = true ∧ ∃ n : Notice,
        startNext s =
          { s with
            link := { s.link with transmitter := .sending false n.frame.bytes }
            queue := s.queue.recordSent s.timeStamp }) := by
  unfold startNext
  split
  · rename_i f ht ha
    exact Or.inr (Or.inl ⟨ht, f, ha, rfl⟩)
  · rename_i ht ha
    split
    · rename_i he
      split
      · rename_i n _
        exact Or.inr (Or.inr ⟨ht, ha, he, n, rfl⟩)
      · exact Or.inl rfl
    · exact Or.inl rfl
  · exact Or.inl rfl

section

variable (s : State)

@[simp] theorem startNext_timeStamp : (startNext s).timeStamp = s.timeStamp := by
  rcases startNext_cases s with h | ⟨_, _, _, h⟩ | ⟨_, _, _, _, h⟩ <;> rw [h]
@[simp] theorem startNext_counter : (startNext s).counter = s.counter := by
  rcases startNext_cases s with h | ⟨_, _, _, h⟩ | ⟨_, _, _, _, h⟩ <;> rw [h]
@[simp] theorem startNext_watches : (startNext s).watches = s.watches := by
  rcases startNext_cases s with h | ⟨_, _, _, h⟩ | ⟨_, _, _, _, h⟩ <;> rw [h]
@[simp] theorem startNext_induction : (startNext s).induction = s.induction := by
  rcases startNext_cases s with h | ⟨_, _, _, h⟩ | ⟨_, _, _, _, h⟩ <;> rw [h]
@[simp] theorem startNext_table : (startNext s).table = s.table := by
  rcases startNext_cases s with h | ⟨_, _, _, h⟩ | ⟨_, _, _, _, h⟩ <;> rw [h]
@[simp] theorem startNext_diverters : (startNext s).diverters = s.diverters := by
  rcases startNext_cases s with h | ⟨_, _, _, h⟩ | ⟨_, _, _, _, h⟩ <;> rw [h]
@[simp] theorem startNext_arbiter : (startNext s).arbiter = s.arbiter := by
  rcases startNext_cases s with h | ⟨_, _, _, h⟩ | ⟨_, _, _, _, h⟩ <;> rw [h]
@[simp] theorem startNext_monitors : (startNext s).monitors = s.monitors := by
  rcases startNext_cases s with h | ⟨_, _, _, h⟩ | ⟨_, _, _, _, h⟩ <;> rw [h]
@[simp] theorem startNext_destinations : (startNext s).destinations = s.destinations := by
  rcases startNext_cases s with h | ⟨_, _, _, h⟩ | ⟨_, _, _, _, h⟩ <;> rw [h]
@[simp] theorem startNext_runOff : (startNext s).runOff = s.runOff := by
  rcases startNext_cases s with h | ⟨_, _, _, h⟩ | ⟨_, _, _, _, h⟩ <;> rw [h]
@[simp] theorem startNext_line : (startNext s).line = s.line := by
  rcases startNext_cases s with h | ⟨_, _, _, h⟩ | ⟨_, _, _, _, h⟩ <;> rw [h]
@[simp] theorem startNext_pendingConfig : (startNext s).pendingConfig = s.pendingConfig := by
  rcases startNext_cases s with h | ⟨_, _, _, h⟩ | ⟨_, _, _, _, h⟩ <;> rw [h]
@[simp] theorem startNext_config : (startNext s).config = s.config := by
  rcases startNext_cases s with h | ⟨_, _, _, h⟩ | ⟨_, _, _, _, h⟩ <;> rw [h]
@[simp] theorem startNext_supervisor : (startNext s).supervisor = s.supervisor := by
  rcases startNext_cases s with h | ⟨_, _, _, h⟩ | ⟨_, _, _, _, h⟩ <;> rw [h]
@[simp] theorem startNext_held : (startNext s).held = s.held := by
  rcases startNext_cases s with h | ⟨_, _, _, h⟩ | ⟨_, _, _, _, h⟩ <;> rw [h]
@[simp] theorem startNext_pending : (startNext s).pending = s.pending := by
  rcases startNext_cases s with h | ⟨_, _, _, h⟩ | ⟨_, _, _, _, h⟩ <;> rw [h]
@[simp] theorem startNext_rate : (startNext s).link.rate = s.link.rate := by
  rcases startNext_cases s with h | ⟨_, _, _, h⟩ | ⟨_, _, _, _, h⟩ <;> rw [h]
@[simp] theorem startNext_receiver : (startNext s).link.receiver = s.link.receiver := by
  rcases startNext_cases s with h | ⟨_, _, _, h⟩ | ⟨_, _, _, _, h⟩ <;> rw [h]
@[simp] theorem startNext_gapTimer : (startNext s).link.gapTimer = s.link.gapTimer := by
  rcases startNext_cases s with h | ⟨_, _, _, h⟩ | ⟨_, _, _, _, h⟩ <;> rw [h]
@[simp] theorem startNext_orders : (startNext s).link.orders = s.link.orders := by
  rcases startNext_cases s with h | ⟨_, _, _, h⟩ | ⟨_, _, _, _, h⟩ <;> rw [h]
@[simp] theorem startNext_answer : (startNext s).link.answer = s.link.answer := by
  rcases startNext_cases s with h | ⟨_, _, _, h⟩ | ⟨_, _, _, _, h⟩ <;> rw [h]
@[simp] theorem startNext_last : (startNext s).link.last = s.link.last := by
  rcases startNext_cases s with h | ⟨_, _, _, h⟩ | ⟨_, _, _, _, h⟩ <;> rw [h]
@[simp] theorem startNext_framingErrors : (startNext s).link.framingErrors = s.link.framingErrors := by
  rcases startNext_cases s with h | ⟨_, _, _, h⟩ | ⟨_, _, _, _, h⟩ <;> rw [h]
@[simp] theorem startNext_overruns : (startNext s).link.overruns = s.link.overruns := by
  rcases startNext_cases s with h | ⟨_, _, _, h⟩ | ⟨_, _, _, _, h⟩ <;> rw [h]
@[simp] theorem startNext_resetDue : (startNext s).link.resetDue = s.link.resetDue := by
  rcases startNext_cases s with h | ⟨_, _, _, h⟩ | ⟨_, _, _, _, h⟩ <;> rw [h]
@[simp] theorem recordSent_notices (q : ReportQueue) (ts : TimeStamp) : (q.recordSent ts).notices = q.notices := by
  unfold ReportQueue.recordSent
  split <;> rfl
@[simp] theorem startNext_queue_notices : (startNext s).queue.notices = s.queue.notices := by
  rcases startNext_cases s with h | ⟨_, _, _, h⟩ | ⟨_, _, _, _, h⟩ <;> rw [h]
  exact recordSent_notices s.queue s.timeStamp
@[simp] theorem recordSent_next (q : ReportQueue) (ts : TimeStamp) : (q.recordSent ts).next = q.next := by
  unfold ReportQueue.recordSent
  split <;> rfl
@[simp] theorem startNext_queue_next : (startNext s).queue.next = s.queue.next := by
  rcases startNext_cases s with h | ⟨_, _, _, h⟩ | ⟨_, _, _, _, h⟩ <;> rw [h]
  exact recordSent_next s.queue s.timeStamp
@[simp] theorem recordSent_drops (q : ReportQueue) (ts : TimeStamp) : (q.recordSent ts).drops = q.drops := by
  unfold ReportQueue.recordSent
  split <;> rfl
@[simp] theorem startNext_queue_drops : (startNext s).queue.drops = s.queue.drops := by
  rcases startNext_cases s with h | ⟨_, _, _, h⟩ | ⟨_, _, _, _, h⟩ <;> rw [h]
  exact recordSent_drops s.queue s.timeStamp
@[simp] theorem recordSent_head (q : ReportQueue) (ts : TimeStamp) : (q.recordSent ts).head = q.head := by
  unfold ReportQueue.recordSent
  split <;> rfl
@[simp] theorem startNext_queue_head : (startNext s).queue.head = s.queue.head := by
  rcases startNext_cases s with h | ⟨_, _, _, h⟩ | ⟨_, _, _, _, h⟩ <;> rw [h]
  exact recordSent_head s.queue s.timeStamp
@[simp] theorem recordSent_window (q : ReportQueue) (ts : TimeStamp) : (q.recordSent ts).window = q.window := by
  unfold ReportQueue.recordSent
  split <;> rfl
@[simp] theorem startNext_queue_window : (startNext s).queue.window = s.queue.window := by
  rcases startNext_cases s with h | ⟨_, _, _, h⟩ | ⟨_, _, _, _, h⟩ <;> rw [h]
  exact recordSent_window s.queue s.timeStamp
@[simp] theorem recordSent_retryTime (q : ReportQueue) (ts : TimeStamp) : (q.recordSent ts).retryTime = q.retryTime := by
  unfold ReportQueue.recordSent
  split <;> rfl
@[simp] theorem startNext_queue_retryTime : (startNext s).queue.retryTime = s.queue.retryTime := by
  rcases startNext_cases s with h | ⟨_, _, _, h⟩ | ⟨_, _, _, _, h⟩ <;> rw [h]
  exact recordSent_retryTime s.queue s.timeStamp

theorem QueueLaw.startNext {s : State} (h : QueueLaw s.queue) : QueueLaw (startNext s).queue := by
  rcases startNext_cases s with e | ⟨_, _, _, e⟩ | ⟨_, _, he, _, e⟩ <;> rw [e]
  · exact h
  · exact h
  · exact h.recordSent he _

end

/-! ### Notices -/

section

variable (b : NoticeBody) (s : State)

@[simp] theorem submit_timeStamp : (submit b s).timeStamp = s.timeStamp := by simp [submit]
@[simp] theorem submit_counter : (submit b s).counter = s.counter := by simp [submit]
@[simp] theorem submit_watches : (submit b s).watches = s.watches := by simp [submit]
@[simp] theorem submit_induction : (submit b s).induction = s.induction := by simp [submit]
@[simp] theorem submit_table : (submit b s).table = s.table := by simp [submit]
@[simp] theorem submit_diverters : (submit b s).diverters = s.diverters := by simp [submit]
@[simp] theorem submit_arbiter : (submit b s).arbiter = s.arbiter := by simp [submit]
@[simp] theorem submit_monitors : (submit b s).monitors = s.monitors := by simp [submit]
@[simp] theorem submit_destinations : (submit b s).destinations = s.destinations := by simp [submit]
@[simp] theorem submit_runOff : (submit b s).runOff = s.runOff := by simp [submit]
@[simp] theorem submit_line : (submit b s).line = s.line := by simp [submit]
@[simp] theorem submit_pendingConfig : (submit b s).pendingConfig = s.pendingConfig := by simp [submit]
@[simp] theorem submit_config : (submit b s).config = s.config := by simp [submit]
@[simp] theorem submit_supervisor : (submit b s).supervisor = s.supervisor := by simp [submit]
@[simp] theorem submit_held : (submit b s).held = s.held := by simp [submit]
@[simp] theorem submit_pending : (submit b s).pending = s.pending := by simp [submit]
@[simp] theorem submit_rate : (submit b s).link.rate = s.link.rate := by simp [submit]
@[simp] theorem submit_receiver : (submit b s).link.receiver = s.link.receiver := by simp [submit]
@[simp] theorem submit_gapTimer : (submit b s).link.gapTimer = s.link.gapTimer := by simp [submit]
@[simp] theorem submit_orders : (submit b s).link.orders = s.link.orders := by simp [submit]
@[simp] theorem submit_answer : (submit b s).link.answer = s.link.answer := by simp [submit]
@[simp] theorem submit_last : (submit b s).link.last = s.link.last := by simp [submit]
@[simp] theorem submit_framingErrors : (submit b s).link.framingErrors = s.link.framingErrors := by simp [submit]
@[simp] theorem submit_overruns : (submit b s).link.overruns = s.link.overruns := by simp [submit]
@[simp] theorem submit_resetDue : (submit b s).link.resetDue = s.link.resetDue := by simp [submit]

theorem QueueLaw.submit {s : State} (h : QueueLaw s.queue) (b : NoticeBody) : QueueLaw (submit b s).queue :=
  QueueLaw.startNext (s := { s with queue := s.queue.offer b s.timeStamp s.counter.position }) (h.offer b _ _)

end

/-! ### Answers -/

section

variable (f : Frame) (s : State)

@[simp] theorem placeAnswer_timeStamp : (placeAnswer f s).timeStamp = s.timeStamp := by simp [placeAnswer]
@[simp] theorem placeAnswer_counter : (placeAnswer f s).counter = s.counter := by simp [placeAnswer]
@[simp] theorem placeAnswer_watches : (placeAnswer f s).watches = s.watches := by simp [placeAnswer]
@[simp] theorem placeAnswer_induction : (placeAnswer f s).induction = s.induction := by simp [placeAnswer]
@[simp] theorem placeAnswer_table : (placeAnswer f s).table = s.table := by simp [placeAnswer]
@[simp] theorem placeAnswer_diverters : (placeAnswer f s).diverters = s.diverters := by simp [placeAnswer]
@[simp] theorem placeAnswer_arbiter : (placeAnswer f s).arbiter = s.arbiter := by simp [placeAnswer]
@[simp] theorem placeAnswer_monitors : (placeAnswer f s).monitors = s.monitors := by simp [placeAnswer]
@[simp] theorem placeAnswer_destinations : (placeAnswer f s).destinations = s.destinations := by simp [placeAnswer]
@[simp] theorem placeAnswer_runOff : (placeAnswer f s).runOff = s.runOff := by simp [placeAnswer]
@[simp] theorem placeAnswer_line : (placeAnswer f s).line = s.line := by simp [placeAnswer]
@[simp] theorem placeAnswer_pendingConfig : (placeAnswer f s).pendingConfig = s.pendingConfig := by simp [placeAnswer]
@[simp] theorem placeAnswer_config : (placeAnswer f s).config = s.config := by simp [placeAnswer]
@[simp] theorem placeAnswer_supervisor : (placeAnswer f s).supervisor = s.supervisor := by simp [placeAnswer]
@[simp] theorem placeAnswer_held : (placeAnswer f s).held = s.held := by simp [placeAnswer]
@[simp] theorem placeAnswer_pending : (placeAnswer f s).pending = s.pending := by simp [placeAnswer]
@[simp] theorem placeAnswer_rate : (placeAnswer f s).link.rate = s.link.rate := by simp [placeAnswer]
@[simp] theorem placeAnswer_receiver : (placeAnswer f s).link.receiver = s.link.receiver := by simp [placeAnswer]
@[simp] theorem placeAnswer_gapTimer : (placeAnswer f s).link.gapTimer = s.link.gapTimer := by simp [placeAnswer]
@[simp] theorem placeAnswer_orders : (placeAnswer f s).link.orders = s.link.orders := by simp [placeAnswer]
@[simp] theorem placeAnswer_answer : (placeAnswer f s).link.answer = some f := by simp [placeAnswer]
@[simp] theorem placeAnswer_last : (placeAnswer f s).link.last = s.link.last := by simp [placeAnswer]
@[simp] theorem placeAnswer_framingErrors : (placeAnswer f s).link.framingErrors = s.link.framingErrors := by simp [placeAnswer]
@[simp] theorem placeAnswer_overruns : (placeAnswer f s).link.overruns = s.link.overruns := by simp [placeAnswer]
@[simp] theorem placeAnswer_resetDue : (placeAnswer f s).link.resetDue = s.link.resetDue := by simp [placeAnswer]

/-- An answer in the slot comes before any notice, so placing one leaves the queue as it is (R152). -/
@[simp] theorem placeAnswer_queue : (placeAnswer f s).queue = s.queue := by
  rcases startNext_cases { s with link := { s.link with answer := some f } } with
    h | ⟨_, _, _, h⟩ | ⟨_, ha, _⟩
  · rw [placeAnswer, h]
  · rw [placeAnswer, h]
  · simp at ha

end

end Sys2Proof.Machine
end

