-- ==== Sys2Proof/Laws/Answers.lean ====
section
/-! SUPPORT. Taking an order: what the answer of an executed order leaves behind, and its frame (R149 to R151). -/

namespace Sys2Proof.Machine

variable {s : State} {number : Half} {kind : Byte}

/-- An order that is taken and not replayed is executed (R149). -/
theorem takeOrder_takes (h : s.takes number kind) (rule : OrderRule) (payload : List Byte) :
    takeOrder rule number kind payload s = answerOrder rule number kind payload s := by
  obtain ⟨_, ha, hr⟩ := h
  unfold takeOrder
  rw [ha, hr]
  rfl

/-- A command of an order that is taken runs its rule and answers. -/
theorem event_takes (h : s.takes number kind) (rule : OrderRule) (payload : List Byte) :
    event (takeOrder rule number kind payload) s = .next (answerOrder rule number kind payload s) := by
  unfold event
  rw [h.1, takeOrder_takes h]
  rfl

/-- The answer of an executed order stands in the answer slot and in the last order record (R149, R151). -/
theorem answered_answerOrder (rule : OrderRule) (number : Half) (kind : Byte) (payload : List Byte) (s : State) :
    Answered (answerOrder rule number kind payload s) number kind (rule payload s).2.bytes := by
  unfold answerOrder Answered
  simp [recordOrder, answerFrame]

/-- A part that the rule leaves and that an answer does not touch is left by the whole order. -/
theorem same_answerOrder (rule : OrderRule) (number : Half) (kind : Byte) (payload : List Byte) (s : State) {p : Part}
    (hp : p ∉ answerParts) (h : p.same s (rule payload s).1) : p.same s (answerOrder rule number kind payload s) := by
  cases p <;> simp_all [answerOrder, Part.same, recordOrder, answerParts]

/-- The frame of an order: what its rule leaves, less the answer's own parts. -/
theorem frame_answerOrder (rule : OrderRule) (number : Half) (kind : Byte) (payload : List Byte) {s : State}
    {parts : List Part} (h : UnchangedBut parts s (rule payload s).1) :
    UnchangedBut (parts ++ answerParts) s (answerOrder rule number kind payload s) := by
  intro p hp
  simp only [List.mem_append, not_or] at hp
  exact same_answerOrder rule number kind payload s hp.2 (h p hp.1)

/-- Nothing changed. -/
theorem unchanged_refl (parts : List Part) (s : State) : UnchangedBut parts s s := by
  intro p _
  cases p <;> simp [Part.same]

theorem Part.same_trans {s t u : State} {p : Part} (h : p.same s t) (k : p.same t u) : p.same s u := by
  cases p <;> simp_all [Part.same]

theorem UnchangedBut.trans {s t u : State} {a b : List Part} (h : UnchangedBut a s t) (k : UnchangedBut b t u) :
    UnchangedBut (a ++ b) s u := by
  intro p hp
  simp only [List.mem_append, not_or] at hp
  exact Part.same_trans (h p hp.1) (k p hp.2)

theorem UnchangedBut.mono {s t : State} {a b : List Part} (h : UnchangedBut a s t) (sub : ∀ p ∈ a, p ∈ b) :
    UnchangedBut b s t := fun p hp => h p (fun c => hp (sub p c))

/-- The command of an order is the link unit taking that order. -/
theorem exec_command (k : OrderKind) (number : Half) (payload : List Byte) (s : State) :
    exec (k.command number payload) s = event (takeOrder k.rule number k.code payload) s := by
  cases k <;> rfl

/-- An order that is taken leaves what its rule leaves, but for the answer's own parts, and answers what its rule answers:
every statement about an order comes from this one (R149 to R151). -/
theorem exec_order {k : OrderKind} {payload : List Byte} {u : State} {r : Reply} (h : s.takes number k.code)
    (hr : k.rule payload s = (u, r)) :
    ∃ t, exec (k.command number payload) s = .next t ∧ Answered t number k.code r.bytes ∧ UnchangedBut answerParts u t := by
  refine ⟨answerOrder k.rule number k.code payload s, ?_, ?_, ?_⟩
  · rw [exec_command, event_takes h]
  · have := answered_answerOrder k.rule number k.code payload s
    rwa [hr] at this
  · intro p hp
    have e : (k.rule payload s).1 = u := by rw [hr]
    cases p <;> simp_all [answerOrder, Part.same, recordOrder, answerParts]

/-- The form checks let a formed payload through (R150). -/
theorem formChecked_formed {k : OrderKind} {payload : List Byte} (h : k.formed payload) (own : OrderRule) (s : State) :
    formChecked k own payload s = own payload s := by
  have r : k.reserved.any (fun i => byteAt payload i != 0) = false := by simpa using h.2
  unfold formChecked
  rw [if_neg (not_not.mpr h.1), r]
  rfl

/-- The link check lets an order through while the link is UP (R168). -/
theorem linkChecked_up (h : s.supervisor.state = .up) (own : OrderRule) (payload : List Byte) :
    linkChecked own payload s = own payload s := by
  unfold linkChecked
  rw [h]
  rfl

theorem stationOf_stationNumber (d : Station) : stationOf (stationNumber d) = some d := by
  have := d.isLt
  simp [stationOf, stationNumber]

end Sys2Proof.Machine
end

