-- ==== Sys2Proof/Laws/Work.lean ====
section
/-! SUPPORT. What the work on items does to the rest of the part: hand-overs, grants, releases, deliveries and completions
leave the clock, the counter, the line, the configuration, the supervisor and the receiving side of the link alone, and
they keep the laws of the report queue and of the tags. -/

namespace Sys2Proof.Machine

/-- What work on items does to the rest of the part. -/
structure Work (s t : State) : Prop where
  timeStamp : t.timeStamp = s.timeStamp
  counter : t.counter = s.counter
  line : t.line = s.line
  pendingConfig : t.pendingConfig = s.pendingConfig
  config : t.config = s.config
  supervisor : t.supervisor = s.supervisor
  held : t.held = s.held
  pending : t.pending = s.pending
  rate : t.link.rate = s.link.rate
  receiver : t.link.receiver = s.link.receiver
  gapTimer : t.link.gapTimer = s.link.gapTimer
  orders : t.link.orders = s.link.orders
  answer : t.link.answer = s.link.answer
  last : t.link.last = s.link.last
  framingErrors : t.link.framingErrors = s.link.framingErrors
  overruns : t.link.overruns = s.link.overruns
  resetDue : t.link.resetDue = s.link.resetDue
  sender : t.link.transmitter = s.link.transmitter
    ∨ (s.link.transmitter = .free ∧ ∃ a bs, t.link.transmitter = .sending a bs
        ∧ (a = true → s.link.answer.isSome = true))
  queue : QueueLaw s.queue → QueueLaw t.queue
  tags : TagLaw s → TagLaw t

namespace Work

theorem refl (s : State) : Work s s := by
  constructor <;> first | rfl | exact Or.inl rfl | exact id

theorem trans {s t u : State} (h : Work s t) (k : Work t u) : Work s u := by
  constructor
  case sender =>
    rcases k.sender with e | ⟨hf, a, bs, e, ha⟩
    · rcases h.sender with e' | ⟨hf', a', bs', e', ha'⟩
      · exact Or.inl (e.trans e')
      · exact Or.inr ⟨hf', a', bs', e.trans e', ha'⟩
    · rcases h.sender with e' | ⟨hf', a', bs', e', ha'⟩
      · exact Or.inr ⟨e'.symm.trans hf, a, bs, e, fun x => by rw [← h.answer]; exact ha x⟩
      · rw [e'] at hf; cases hf
  case queue => exact fun x => k.queue (h.queue x)
  case tags => exact fun x => k.tags (h.tags x)
  case timeStamp => exact k.timeStamp.trans h.timeStamp
  case counter => exact k.counter.trans h.counter
  case line => exact k.line.trans h.line
  case pendingConfig => exact k.pendingConfig.trans h.pendingConfig
  case config => exact k.config.trans h.config
  case supervisor => exact k.supervisor.trans h.supervisor
  case held => exact k.held.trans h.held
  case pending => exact k.pending.trans h.pending
  case rate => exact k.rate.trans h.rate
  case receiver => exact k.receiver.trans h.receiver
  case gapTimer => exact k.gapTimer.trans h.gapTimer
  case orders => exact k.orders.trans h.orders
  case answer => exact k.answer.trans h.answer
  case last => exact k.last.trans h.last
  case framingErrors => exact k.framingErrors.trans h.framingErrors
  case overruns => exact k.overruns.trans h.overruns
  case resetDue => exact k.resetDue.trans h.resetDue

/-- A run of work over a list. -/
theorem foldl {α : Type} (f : State → α → State) (h : ∀ s a, Work s (f s a)) (l : List α) (s : State) :
    Work s (l.foldl f s) := by
  induction l generalizing s with
  | nil => exact refl s
  | cons a l ih => exact (h s a).trans (ih (f s a))

end Work

/-! ### Updates -/

section

variable (s : State)

theorem work_setDiverter (d : Station) (f : Diverter → Diverter) : Work s (setDiverter d f s) := by
  constructor <;> first | rfl | exact Or.inl rfl | exact id

theorem work_setMonitor (d : Station) (f : Monitor → Monitor) : Work s (setMonitor d f s) := by
  constructor <;> first | rfl | exact Or.inl rfl | exact id

theorem work_setDestination (d : Station) (f : DestRecord → DestRecord) : Work s (setDestination d f s) := by
  constructor <;> first | rfl | exact Or.inl rfl | exact id

theorem work_setWaiting (d : Station) (b : Bool) : Work s (setWaiting d b s) := by
  constructor <;> first | rfl | exact Or.inl rfl | exact id

theorem work_takeSlot : Work s (takeSlot s) := by
  constructor <;> first | rfl | exact Or.inl rfl | exact id

theorem work_freeSlot : Work s (freeSlot s) := by
  constructor <;> first | rfl | exact Or.inl rfl | exact id

theorem work_insertWatch (p : Position) (k : WatchKind) : Work s (insertWatch p k s) := by
  constructor <;> first | rfl | exact Or.inl rfl | exact id

theorem work_removeWatch (tag : Tag) : Work s (removeWatch tag s) := by
  constructor <;> first | rfl | exact Or.inl rfl | exact id

theorem work_setSlot (slot : Slot) : Work s (setSlot slot s) := by
  constructor <;> first | rfl | exact Or.inl rfl | exact id

theorem work_evaluateHold : Work s (evaluateHold s) := by
  constructor <;> first | rfl | exact Or.inl rfl | exact id

theorem work_countRunoff : Work s { s with runOff := s.runOff.countRunoff } := by
  constructor <;> first | rfl | exact Or.inl rfl | exact id

theorem work_removeLengthLimit : Work s (removeLengthLimit s) := by
  constructor <;> first | rfl | exact Or.inl rfl | exact id

/-- An update of an entry that leaves its tag. -/
theorem work_setEntry (tag : Tag) (f : Entry → Entry) (hf : ∀ e, (f e).tag = e.tag) : Work s (setEntry tag f s) := by
  have ht : (setEntry tag f s).table.map (·.tag) = s.table.map (·.tag) := by
    simp only [setEntry_table, List.map_map]
    apply List.map_congr_left
    intro e _
    simp only [Function.comp]
    split <;> simp [hf]
  constructor
  case tags =>
    rintro ⟨h1, h2, h3, h4⟩
    refine ⟨?_, ?_, ?_, h4⟩
    · simpa using h1
    · rw [ht]; exact h2
    · intro e he
      have : e.tag ∈ (setEntry tag f s).table.map (·.tag) := List.mem_map_of_mem he
      rw [ht] at this
      obtain ⟨e', he', hee⟩ := List.mem_map.mp this
      rw [← hee]
      exact h3 e' he'
  all_goals first | rfl | exact Or.inl rfl | exact id

theorem work_removeEntry (tag : Tag) : Work s (removeEntry tag s) := by
  constructor
  case tags =>
    rintro ⟨h1, h2, h3, h4⟩
    refine ⟨?_, ?_, ?_, h4⟩
    · exact le_trans (List.length_filter_le _ _) h1
    · exact (List.Sublist.map _ List.filter_sublist).nodup h2
    · intro e he
      exact h3 e (List.mem_of_mem_filter he)
  all_goals first | rfl | exact Or.inl rfl | exact id

theorem work_startNext : Work s (startNext s) := by
  constructor
  case sender =>
    rcases startNext_cases s with h | ⟨hf, f, ha, h⟩ | ⟨hf, ha, _, n, h⟩
    · exact Or.inl (by rw [h])
    · exact Or.inr ⟨hf, true, f.bytes, by rw [h], fun _ => by rw [ha]; rfl⟩
    · exact Or.inr ⟨hf, false, n.frame.bytes, by rw [h], fun c => by cases c⟩
  case queue => exact fun h => h.startNext
  case tags => exact fun h => by simpa [TagLaw] using h
  all_goals simp

theorem work_submit (b : NoticeBody) : Work s (submit b s) := by
  constructor
  case sender =>
    exact (work_startNext { s with queue := s.queue.offer b s.timeStamp s.counter.position }).sender
  case queue => exact fun h => h.submit b
  case tags => exact fun h => by simpa [TagLaw] using h
  all_goals simp

end

/-! ### Destinations -/

section

variable (s : State)

theorem work_submitDest (d : Station) : Work s (submitDest d s) := work_submit s _

theorem work_changeCauses (d : Station) (f : Causes → Causes) : Work s (changeCauses d f s) := by
  unfold changeCauses
  split
  · exact .refl s
  · exact .trans (work_setDestination s d _) (work_submitDest _ d)

theorem work_returnUnit (tag : Tag) : Work s (returnUnit tag s) := by
  unfold returnUnit
  split
  · refine .trans ?_ (work_setEntry _ _ _ (fun _ => rfl))
    exact work_setDestination s _ _
  · exact .refl s

theorem work_endBatch (d : Station) : Work s (endBatch d s) := by
  unfold endBatch
  dsimp only
  split
  · exact .trans (work_submit s _) (work_setDestination _ _ _)
  · exact .trans (work_submit s _) (work_changeCauses _ _ _)

theorem work_terminalCount (d : Station) : Work s (terminalCount d s) := by
  unfold terminalCount
  split
  · exact work_endBatch s d
  · exact .refl s

theorem work_consumeUnit (d : Station) : Work s (consumeUnit d s) :=
  .trans (work_setDestination s d _) (work_terminalCount _ d)

/-! ### The run-off -/

theorem work_runoffRemoval (e : Entry) : Work s (runoffRemoval e s) := by
  unfold runoffRemoval
  dsimp only
  refine .trans ?_ (work_countRunoff _)
  refine .trans ?_ (work_removeEntry _ e.tag)
  refine .trans ?_ (work_submit _ _)
  split
  · exact work_submit s _
  · exact .refl s

theorem work_deliverRunoff (tag : Tag) : Work s (deliverRunoff tag s) := by
  unfold deliverRunoff
  split
  · exact work_runoffRemoval s _
  · exact .refl s

theorem work_placeRunoff (tag : Tag) : Work s (placeRunoff tag s) := by
  unfold placeRunoff
  split
  · split
    · exact work_deliverRunoff s tag
    · exact work_insertWatch s _ _
  · exact .refl s

theorem work_sendToRunoff (tag : Tag) (r : Reason) : Work s (sendToRunoff tag r s) := by
  unfold sendToRunoff
  refine .trans ?_ (work_placeRunoff _ tag)
  refine .trans ?_ (work_removeWatch _ tag)
  exact work_setEntry s tag _ (fun _ => rfl)

theorem work_giveBackToBelt (tag : Tag) (r : Reason) : Work s (giveBackToBelt tag r s) :=
  .trans (work_returnUnit s tag) (work_sendToRunoff _ tag r)

/-! ### Confirm lists -/

theorem work_aimDeadlineTimer (d : Station) : Work s (aimDeadlineTimer d s) := work_setMonitor s d _

theorem work_joinConfirmList (d : Station) (tag : Tag) : Work s (joinConfirmList d tag s) := by
  unfold joinConfirmList
  refine .trans ?_ (work_aimDeadlineTimer _ d)
  refine .trans ?_ (work_setMonitor _ d _)
  exact work_setEntry s tag _ (fun _ => rfl)

theorem work_truncatePush (d : Station) (tag : Tag) : Work s (truncatePush d tag s) := by
  unfold truncatePush
  refine .trans ?_ (work_joinConfirmList _ d tag)
  refine .trans ?_ (work_setEntry _ tag _ (fun _ => rfl))
  exact work_removeWatch s tag

theorem work_completeEntry (d : Station) (tag : Tag) (r : OutcomeResult) : Work s (completeEntry d tag r s) := by
  unfold completeEntry
  dsimp only
  refine .trans ?_ (work_aimDeadlineTimer _ d)
  split
  · refine .trans ?_ (work_consumeUnit _ d)
    refine .trans ?_ (work_submit _ _)
    refine .trans ?_ (work_removeEntry _ tag)
    exact work_setMonitor s d _
  · exact work_setMonitor s d _

theorem work_completeDue (d : Station) (l : List Tag) : Work s (completeDue d l s) := by
  induction l generalizing s with
  | nil => exact .refl s
  | cons tag rest ih =>
    unfold completeDue
    split
    · exact .trans (work_completeEntry s d tag _) (ih _)
    · exact .refl s

theorem work_deadlineExpiry (d : Station) : Work s (deadlineExpiry d s) := by
  unfold deadlineExpiry
  split
  · exact .trans (work_completeEntry s d _ _) (work_completeDue _ d _)
  · exact .refl s

theorem work_matchEdge (d : Station) : Work s (matchEdge d s) := by
  unfold matchEdge
  split
  · split
    · exact work_completeEntry s d _ _
    · exact work_submit s _
  · split
    · split
      · exact work_submit s _
      · exact .refl s
    · exact .refl s

theorem work_chuteBlocked (d : Station) : Work s (chuteBlocked d s) := by
  unfold chuteBlocked
  split
  · exact .refl s
  · split <;> first | exact work_setMonitor s d _ | exact .refl s

theorem work_chuteCleared (d : Station) : Work s (chuteCleared d s) := by
  unfold chuteCleared
  split
  · exact .refl s
  · split <;> first | exact work_setMonitor s d _ | exact .refl s

theorem work_chuteExpiry (d : Station) : Work s (chuteExpiry d s) := by
  unfold chuteExpiry
  split
  · refine .trans ?_ (work_changeCauses _ d _)
    refine .trans ?_ (work_submit _ _)
    exact work_setMonitor s d _
  · refine .trans ?_ (work_changeCauses _ d _)
    refine .trans ?_ (work_submit _ _)
    exact work_setMonitor s d _
  · exact .refl s
  · exact .refl s

/-! ### Diverters and arbiter -/

theorem work_endRecovery (d : Station) : Work s (endRecovery d s) := by
  unfold endRecovery
  split
  · exact work_setDiverter s d _
  · refine .trans ?_ (work_setWaiting _ d true)
    exact work_setDiverter s d _

theorem work_releaseDiverter (d : Station) : Work s (releaseDiverter d s) := by
  unfold releaseDiverter
  dsimp only
  split
  · refine .trans ?_ (work_endRecovery _ d)
    refine .trans ?_ (work_freeSlot _)
    exact work_setDiverter s d _
  · refine .trans ?_ (work_setDiverter _ d _)
    refine .trans ?_ (work_freeSlot _)
    exact work_setDiverter s d _

theorem work_deliverRelease (d : Station) (tag : Tag) : Work s (deliverRelease d tag s) := by
  unfold deliverRelease
  dsimp only
  split
  · split
    · refine .trans ?_ (work_releaseDiverter _ d)
      refine .trans ?_ (work_joinConfirmList _ d tag)
      exact work_setDiverter s d _
    · refine .trans ?_ (work_joinConfirmList _ d tag)
      exact work_setDiverter s d _
  · exact .refl s

theorem work_placeRelease (d : Station) (tag : Tag) : Work s (placeRelease d tag s) := by
  unfold placeRelease
  split
  · split
    · exact work_deliverRelease s d tag
    · exact work_insertWatch s _ _
  · exact .refl s

theorem work_lastGranted (d : Station) : Work s { s with arbiter := { s.arbiter with lastGranted := d } } := by
  constructor <;> first | rfl | exact Or.inl rfl | exact id

theorem work_energise (d : Station) : Work s (energise d s) := by
  unfold energise
  dsimp only
  refine .trans ?_ (work_lastGranted _ d)
  refine .trans ?_ (work_takeSlot _)
  exact work_setDiverter s d _

theorem work_markPushing (tags : List Tag) : Work s (markPushing tags s) := by
  unfold markPushing
  refine Work.foldl _ (fun s tag => ?_) tags s
  exact work_setEntry s tag _ (fun _ => rfl)

theorem work_grant (d : Station) : Work s (grant d s) := by
  unfold grant
  dsimp only
  refine .trans ?_ (Work.foldl _ (fun s tag => .trans (work_removeWatch s tag) (work_placeRelease _ d tag)) _ _)
  refine .trans ?_ (work_markPushing _ _)
  refine .trans ?_ (work_setDiverter _ d _)
  exact .trans (work_setWaiting s d false) (work_energise _ d)

theorem work_arbitrateRounds (n : Nat) : Work s (arbitrateRounds n s) := by
  induction n generalizing s with
  | zero => exact .refl s
  | succ n ih =>
    unfold arbitrateRounds
    split
    · split
      · exact .trans (work_grant s _) (ih _)
      · exact .refl s
    · exact .refl s

theorem work_arbitrate : Work s (arbitrate s) := work_arbitrateRounds s 16

theorem work_grantOne : Work s (grantOne s) := by
  unfold grantOne
  split
  · split
    · exact work_grant s _
    · exact .refl s
  · exact .refl s

theorem work_leavePending (d : Station) (tag : Tag) : Work s (leavePending d tag s) := by
  unfold leavePending
  dsimp only
  split
  · refine .trans ?_ (work_setWaiting _ d false)
    refine .trans ?_ (work_setDiverter _ d _)
    exact work_setDiverter s d _
  · exact work_setDiverter s d _

theorem work_deliverLate (d : Station) (tag : Tag) : Work s (deliverLate d tag s) := by
  unfold deliverLate
  split
  · exact .trans (work_leavePending s d tag) (work_giveBackToBelt _ tag _)
  · exact .refl s

theorem work_placeLate (d : Station) (tag : Tag) : Work s (placeLate d tag s) := by
  unfold placeLate
  split
  · split
    · exact work_deliverLate s d tag
    · exact work_insertWatch s _ _
  · exact .refl s

theorem work_joinPush (d : Station) (tag : Tag) : Work s (joinPush d tag s) := by
  unfold joinPush
  refine .trans ?_ (work_placeRelease _ d tag)
  refine .trans ?_ (work_setEntry _ tag _ (fun _ => rfl))
  exact work_setDiverter s d _

theorem work_joinPending (d : Station) (tag : Tag) : Work s (joinPending d tag s) := by
  unfold joinPending
  refine .trans ?_ (work_placeLate _ d tag)
  refine .trans ?_ (work_setEntry _ tag _ (fun _ => rfl))
  exact work_setDiverter s d _

theorem work_holdOrOverflow (d : Station) (tag : Tag) : Work s (holdOrOverflow d tag s) := by
  unfold holdOrOverflow
  split
  · exact work_joinPending s d tag
  · exact work_giveBackToBelt s tag _

theorem work_handOver (d : Station) (tag : Tag) : Work s (handOver d tag s) := by
  unfold handOver
  split
  · split
    · exact .trans (work_energise s d) (work_joinPush _ d tag)
    · refine .trans ?_ (work_joinPending _ d tag)
      refine .trans ?_ (work_setWaiting _ d true)
      exact work_setDiverter s d _
  · split
    · exact work_joinPush s d tag
    · exact work_holdOrOverflow s d tag
  · exact work_holdOrOverflow s d tag
  · exact work_holdOrOverflow s d tag
  · exact .refl s

theorem work_maxOnExpiry (d : Station) : Work s (maxOnExpiry d s) := by
  unfold maxOnExpiry
  dsimp only
  refine .trans ?_ (work_releaseDiverter _ d)
  refine .trans ?_ (Work.foldl _ (fun s tag => work_truncatePush s d tag) _ _)
  exact work_setDiverter s d _

/-! ### Fire decisions and deliveries -/

theorem work_reserveAndHandOver (d : Station) (tag : Tag) : Work s (reserveAndHandOver d tag s) := by
  unfold reserveAndHandOver
  refine .trans ?_ (work_handOver _ d tag)
  refine .trans ?_ (work_setEntry _ tag _ (fun _ => rfl))
  exact work_setDestination s d _

theorem work_closeToItem (tag : Tag) : Work s (closeToItem tag s) := by
  unfold closeToItem
  refine .trans ?_ (work_placeRunoff _ tag)
  exact work_setEntry s tag _ (fun _ => rfl)

theorem work_decideAtAlternate (d : Station) (tag : Tag) : Work s (decideAtAlternate d tag s) := by
  unfold decideAtAlternate
  split
  · exact work_reserveAndHandOver s d tag
  · exact work_closeToItem s tag

theorem work_sendToAlternate (a : Station) (e : Entry) : Work s (sendToAlternate a e s) := by
  unfold sendToAlternate
  dsimp only
  split
  · refine .trans ?_ (work_decideAtAlternate _ a e.tag)
    exact work_setEntry s e.tag _ (fun _ => rfl)
  · refine .trans ?_ (work_insertWatch _ _ _)
    exact work_setEntry s e.tag _ (fun _ => rfl)

theorem work_fireDecision (d : Station) (e : Entry) : Work s (fireDecision d e s) := by
  unfold fireDecision
  split
  · exact work_reserveAndHandOver s d e.tag
  · split
    · exact work_closeToItem s e.tag
    · split
      · exact work_sendToAlternate s _ e
      · exact work_closeToItem s e.tag

theorem work_deliverFire (tag : Tag) : Work s (deliverFire tag s) := by
  unfold deliverFire
  split
  · split
    · exact work_fireDecision s _ _
    · exact .refl s
  · exact .refl s

/-! ### Disabling -/

theorem work_endPush (d : Station) : Work s (endPush d s) := by
  unfold endPush
  refine .trans ?_ (Work.foldl _ (fun s tag => work_truncatePush s d tag) _ _)
  exact work_setDiverter s d _

theorem work_emptyPending (d : Station) : Work s (emptyPending d s) := by
  unfold emptyPending
  refine .trans ?_ (Work.foldl _ (fun s tag => work_giveBackToBelt s tag .disabled) _ _)
  exact work_setDiverter s d _

theorem work_switchOff (d : Station) : Work s (switchOff d s) := by
  unfold switchOff
  refine .trans ?_ (work_setDiverter _ d _)
  refine .trans ?_ (work_setWaiting _ d false)
  split
  · exact work_freeSlot s
  · exact .refl s

end

end Sys2Proof.Machine
end

