-- ==== Sys2Proof/Laws/Tags.lean ====
section
/-! SUPPORT. Tag allocation gives a free tag (R27), and the induction unit keeps the law of the tags (R26 to R28). -/

namespace Sys2Proof.Machine

/-! ### The cycle of tags (R27) -/

/-- The tag `k` places after a tag in the cycle of R27. -/
def tagAfter (t : Tag) : Nat → Tag
  | 0 => t
  | k + 1 => tagAfter (nextTagAfter t) k

theorem nextTagAfter_ne_zero (t : Tag) : nextTagAfter t ≠ 0 := by
  unfold nextTagAfter
  split
  · decide
  · rename_i hne
    intro c
    apply hne
    have : t = 0 - 1 := by rw [← c]; ring
    rw [this]; decide

theorem nextTagAfter_index (t : Tag) (h : t ≠ 0) :
    (nextTagAfter t).toNat - 1 = (t.toNat - 1 + 1) % 65535 := by
  have hpos : t.toNat ≠ 0 := fun c => h (BitVec.eq_of_toNat_eq (by simpa using c))
  have hlt := t.isLt
  unfold nextTagAfter
  split
  · rename_i e
    subst e
    decide
  · rename_i hne
    have hn : t.toNat ≠ 65535 := fun c => hne (BitVec.eq_of_toNat_eq (by simpa using c))
    have one : (1 : BitVec 16).toNat = 1 := by decide
    rw [BitVec.toNat_add, one]
    omega

theorem tagAfter_ne_zero (k : Nat) (t : Tag) (h : t ≠ 0) : tagAfter t k ≠ 0 := by
  induction k generalizing t with
  | zero => exact h
  | succ k ih => exact ih _ (nextTagAfter_ne_zero t)

theorem tagAfter_index (k : Nat) (t : Tag) (h : t ≠ 0) : (tagAfter t k).toNat - 1 = (t.toNat - 1 + k) % 65535 := by
  induction k generalizing t with
  | zero =>
    have hlt := t.isLt
    show t.toNat - 1 = _
    omega
  | succ k ih =>
    show (tagAfter (nextTagAfter t) k).toNat - 1 = _
    rw [ih _ (nextTagAfter_ne_zero t), nextTagAfter_index t h]
    omega

/-- The search stops at the first free tag of the cycle, or after `n` places. -/
theorem freeTagFrom_spec (n : Nat) (t : Tag) (table : List Entry) :
    ∃ k, k ≤ n ∧ freeTagFrom n t table = tagAfter t k ∧ (∀ j, j < k → tagAfter t j ∈ table.map (·.tag))
      ∧ (k < n → tagAfter t k ∉ table.map (·.tag)) := by
  induction n generalizing t with
  | zero => exact ⟨0, le_refl _, rfl, by simp, by simp⟩
  | succ n ih =>
    unfold freeTagFrom
    split
    · rename_i ht
      obtain ⟨k, h1, h2, h3, h4⟩ := ih (nextTagAfter t)
      refine ⟨k + 1, by omega, h2, ?_, fun hk => h4 (by omega)⟩
      intro j hj
      cases j with
      | zero =>
        show t ∈ _
        obtain ⟨e, he, hee⟩ := List.any_eq_true.mp ht
        exact List.mem_map.mpr ⟨e, he, by simpa using hee⟩
      | succ j => exact h3 j (by omega)
    · rename_i ht
      refine ⟨0, by omega, rfl, by simp, fun _ c => ht ?_⟩
      obtain ⟨e, he, hee⟩ := List.mem_map.mp c
      exact List.any_eq_true.mpr ⟨e, he, beq_iff_eq.mpr hee⟩

/-- With fewer entries than places searched, the tag found is free (R27). -/
theorem freeTagFrom_free (n : Nat) (hn : n ≤ 65535) (t : Tag) (ht : t ≠ 0) (table : List Entry)
    (hlen : table.length < n) :
    freeTagFrom n t table ∉ table.map (·.tag) ∧ freeTagFrom n t table ≠ 0 := by
  obtain ⟨k, h1, h2, h3, h4⟩ := freeTagFrom_spec n t table
  have hk : k < n := by
    by_contra hge
    have hkn : k = n := by omega
    have sub : (List.range n).map (tagAfter t) ⊆ table.map (·.tag) := by
      intro x hx
      obtain ⟨j, hj, hjx⟩ := List.mem_map.mp hx
      rw [← hjx]
      exact h3 j (by rw [hkn]; exact List.mem_range.mp hj)
    have nodup : ((List.range n).map (tagAfter t)).Nodup := by
      rw [List.nodup_map_iff_inj_on List.nodup_range]
      intro i hi j hj e
      have hi' := List.mem_range.mp hi
      have hj' := List.mem_range.mp hj
      have := congrArg (fun x : Tag => x.toNat - 1) e
      simp only [tagAfter_index _ t ht] at this
      have hlt := t.isLt
      omega
    have := (List.Nodup.subperm nodup sub).length_le
    simp at this
    omega
  exact ⟨by rw [h2]; exact h4 hk, by rw [h2]; exact tagAfter_ne_zero k t ht⟩

/-! ### The induction unit -/

section

variable (s : State)

/-- Admission of an item while the table has room (R26 to R28). -/
theorem work_admitItem (lead : Position) (length : Nat) (flags : EntryFlags)
    (room : s.occupancy < Config.tableCapacity) : Work s (admitItem lead length flags s) := by
  unfold admitItem
  dsimp only
  refine .trans ?_ (work_evaluateHold _)
  refine .trans ?_ (work_submit _ _)
  refine .trans ?_ (work_placeRunoff _ _)
  constructor
  case tags =>
    rintro ⟨h1, h2, h3, h4⟩
    have free := freeTagFrom_free Config.tableCapacity (by decide) s.induction.nextTag h4 s.table room
    refine ⟨?_, ?_, ?_, ?_⟩
    · simp only [List.length_append, List.length_singleton]
      exact room
    · simp only [List.map_append, List.map_cons, List.map_nil]
      rw [List.nodup_append]
      refine ⟨h2, by simp, ?_⟩
      intro a ha b hb
      simp only [List.mem_singleton] at hb
      subst hb
      rintro rfl
      exact free.1 ha
    · intro e he
      simp only [List.mem_append, List.mem_singleton] at he
      rcases he with he | rfl
      · exact h3 e he
      · exact free.2
    · exact nextTagAfter_ne_zero _
  all_goals first | rfl | exact Or.inl rfl | exact id

theorem work_lastTrailing (p : Option Position) :
    Work s { s with induction := { s.induction with lastTrailing := p } } := by
  constructor <;> first | rfl | exact Or.inl rfl | exact id

theorem work_offerInterval (lead : Position) (length : Nat) (refused overlength : Bool) :
    Work s (offerInterval lead length refused overlength s) := by
  unfold offerInterval
  dsimp only
  refine .trans ?_ (work_lastTrailing _ _)
  split
  · exact work_submit s _
  · split
    · exact work_submit s _
    · rename_i h
      exact work_admitItem s _ _ _ (by omega)

theorem work_deliverLengthLimit : Work s (deliverLengthLimit s) := by
  unfold deliverLengthLimit
  split
  · refine .trans ?_ (work_offerInterval _ _ _ _ _)
    exact work_setSlot s _
  · exact .refl s
  · exact .refl s

theorem work_setEntryEye (level : EyeLevel) : Work s (setEntryEye level s) := by
  constructor <;> first | rfl | exact Or.inl rfl | exact id

theorem work_entryLeadingEdge : Work s (entryLeadingEdge s) := by
  unfold entryLeadingEdge
  dsimp only
  split
  · exact .refl s
  · split
    · refine .trans ?_ (work_insertWatch _ _ _)
      refine .trans ?_ (work_setSlot _ _)
      exact work_setEntryEye s _
    · exact work_setEntryEye s _

theorem work_closeMeasurement : Work s (closeMeasurement s) := by
  unfold closeMeasurement
  split
  · split
    · exact .refl s
    · dsimp only
      split
      · refine .trans ?_ (work_setSlot _ _)
        exact work_removeLengthLimit s
      · refine .trans ?_ (work_offerInterval _ _ _ _ _)
        refine .trans ?_ (work_setSlot _ _)
        exact work_removeLengthLimit s
  · exact work_setSlot s _
  · exact .refl s

theorem work_entryTrailingEdge : Work s (entryTrailingEdge s) := by
  unfold entryTrailingEdge
  dsimp only
  split
  · exact .refl s
  · split
    · refine .trans ?_ (work_closeMeasurement _)
      exact work_setEntryEye s _
    · exact work_setEntryEye s _

theorem work_exitLeadingEdge : Work s (exitLeadingEdge s) := by
  unfold exitLeadingEdge
  split
  · split
    · exact work_setEntry s _ _ (fun _ => rfl)
    · exact work_submit s _
  · exact .refl s

/-! ### Deliveries -/

theorem work_handle (k : WatchKind) : Work s (handle k s) := by
  unfold handle
  split
  · exact work_deliverFire s _
  · exact work_deliverRunoff s _
  · exact work_deliverLate s _ _
  · exact work_deliverRelease s _ _
  · exact work_deliverLengthLimit s

theorem work_deliver (w : Watch) : Work s (deliver w s) := by
  unfold deliver
  refine .trans ?_ (work_arbitrate _)
  refine .trans ?_ (work_handle _ _)
  constructor <;> first | rfl | exact Or.inl rfl | exact id

theorem work_deliveryRun (n : Nat) : Work s (deliveryRun n s) := by
  induction n generalizing s with
  | zero => exact .refl s
  | succ n ih =>
    unfold deliveryRun
    split
    · exact .trans (work_deliver s _) (ih _)
    · exact .refl s

end

end Sys2Proof.Machine
end

