-- ==== Sys2Proof/Laws/Keeps.lean ====
section
/-! SUPPORT. The events keep the laws of the line, the report queue, the tags and the link unit: one lemma for each event of
a block and for each order's rule. -/

namespace Sys2Proof.Machine

/-- The law of the link unit less what may be open inside an event: an order still to be taken from the buffer, and the gap
timer still to be set after a character. -/
structure LinkLawUpTo (taken timed : Bool) (l : LinkUnit) : Prop where
  framing : l.framingErrors ≤ Config.countLimit
  overruns : l.overruns ≤ Config.countLimit
  buffer : l.orders.length ≤ Config.orderBufferCapacity
  buffered : ∀ f ∈ l.orders, f.cls = classOrder ∧ f.payload.length ≤ Config.payloadCapacity
  served : taken = true → l.orders ≠ [] → l.answer.isSome = true
  gap : timed = true → (l.gapTimer.isSome = true ↔ l.receiver ≠ .hunting)
  sending : ∀ bytes, l.transmitter = .sending true bytes → l.answer.isSome = true
  slot : l.answer.isSome = true → l.transmitter ≠ .free
  reset : l.resetDue = true → l.answer.isSome = true

theorem LinkLaw.upTo {l : LinkUnit} (h : LinkLaw l) (a b : Bool) : LinkLawUpTo a b l :=
  ⟨h.framing, h.overruns, h.buffer, h.buffered, fun _ => h.served, fun _ => h.gap, h.sending, h.slot, h.reset⟩

theorem LinkLawUpTo.whole {l : LinkUnit} (h : LinkLawUpTo true true l) : LinkLaw l :=
  ⟨h.framing, h.overruns, h.buffer, h.buffered, h.served rfl, h.gap rfl, h.sending, h.slot, h.reset⟩

/-- The link unit's law is kept, whatever part of it is open. -/
def LinkKept (l m : LinkUnit) : Prop := ∀ taken timed, LinkLawUpTo taken timed l → LinkLawUpTo taken timed m

theorem LinkKept.refl (l : LinkUnit) : LinkKept l l := fun _ _ h => h

/-- The laws of line, report queue, tags and link unit hold after if they held before. -/
structure Keeps (s t : State) : Prop where
  line : LineLaw s → LineLaw t
  queue : QueueLaw s.queue → QueueLaw t.queue
  tags : TagLaw s → TagLaw t
  link : LinkKept s.link t.link

namespace Keeps

theorem refl (s : State) : Keeps s s := ⟨id, id, id, .refl _⟩

theorem trans {s t u : State} (h : Keeps s t) (k : Keeps t u) : Keeps s u :=
  ⟨fun x => k.line (h.line x), fun x => k.queue (h.queue x), fun x => k.tags (h.tags x),
    fun a b x => k.link a b (h.link a b x)⟩

theorem foldl {α : Type} (f : State → α → State) (h : ∀ s a, Keeps s (f s a)) (l : List α) (s : State) :
    Keeps s (l.foldl f s) := by
  induction l generalizing s with
  | nil => exact refl s
  | cons a l ih => exact (h s a).trans (ih (f s a))

end Keeps

theorem Work.keeps {s t : State} (h : Work s t) : Keeps s t := by
  refine ⟨?_, h.queue, h.tags, ?_⟩
  · intro k
    unfold LineLaw at *
    rw [h.line, h.counter]
    exact k
  · rintro a b ⟨k1, k2, k3, k4, k5, k6, k7, k8, k9⟩
    refine ⟨by rw [h.framingErrors]; exact k1, by rw [h.overruns]; exact k2, by rw [h.orders]; exact k3,
      by rw [h.orders]; exact k4, by rw [h.orders, h.answer]; exact k5, by rw [h.gapTimer, h.receiver]; exact k6,
      ?_, ?_, by rw [h.resetDue, h.answer]; exact k9⟩
    · intro bytes e
      rw [h.answer]
      rcases h.sender with e' | ⟨_, a, bs, e', ha⟩
      · exact k7 bytes (e'.symm.trans e)
      · rw [e'] at e
        cases e
        exact ha rfl
    · intro a
      rw [h.answer] at a
      rcases h.sender with e' | ⟨hf, _⟩
      · rw [e']; exact k8 a
      · exact absurd hf (k8 a)

/-! ### The line -/

section

variable (s : State)

theorem keeps_submitLine (a b : LineState) (c : LineCause) : Keeps s (submitLine a b c s) := (work_submit s _).keeps

/-- The line state controller moves the line to a state that its law allows. -/
theorem keeps_setLine (l : LineState) (c : HaltCause) (p : Bool)
    (hp : p = l.working) (hc : LineLaw s → (c = .none ↔ l ≠ .halted))
    (hw : LineLaw s → l.working = true → s.line.lineStop = .inactive ∧ s.counter.faultLatch = false)
    (hi : LineLaw s → l = .idle → s.counter.belt = .stopped) : Keeps s (setLine l c p s) := by
  refine ⟨fun h => ⟨?_, ?_, ?_, ?_, ?_⟩, id, id, .refl _⟩
  · exact hp
  · exact hc h
  · exact hw h
  · exact h.2.2.2.1
  · exact hi h

theorem keeps_freeze (cause : HaltCause) (hc : cause ≠ .none) : Keeps s (freeze cause s) := by
  unfold freeze
  dsimp only
  refine .trans ?_ (work_evaluateHold _).keeps
  constructor
  case line =>
    intro h
    refine ⟨rfl, ?_, ?_, h.2.2.2.1, ?_⟩
    · simp only [setSlot_line, setLine_line]
      constructor
      · exact fun c => absurd c hc
      · exact fun c => absurd rfl c
    · intro w; cases w
    · intro w; cases w
  case queue => exact id
  case tags =>
    rintro ⟨h1, h2, h3, h4⟩
    refine ⟨by simpa using h1, ?_, ?_, h4⟩
    · simpa [List.map_map, Function.comp_def, Entry.atHalt] using h2
    · intro e he
      obtain ⟨e', he', rfl⟩ := List.mem_map.mp he
      exact h3 e' he'
  case link => exact .refl _

theorem keeps_haltLine (cause : HaltCause) (hc : cause ≠ .none) : Keeps s (haltLine cause s) :=
  .trans (keeps_freeze s cause hc) (keeps_submitLine _ _ _ _)

theorem keeps_requestHalt (cause : HaltCause) (hc : cause ≠ .none) : Keeps s (requestHalt cause s) := by
  unfold requestHalt
  split
  · exact keeps_haltLine s cause hc
  · exact .refl s

theorem keeps_completeDrain (h : s.line.state = .draining) : Keeps s (completeDrain s) := by
  unfold completeDrain
  refine .trans ?_ (keeps_submitLine _ _ _ _)
  refine .trans ?_ (work_evaluateHold _).keeps
  refine .trans ?_ (work_removeLengthLimit _).keeps
  refine .trans ?_ (work_setSlot _ _).keeps
  refine keeps_setLine s .ready _ false rfl ?_ ?_ ?_
  · intro k
    have := k.2.1
    rw [h] at this
    simpa using this
  · intro _ c; cases c
  · intro _ c; cases c

theorem keeps_drainTest : Keeps s (drainTest s) := by
  unfold drainTest
  split
  · rename_i h
    unfold State.drained at h
    simp only [Bool.and_eq_true, beq_iff_eq] at h
    exact keeps_completeDrain s h.1.1
  · exact .refl s

theorem keeps_settle : Keeps s (settle s) := .trans (work_arbitrate s).keeps (keeps_drainTest _)

theorem keeps_deliverNamed (k : WatchKind) : Keeps s (deliverNamed k s) := by
  unfold deliverNamed
  split
  · split
    · exact .trans (work_deliver s _).keeps (keeps_drainTest _)
    · exact .refl s
  · exact .refl s

theorem keeps_lineStopChange (level : StopLevel) : Keeps s (lineStopChange level s) := by
  unfold lineStopChange
  dsimp only
  split
  · exact .refl s
  · rename_i hne
    split
    · rename_i ha
      -- a change to ACTIVE: a working line is halted, another keeps its law
      subst ha
      unfold requestHalt
      dsimp only
      split
      · refine ⟨fun h => ?_, ?_, ?_, ?_⟩
        · have := (keeps_freeze { s with line := { s.line with lineStop := .active } } .lineStop (by decide))
          refine (keeps_submitLine _ _ _ _).line ?_
          unfold freeze
          dsimp only
          refine (work_evaluateHold _).keeps.line ?_
          refine ⟨rfl, ?_, ?_, h.2.2.2.1, ?_⟩
          · simp
          · intro w; cases w
          · intro w; cases w
        · exact (keeps_haltLine { s with line := { s.line with lineStop := .active } } .lineStop (by decide)).queue
        · exact (keeps_haltLine { s with line := { s.line with lineStop := .active } } .lineStop (by decide)).tags
        · exact (keeps_haltLine { s with line := { s.line with lineStop := .active } } .lineStop (by decide)).link
      · rename_i hw
        refine ⟨fun h => ⟨h.1, h.2.1, fun w => absurd w hw, h.2.2.2.1, h.2.2.2.2⟩, id, id, .refl _⟩
    · refine ⟨fun h => ⟨h.1, h.2.1, ?_, h.2.2.2.1, h.2.2.2.2⟩, id, id, .refl _⟩
      intro w
      rename_i hna
      refine ⟨?_, (h.2.2.1 w).2⟩
      cases level with
      | active => exact absurd rfl hna
      | inactive => rfl

/-! ### The position counter -/

theorem keeps_standstillTick : Keeps s (standstillTick s) := by
  unfold standstillTick
  dsimp only
  split
  · exact .refl s
  · rename_i hi
    have moved : Keeps s { s with counter := { s.counter with
        belt := .moving, standstill := timerFor s.config.line.standstillTime s } } := by
      refine ⟨fun h => ⟨h.1, h.2.1, h.2.2.1, ?_, fun c => absurd c hi⟩, id, id, .refl _⟩
      simp [timerFor]
    split
    · exact moved.trans (work_submit _ _).keeps
    · exact moved

theorem keeps_standstillExpiry : Keeps s (standstillExpiry s) := by
  unfold standstillExpiry
  split
  · refine .trans ?_ (work_submit _ _).keeps
    refine ⟨fun h => ⟨h.1, h.2.1, h.2.2.1, ?_, fun _ => rfl⟩, id, id, .refl _⟩
    simp
  · exact .refl s

/-- A change of the counter that leaves the fault latch and the belt as they are. -/
theorem keeps_counter (c : PositionCounter) (h1 : c.faultLatch = s.counter.faultLatch)
    (h2 : c.belt = s.counter.belt) (h3 : c.standstill = s.counter.standstill) :
    Keeps s { s with counter := c } := by
  refine ⟨fun h => ?_, id, id, .refl _⟩
  unfold LineLaw at *
  dsimp only
  rw [h1, h2, h3]
  exact h

theorem keeps_forwardTick : Keeps s (forwardTick s) := by
  unfold forwardTick runDeliveries
  refine .trans ?_ (keeps_drainTest _)
  refine .trans ?_ (work_deliveryRun _ _).keeps
  exact .trans (keeps_counter s s.counter.forward rfl rfl rfl) (keeps_standstillTick _)

theorem keeps_reverseTick : Keeps s (reverseTick s) := by
  unfold reverseTick reverseTest
  have moved : Keeps s (standstillTick { s with counter := s.counter.backward }) :=
    .trans (keeps_counter s s.counter.backward rfl rfl rfl) (keeps_standstillTick _)
  split
  · exact moved.trans (keeps_requestHalt _ _ (by decide))
  · exact moved

theorem keeps_illegalTransition : Keeps s (illegalTransition s) := by
  unfold illegalTransition
  dsimp only
  split
  · rename_i hl
    refine ⟨fun h => ⟨h.1, h.2.1, ?_, h.2.2.2.1, h.2.2.2.2⟩, id, id, .refl _⟩
    intro w
    have := (h.2.2.1 w).2
    rw [hl] at this
    cases this
  · unfold requestHalt
    dsimp only
    split
    · refine ⟨fun h => ?_, ?_, ?_, ?_⟩
      · refine (keeps_submitLine _ _ _ _).line ?_
        unfold freeze
        dsimp only
        refine (work_evaluateHold _).keeps.line ?_
        refine ⟨rfl, by simp, fun w => (by cases w), h.2.2.2.1, fun w => (by cases w)⟩
      · exact (keeps_haltLine { s with counter := s.counter.illegal } .encoder (by decide)).queue
      · exact (keeps_haltLine { s with counter := s.counter.illegal } .encoder (by decide)).tags
      · exact (keeps_haltLine { s with counter := s.counter.illegal } .encoder (by decide)).link
    · rename_i hw
      exact ⟨fun h => ⟨h.1, h.2.1, fun w => absurd w hw, h.2.2.2.1, h.2.2.2.2⟩, id, id, .refl _⟩

/-! ### Diverters, monitors and the supervisor -/

theorem keeps_maxOnEvent (d : Station) : Keeps s (maxOnEvent d s) := by
  unfold maxOnEvent
  split
  · exact .trans (work_maxOnExpiry s d).keeps (keeps_settle _)
  · exact .refl s

theorem keeps_recoveryEvent (d : Station) : Keeps s (recoveryEvent d s) := by
  unfold recoveryEvent
  split
  · exact .trans (work_endRecovery s d).keeps (keeps_settle _)
  · exact .refl s

theorem keeps_pulseEvent (d : Station) : Keeps s (pulseEvent d s) := by
  unfold pulseEvent
  split
  · exact .trans (work_releaseDiverter s d).keeps (keeps_settle _)
  · exact .refl s

theorem keeps_deadlineEvent (d : Station) : Keeps s (deadlineEvent d s) := by
  unfold deadlineEvent
  split
  · exact .trans (work_deadlineExpiry s d).keeps (keeps_drainTest _)
  · exact .refl s

theorem keeps_confirmLeading (d : Station) : Keeps s (confirmLeading d s) := by
  unfold confirmLeading
  dsimp only
  split
  · exact .refl s
  · split
    · refine .trans ?_ (keeps_drainTest _)
      refine .trans ?_ (work_chuteBlocked _ d).keeps
      refine .trans ?_ (work_matchEdge _ d).keeps
      exact (work_setMonitor s d _).keeps
    · exact (work_setMonitor s d _).keeps

theorem keeps_confirmTrailing (d : Station) : Keeps s (confirmTrailing d s) := by
  unfold confirmTrailing
  dsimp only
  split
  · exact .refl s
  · split
    · refine .trans ?_ (work_chuteCleared _ d).keeps
      exact (work_setMonitor s d _).keeps
    · exact (work_setMonitor s d _).keeps

theorem keeps_chuteEvent (d : Station) : Keeps s (chuteEvent d s) := by
  unfold chuteEvent
  split
  · exact (work_chuteExpiry s d).keeps
  · exact .refl s

theorem keeps_restartSupervision : Keeps s (restartSupervision s) := ⟨id, id, id, .refl _⟩

theorem keeps_runoffAll : Keeps s (runoffAll s) := by
  unfold runoffAll
  refine Keeps.foldl _ (fun t e => ?_) _ _
  unfold runoffEntry
  split
  · exact (work_sendToRunoff t _ _).keeps
  · exact .trans (work_leavePending t _ _).keeps (work_giveBackToBelt _ _ _).keeps
  · exact .refl t

theorem keeps_lossAction : Keeps s (lossAction s) := by
  unfold lossAction
  split
  · split
    · exact .refl s
    · exact .trans (keeps_runoffAll s) (keeps_drainTest _)
    · exact keeps_haltLine s _ (by decide)
  · exact .refl s

theorem keeps_supervisionExpiry : Keeps s (supervisionExpiry s) := by
  unfold supervisionExpiry
  dsimp only
  split
  · split
    · refine .trans ?_ (keeps_lossAction _)
      refine .trans ?_ (work_submit _ _).keeps
      exact ⟨id, id, id, .refl _⟩
    · exact keeps_restartSupervision s
  · exact .refl s

theorem keeps_retryExpiry : Keeps s (retryExpiry s) := by
  unfold retryExpiry
  split
  · rename_i he
    refine .trans ?_ (work_startNext _).keeps
    refine ⟨id, fun h => h.goBack ?_ _, id, .refl _⟩
    unfold expired at he
    split at he
    · rename_i e; rw [e]; rfl
    · cases he
  · exact .refl s

end

end Sys2Proof.Machine
end

