-- ==== Sys2Proof/Laws/Orders.lean ====
section
/-! SUPPORT. The orders' rules, taking an order, the receiver, the transmitter and the resets keep the laws of the line, the
report queue, the tags and the link unit. -/

namespace Sys2Proof.Machine

/-! ### The shape of a rule -/

/-- A rule whose own part keeps the laws. -/
def RuleKeeps (rule : OrderRule) : Prop := ∀ p s, Keeps s (rule p s).1

theorem ruleKeeps_formChecked {k : OrderKind} {own : OrderRule} (h : RuleKeeps own) :
    RuleKeeps (formChecked k own) := by
  intro p s
  unfold formChecked
  split
  · exact .refl s
  · split
    · exact .refl s
    · exact h p s

theorem ruleKeeps_linkChecked {own : OrderRule} (h : RuleKeeps own) : RuleKeeps (linkChecked own) := by
  intro p s
  unfold linkChecked
  split
  · exact .refl s
  · exact h p s

theorem ruleKeeps_destinationChecked {own : Station → OrderRule} (h : ∀ d, RuleKeeps (own d)) :
    RuleKeeps (destinationChecked own) := by
  intro p s
  unfold destinationChecked
  split
  · exact .refl s
  · split
    · split
      · exact h _ p s
      · exact .refl s
    · exact .refl s
    · exact .refl s

theorem ruleKeeps_diverterChecked {own : Station → OrderRule} (h : ∀ d, RuleKeeps (own d)) :
    RuleKeeps (diverterChecked own) := by
  intro p s
  unfold diverterChecked
  split
  · exact .refl s
  · split
    · split
      · exact h _ p s
      · exact .refl s
    · exact .refl s

theorem ruleKeeps_lineChecked {own : OrderRule} (h : RuleKeeps own) : RuleKeeps (lineChecked own) := by
  refine ruleKeeps_linkChecked (fun p s => ?_)
  split
  · exact h p s
  · exact .refl s

/-! ### The orders -/

theorem ruleKeeps_cfgl : RuleKeeps cfgl := by
  refine ruleKeeps_formChecked (ruleKeeps_linkChecked (fun p s => ?_))
  dsimp only
  split
  · split
    · exact ⟨id, id, id, .refl _⟩
    · exact .refl s
  · exact .refl s

theorem ruleKeeps_cfgd : RuleKeeps cfgd := by
  refine ruleKeeps_formChecked (ruleKeeps_linkChecked (fun p s => ?_))
  dsimp only
  split
  · split
    · exact ⟨id, id, id, .refl _⟩
    · exact .refl s
  · exact .refl s

theorem ruleKeeps_rdcf : RuleKeeps rdcf := by
  refine ruleKeeps_formChecked (fun p s => ?_)
  split
  · exact .refl s
  · split <;> exact .refl s

theorem keeps_resetDestinations (s : State) : Keeps s (resetDestinations s) := by
  unfold resetDestinations
  have first : Keeps s
      { s with
        destinations := Vector.replicate 16 DestRecord.atReset
        runOff := { s.runOff with filled := 0, serial := 0 } } := ⟨id, id, id, .refl _⟩
  refine first.trans (Keeps.foldl _ (fun t d => ?_) _ _)
  split
  · exact (work_submitDest t d).keeps
  · exact .refl t

theorem keeps_commit (s : State) : Keeps s (commit s) := by
  unfold commit
  have early : Keeps s (commitChutes (commitDiverters { s with config := s.pendingConfig })) := ⟨id, id, id, .refl _⟩
  have early' := early.trans (keeps_resetDestinations _)
  have line : (resetDestinations (commitChutes (commitDiverters { s with config := s.pendingConfig }))).line =
      s.line := by
    unfold resetDestinations
    have aux : ∀ (l : List Station) (t u : State), (l.foldl (fun t d =>
        if u.installed d && (u.destination d).causes != { host := true } then submitDest d t else t) t).line =
        t.line := by
      intro l
      induction l with
      | nil => intro t u; rfl
      | cons d l ih =>
        intro t u
        rw [List.foldl_cons, ih]
        split
        · exact (work_submitDest t d).line
        · rfl
    rw [aux]
    rfl
  refine early'.trans ?_
  unfold commitLine
  split
  · rename_i hi
    refine .trans ?_ (keeps_submitLine _ _ _ _)
    refine ⟨fun k => ⟨?_, ?_, ?_, k.2.2.2.1, ?_⟩, id, id, .refl _⟩
    · have := k.1
      rw [hi] at this
      exact this
    · have := k.2.1
      rw [hi] at this
      simpa using this
    · intro w; cases w
    · intro c; cases c
  · exact .refl _

theorem ruleKeeps_cmit : RuleKeeps cmit := by
  refine ruleKeeps_formChecked (ruleKeeps_linkChecked (fun p s => ?_))
  split
  · rename_i h
    split
    · exact .refl s
    · exact keeps_commit s
  · exact .refl s

theorem keeps_startLine (s : State) (h : s.mayStart = true) : Keeps s (startLine s) := by
  unfold State.mayStart at h
  simp only [Bool.and_eq_true, beq_iff_eq, Bool.not_eq_true'] at h
  obtain ⟨⟨⟨h1, h2⟩, h3⟩, _⟩ := h
  unfold startLine
  refine .trans ?_ (keeps_submitLine _ _ _ _)
  refine .trans ?_ (work_evaluateHold _).keeps
  have first : Keeps s (forgetTrailing (markHighWater s)) := ⟨id, id, id, .refl _⟩
  refine first.trans (keeps_setLine _ .running _ true rfl ?_ ?_ ?_)
  · intro k
    have := k.2.1
    simp only [forgetTrailing_line, markHighWater_line, h1] at this
    simpa using this
  · intro _ _
    exact ⟨h2, h3⟩
  · intro _ c; cases c

theorem ruleKeeps_strt : RuleKeeps strt := by
  refine ruleKeeps_formChecked (ruleKeeps_linkChecked (fun p s => ?_))
  split
  · rename_i h
    exact keeps_startLine s h
  · exact .refl s

theorem keeps_beginDrain (s : State) (h : s.line.state = .running) : Keeps s (beginDrain s) := by
  unfold beginDrain
  refine .trans ?_ (keeps_submitLine _ _ _ _)
  refine .trans ?_ (work_evaluateHold _).keeps
  refine ⟨fun k => ⟨?_, ?_, ?_, k.2.2.2.1, ?_⟩, id, id, .refl _⟩
  · have := k.1
    rw [h] at this
    exact this
  · have := k.2.1
    rw [h] at this
    simpa using this
  · intro _
    exact k.2.2.1 (by rw [h]; rfl)
  · intro c; cases c

theorem ruleKeeps_stop : RuleKeeps stop := by
  refine ruleKeeps_formChecked (fun p s => ?_)
  split
  · rename_i h
    exact (keeps_beginDrain s h).trans (keeps_drainTest _)
  all_goals exact .refl s

theorem ruleKeeps_halt : RuleKeeps halt :=
  ruleKeeps_formChecked (fun _ s => keeps_requestHalt s .order (by decide))

theorem keeps_clearWork (s : State) (h : s.line.state.working = false) : Keeps s (clearWork s) := by
  unfold clearWork discardEntries
  have returned : Work s ((s.table.map (·.tag)).foldl (fun t tag => returnUnit tag t) s) :=
    Work.foldl _ (fun t tag => work_returnUnit t tag) _ _
  refine returned.keeps.trans ⟨fun k => ⟨k.1, k.2.1, ?_, k.2.2.2.1, k.2.2.2.2⟩, id, ?_, .refl _⟩
  · intro w
    have e : s.line.state.working = true := by rw [← returned.line]; exact w
    rw [h] at e
    cases e
  · rintro ⟨_, _, _, h4⟩
    exact ⟨Nat.zero_le _, List.nodup_nil, by simp, h4⟩

theorem line_clearWork (s : State) : (clearWork s).line = s.line := by
  have returned : Work s ((s.table.map (·.tag)).foldl (fun t tag => returnUnit tag t) s) :=
    Work.foldl _ (fun t tag => work_returnUnit t tag) _ _
  exact returned.line

theorem ruleKeeps_clr : RuleKeeps clr := by
  refine ruleKeeps_formChecked (fun p s => ?_)
  split
  · exact .refl s
  · rename_i hn
    simp only [not_or, Bool.not_eq_true] at hn
    split
    · exact .refl s
    · split
      · rename_i hh
        unfold done clearHalted
        dsimp only
        refine .trans ?_ (keeps_submitLine _ _ _ _)
        refine .trans ?_ (work_evaluateHold _).keeps
        refine .trans (.trans (keeps_clearWork s hn.2) (work_submit _ (.cleared s.occupancy)).keeps)
          ⟨fun k => ⟨?_, by simp, fun w => (by cases w), k.2.2.2.1, fun w => (by cases w)⟩, id, id, .refl _⟩
        have := k.1
        simp only [submit_line, line_clearWork, hh] at this
        simpa [LineState.working] using this
      · unfold done clearReady
        dsimp only
        refine .trans ?_ (work_evaluateHold _).keeps
        exact .trans (keeps_clearWork s hn.2) (work_submit _ _).keeps

theorem ruleKeeps_asgn : RuleKeeps asgn := by
  refine ruleKeeps_formChecked (ruleKeeps_lineChecked (fun p s => ?_))
  split
  · exact .refl s
  · split
    · exact .refl s
    · split
      · exact .refl s
      · split
        · exact .refl s
        · split
          · exact .refl s
          · split
            · unfold markLate
              split
              · refine Work.keeps ?_
                exact work_setEntry s _ _ (fun _ => rfl)
              · exact .refl s
            · unfold done assignEntry
              dsimp only
              refine .trans ?_ (work_insertWatch _ _ _).keeps
              refine .trans ?_ (work_removeWatch _ _).keeps
              refine Work.keeps ?_
              exact work_setEntry s _ _ (fun _ => rfl)

theorem ruleKeeps_drop : RuleKeeps drop := by
  refine ruleKeeps_formChecked (ruleKeeps_lineChecked (fun p s => ?_))
  split
  · exact .refl s
  · split
    · exact (work_sendToRunoff s _ _).keeps
    · unfold done dropPending
      dsimp only
      refine .trans ?_ (work_giveBackToBelt _ _ _).keeps
      split
      · exact (work_leavePending s _ _).keeps
      · exact .refl s
    all_goals exact .refl s

theorem ruleKeeps_qitm : RuleKeeps qitm := by
  refine ruleKeeps_formChecked (fun p s => ?_)
  split <;> exact .refl s

theorem ruleKeeps_list : RuleKeeps list := by
  refine ruleKeeps_formChecked (fun p s => ?_)
  split <;> exact .refl s

theorem ruleKeeps_opnd : RuleKeeps opnd := by
  refine ruleKeeps_formChecked (ruleKeeps_linkChecked (ruleKeeps_destinationChecked (fun d p s => ?_)))
  split
  · exact .refl s
  · split
    · exact .refl s
    · exact .trans (work_setDestination s d _).keeps (work_submitDest _ d).keeps

theorem ruleKeeps_clsd : RuleKeeps clsd := by
  refine ruleKeeps_formChecked (ruleKeeps_linkChecked (ruleKeeps_destinationChecked (fun d p s => ?_)))
  refine Work.keeps ?_
  unfold done
  dsimp only
  exact work_changeCauses s d _

theorem ruleKeeps_adjd : RuleKeeps adjd := by
  refine ruleKeeps_formChecked (ruleKeeps_linkChecked (ruleKeeps_destinationChecked (fun d p s => ?_)))
  split
  · exact .refl s
  · split
    · exact .refl s
    · exact .trans (work_setDestination s d _).keeps (work_terminalCount _ d).keeps

theorem ruleKeeps_qdst : RuleKeeps qdst := by
  refine ruleKeeps_formChecked (fun p s => ?_)
  split
  · exact .refl s
  · split
    · exact .refl s
    · split <;> exact .refl s
    · exact .refl s

theorem ruleKeeps_dena : RuleKeeps dena := by
  refine ruleKeeps_formChecked (ruleKeeps_linkChecked (ruleKeeps_diverterChecked (fun d p s => ?_)))
  split
  · unfold done
    dsimp only
    refine .trans ?_ (work_changeCauses _ d _).keeps
    exact (work_setDiverter s d _).keeps
  · exact .refl s

theorem ruleKeeps_ddis : RuleKeeps ddis := by
  refine ruleKeeps_formChecked (ruleKeeps_linkChecked (ruleKeeps_diverterChecked (fun d p s => ?_)))
  split
  · exact .refl s
  · unfold done disableDiverter
    dsimp only
    refine .trans ?_ (keeps_settle _)
    refine .trans ?_ (work_changeCauses _ d _).keeps
    refine .trans ?_ (work_switchOff _ d).keeps
    refine .trans ?_ (work_emptyPending _ d).keeps
    exact (work_endPush s d).keeps

theorem ruleKeeps_tfir : RuleKeeps tfir := by
  refine ruleKeeps_formChecked (ruleKeeps_linkChecked (fun p s => ?_))
  split
  · exact .refl s
  · split
    · exact .refl s
    · split
      · exact .refl s
      · split
        · exact .refl s
        · split
          · exact .refl s
          · exact .trans (work_setDiverter s _ _).keeps (work_takeSlot _).keeps

theorem ruleKeeps_link : RuleKeeps link := by
  refine ruleKeeps_formChecked (fun p s => ?_)
  dsimp only
  split
  · exact .refl s
  · split
    · refine .trans ?_ (keeps_restartSupervision _)
      exact ⟨id, fun h => h.setRetryTime _, id, .refl _⟩
    · exact .refl s

theorem ruleKeeps_wind : RuleKeeps wind := by
  refine ruleKeeps_formChecked (fun p s => ?_)
  split
  · exact .refl s
  · rename_i h
    refine .trans ?_ (work_startNext _).keeps
    exact ⟨id, fun k => k.setWindow _ (by omega) _, id, .refl _⟩

theorem ruleKeeps_ack : RuleKeeps ack := by
  refine ruleKeeps_formChecked (fun p s => ?_)
  split
  · rename_i h
    refine .trans ?_ (work_startNext _).keeps
    exact ⟨id, fun k => k.acknowledge _ h _, id, .refl _⟩
  · exact .refl s

theorem ruleKeeps_rsum : RuleKeeps rsum := by
  refine ruleKeeps_formChecked (fun p s => ?_)
  dsimp only
  split
  · refine .trans ?_ (work_submit _ _).keeps
    exact ⟨id, id, id, .refl _⟩
  · exact .refl s

theorem ruleKeeps_stat : RuleKeeps stat := by
  refine ruleKeeps_formChecked (fun p s => ?_)
  dsimp only
  split
  · exact .refl s
  · split
    · refine ⟨id, id, id, ?_⟩
      rintro a b ⟨_, _, k3, k4, k5, k6, k7, k8, k9⟩
      exact ⟨Nat.zero_le _, Nat.zero_le _, k3, k4, k5, k6, k7, k8, k9⟩
    · exact .refl s

theorem ruleKeeps_unknown : RuleKeeps unknownRule := fun _ s => .refl s

/-! ### Answers -/

/-- An answer in the slot: an order waiting in the buffer or a waiting reset is then lawful. -/
theorem LinkLawUpTo.placed {taken timed : Bool} {l : LinkUnit} (h : LinkLawUpTo false timed { l with resetDue := false })
    (f : Frame) (s : State) (hs : s.link = l) : LinkLawUpTo taken timed (placeAnswer f s).link := by
  subst hs
  obtain ⟨k1, k2, k3, k4, _, k6, k7, k8, _⟩ := h
  refine ⟨by simpa using k1, by simpa using k2, by simpa using k3, by simpa using k4, by simp, by simpa using k6,
    by simp, ?_, by simp⟩
  intro _
  unfold placeAnswer
  rcases startNext_cases { s with link := { s.link with answer := some f } } with h | ⟨_, _, _, h⟩ | ⟨_, ha, _⟩
  · intro c
    rw [h] at c
    have := congrArg (fun x : State => x.link.transmitter) h
    simp [startNext, show s.link.transmitter = .free from c] at this
  · rw [h]; simp
  · cases ha

theorem LinkLawUpTo.loose {taken timed : Bool} {l : LinkUnit} (h : LinkLawUpTo taken timed l) :
    LinkLawUpTo false timed { l with resetDue := false } :=
  ⟨h.framing, h.overruns, h.buffer, h.buffered, fun c => (by cases c), h.gap, h.sending, h.slot,
    fun c => (by cases c)⟩

theorem keeps_placeAnswer (f : Frame) (s : State) : Keeps s (placeAnswer f s) := by
  refine ⟨?_, ?_, ?_, fun _ _ h => h.loose.placed f s rfl⟩
  · intro h; simpa [LineLaw] using h
  · intro h; simpa using h
  · intro h; simpa [TagLaw] using h

theorem keeps_recordOrder (n : Half) (k : Byte) (f : Frame) (s : State) : Keeps s (recordOrder n k f s) :=
  ⟨id, id, id, fun _ _ h =>
    ⟨h.framing, h.overruns, h.buffer, h.buffered, h.served, h.gap, h.sending, h.slot, h.reset⟩⟩

theorem keeps_answerOrder {rule : OrderRule} (h : RuleKeeps rule) (n : Half) (k : Byte) (p : List Byte) (s : State) :
    Keeps s (answerOrder rule n k p s) := by
  unfold answerOrder
  dsimp only
  exact ((h p s).trans (keeps_recordOrder _ _ _ _)).trans (keeps_placeAnswer _ _)

/-- RSTR keeps the laws with its answer, not by its rule alone: the reset waits for the answer (R130). -/
theorem keeps_answerRstr (n : Half) (k : Byte) (p : List Byte) (s : State) :
    Keeps s (answerOrder rstr n k p s) := by
  unfold answerOrder
  dsimp only
  have e : (rstr p s).1 = s ∨ (rstr p s).1 = { s with link := { s.link with resetDue := true } } := by
    unfold rstr formChecked
    split
    · exact Or.inl rfl
    · split
      · exact Or.inl rfl
      · exact Or.inr rfl
  rcases e with e | e
  · rw [e]
    exact (keeps_recordOrder _ _ _ _).trans (keeps_placeAnswer _ _)
  · rw [e]
    refine ⟨?_, ?_, ?_, ?_⟩
    · intro h; simpa [LineLaw] using h
    · intro h; simpa using h
    · intro h; simpa [TagLaw] using h
    · intro a b h
      refine LinkLawUpTo.placed ?_ _ _ rfl
      exact ⟨h.framing, h.overruns, h.buffer, h.buffered, fun c => (by cases c), h.gap, h.sending, h.slot,
        fun c => (by cases c)⟩

/-- An order is taken: the laws are kept when its rule, with the answer, keeps them. -/
theorem keeps_takeOrder {rule : OrderRule} {n : Half} {k : Byte} {p : List Byte} {s : State}
    (h : Keeps s (answerOrder rule n k p s)) : Keeps s (takeOrder rule n k p s) := by
  unfold takeOrder
  split
  · exact .refl s
  · split
    · exact keeps_placeAnswer _ s
    · exact h

theorem keeps_orderKind (o : OrderKind) (n : Half) (k : Byte) (p : List Byte) (s : State) :
    Keeps s (takeOrder o.rule n k p s) := by
  refine keeps_takeOrder ?_
  cases o
  case rstr => exact keeps_answerRstr n k p s
  case cfgl => exact keeps_answerOrder ruleKeeps_cfgl n k p s
  case cfgd => exact keeps_answerOrder ruleKeeps_cfgd n k p s
  case cmit => exact keeps_answerOrder ruleKeeps_cmit n k p s
  case rdcf => exact keeps_answerOrder ruleKeeps_rdcf n k p s
  case strt => exact keeps_answerOrder ruleKeeps_strt n k p s
  case stop => exact keeps_answerOrder ruleKeeps_stop n k p s
  case halt => exact keeps_answerOrder ruleKeeps_halt n k p s
  case clr => exact keeps_answerOrder ruleKeeps_clr n k p s
  case asgn => exact keeps_answerOrder ruleKeeps_asgn n k p s
  case drop => exact keeps_answerOrder ruleKeeps_drop n k p s
  case qitm => exact keeps_answerOrder ruleKeeps_qitm n k p s
  case list => exact keeps_answerOrder ruleKeeps_list n k p s
  case opnd => exact keeps_answerOrder ruleKeeps_opnd n k p s
  case clsd => exact keeps_answerOrder ruleKeeps_clsd n k p s
  case adjd => exact keeps_answerOrder ruleKeeps_adjd n k p s
  case qdst => exact keeps_answerOrder ruleKeeps_qdst n k p s
  case dena => exact keeps_answerOrder ruleKeeps_dena n k p s
  case ddis => exact keeps_answerOrder ruleKeeps_ddis n k p s
  case tfir => exact keeps_answerOrder ruleKeeps_tfir n k p s
  case link => exact keeps_answerOrder ruleKeeps_link n k p s
  case wind => exact keeps_answerOrder ruleKeeps_wind n k p s
  case ack => exact keeps_answerOrder ruleKeeps_ack n k p s
  case rsum => exact keeps_answerOrder ruleKeeps_rsum n k p s
  case stat => exact keeps_answerOrder ruleKeeps_stat n k p s

theorem keeps_ruleOf (n : Half) (k : Byte) (p : List Byte) (s : State) :
    Keeps s (takeOrder (ruleOf k) n k p s) := by
  unfold ruleOf
  split
  · exact keeps_orderKind _ n k p s
  · exact keeps_takeOrder (keeps_answerOrder ruleKeeps_unknown n k p s)

theorem keeps_replayOrder (n : Half) (k : Byte) (s : State) : Keeps s (replayOrder n k s) := by
  unfold replayOrder
  split
  · exact .refl s
  · split
    · exact keeps_placeAnswer _ s
    · exact .refl s

end Sys2Proof.Machine
end

