-- ==== Sys2Proof/Laws/Link.lean ====
section
/-! SUPPORT. The receiver, the end of a sent frame, the resets and the millisecond keep the laws of the line, the report
queue, the tags and the link unit. -/

namespace Sys2Proof.Machine

/-! ### Taking the order at the head of the buffer -/

theorem answered_takeOrder (rule : OrderRule) (n : Half) (k : Byte) (p : List Byte) (s : State)
    (h : s.link.answer = none) : (takeOrder rule n k p s).link.answer.isSome = true := by
  unfold takeOrder
  rw [if_neg (by simp [h])]
  split
  · simp
  · simp [answerOrder]

/-- After the service of the buffer no order waits beside an empty answer slot (R149). -/
theorem link_serviceOrders (s : State) (taken timed : Bool) (h : LinkLawUpTo false timed s.link) :
    LinkLawUpTo taken timed (serviceOrders s).link := by
  unfold serviceOrders
  split
  · rename_i f rest ho
    split
    · rename_i ha
      exact ⟨h.framing, h.overruns, h.buffer, h.buffered, fun _ _ => ha, h.gap, h.sending, h.slot, h.reset⟩
    · rename_i ha
      have ha' : s.link.answer = none := by simpa using ha
      have k := keeps_ruleOf f.number f.kind f.payload { s with link := { s.link with orders := rest } }
      have after := k.link false timed
        ⟨h.framing, h.overruns, le_trans (by simp) (ho ▸ h.buffer),
          fun g hg => h.buffered g (by rw [ho]; exact List.mem_cons_of_mem _ hg), fun c => (by cases c), h.gap,
          h.sending, h.slot, h.reset⟩
      have full := answered_takeOrder (ruleOf f.kind) f.number f.kind f.payload
        { s with link := { s.link with orders := rest } } ha'
      exact ⟨after.framing, after.overruns, after.buffer, after.buffered, fun _ _ => full, after.gap,
        after.sending, after.slot, after.reset⟩
  · rename_i ho
    exact ⟨h.framing, h.overruns, h.buffer, h.buffered, fun _ c => absurd ho c, h.gap, h.sending, h.slot, h.reset⟩

theorem laws_serviceOrders (s : State) : (LineLaw s → LineLaw (serviceOrders s))
    ∧ (QueueLaw s.queue → QueueLaw (serviceOrders s).queue) ∧ (TagLaw s → TagLaw (serviceOrders s)) := by
  unfold serviceOrders
  split
  · split
    · exact ⟨id, id, id⟩
    · rename_i f rest _ _
      have k := keeps_ruleOf f.number f.kind f.payload { s with link := { s.link with orders := rest } }
      exact ⟨k.line, k.queue, k.tags⟩
  · exact ⟨id, id, id⟩

theorem keeps_serviceOrders (s : State) : Keeps s (serviceOrders s) := by
  obtain ⟨h1, h2, h3⟩ := laws_serviceOrders s
  refine ⟨h1, h2, h3, fun a b h => link_serviceOrders s a b ?_⟩
  exact ⟨h.framing, h.overruns, h.buffer, h.buffered, fun c => (by cases c), h.gap, h.sending, h.slot, h.reset⟩

/-! ### The receiver -/

/-- What a character makes of a frame: a good order frame has CLASS order and at most 48 payload bytes (R144, R146). -/
theorem judge_good {r : Receiver} {b : Byte} {f : Frame} (h : judge r b = .good f) :
    f.cls = classOrder ∧ f.payload.length ≤ Config.payloadCapacity := by
  unfold judge at h
  split at h
  · split at h <;> cases h
  · dsimp only at h
    split at h
    · cases h
    · split at h
      · cases h
      · rename_i hlen
        split at h
        · cases h
        · unfold judgeComplete at h
          dsimp only at h
          split at h
          · cases h
          · split at h
            · cases h
            · rename_i hc
              cases h
              refine ⟨by simpa using hc, ?_⟩
              simp only [List.length_take]
              omega

/-- The laws while characters are examined: the gap timer is set when the examination has ended (R146). -/
structure Receiving (s t : State) : Prop where
  line : LineLaw s → LineLaw t
  queue : QueueLaw s.queue → QueueLaw t.queue
  tags : TagLaw s → TagLaw t
  link : LinkLawUpTo true false s.link → LinkLawUpTo true false t.link

namespace Receiving

theorem refl (s : State) : Receiving s s := ⟨id, id, id, id⟩

theorem trans {s t u : State} (h : Receiving s t) (k : Receiving t u) : Receiving s u :=
  ⟨fun x => k.line (h.line x), fun x => k.queue (h.queue x), fun x => k.tags (h.tags x),
    fun x => k.link (h.link x)⟩

end Receiving

theorem receiving_setReceiver (r : Receiver) (s : State) : Receiving s (setReceiver r s) :=
  ⟨id, id, id, fun h => ⟨h.framing, h.overruns, h.buffer, h.buffered, h.served, fun c => (by cases c), h.sending,
    h.slot, h.reset⟩⟩

theorem receiving_countDiscard (s : State) : Receiving s (countDiscard s) :=
  ⟨id, id, id, fun h => ⟨Nat.min_le_left _ _, h.overruns, h.buffer, h.buffered, h.served, fun c => (by cases c),
    h.sending, h.slot, h.reset⟩⟩

theorem receiving_goodFrame (f : Frame) (hf : f.cls = classOrder ∧ f.payload.length ≤ Config.payloadCapacity)
    (s : State) : Receiving s (goodFrame f s) := by
  unfold goodFrame
  have offered : ∀ t : State, (LineLaw t → LineLaw (offerOrder f t))
      ∧ (QueueLaw t.queue → QueueLaw (offerOrder f t).queue) ∧ (TagLaw t → TagLaw (offerOrder f t))
      ∧ (LinkLawUpTo true false t.link → LinkLawUpTo false false (offerOrder f t).link) := by
    intro t
    unfold offerOrder
    split
    · rename_i hlt
      refine ⟨id, id, id, fun h => ⟨h.framing, h.overruns, ?_, ?_, fun c => (by cases c), fun c => (by cases c),
        h.sending, h.slot, h.reset⟩⟩
      · simpa using hlt
      · intro g hg
        simp only [List.mem_append, List.mem_singleton] at hg
        rcases hg with hg | rfl
        · exact h.buffered g hg
        · exact hf
    · exact ⟨id, id, id, fun h => ⟨h.framing, Nat.min_le_left _ _, h.buffer, h.buffered, fun c => (by cases c),
        fun c => (by cases c), h.sending, h.slot, h.reset⟩⟩
  obtain ⟨o1, o2, o3, o4⟩ := offered (restartSupervision s)
  obtain ⟨l1, l2, l3⟩ := laws_serviceOrders (offerOrder f (restartSupervision s))
  exact ⟨fun h => l1 (o1 h), fun h => l2 (o2 h), fun h => l3 (o3 h),
    fun h => link_serviceOrders _ true false (o4 h)⟩

theorem receiving_examine (n : Nat) (bs : List Byte) (s : State) : Receiving s (examine n bs s) := by
  induction n generalizing bs s with
  | zero => exact .refl s
  | succ n ih =>
    cases bs with
    | nil => exact .refl s
    | cons b rest =>
      unfold examine
      split
      · exact .trans (receiving_setReceiver _ s) (ih _ _)
      · exact .trans (.trans (receiving_countDiscard s) (receiving_setReceiver _ _)) (ih _ _)
      · exact .trans (.trans (receiving_countDiscard s) (receiving_setReceiver _ _)) (ih _ _)
      · rename_i f hj
        exact .trans (.trans (receiving_setReceiver _ s) (receiving_goodFrame f (judge_good hj) _)) (ih _ _)

/-- Setting the gap timer ends the examination. -/
theorem Receiving.keeps {s t : State} (h : Receiving s t) (hs : LinkLaw s.link) :
    LinkLaw (setGapTimer t).link := by
  have k := h.link (hs.upTo true false)
  refine ⟨k.framing, k.overruns, k.buffer, k.buffered, k.served rfl, ?_, k.sending, k.slot, k.reset⟩
  unfold setGapTimer
  dsimp only
  split
  · rename_i e; simp [e, timerFor]
  · rename_i e; simp [e]

/-- A character keeps the laws (R144 to R148). -/
theorem laws_receive (b : Byte) (s : State) : (LineLaw s → LineLaw (receive b s))
    ∧ (QueueLaw s.queue → QueueLaw (receive b s).queue) ∧ (TagLaw s → TagLaw (receive b s))
    ∧ (LinkLaw s.link → LinkLaw (receive b s).link) := by
  have h := receiving_examine (examineBound s.link.receiver) [b] s
  exact ⟨h.line, h.queue, h.tags, fun k => h.keeps k⟩

theorem laws_dropFrame (s : State) : (LineLaw s → LineLaw (dropFrame s))
    ∧ (QueueLaw s.queue → QueueLaw (dropFrame s).queue) ∧ (TagLaw s → TagLaw (dropFrame s))
    ∧ (LinkLaw s.link → LinkLaw (dropFrame s).link) := by
  unfold dropFrame
  split
  · have h : Receiving s (setReceiver .hunting (countDiscard s)) :=
      .trans (receiving_countDiscard s) (receiving_setReceiver _ _)
    exact ⟨h.line, h.queue, h.tags, fun k => h.keeps k⟩
  · exact ⟨id, id, id, id⟩

/-! ### Resets -/

/-- The laws hold right after a reset, at any sampled levels (R131). -/
theorem laws_resetState (c : ResetCause) (lv : Levels) (s : State) : LineLaw (resetState c lv s)
    ∧ QueueLaw (resetState c lv s).queue ∧ TagLaw (resetState c lv s) ∧ LinkLaw (resetState c lv s).link := by
  refine ⟨?_, QueueLaw.atReset c, ?_, ?_⟩
  · exact ⟨rfl, by simp [resetState, State.reset], fun w => (by cases w), by simp [resetState, State.reset],
      fun _ => rfl⟩
  · exact ⟨Nat.zero_le _, List.nodup_nil, by simp [resetState, State.reset], by simp [resetState, State.reset]⟩
  · exact ⟨by simp [resetState, State.reset], by simp [resetState, State.reset], by simp [resetState, State.reset],
      by simp [resetState, State.reset], by simp [resetState, State.reset], by simp [resetState, State.reset],
      by simp [resetState, State.reset], by simp [resetState, State.reset], by simp [resetState, State.reset]⟩

theorem laws_resetPart (c : ResetCause) (lv : Levels) (s : State) : LineLaw (resetPart c lv s)
    ∧ QueueLaw (resetPart c lv s).queue ∧ TagLaw (resetPart c lv s) ∧ LinkLaw (resetPart c lv s).link := by
  obtain ⟨h1, h2, h3, h4⟩ := laws_resetState c lv s
  have k := (work_startNext (resetState c lv s)).keeps
  exact ⟨k.line h1, k.queue h2, k.tags h3, (k.link true true (h4.upTo _ _)).whole⟩

/-! ### The end of a sent frame -/

/-- The end of a sent frame keeps the laws (R130, R152). -/
theorem laws_transmitComplete (s : State) : (LineLaw s → LineLaw (transmitComplete s))
    ∧ (QueueLaw s.queue → QueueLaw (transmitComplete s).queue) ∧ (TagLaw s → TagLaw (transmitComplete s))
    ∧ (LinkLaw s.link → LinkLaw (transmitComplete s).link) := by
  unfold transmitComplete
  split
  · exact ⟨id, id, id, id⟩
  · rename_i isAnswer bytes ht
    dsimp only
    split
    · obtain ⟨h1, h2, h3, h4⟩ := laws_resetState .order
        (State.levels { s with link := { s.link with
          transmitter := .free, answer := if isAnswer then none else s.link.answer } })
        { s with link := { s.link with transmitter := .free, answer := if isAnswer then none else s.link.answer } }
      exact ⟨fun _ => h1, fun _ => h2, fun _ => h3, fun _ => h4⟩
    · rename_i hr
      have w := work_startNext { s with link := { s.link with
        transmitter := .free, answer := if isAnswer then none else s.link.answer } }
      obtain ⟨l1, l2, l3⟩ := laws_serviceOrders (startNext { s with link := { s.link with
        transmitter := .free, answer := if isAnswer then none else s.link.answer } })
      refine ⟨fun h => l1 (w.keeps.line h), fun h => l2 (w.queue h), fun h => l3 (w.tags h), fun h => ?_⟩
      refine (link_serviceOrders _ true true ?_).whole
      have hr' : isAnswer = true → s.link.resetDue = false := by simpa using hr
      refine ⟨by simpa using h.framing, by simpa using h.overruns, by simpa using h.buffer,
        by simpa using h.buffered, fun c => (by cases c), by simpa using h.gap, ?_, ?_, ?_⟩
      · intro bs e
        rcases startNext_cases { s with link := { s.link with
          transmitter := .free, answer := if isAnswer then none else s.link.answer } } with
          k | ⟨_, f, ha, k⟩ | ⟨_, _, _, n, k⟩
        · rw [k] at e; cases e
        · rw [k]; dsimp only at ha ⊢; rw [ha]; rfl
        · rw [k] at e; cases e
      · intro a
        rcases startNext_cases { s with link := { s.link with
          transmitter := .free, answer := if isAnswer then none else s.link.answer } } with
          k | ⟨_, f, ha, k⟩ | ⟨_, _, _, n, k⟩
        · intro _
          simp only [startNext_answer] at a
          obtain ⟨f, hf⟩ := Option.isSome_iff_exists.mp a
          have := congrArg (fun x : State => x.link.transmitter) k
          simp [startNext, hf] at this
        · rw [k]; simp
        · rw [k]; simp
      · intro c
        simp only [startNext_resetDue, startNext_answer] at c ⊢
        cases isAnswer with
        | true => rw [hr' rfl] at c; cases c
        | false => exact h.reset c

/-! ### The millisecond -/

theorem laws_millisecond (s : State) : (LineLaw s → LineLaw (millisecond s))
    ∧ (QueueLaw s.queue → QueueLaw (millisecond s).queue) ∧ (TagLaw s → TagLaw (millisecond s))
    ∧ (LinkLaw s.link → LinkLaw (millisecond s).link) := by
  unfold millisecond
  split
  · exact ⟨id, id, id, id⟩
  · have w := (work_startNext s).keeps
    exact ⟨w.line, w.queue, w.tags, fun h => (w.link true true (h.upTo _ _)).whole⟩

end Sys2Proof.Machine
end

