-- ==== Sys2Proof/Laws/Registers.lean ====
section
/-! SUPPORT. Reading a register of a block after it or another has been written. -/

namespace Sys2Proof.Machine

section

variable (s : State)

@[simp] theorem diverter_setDiverter (d : Station) (f : Diverter → Diverter) :
    (setDiverter d f s).diverter d = f (s.diverter d) := by
  simp [State.diverter, setDiverter]

theorem diverter_setDiverter_ne {d d' : Station} (h : d' ≠ d) (f : Diverter → Diverter) :
    (setDiverter d f s).diverter d' = s.diverter d' := by
  have hv : (d : Nat) ≠ d' := fun c => h (Fin.ext c.symm)
  simp [State.diverter, setDiverter, hv]

@[simp] theorem monitor_setMonitor (d : Station) (f : Monitor → Monitor) :
    (setMonitor d f s).monitor d = f (s.monitor d) := by
  simp [State.monitor, setMonitor]

theorem monitor_setMonitor_ne {d d' : Station} (h : d' ≠ d) (f : Monitor → Monitor) :
    (setMonitor d f s).monitor d' = s.monitor d' := by
  have hv : (d : Nat) ≠ d' := fun c => h (Fin.ext c.symm)
  simp [State.monitor, setMonitor, hv]

@[simp] theorem destination_setDestination (d : Station) (f : DestRecord → DestRecord) :
    (setDestination d f s).destination d = f (s.destination d) := by
  simp [State.destination, setDestination]

theorem destination_setDestination_ne {d d' : Station} (h : d' ≠ d) (f : DestRecord → DestRecord) :
    (setDestination d f s).destination d' = s.destination d' := by
  have hv : (d : Nat) ≠ d' := fun c => h (Fin.ext c.symm)
  simp [State.destination, setDestination, hv]

@[simp] theorem waits_setWaiting (d : Station) (b : Bool) : (setWaiting d b s).waits d = b := by
  simp [State.waits, setWaiting]

theorem waits_setWaiting_ne {d d' : Station} (h : d' ≠ d) (b : Bool) :
    (setWaiting d b s).waits d' = s.waits d' := by
  have hv : (d : Nat) ≠ d' := fun c => h (Fin.ext c.symm)
  simp [State.waits, setWaiting, hv]

@[simp] theorem waits_setDiverter (d d' : Station) (f : Diverter → Diverter) :
    (setDiverter d f s).waits d' = s.waits d' := rfl

@[simp] theorem diverter_setWaiting (d d' : Station) (b : Bool) : (setWaiting d b s).diverter d' = s.diverter d' := rfl

@[simp] theorem waits_takeSlot (d : Station) : (takeSlot s).waits d = s.waits d := rfl

@[simp] theorem diverter_takeSlot (d : Station) : (takeSlot s).diverter d = s.diverter d := rfl

@[simp] theorem waits_freeSlot (d : Station) : (freeSlot s).waits d = s.waits d := rfl

@[simp] theorem diverter_freeSlot (d : Station) : (freeSlot s).diverter d = s.diverter d := rfl

/-- One diverter changed: the number of ENERGISED diverters changes by that one (R64). -/
theorem energisedCount_setDiverter (d : Station) (f : Diverter → Diverter) :
    (setDiverter d f s).energisedCount + (if (s.diverter d).state = .energised then 1 else 0)
      = s.energisedCount + (if (f (s.diverter d)).state = .energised then 1 else 0) := by
  have hd : (d : Nat) < s.diverters.toList.length := by simp
  have get : s.diverters.toList[(d : Nat)] = s.diverter d := by simp [State.diverter]
  have e : (setDiverter d f s).diverters.toList = s.diverters.toList.set d (f (s.diverter d)) := by
    simp [setDiverter, State.diverter, Vector.toList_set]
  unfold State.energisedCount
  rw [e, List.countP_set hd, get]
  have le : (if (s.diverter d).state = .energised then 1 else 0) ≤
      s.diverters.toList.countP (fun v => v.state == .energised) := by
    split
    · rename_i h
      exact List.countP_pos_iff.mpr ⟨s.diverter d, by rw [← get]; exact List.getElem_mem _, by simp [h]⟩
    · exact Nat.zero_le _
  simp only [beq_iff_eq] at *
  omega

end

end Sys2Proof.Machine
end

