-- ==== Sys2Proof/Laws/Drive.lean ====
section
/-! SUPPORT. The diverters and the arbiter: which operations leave them alone, and each operation on them keeps their law
(R62 to R85). -/

namespace Sys2Proof.Machine

/-! ### Operations that leave the diverters and the arbiter alone -/

/-- Diverters, arbiter and active configuration are as they were. -/
structure SameDrives (s t : State) : Prop where
  diverters : t.diverters = s.diverters
  arbiter : t.arbiter = s.arbiter
  config : t.config = s.config

namespace SameDrives

theorem refl (s : State) : SameDrives s s := ⟨rfl, rfl, rfl⟩

theorem trans {s t u : State} (h : SameDrives s t) (k : SameDrives t u) : SameDrives s u :=
  ⟨k.diverters.trans h.diverters, k.arbiter.trans h.arbiter, k.config.trans h.config⟩

theorem foldl {α : Type} (f : State → α → State) (h : ∀ s a, SameDrives s (f s a)) (l : List α) (s : State) :
    SameDrives s (l.foldl f s) := by
  induction l generalizing s with
  | nil => exact refl s
  | cons a l ih => exact (h s a).trans (ih (f s a))

theorem diverter {s t : State} (h : SameDrives s t) (d : Station) : t.diverter d = s.diverter d := by
  unfold State.diverter
  rw [h.diverters]

theorem waits {s t : State} (h : SameDrives s t) (d : Station) : t.waits d = s.waits d := by
  unfold State.waits
  rw [h.arbiter]

theorem energisedCount {s t : State} (h : SameDrives s t) : t.energisedCount = s.energisedCount := by
  unfold State.energisedCount
  rw [h.diverters]

theorem record {s t : State} (h : SameDrives s t) (d : Station) : t.record d = s.record d := by
  unfold State.record
  rw [h.config]

theorem slotFree {s t : State} (h : SameDrives s t) : t.slotFree = s.slotFree := by
  unfold State.slotFree
  rw [h.arbiter]

end SameDrives

section

variable (s : State)

theorem same_setEntry (tag : Tag) (f : Entry → Entry) : SameDrives s (setEntry tag f s) := ⟨rfl, rfl, rfl⟩

theorem same_setMonitor (d : Station) (f : Monitor → Monitor) : SameDrives s (setMonitor d f s) := ⟨rfl, rfl, rfl⟩

theorem same_setDestination (d : Station) (f : DestRecord → DestRecord) : SameDrives s (setDestination d f s) :=
  ⟨rfl, rfl, rfl⟩

theorem same_insertWatch (p : Position) (k : WatchKind) : SameDrives s (insertWatch p k s) := ⟨rfl, rfl, rfl⟩

theorem same_removeWatch (tag : Tag) : SameDrives s (removeWatch tag s) := ⟨rfl, rfl, rfl⟩

theorem same_removeEntry (tag : Tag) : SameDrives s (removeEntry tag s) := ⟨rfl, rfl, rfl⟩

theorem same_submit (b : NoticeBody) : SameDrives s (submit b s) := ⟨by simp, by simp, by simp⟩

theorem same_startNext : SameDrives s (startNext s) := ⟨by simp, by simp, by simp⟩

theorem same_changeCauses (d : Station) (f : Causes → Causes) : SameDrives s (changeCauses d f s) := by
  unfold changeCauses
  split
  · exact .refl s
  · exact .trans (same_setDestination s d _) (same_submit _ _)

theorem same_returnUnit (tag : Tag) : SameDrives s (returnUnit tag s) := by
  unfold returnUnit
  split
  · exact ⟨rfl, rfl, rfl⟩
  · exact .refl s

theorem same_terminalCount (d : Station) : SameDrives s (terminalCount d s) := by
  unfold terminalCount endBatch
  dsimp only
  split
  · split
    · exact .trans (same_submit s _) (same_setDestination _ d _)
    · exact .trans (same_submit s _) (same_changeCauses _ d _)
  · exact .refl s

theorem same_consumeUnit (d : Station) : SameDrives s (consumeUnit d s) :=
  .trans (same_setDestination s d _) (same_terminalCount _ d)

theorem same_runoffRemoval (e : Entry) : SameDrives s (runoffRemoval e s) := by
  unfold runoffRemoval
  dsimp only
  refine ⟨?_, ?_, ?_⟩ <;> split <;> simp

theorem same_deliverRunoff (tag : Tag) : SameDrives s (deliverRunoff tag s) := by
  unfold deliverRunoff
  split
  · exact same_runoffRemoval s _
  · exact .refl s

theorem same_placeRunoff (tag : Tag) : SameDrives s (placeRunoff tag s) := by
  unfold placeRunoff
  split
  · split
    · exact same_deliverRunoff s tag
    · exact same_insertWatch s _ _
  · exact .refl s

theorem same_sendToRunoff (tag : Tag) (r : Reason) : SameDrives s (sendToRunoff tag r s) := by
  unfold sendToRunoff
  refine .trans ?_ (same_placeRunoff _ tag)
  exact ⟨rfl, rfl, rfl⟩

theorem same_giveBackToBelt (tag : Tag) (r : Reason) : SameDrives s (giveBackToBelt tag r s) :=
  .trans (same_returnUnit s tag) (same_sendToRunoff _ tag r)

theorem same_joinConfirmList (d : Station) (tag : Tag) : SameDrives s (joinConfirmList d tag s) := ⟨rfl, rfl, rfl⟩

theorem same_truncatePush (d : Station) (tag : Tag) : SameDrives s (truncatePush d tag s) := ⟨rfl, rfl, rfl⟩

theorem same_completeEntry (d : Station) (tag : Tag) (r : OutcomeResult) : SameDrives s (completeEntry d tag r s) := by
  unfold completeEntry
  dsimp only
  refine .trans ?_ (same_setMonitor _ d _)
  split
  · refine .trans ?_ (same_consumeUnit _ d)
    refine .trans ?_ (same_submit _ _)
    exact ⟨rfl, rfl, rfl⟩
  · exact same_setMonitor s d _

theorem same_completeDue (d : Station) (l : List Tag) : SameDrives s (completeDue d l s) := by
  induction l generalizing s with
  | nil => exact .refl s
  | cons tag rest ih =>
    unfold completeDue
    split
    · exact .trans (same_completeEntry s d tag _) (ih _)
    · exact .refl s

theorem same_deadlineExpiry (d : Station) : SameDrives s (deadlineExpiry d s) := by
  unfold deadlineExpiry
  split
  · exact .trans (same_completeEntry s d _ _) (same_completeDue _ d _)
  · exact .refl s

theorem same_matchEdge (d : Station) : SameDrives s (matchEdge d s) := by
  unfold matchEdge
  split
  · split
    · exact same_completeEntry s d _ _
    · exact same_submit s _
  · split
    · split
      · exact same_submit s _
      · exact .refl s
    · exact .refl s

theorem same_chuteBlocked (d : Station) : SameDrives s (chuteBlocked d s) := by
  unfold chuteBlocked
  split
  · exact .refl s
  · split <;> first | exact same_setMonitor s d _ | exact .refl s

theorem same_chuteCleared (d : Station) : SameDrives s (chuteCleared d s) := by
  unfold chuteCleared
  split
  · exact .refl s
  · split <;> first | exact same_setMonitor s d _ | exact .refl s

theorem same_chuteExpiry (d : Station) : SameDrives s (chuteExpiry d s) := by
  unfold chuteExpiry
  split
  · refine .trans ?_ (same_changeCauses _ d _)
    refine .trans ?_ (same_submit _ _)
    exact same_setMonitor s d _
  · refine .trans ?_ (same_changeCauses _ d _)
    refine .trans ?_ (same_submit _ _)
    exact same_setMonitor s d _
  · exact .refl s
  · exact .refl s

theorem same_markPushing (tags : List Tag) : SameDrives s (markPushing tags s) := by
  unfold markPushing
  exact SameDrives.foldl _ (fun t tag => same_setEntry t tag _) tags s

theorem same_closeToItem (tag : Tag) : SameDrives s (closeToItem tag s) := by
  unfold closeToItem
  refine .trans ?_ (same_placeRunoff _ tag)
  exact same_setEntry s tag _

theorem same_evaluateHold : SameDrives s (evaluateHold s) := ⟨rfl, rfl, rfl⟩

theorem same_setInduction (u : InductionUnit) : SameDrives s { s with induction := u } := ⟨rfl, rfl, rfl⟩

theorem same_admitItem (lead : Position) (length : Nat) (flags : EntryFlags) :
    SameDrives s (admitItem lead length flags s) := by
  unfold admitItem
  dsimp only
  refine .trans ?_ (same_evaluateHold _)
  refine .trans ?_ (same_submit _ _)
  refine .trans ?_ (same_placeRunoff _ _)
  exact ⟨rfl, rfl, rfl⟩

theorem same_offerInterval (lead : Position) (length : Nat) (refused overlength : Bool) :
    SameDrives s (offerInterval lead length refused overlength s) := by
  unfold offerInterval
  dsimp only
  refine .trans ?_ (same_setInduction _ _)
  split
  · exact same_submit s _
  · split
    · exact same_submit s _
    · exact same_admitItem s _ _ _

theorem same_deliverLengthLimit : SameDrives s (deliverLengthLimit s) := by
  unfold deliverLengthLimit
  split
  · refine .trans ?_ (same_offerInterval _ _ _ _ _)
    exact ⟨rfl, rfl, rfl⟩
  · exact .refl s
  · exact .refl s

theorem same_entryLeadingEdge : SameDrives s (entryLeadingEdge s) := by
  unfold entryLeadingEdge
  dsimp only
  split
  · exact .refl s
  · split <;> exact ⟨rfl, rfl, rfl⟩

theorem same_entryTrailingEdge : SameDrives s (entryTrailingEdge s) := by
  unfold entryTrailingEdge closeMeasurement
  dsimp only
  split
  · exact .refl s
  · split
    · split
      · split
        · exact ⟨rfl, rfl, rfl⟩
        · split
          · exact ⟨rfl, rfl, rfl⟩
          · refine .trans ?_ (same_offerInterval _ _ _ _ _)
            exact ⟨rfl, rfl, rfl⟩
      · exact ⟨rfl, rfl, rfl⟩
      · exact ⟨rfl, rfl, rfl⟩
    · exact ⟨rfl, rfl, rfl⟩

theorem same_exitLeadingEdge : SameDrives s (exitLeadingEdge s) := by
  unfold exitLeadingEdge
  split
  · split
    · exact same_setEntry s _ _
    · exact same_submit s _
  · exact .refl s

end

/-! ### The law with one diverter left open -/

/-- Slots a diverter holds. -/
def slotsHeld (v : Diverter) : Nat := if v.state = .energised then 1 else 0

/-- The law of every diverter but one, with `k` slots held for that one. -/
structure DriveBut (d : Station) (k : Nat) (s : State) : Prop where
  others : ∀ d', d' ≠ d → DiverterLaw (s.diverter d') (s.waits d')
  slots : s.arbiter.slotsInUse + slotsHeld (s.diverter d) = s.energisedCount + k
  budget : s.arbiter.slotsInUse ≤ s.arbiter.budget

theorem slotsHeld_le (v : Diverter) : slotsHeld v ≤ 1 := by
  unfold slotsHeld
  split <;> omega

/-- One diverter changed: the number of ENERGISED diverters changes by that one (R64). -/
theorem slotsHeld_setDiverter (s : State) (d : Station) (f : Diverter → Diverter) :
    (setDiverter d f s).energisedCount + slotsHeld (s.diverter d)
      = s.energisedCount + slotsHeld (f (s.diverter d)) :=
  energisedCount_setDiverter s d f

theorem slotsHeld_le_energisedCount (s : State) (d : Station) : slotsHeld (s.diverter d) ≤ s.energisedCount := by
  have c := slotsHeld_setDiverter s d (fun v => { v with state := .off })
  rw [show slotsHeld ((fun v : Diverter => { v with state := .off }) (s.diverter d)) = 0 from rfl] at c
  omega

theorem DriveLaw.opened {s : State} (h : DriveLaw s) (d : Station) : DriveBut d (slotsHeld (s.diverter d)) s :=
  ⟨fun d' _ => h.1 d', by rw [h.2.1], h.2.2⟩

namespace DriveBut

variable {d : Station} {k : Nat} {s t : State}

theorem close (h : DriveBut d k s) (law : DiverterLaw (s.diverter d) (s.waits d))
    (hk : k = slotsHeld (s.diverter d)) : DriveLaw s := by
  refine ⟨fun d' => ?_, ?_, h.budget⟩
  · by_cases e : d' = d
    · rw [e]; exact law
    · exact h.others d' e
  · have := h.slots
    omega

theorem setDiverter (h : DriveBut d k s) (f : Diverter → Diverter) : DriveBut d k (setDiverter d f s) := by
  refine ⟨fun d' e => ?_, ?_, h.budget⟩
  · rw [diverter_setDiverter_ne s e]
    exact h.others d' e
  · have c := slotsHeld_setDiverter s d f
    have := h.slots
    simp only [diverter_setDiverter, setDiverter_arbiter]
    omega

theorem setWaiting (h : DriveBut d k s) (b : Bool) : DriveBut d k (setWaiting d b s) := by
  refine ⟨fun d' e => ?_, h.slots, h.budget⟩
  rw [waits_setWaiting_ne s e]
  exact h.others d' e

theorem takeSlot (h : DriveBut d k s) (free : s.slotFree = true) : DriveBut d (k + 1) (takeSlot s) := by
  have slots := h.slots
  refine ⟨h.others, ?_, ?_⟩
  · show s.arbiter.slotsInUse + 1 + slotsHeld (s.diverter d) = s.energisedCount + (k + 1)
    omega
  · simpa [State.slotFree] using free

theorem freeSlot (h : DriveBut d 1 s) : DriveBut d 0 (freeSlot s) := by
  have slots := h.slots
  have one := slotsHeld_le_energisedCount s d
  have budget := h.budget
  refine ⟨h.others, ?_, ?_⟩
  · show s.arbiter.slotsInUse - 1 + slotsHeld (s.diverter d) = s.energisedCount + 0
    omega
  · show s.arbiter.slotsInUse - 1 ≤ s.arbiter.budget
    omega

theorem same (h : DriveBut d k s) (e : SameDrives s t) : DriveBut d k t := by
  refine ⟨fun d' hd => ?_, ?_, ?_⟩
  · rw [e.diverter, e.waits]
    exact h.others d' hd
  · rw [e.diverter, e.energisedCount, e.arbiter]
    exact h.slots
  · rw [e.arbiter]
    exact h.budget

end DriveBut

theorem DriveLaw.same {s t : State} (h : DriveLaw s) (e : SameDrives s t) : DriveLaw t := by
  refine ⟨fun d => ?_, ?_, ?_⟩
  · rw [e.diverter, e.waits]
    exact h.1 d
  · rw [e.energisedCount, e.arbiter]
    exact h.2.1
  · rw [e.arbiter]
    exact h.2.2

/-! ### Release and recovery (R72, R73, R76) -/

theorem drive_endRecovery {s : State} {d : Station} (h : DriveLaw s) (hr : (s.diverter d).state = .recovery) :
    DriveLaw (endRecovery d s) := by
  have law := h.1 d
  have o := h.opened d
  unfold endRecovery
  split
  · rename_i hp
    refine (o.setDiverter _).close ?_ (by simp [slotsHeld, hr])
    obtain ⟨a1, a2, a3, a4, a5, a6, a7, a8, a9, a10, a11, a12, a13⟩ := law
    constructor <;> simp_all
  · rename_i hp
    refine ((o.setDiverter _).setWaiting true).close ?_ (by simp [slotsHeld, hr])
    obtain ⟨a1, a2, a3, a4, a5, a6, a7, a8, a9, a10, a11, a12, a13⟩ := law
    constructor <;> simp_all

/-- The release of a diverter with an empty push list (R73). -/
theorem drive_releaseDiverter {s : State} {d : Station} (h : DriveBut d 1 s)
    (push : (s.diverter d).push = []) (enabled : (s.diverter d).disabled = false)
    (room : (s.diverter d).pending.length ≤ Config.listCapacity) (waits : s.waits d = false) :
    DriveLaw (releaseDiverter d s) := by
  unfold releaseDiverter endRecovery
  dsimp only
  split
  · split
    · rename_i hp
      refine ((h.setDiverter _).freeSlot.setDiverter _).close ?_ (by simp [slotsHeld])
      simp only [diverter_freeSlot, diverter_setDiverter] at hp
      constructor <;> simp_all [Config.listCapacity]
    · rename_i hp
      refine (((h.setDiverter _).freeSlot.setDiverter _).setWaiting true).close ?_ (by simp [slotsHeld])
      simp only [diverter_freeSlot, diverter_setDiverter] at hp
      constructor <;> simp_all [Config.listCapacity]
  · refine ((h.setDiverter _).freeSlot.setDiverter _).close ?_ (by simp [slotsHeld])
    constructor <;> simp_all [Config.listCapacity, timerFor]

theorem drive_deliverRelease {s : State} (h : DriveLaw s) (d : Station) (tag : Tag) :
    DriveLaw (deliverRelease d tag s) := by
  unfold deliverRelease
  split
  · rename_i hm
    have law := h.1 d
    have ne : (s.diverter d).push ≠ [] := fun c => by rw [c] at hm; cases hm
    obtain ⟨en, tp⟩ := law.pushing ne
    have o : DriveBut d 1 s := by
      have := h.opened d
      rwa [slotsHeld, if_pos en] at this
    have w : s.waits d = false := by
      have := law.waiting
      rw [en] at this
      simpa using this
    have dis : (s.diverter d).disabled = false := by
      have := law.disabled
      rw [en] at this
      simpa using this
    have o' := ((o.setDiverter (fun v => { v with push := v.push.filter (fun t => t != tag) })).same
      (same_joinConfirmList _ d tag))
    have val : ∀ g, (joinConfirmList d tag (setDiverter d g s)).diverter d = g (s.diverter d) := fun g =>
      ((same_joinConfirmList _ d tag).diverter d).trans (diverter_setDiverter s d g)
    have wt : ∀ g, (joinConfirmList d tag (setDiverter d g s)).waits d = s.waits d := fun g =>
      (same_joinConfirmList (setDiverter d g s) d tag).waits d
    dsimp only
    split
    · rename_i hp
      refine drive_releaseDiverter o' hp ?_ ?_ ?_
      · rw [val]; exact dis
      · rw [val]; exact law.pendingRoom
      · rw [wt]; exact w
    · rename_i hp
      refine o'.close ?_ ?_
      · rw [val, wt]
        rw [val] at hp
        obtain ⟨a1, a2, a3, a4, a5, a6, a7, a8, a9, a10, a11, a12, a13⟩ := law
        have lf := List.length_filter_le (fun t => t != tag) (s.diverter d).push
        constructor <;> simp_all [Config.listCapacity]
        omega
      · rw [val]; simp [slotsHeld, en]
  · exact h

theorem drive_placeRelease {s : State} (h : DriveLaw s) (d : Station) (tag : Tag) :
    DriveLaw (placeRelease d tag s) := by
  unfold placeRelease
  split
  · split
    · exact drive_deliverRelease h d tag
    · exact h.same (same_insertWatch s _ _)
  · exact h

end Sys2Proof.Machine
end

