-- ==== Sys2Proof/Laws/Notices.lean ====
section
/-! SUPPORT. What an event's notices leave in the report queue: one submission, several in turn, and the frame of a
submission (R155, R158). -/

namespace Sys2Proof.Machine

variable {s t u : State} {a b l : List NoticeBody}

/-! ### Admission looks at numbers and drops alone -/

/-- What an admission leaves: the pointers, the window and the retry timer stand, and the held notices stay in place. -/
theorem offer_frame (q : ReportQueue) (x : NoticeBody) (ts : TimeStamp) (p : Position) :
    q.offer x ts p =
      { q with notices := (q.offer x ts p).notices, next := (q.offer x ts p).next, drops := (q.offer x ts p).drops } := by
  unfold ReportQueue.offer
  generalize (if x.kept = true then Config.queueCapacity else Config.ordinaryCapacity) = room
  split <;> rfl

theorem offer_head (q : ReportQueue) (x : NoticeBody) (ts : TimeStamp) (p : Position) :
    (q.offer x ts p).head = q.head := by
  rw [offer_frame]

theorem offer_sendPointer (q : ReportQueue) (x : NoticeBody) (ts : TimeStamp) (p : Position) :
    (q.offer x ts p).sendPointer = q.sendPointer := by
  rw [offer_frame]

theorem offer_highestSent (q : ReportQueue) (x : NoticeBody) (ts : TimeStamp) (p : Position) :
    (q.offer x ts p).highestSent = q.highestSent := by
  rw [offer_frame]

theorem offer_window (q : ReportQueue) (x : NoticeBody) (ts : TimeStamp) (p : Position) :
    (q.offer x ts p).window = q.window := by
  rw [offer_frame]

theorem offer_retryTime (q : ReportQueue) (x : NoticeBody) (ts : TimeStamp) (p : Position) :
    (q.offer x ts p).retryTime = q.retryTime := by
  rw [offer_frame]

theorem offer_retryTimer (q : ReportQueue) (x : NoticeBody) (ts : TimeStamp) (p : Position) :
    (q.offer x ts p).retryTimer = q.retryTimer := by
  rw [offer_frame]

theorem offer_notices (q : ReportQueue) (x : NoticeBody) (ts : TimeStamp) (p : Position) :
    ∃ more, (q.offer x ts p).notices = q.notices ++ more := by
  unfold ReportQueue.offer
  generalize (if x.kept = true then Config.queueCapacity else Config.ordinaryCapacity) = room
  split
  · exact ⟨_, rfl⟩
  · exact ⟨[], (List.append_nil _).symm⟩

theorem afterNotices_frame (l : List NoticeBody) (q : ReportQueue) (ts : TimeStamp) (p : Position) :
    q.afterNotices l ts p =
      { q with
        notices := (q.afterNotices l ts p).notices, next := (q.afterNotices l ts p).next,
        drops := (q.afterNotices l ts p).drops } := by
  induction l generalizing q with
  | nil => rfl
  | cons x l ih =>
    refine (ih (q.offer x ts p)).trans ?_
    rw [offer_head, offer_sendPointer, offer_highestSent, offer_window, offer_retryTime, offer_retryTimer]
    rfl

theorem afterNotices_notices (l : List NoticeBody) (q : ReportQueue) (ts : TimeStamp) (p : Position) :
    ∃ more, (q.afterNotices l ts p).notices = q.notices ++ more := by
  induction l generalizing q with
  | nil => exact ⟨[], (List.append_nil _).symm⟩
  | cons x l ih =>
    obtain ⟨a, ha⟩ := offer_notices q x ts p
    obtain ⟨b, hb⟩ := ih (q.offer x ts p)
    exact ⟨a ++ b, hb.trans (by rw [ha, List.append_assoc])⟩

theorem afterNotices_append (a b : List NoticeBody) (q : ReportQueue) (ts : TimeStamp) (p : Position) :
    q.afterNotices (a ++ b) ts p = (q.afterNotices a ts p).afterNotices b ts p :=
  List.foldl_append

/-- The pointers and the retry timer have no say in admission. -/
theorem afterNotices_pointers (l : List NoticeBody) (q : ReportQueue) (ts : TimeStamp) (p : Position) (a b : Half)
    (r : Timer) :
    ({ q with sendPointer := a, highestSent := b, retryTimer := r } : ReportQueue).afterNotices l ts p =
      { q.afterNotices l ts p with sendPointer := a, highestSent := b, retryTimer := r } := by
  induction l generalizing q with
  | nil => rfl
  | cons x l ih =>
    have e : ({ q with sendPointer := a, highestSent := b, retryTimer := r } : ReportQueue).offer x ts p =
        { q.offer x ts p with sendPointer := a, highestSent := b, retryTimer := r } := by
      unfold ReportQueue.offer ReportQueue.occupancy ReportQueue.distance
      generalize (if x.kept = true then Config.queueCapacity else Config.ordinaryCapacity) = room
      split <;> rfl
    show (ReportQueue.offer x ts p _).afterNotices l ts p = _
    rw [e, ih]
    rfl

/-- Recording a notice as sent looks at the pointers, the head and the retry time alone. -/
theorem recordSent_congr {q r : ReportQueue} (h1 : q.sendPointer = r.sendPointer) (h2 : q.highestSent = r.highestSent)
    (h3 : q.retryTimer = r.retryTimer) (h4 : q.head = r.head) (h5 : q.retryTime = r.retryTime) (ts : TimeStamp) :
    (q.recordSent ts).sendPointer = (r.recordSent ts).sendPointer
      ∧ (q.recordSent ts).highestSent = (r.recordSent ts).highestSent
      ∧ (q.recordSent ts).retryTimer = (r.recordSent ts).retryTimer := by
  unfold ReportQueue.recordSent ReportQueue.inFlight ReportQueue.distance
  rw [h1, h2, h3, h4, h5]
  split <;> exact ⟨rfl, rfl, rfl⟩

/-- Recording a notice as sent changes the pointers and the retry timer alone. -/
theorem recordSent_frame (q : ReportQueue) (ts : TimeStamp) :
    q.recordSent ts =
      { q with
        sendPointer := (q.recordSent ts).sendPointer, highestSent := (q.recordSent ts).highestSent,
        retryTimer := (q.recordSent ts).retryTimer } := by
  unfold ReportQueue.recordSent
  split <;> rfl

/-! ### Submissions -/

/-- An event that leaves the queue, and a transmitter that is not free, submitted nothing. -/
theorem submitted_nil (h : t.queue = s.queue) (b : s.link.transmitter ≠ .free → t.link.transmitter = s.link.transmitter) :
    Submitted [] s t :=
  ⟨by rw [h]; rfl, b, Or.inl (by rw [h]; exact ⟨rfl, rfl, rfl⟩)⟩

/-- Everything a submission does to the queue and the transmitter: the notice is admitted or dropped, and a free
transmitter may take the answer or the notice at the send pointer (R152, R155, R158, R159). -/
theorem submit_cases (x : NoticeBody) (s : State) :
    ((submit x s).queue = s.queue.offer x s.timeStamp s.counter.position
        ∧ (s.link.transmitter ≠ .free → (submit x s).link.transmitter = s.link.transmitter))
      ∨ (s.link.transmitter = .free
        ∧ (submit x s).queue = (s.queue.offer x s.timeStamp s.counter.position).recordSent s.timeStamp
        ∧ ∃ n, (s.queue.offer x s.timeStamp s.counter.position).notices[s.queue.distance s.queue.sendPointer]? = some n
          ∧ (submit x s).link.transmitter = .sending false n.frame.bytes) := by
  have e : (s.queue.offer x s.timeStamp s.counter.position).distance
      (s.queue.offer x s.timeStamp s.counter.position).sendPointer = s.queue.distance s.queue.sendPointer := by
    rw [offer_frame]
    rfl
  unfold submit startNext
  dsimp only
  split
  · rename_i h _
    exact Or.inl ⟨rfl, fun k => absurd h k⟩
  · rename_i h _
    split
    · split
      · rename_i n hn
        rw [e] at hn
        exact Or.inr ⟨h, rfl, n, hn, rfl⟩
      · exact Or.inl ⟨rfl, fun k => absurd h k⟩
    · exact Or.inl ⟨rfl, fun k => absurd h k⟩
  · exact Or.inl ⟨rfl, fun _ => rfl⟩

/-- One submission (R155, R158). -/
theorem submitted_submit (s : State) (x : NoticeBody) : Submitted [x] s (submit x s) := by
  have a : s.queue.afterNotices [x] s.timeStamp s.counter.position = s.queue.offer x s.timeStamp s.counter.position := rfl
  have p1 := offer_sendPointer s.queue x s.timeStamp s.counter.position
  have p2 := offer_highestSent s.queue x s.timeStamp s.counter.position
  have p3 := offer_retryTimer s.queue x s.timeStamp s.counter.position
  have p4 := offer_head s.queue x s.timeStamp s.counter.position
  have p5 := offer_retryTime s.queue x s.timeStamp s.counter.position
  rcases submit_cases x s with ⟨q, b⟩ | ⟨h, q, n, hn, l⟩
  · refine ⟨?_, b, Or.inl ?_⟩
    · rw [submit_timeStamp, submit_counter, a, q]
    · rw [q]
      exact ⟨p1, p2, p3⟩
  · obtain ⟨c1, c2, c3⟩ := recordSent_congr p1 p2 p3 p4 p5 s.timeStamp
    refine ⟨?_, fun k => absurd h k, Or.inr ⟨List.cons_ne_nil _ _, h, ?_⟩⟩
    · rw [submit_timeStamp, submit_counter, a, q]
      exact recordSent_frame _ _
    · rw [q, submit_timeStamp, c1, c2, c3, recordSent_notices]
      exact ⟨rfl, rfl, rfl, n, hn, l⟩

/-- Submissions one after another, at one time and one position. -/
theorem Submitted.trans (h : Submitted a s t) (k : Submitted b t u) (e1 : u.timeStamp = t.timeStamp)
    (e2 : u.counter.position = t.counter.position) : Submitted (a ++ b) s u := by
  have hq := h.queue
  have kq := k.queue
  rw [← e1, ← e2] at hq
  have f := afterNotices_frame a s.queue u.timeStamp u.counter.position
  have head : t.queue.head = s.queue.head := by rw [hq, f]
  have retry : t.queue.retryTime = s.queue.retryTime := by rw [hq, f]
  refine ⟨?_, ?_, ?_⟩
  · rw [afterNotices_append]
    refine kq.trans ?_
    conv_lhs => rw [hq]
    rw [afterNotices_pointers]
  · intro n
    have e := h.busy n
    exact (k.busy (by rw [e]; exact n)).trans e
  · rcases k.sent with ⟨k1, k2, k3⟩ | ⟨kb, kf, k1, k2, k3, n, kn, kl⟩
    · rw [k1, k2, k3]
      rcases h.sent with hs | ⟨ha, hf, h1, h2, h3, n, hn, hl⟩
      · exact Or.inl hs
      · refine Or.inr ⟨by simp [ha], hf, e1 ▸ h1, e1 ▸ h2, e1 ▸ h3, n, ?_, ?_⟩
        · obtain ⟨more, hm⟩ := afterNotices_notices b t.queue u.timeStamp u.counter.position
          have : u.queue.notices = t.queue.notices ++ more := by rw [kq]; exact hm
          rw [this, List.getElem?_append_left (List.getElem?_eq_some_iff.mp hn).1]
          exact hn
        · rw [k.busy (by rw [hl]; exact Transmitter.noConfusion), hl]
    · rcases h.sent with ⟨h1, h2, h3⟩ | ⟨_, _, _, _, _, m, _, hl⟩
      · obtain ⟨c1, c2, c3⟩ := recordSent_congr h1 h2 h3 head retry u.timeStamp
        refine Or.inr ⟨by simp [kb], ?_, c1 ▸ k1, c2 ▸ k2, c3 ▸ k3, n, ?_, kl⟩
        · by_contra c
          exact c ((h.busy c).symm.trans kf)
        · unfold ReportQueue.distance at kn ⊢
          rw [← h1, ← head]
          exact kn
      · rw [hl] at kf
        exact Transmitter.noConfusion kf

/-- What happens to the rest of the state changes no submission. -/
theorem Submitted.congr (h : Submitted l s t) (e : u.queue = t.queue) (e1 : u.timeStamp = t.timeStamp)
    (e2 : u.counter.position = t.counter.position) (e3 : u.link.transmitter = t.link.transmitter) : Submitted l s u := by
  obtain ⟨a, b, c⟩ := h
  exact ⟨by rw [e, e1, e2]; exact a, by rw [e3]; exact b, by rw [e, e1, e3]; exact c⟩

theorem Submitted.of_queue {r : State} (h : Submitted l s t) (e : s.queue = r.queue)
    (e1 : s.link.transmitter = r.link.transmitter) : Submitted l r t := by
  obtain ⟨a, b, c⟩ := h
  exact ⟨by rw [← e]; exact a, by rw [← e1]; exact b, by rw [← e, ← e1]; exact c⟩

/-- The answer of an order submits nothing, and waits for a transmitter that is not free (R151, R152). -/
theorem Submitted.answered (h : Submitted l s u) (c : UnchangedBut answerParts u t)
    (b : u.link.transmitter ≠ .free → t.link.transmitter = u.link.transmitter) : Submitted l s t := by
  have q : t.queue = u.queue := c .queue (by simp [answerParts])
  have e1 : t.timeStamp = u.timeStamp := c .timeStamp (by simp [answerParts])
  have e2 : t.counter = u.counter := c .counter (by simp [answerParts])
  refine ⟨?_, ?_, ?_⟩
  · rw [q, e1, e2]
    exact h.queue
  · intro n
    have e := h.busy n
    exact (b (by rw [e]; exact n)).trans e
  · rw [q, e1]
    rcases h.sent with hs | ⟨x, f, h1, h2, h3, n, hn, hl⟩
    · exact Or.inl hs
    · refine Or.inr ⟨x, f, h1, h2, h3, n, hn, ?_⟩
      rw [b (by rw [hl]; exact Transmitter.noConfusion), hl]

/-- A submission changes the queue and, when it is free, the transmitter. -/
theorem frame_submit (x : NoticeBody) (s : State) : UnchangedBut noticeParts s (submit x s) := by
  intro p hp
  cases p <;> simp_all [Part.same, noticeParts]

end Sys2Proof.Machine
end

