-- ==== Sys2Proof/Laws/Grants.lean ====
section
/-! SUPPORT. The arbiter's grants, hand-over, the late and release watches and the diverters' timers keep the law of the
diverters and the arbiter (R62 to R76), and no slot is left free beside a waiting diverter (R65). -/

namespace Sys2Proof.Machine

variable {s : State} {d : Station}

/-! ### Energising -/

/-- What an energised diverter looks like (R69). -/
theorem diverter_energise (s : State) (d : Station) :
    (energise d s).diverter d
      = { s.diverter d with state := .energised, output := true, maxOnTimer := timerFor (s.record d).maxOn s } :=
  diverter_setDiverter s d
    (fun v => { v with state := .energised, output := true, maxOnTimer := timerFor (s.record d).maxOn s })

theorem waits_energise (s : State) (d d' : Station) : (energise d s).waits d' = s.waits d' := rfl

theorem DriveBut.energise (h : DriveBut d 0 s) (free : s.slotFree = true) : DriveBut d 1 (energise d s) := by
  have e := (h.setDiverter (fun v => { v with
    state := .energised, output := true, maxOnTimer := timerFor (s.record d).maxOn s })).takeSlot free
  exact ⟨e.others, e.slots, e.budget⟩

/-- The entries' changes of a grant leave the diverters alone, and each release keeps the law. -/
theorem drive_releases (l : List Tag) (h : DriveLaw s) :
    DriveLaw (l.foldl (fun t tag => placeRelease d tag (removeWatch tag t)) s) := by
  induction l generalizing s with
  | nil => exact h
  | cons tag rest ih => exact ih (drive_placeRelease (h.same (same_removeWatch s tag)) d tag)

theorem drive_grant (h : DriveLaw s) (w : s.waits d = true) (free : s.slotFree = true) : DriveLaw (grant d s) := by
  have law := h.1 d
  have st : (s.diverter d).state = .waiting := law.waiting.mp w
  have o : DriveBut d 0 s := by
    have := h.opened d
    rwa [slotsHeld, if_neg (by simp [st])] at this
  unfold grant
  dsimp only
  apply drive_releases
  have o' := ((((o.setWaiting false).energise free).setDiverter
    (fun v => { v with push := v.push ++ (s.diverter d).pending, pending := [] })).same
      (same_markPushing _ (s.diverter d).pending))
  refine o'.close ?_ ?_
  · rw [(same_markPushing _ _).diverter, (same_markPushing _ _).waits, diverter_setDiverter, diverter_energise,
      waits_setDiverter, waits_energise, waits_setWaiting]
    have push : (s.diverter d).push = [] := by
      by_contra c
      exact absurd (law.pushing c).1 (by simp [st])
    obtain ⟨a1, a2, a3, a4, a5, a6, a7, a8, a9, a10, a11, a12, a13⟩ := law
    constructor <;> simp_all [timerFor]
  · rw [(same_markPushing _ _).diverter, diverter_setDiverter, diverter_energise]
    rfl

theorem waits_of_chosen (h : s.chosen = some d) : s.waits d = true := List.find?_some h

theorem drive_arbitrateRounds (n : Nat) (h : DriveLaw s) : DriveLaw (arbitrateRounds n s) := by
  induction n generalizing s with
  | zero => exact h
  | succ n ih =>
    unfold arbitrateRounds
    split
    · rename_i free
      split
      · rename_i d hc
        exact ih (drive_grant h (waits_of_chosen hc) free)
      · exact h
    · exact h

/-- The arbiter's examination keeps the law (R64, R65, R69). -/
theorem drive_arbitrate (h : DriveLaw s) : DriveLaw (arbitrate s) := drive_arbitrateRounds 16 h

theorem drive_grantOne (h : DriveLaw s) : DriveLaw (grantOne s) := by
  unfold grantOne
  split
  · rename_i free
    split
    · rename_i d hc
      exact drive_grant h (waits_of_chosen hc) free
    · exact h
  · exact h

/-! ### Late watches (R70) -/

theorem drive_leavePending (h : DriveLaw s) (d : Station) (tag : Tag) : DriveLaw (leavePending d tag s) := by
  have law := h.1 d
  have o := (h.opened d).setDiverter (fun v => { v with pending := v.pending.filter (fun t => t != tag) })
  have lf := List.length_filter_le (fun t => t != tag) (s.diverter d).pending
  unfold leavePending
  dsimp only
  split
  · rename_i hp
    rw [diverter_setDiverter] at hp
    refine ((o.setDiverter (fun v => { v with state := .idle })).setWaiting false).close ?_ ?_
    · simp only [diverter_setWaiting, diverter_setDiverter, waits_setWaiting]
      obtain ⟨a1, a2, a3, a4, a5, a6, a7, a8, a9, a10, a11, a12, a13⟩ := law
      have st : (s.diverter d).state = .waiting := hp.1
      have em : (s.diverter d).pending.filter (fun t => t != tag) = [] := hp.2
      rw [em]
      clear hp em lf o
      constructor <;> simp_all [Config.listCapacity]
    · have st : (s.diverter d).state = .waiting := hp.1
      simp [slotsHeld, st]
  · rename_i hp
    rw [diverter_setDiverter] at hp
    refine o.close ?_ ?_
    · simp only [diverter_setDiverter, waits_setDiverter]
      obtain ⟨a1, a2, a3, a4, a5, a6, a7, a8, a9, a10, a11, a12, a13⟩ := law
      refine ⟨a1, a2, a3, a4, a5, a6, ?_, ?_, a9, lf.trans a10, a11, a12, a13⟩
      · intro e
        simp [a7 e]
      · intro e c
        exact hp ⟨e, c⟩
    · simp [slotsHeld]

theorem drive_deliverLate (h : DriveLaw s) (d : Station) (tag : Tag) : DriveLaw (deliverLate d tag s) := by
  unfold deliverLate
  split
  · exact (drive_leavePending h d tag).same (same_giveBackToBelt _ tag _)
  · exact h

theorem drive_placeLate (h : DriveLaw s) (d : Station) (tag : Tag) : DriveLaw (placeLate d tag s) := by
  unfold placeLate
  split
  · split
    · exact drive_deliverLate h d tag
    · exact h.same (same_insertWatch s _ _)
  · exact h

/-! ### Hand-over (R67, R68) -/

theorem drive_joinPush (o : DriveBut d 1 s) (law : DiverterLaw
      { s.diverter d with push := (s.diverter d).push ++ [tag] } (s.waits d))
    (en : (s.diverter d).state = .energised) : DriveLaw (joinPush d tag s) := by
  unfold joinPush
  apply drive_placeRelease
  refine ((o.setDiverter _).same (same_setEntry _ tag _)).close ?_ ?_
  · rw [(same_setEntry _ tag _).diverter, (same_setEntry _ tag _).waits, diverter_setDiverter, waits_setDiverter]
    exact law
  · rw [(same_setEntry _ tag _).diverter, diverter_setDiverter]
    simp [slotsHeld, en]

theorem drive_joinPending {tag : Tag} (o : DriveBut d k s) (hk : k = slotsHeld (s.diverter d)) (law : DiverterLaw
      { s.diverter d with pending := (s.diverter d).pending ++ [tag] } (s.waits d)) :
    DriveLaw (joinPending d tag s) := by
  unfold joinPending
  apply drive_placeLate
  refine ((o.setDiverter _).same (same_setEntry _ tag _)).close ?_ ?_
  · rw [(same_setEntry _ tag _).diverter, (same_setEntry _ tag _).waits, diverter_setDiverter, waits_setDiverter]
    exact law
  · rw [(same_setEntry _ tag _).diverter, diverter_setDiverter]
    exact hk

theorem drive_holdOrOverflow (h : DriveLaw s) (d : Station) (tag : Tag)
    (busy : (s.diverter d).state ≠ .off ∧ (s.diverter d).state ≠ .idle) : DriveLaw (holdOrOverflow d tag s) := by
  unfold holdOrOverflow
  split
  · rename_i room
    refine drive_joinPending (h.opened d) rfl ?_
    obtain ⟨a1, a2, a3, a4, a5, a6, a7, a8, a9, a10, a11, a12, a13⟩ := h.1 d
    refine ⟨a1, a2, a3, a4, a5, a6, ?_, ?_, a9, ?_, a11, a12, a13⟩
    · intro e
      exact absurd e (by simpa using busy)
    · intro _
      simp
    · simp only [List.length_append, List.length_singleton]
      omega
  · exact h.same (same_giveBackToBelt s tag _)

theorem drive_handOver (h : DriveLaw s) (d : Station) (tag : Tag) : DriveLaw (handOver d tag s) := by
  have law := h.1 d
  unfold handOver
  split
  · rename_i st
    have o : DriveBut d 0 s := by
      have := h.opened d
      rwa [slotsHeld, if_neg (by simp [st])] at this
    split
    · rename_i free
      refine drive_joinPush (o.energise free) ?_ (by rw [diverter_energise])
      rw [diverter_energise, waits_energise]
      obtain ⟨a1, a2, a3, a4, a5, a6, a7, a8, a9, a10, a11, a12, a13⟩ := law
      have push : (s.diverter d).push = [] := by
        by_contra c
        exact absurd (a3 c).1 (by simp [st])
      constructor <;> simp_all [timerFor, Config.listCapacity]
    · refine drive_joinPending ((o.setDiverter _).setWaiting true) ?_ ?_
      · simp [slotsHeld]
      · simp only [diverter_setWaiting, diverter_setDiverter, waits_setWaiting]
        obtain ⟨a1, a2, a3, a4, a5, a6, a7, a8, a9, a10, a11, a12, a13⟩ := law
        constructor <;> simp_all [Config.listCapacity]
  · rename_i st
    split
    · rename_i hp
      have o : DriveBut d 1 s := by
        have := h.opened d
        rwa [slotsHeld, if_pos st] at this
      refine drive_joinPush o ?_ st
      obtain ⟨a1, a2, a3, a4, a5, a6, a7, a8, a9, a10, a11, a12, a13⟩ := law
      simp only [Bool.and_eq_true, Bool.not_eq_true', decide_eq_true_eq] at hp
      constructor <;> simp_all
    · exact drive_holdOrOverflow h d tag (by simp [st])
  · rename_i st
    exact drive_holdOrOverflow h d tag (by simp [st])
  · rename_i st
    exact drive_holdOrOverflow h d tag (by simp [st])
  · exact h

/-! ### The fire decision and the deliveries (R49 to R51, R12) -/

theorem drive_reserveAndHandOver (h : DriveLaw s) (d : Station) (tag : Tag) :
    DriveLaw (reserveAndHandOver d tag s) :=
  drive_handOver ((h.same (same_setDestination s d _)).same (same_setEntry _ tag _)) d tag

theorem drive_decideAtAlternate (h : DriveLaw s) (d : Station) (tag : Tag) : DriveLaw (decideAtAlternate d tag s) := by
  unfold decideAtAlternate
  split
  · exact drive_reserveAndHandOver h d tag
  · exact h.same (same_closeToItem s tag)

theorem drive_fireDecision (h : DriveLaw s) (d : Station) (e : Entry) : DriveLaw (fireDecision d e s) := by
  unfold fireDecision
  split
  · exact drive_reserveAndHandOver h d e.tag
  · split
    · exact h.same (same_closeToItem s e.tag)
    · split
      · unfold sendToAlternate
        dsimp only
        split
        · exact drive_decideAtAlternate (h.same (same_setEntry s e.tag _)) _ e.tag
        · exact (h.same (same_setEntry s e.tag _)).same (same_insertWatch _ _ _)
      · exact h.same (same_closeToItem s e.tag)

theorem drive_handle (h : DriveLaw s) (k : WatchKind) : DriveLaw (handle k s) := by
  cases k with
  | fire tag =>
    unfold handle deliverFire
    dsimp only
    split
    · split
      · exact drive_fireDecision h _ _
      · exact h
    · exact h
  | runoff tag => exact h.same (same_deliverRunoff s tag)
  | late d tag => exact drive_deliverLate h d tag
  | release d tag => exact drive_deliverRelease h d tag
  | lengthLimit => exact h.same (same_deliverLengthLimit s)

theorem drive_deliver (h : DriveLaw s) (w : Watch) : DriveLaw (deliver w s) := by
  have e : SameDrives s { s with watches := s.watches.tail } := ⟨rfl, rfl, rfl⟩
  exact drive_arbitrate (drive_handle (h.same e) w.kind)

theorem drive_deliveryRun (n : Nat) (h : DriveLaw s) : DriveLaw (deliveryRun n s) := by
  induction n generalizing s with
  | zero => exact h
  | succ n ih =>
    unfold deliveryRun
    split
    · exact ih (drive_deliver h _)
    · exact h

end Sys2Proof.Machine
end

