-- ==== Sys2Proof/Laws/Releases.lean ====
section
/-! SUPPORT. The diverters' timers, test pulses, disables, halts, commits and resets keep the law of the diverters and the
arbiter (R74 to R85), and after the arbiter's examination no slot is free beside a waiting diverter (R65). -/

namespace Sys2Proof.Machine

variable {s : State} {d : Station}

/-! ### Timers (R74, R76, R83) -/

theorem same_truncations (d : Station) (l : List Tag) (s : State) :
    SameDrives s (l.foldl (fun t tag => truncatePush d tag t) s) :=
  SameDrives.foldl _ (fun t tag => same_truncatePush t d tag) l s

theorem same_givenBack (r : Reason) (l : List Tag) (s : State) :
    SameDrives s (l.foldl (fun t tag => giveBackToBelt tag r t) s) :=
  SameDrives.foldl _ (fun t tag => same_giveBackToBelt t tag r) l s

/-- What an ENERGISED diverter's law gives its release. -/
theorem DriveLaw.energised (h : DriveLaw s) (en : (s.diverter d).state = .energised) :
    DriveBut d 1 s ∧ s.waits d = false ∧ (s.diverter d).disabled = false := by
  refine ⟨?_, ?_, ?_⟩
  · have := h.opened d
    rwa [slotsHeld, if_pos en] at this
  · have := (h.1 d).waiting
    rw [en] at this
    simpa using this
  · have := (h.1 d).disabled
    rw [en] at this
    simpa using this

theorem drive_maxOnExpiry (h : DriveLaw s) (en : (s.diverter d).state = .energised) :
    DriveLaw (maxOnExpiry d s) := by
  obtain ⟨o, w, dis⟩ := h.energised en
  unfold maxOnExpiry
  dsimp only
  have e := same_truncations d (s.diverter d).push (setDiverter d (fun v => { v with push := [] }) s)
  refine drive_releaseDiverter ((o.setDiverter _).same e) ?_ ?_ ?_ ?_
  · rw [e.diverter, diverter_setDiverter]
  · rw [e.diverter, diverter_setDiverter]
    exact dis
  · rw [e.diverter, diverter_setDiverter]
    exact (h.1 d).pendingRoom
  · rw [e.waits, waits_setDiverter]
    exact w

/-- The end of a test pulse (R83). -/
theorem drive_endPulse (h : DriveLaw s) (en : (s.diverter d).state = .energised)
    (pulse : (s.diverter d).pulseTimer.isSome = true) : DriveLaw (releaseDiverter d s) := by
  obtain ⟨o, w, dis⟩ := h.energised en
  refine drive_releaseDiverter o ?_ dis (h.1 d).pendingRoom w
  by_contra c
  have := ((h.1 d).pushing c).2
  rw [(h.1 d).pulseTimer.mp pulse] at this
  cases this

/-! ### Disables and test pulses (R79, R80, R82) -/

theorem DriveLaw.pushEnded (h : DriveLaw s) (d : Station) :
    DriveBut d (slotsHeld (s.diverter d)) (endPush d s)
      ∧ (endPush d s).diverter d = { s.diverter d with push := [] } := by
  have e := same_truncations d (s.diverter d).push (setDiverter d (fun v => { v with push := [] }) s)
  refine ⟨((h.opened d).setDiverter _).same e, ?_⟩
  exact (e.diverter d).trans (diverter_setDiverter s d _)

theorem DriveBut.pendingEmptied {k : Nat} (h : DriveBut d k s) :
    DriveBut d k (emptyPending d s) ∧ (emptyPending d s).diverter d = { s.diverter d with pending := [] } := by
  have e := same_givenBack .disabled (s.diverter d).pending
    (Machine.setDiverter d (fun v => { v with pending := [] }) s)
  exact ⟨(h.setDiverter _).same e, (e.diverter d).trans (diverter_setDiverter s d _)⟩

theorem drive_switchOff {k : Nat} (h : DriveBut d k s) (hk : k = slotsHeld (s.diverter d))
    (push : (s.diverter d).push = []) (pending : (s.diverter d).pending = []) : DriveLaw (switchOff d s) := by
  unfold switchOff
  split
  · rename_i en
    rw [slotsHeld, if_pos en] at hk
    subst hk
    refine ((h.freeSlot.setWaiting false).setDiverter Diverter.disable).close ?_ ?_
    · simp only [diverter_setDiverter, diverter_setWaiting, diverter_freeSlot, waits_setDiverter, waits_setWaiting]
      constructor <;> simp [Diverter.disable, push, pending]
    · simp only [diverter_setDiverter]
      rfl
  · rename_i en
    rw [slotsHeld, if_neg en] at hk
    subst hk
    refine ((h.setWaiting false).setDiverter Diverter.disable).close ?_ ?_
    · simp only [diverter_setDiverter, diverter_setWaiting, waits_setDiverter, waits_setWaiting]
      constructor <;> simp [Diverter.disable, push, pending]
    · simp only [diverter_setDiverter]
      rfl

/-- Steps 1 to 4 of a disable (R79). -/
theorem drive_disabled (h : DriveLaw s) (d : Station) :
    DriveLaw (switchOff d (emptyPending d (endPush d s))) := by
  obtain ⟨o1, v1⟩ := h.pushEnded d
  obtain ⟨o2, v2⟩ := o1.pendingEmptied
  rw [v1] at v2
  refine drive_switchOff o2 ?_ ?_ ?_
  · rw [v2]; rfl
  · rw [v2]
  · rw [v2]

/-- The diverter that DENA makes IDLE (R80). -/
theorem drive_enable (h : DriveLaw s) (dis : (s.diverter d).disabled = true) :
    DriveLaw (setDiverter d (fun v => { v with disabled := false, state := .idle }) s) := by
  have law := h.1 d
  have off : (s.diverter d).state = .off := law.disabled dis
  refine ((h.opened d).setDiverter _).close ?_ (by simp [slotsHeld, off])
  rw [diverter_setDiverter, waits_setDiverter]
  obtain ⟨a1, a2, a3, a4, a5, a6, a7, a8, a9, a10, a11, a12, a13⟩ := law
  constructor <;> simp_all

/-- The diverter that TFIR energises (R82). -/
theorem drive_testPulse (h : DriveLaw s) (idle : (s.diverter d).state = .idle) (free : s.slotFree = true)
    (timer : TimeStamp) :
    DriveLaw (takeSlot (setDiverter d
      (fun v => { v with state := .energised, testPulse := true, push := [], output := true,
                         pulseTimer := some timer }) s)) := by
  have law := h.1 d
  have o : DriveBut d 0 s := by
    have := h.opened d
    rwa [slotsHeld, if_neg (by simp [idle])] at this
  refine ((o.setDiverter _).takeSlot free).close ?_ ?_
  · rw [diverter_takeSlot, waits_takeSlot, diverter_setDiverter, waits_setDiverter]
    obtain ⟨a1, a2, a3, a4, a5, a6, a7, a8, a9, a10, a11, a12, a13⟩ := law
    constructor <;> simp_all
  · rw [diverter_takeSlot, diverter_setDiverter]
    rfl

/-! ### All diverters together (R84, R85, R131) -/

/-- No diverter is ENERGISED, no slot is in use and nothing waits: the law of each diverter is enough. -/
theorem drive_quiet (each : ∀ d, DiverterLaw (s.diverter d) false) (off : ∀ d, (s.diverter d).state ≠ .energised)
    (slots : s.arbiter.slotsInUse = 0) (waiting : s.arbiter.waiting = Vector.replicate 16 false) : DriveLaw s := by
  refine ⟨fun d => ?_, ?_, by omega⟩
  · have w : s.waits d = false := by simp [State.waits, waiting]
    rw [w]
    exact each d
  · rw [slots, eq_comm]
    unfold State.energisedCount
    rw [List.countP_eq_zero]
    intro v hv
    obtain ⟨i, hi, e⟩ := List.getElem_of_mem hv
    have lt : i < 16 := by simpa using hi
    have := off ⟨i, lt⟩
    simp only [State.diverter, Fin.getElem_fin] at this
    rw [Vector.getElem_toList] at e
    rw [e] at this
    simpa using this

/-- A halt (R84). -/
theorem drive_freeze (h : DriveLaw s) (c : HaltCause) : DriveLaw (freeze c s) := by
  have v : ∀ d, (freeze c s).diverter d = (s.diverter d).atHalt := by
    intro d
    simp [freeze, State.diverter, evaluateHold, setSlot, setLine]
  refine drive_quiet (fun d => ?_) (fun d => ?_) rfl rfl
  · rw [v]
    obtain ⟨a1, a2, a3, a4, a5, a6, a7, a8, a9, a10, a11, a12, a13⟩ := h.1 d
    by_cases st : (s.diverter d).state = .off <;> constructor <;> simp_all [Diverter.atHalt]
  · rw [v]
    simp only [Diverter.atHalt]
    split <;> simp

/-- A commit (R85). -/
theorem drive_commitDiverters (s : State) : DriveLaw (commitDiverters s) := by
  have v : ∀ d, (commitDiverters s).diverter d = Diverter.afterCommit (s.record d) := by
    intro d
    simp [commitDiverters, State.diverter, State.record]
  refine drive_quiet (fun d => ?_) (fun d => ?_) rfl rfl
  · rw [v]
    unfold Diverter.afterCommit
    cases (s.record d).installed <;> constructor <;> simp [Diverter.atReset]
  · rw [v]
    unfold Diverter.afterCommit
    simp only
    split <;> simp

/-- A reset (R131). -/
theorem drive_reset : DriveLaw State.reset := by
  have v : ∀ d, State.reset.diverter d = Diverter.atReset := by
    intro d
    simp [State.reset, State.diverter]
  refine drive_quiet (fun d => ?_) (fun d => ?_) rfl rfl
  · rw [v]
    constructor <;> simp [Diverter.atReset]
  · rw [v]
    simp [Diverter.atReset]

/-! ### The drain test and the loss action -/

theorem same_drainTest (s : State) : SameDrives s (drainTest s) := by
  unfold drainTest completeDrain
  split
  · refine .trans ?_ (same_submit _ _)
    exact ⟨rfl, rfl, rfl⟩
  · exact .refl s

theorem drive_settle (h : DriveLaw s) : DriveLaw (settle s) := (drive_arbitrate h).same (same_drainTest _)

theorem drive_runoffEntry (h : DriveLaw s) (e : Entry) : DriveLaw (runoffEntry e s) := by
  unfold runoffEntry
  split
  · exact h.same (same_sendToRunoff s _ _)
  · exact (drive_leavePending h _ _).same (same_giveBackToBelt _ _ _)
  · exact h

/-- RUNOFF_ALL (R167). -/
theorem drive_runoffAll (h : DriveLaw s) : DriveLaw (runoffAll s) := by
  unfold runoffAll
  generalize s.table = l
  induction l generalizing s with
  | nil => exact h
  | cons e l ih => exact ih (drive_runoffEntry h e)

/-! ### No slot wasted (R65) -/

theorem mem_searchOrder (m : PriorityMode) (last d : Station) : d ∈ searchOrder m last := by
  cases m with
  | fixed => simp [searchOrder]
  | rotating =>
    simp only [searchOrder, List.mem_map, List.mem_finRange, true_and]
    exact ⟨d - (last + 1), add_sub_cancel _ _⟩

/-- The arbiter chooses none only when none waits (R66). -/
theorem waits_of_chosen_none (h : s.chosen = none) (d : Station) : s.waits d = false := by
  have := List.find?_eq_none.mp h d (mem_searchOrder _ _ d)
  simpa using this

/-- The waiting diverters. -/
def State.waitingSet (s : State) : Finset Station := Finset.univ.filter (fun d => s.waits d = true)

/-- Diverter `d` neither waits nor holds an item for a later energisation, and the others wait as in `s`. -/
structure Granted (d : Station) (s t : State) : Prop where
  gone : t.waits d = false
  empty : (t.diverter d).pending = []
  others : ∀ d', d' ≠ d → t.waits d' = s.waits d'

namespace Granted

variable {t u : State}

theorem same (h : Granted d s t) (e : SameDrives t u) : Granted d s u := by
  refine ⟨?_, ?_, fun d' hd => ?_⟩
  · rw [e.waits]; exact h.gone
  · rw [e.diverter]; exact h.empty
  · rw [e.waits]; exact h.others d' hd

theorem setDiverter (h : Granted d s t) (f : Diverter → Diverter)
    (keeps : (f (t.diverter d)).pending = (t.diverter d).pending) : Granted d s (setDiverter d f t) := by
  refine ⟨h.gone, ?_, h.others⟩
  rw [diverter_setDiverter, keeps, h.empty]

theorem freeSlot (h : Granted d s t) : Granted d s (freeSlot t) := ⟨h.gone, h.empty, h.others⟩

theorem releaseDiverter (h : Granted d s t) : Granted d s (releaseDiverter d t) := by
  unfold Machine.releaseDiverter endRecovery
  dsimp only
  split
  · split
    · exact ((h.setDiverter _ rfl).freeSlot).setDiverter _ rfl
    · rename_i ne
      rw [diverter_freeSlot, diverter_setDiverter] at ne
      exact absurd h.empty ne
  · exact ((h.setDiverter _ rfl).freeSlot).setDiverter _ rfl

theorem deliverRelease (h : Granted d s t) (tag : Tag) : Granted d s (deliverRelease d tag t) := by
  unfold Machine.deliverRelease
  dsimp only
  split
  · split
    · exact ((h.setDiverter _ rfl).same (same_joinConfirmList _ d tag)).releaseDiverter
    · exact (h.setDiverter _ rfl).same (same_joinConfirmList _ d tag)
  · exact h

theorem placeRelease (h : Granted d s t) (tag : Tag) : Granted d s (placeRelease d tag t) := by
  unfold Machine.placeRelease
  split
  · split
    · exact h.deliverRelease tag
    · exact h.same (same_insertWatch t _ _)
  · exact h

theorem releases (h : Granted d s t) (l : List Tag) :
    Granted d s (l.foldl (fun t tag => Machine.placeRelease d tag (removeWatch tag t)) t) := by
  induction l generalizing t with
  | nil => exact h
  | cons tag l ih => exact ih ((h.same (same_removeWatch t tag)).placeRelease tag)

end Granted

/-- A grant takes its diverter, and no other, out of the waiting set (R65, R69). -/
theorem granted_grant (s : State) (d : Station) : Granted d s (grant d s) := by
  unfold grant
  dsimp only
  apply Granted.releases
  refine Granted.same ?_ (same_markPushing _ _)
  refine ⟨?_, ?_, fun d' hd => ?_⟩
  · rw [waits_setDiverter, waits_energise, waits_setWaiting]
  · rw [diverter_setDiverter]
  · rw [waits_setDiverter, waits_energise, waits_setWaiting_ne s hd]

theorem waitingSet_grant (w : s.waits d = true) : (grant d s).waitingSet.card < s.waitingSet.card := by
  apply Finset.card_lt_card
  rw [Finset.ssubset_iff_of_subset]
  · refine ⟨d, by simp [State.waitingSet, w], ?_⟩
    simp [State.waitingSet, (granted_grant s d).gone]
  · intro d' h
    simp only [State.waitingSet, Finset.mem_filter, Finset.mem_univ, true_and] at h ⊢
    by_cases e : d' = d
    · rw [e]; exact w
    · rw [← (granted_grant s d).others d' e]; exact h

theorem noSlotWasted_arbitrateRounds (n : Nat) (h : s.waitingSet.card ≤ n) :
    NoSlotWasted (arbitrateRounds n s) := by
  induction n generalizing s with
  | zero =>
    intro _ d
    have e : s.waitingSet = ∅ := Finset.card_eq_zero.mp (by omega)
    have := Finset.notMem_empty d
    rw [← e] at this
    show s.waits d = false
    simpa [State.waitingSet] using this
  | succ n ih =>
    unfold arbitrateRounds
    split
    · rename_i free
      split
      · rename_i d hc
        have := waitingSet_grant (waits_of_chosen hc)
        exact ih (by omega)
      · rename_i hc
        exact fun _ d => waits_of_chosen_none hc d
    · rename_i busy
      intro free
      exact absurd free busy

/-- After the arbiter's examination no slot is free beside a waiting diverter (R65). -/
theorem noSlotWasted_arbitrate (s : State) : NoSlotWasted (arbitrate s) :=
  noSlotWasted_arbitrateRounds 16 (by simpa using Finset.card_le_univ s.waitingSet)

theorem NoSlotWasted.same {s t : State} (h : NoSlotWasted s) (e : SameDrives s t) : NoSlotWasted t := by
  intro free d
  rw [e.waits]
  rw [e.slotFree] at free
  exact h free d

end Sys2Proof.Machine
end

