-- ==== Sys2Proof/Laws/Items.lean ====
section
/-! SUPPORT. Items at their ordinary moments, as explicit states: an entry changed by its tag, a watch inserted ahead of the
line, an item given back to the belt, an arbiter with nothing to grant, and a line that is not drained. -/

namespace Sys2Proof.Machine

variable {s t : State} {tag : Tag} {e : Entry} {d : Station}

/-! ### Entries by tag -/

theorem entry_setEntry (s : State) (tag : Tag) (f : Entry → Entry) (keeps : ∀ e, (f e).tag = e.tag) :
    (setEntry tag f s).entry tag = (s.entry tag).map f := by
  unfold State.entry setEntry
  dsimp only
  induction s.table with
  | nil => rfl
  | cons x l ih =>
    by_cases h : x.tag = tag
    · simp [h, keeps]
    · simp only [List.map_cons, beq_iff_eq, h, if_false]
      simpa [List.find?_cons, h] using ih

theorem entry_setEntry_ne (s : State) {tag tag' : Tag} (h : tag' ≠ tag) (f : Entry → Entry)
    (keeps : ∀ e, (f e).tag = e.tag) : (setEntry tag f s).entry tag' = s.entry tag' := by
  unfold State.entry setEntry
  dsimp only
  have swap : ¬ tag = tag' := fun c => h c.symm
  induction s.table with
  | nil => rfl
  | cons x l ih =>
    simp only [beq_iff_eq] at ih
    simp only [List.map_cons, List.find?_cons, beq_iff_eq]
    by_cases e : x.tag = tag
    · have no : (tag == tag') = false := by simpa using swap
      rw [if_pos e, keeps, e, no]
      simpa [List.find?_map] using ih
    · rw [if_neg e]
      split
      · rfl
      · exact ih

theorem tag_of_entry (h : s.entry tag = some e) : e.tag = tag := by
  have := List.find?_some h
  simpa using this

theorem mem_of_entry (h : s.entry tag = some e) : e ∈ s.table := List.mem_of_find?_eq_some h

theorem table_ne_nil_of_entry (h : s.entry tag = some e) : s.table ≠ [] := List.ne_nil_of_mem (mem_of_entry h)

/-! ### The hold output (R32) -/

/-- The hold output is the one R32 gives at the occupancy. -/
theorem evaluateHold_eq (s : State) :
    evaluateHold s = { s with induction := { s.induction with hold := s.holdAt s.table.length } } := by
  unfold evaluateHold State.holdAt State.occupancy
  congr 2
  simp only [Bool.decide_and, Bool.decide_or, Bool.or_assoc]
  rfl

/-- A removal from the table re-evaluates the hold output at the occupancy it leaves (R32, R34). -/
theorem removeEntry_eq (tag : Tag) (s : State) :
    removeEntry tag s = { s with
      table := s.table.filter (fun e => e.tag != tag)
      induction := { s.induction with hold := s.holdAt (s.table.filter (fun e => e.tag != tag)).length } } :=
  evaluateHold_eq _

/-! ### Nothing to grant, and the drain test -/

/-- With no slot free beside a waiting diverter the arbiter has nothing to do (R65). -/
theorem arbitrate_idle (h : NoSlotWasted s) : arbitrate s = s := by
  unfold arbitrate
  show arbitrateRounds 16 s = s
  unfold arbitrateRounds
  split
  · rename_i free
    have none : s.chosen = none := by
      unfold State.chosen
      rw [List.find?_eq_none]
      intro d _
      simp [h free d]
    rw [none]
  · rfl

theorem drained_iff (s : State) : s.drained = true ↔ s.isDrained := by
  simp only [State.drained, State.isDrained, Bool.and_eq_true, beq_iff_eq, List.isEmpty_iff, Vector.all_eq_true,
    bne_iff_ne, and_assoc, ne_eq]
  constructor
  · rintro ⟨a, b, c⟩
    exact ⟨a, b, fun d => c d d.isLt⟩
  · rintro ⟨a, b, c⟩
    exact ⟨a, b, fun i hi => c ⟨i, hi⟩⟩

/-- The drain test of a line that is not drained does nothing (R123). -/
theorem drainTest_not (h : ¬ s.isDrained) : drainTest s = s := by
  unfold drainTest
  rw [if_neg]
  rw [drained_iff]
  exact h

/-- The state that drain completion leaves, less its notice (R30, R32, R123). -/
theorem drainTest_drained (h : s.isDrained) :
    drainTest s = submitLine .draining .ready .drained
      { s with
        line := { s.line with state := .ready, runPermit := false }
        induction := { s.induction with slot := .empty, hold := decide (s.config.line.holdThreshold ≤ 0) }
        watches := s.watches.filter (fun w => w.kind != .lengthLimit) } := by
  unfold drainTest completeDrain
  rw [if_pos ((drained_iff s).mpr h), evaluateHold_eq]
  simp [State.holdAt, setLine, setSlot, removeLengthLimit, h.2.1]

/-- Everything the drain test can do (R123): it submits its notice and passes a drained line on, and leaves any other. -/
theorem drainTest_spec (s : State) :
    Submitted (if s.isDrained then [.lineState .draining .ready .drained] else []) s (drainTest s)
      ∧ (s.isDrained → DrainsTo s (drainTest s))
      ∧ (s.isDrained → UnchangedBut [.line, .induction, .watches, .queue, .transmitter] s (drainTest s))
      ∧ (¬ s.isDrained → drainTest s = s) := by
  by_cases h : s.isDrained
  · rw [if_pos h, drainTest_drained h]
    refine ⟨Submitted.of_queue (submitted_submit _ _) rfl rfl,
      fun _ => ⟨submit_line _ _, submit_induction _ _, submit_watches _ _⟩, fun _ p hp => ?_, fun c => absurd h c⟩
    cases p <;> simp_all [Part.same, submitLine]
  · rw [if_neg h, drainTest_not h]
    exact ⟨submitted_nil rfl (fun _ => rfl), fun c => absurd c h, fun c => absurd c h, fun _ => rfl⟩

theorem drainTest_table (h : s.table ≠ []) : drainTest s = s := drainTest_not (fun c => h c.2.1)

/-! ### Watches ahead of the line -/

theorem dueAtOnce_ahead {p : Position} (h : reached s.counter.position p = false) : dueAtOnce p s = false := by
  unfold dueAtOnce
  rw [h]
  rfl

theorem placeRunoff_ahead (h : s.entry tag = some e)
    (ahead : reached s.counter.position (runoffPoint s.config.line e) = false) :
    placeRunoff tag s = insertWatch (runoffPoint s.config.line e) (.runoff tag) s := by
  unfold placeRunoff
  rw [h]
  simp [dueAtOnce_ahead ahead]

theorem placeLate_ahead (h : s.entry tag = some e)
    (ahead : reached s.counter.position (latePoint (s.record d) e) = false) :
    placeLate d tag s = insertWatch (latePoint (s.record d) e) (.late d tag) s := by
  unfold placeLate
  rw [h]
  simp [dueAtOnce_ahead ahead]

theorem placeRelease_ahead (h : s.entry tag = some e)
    (ahead : reached s.counter.position (releasePoint (s.record d) e) = false) :
    placeRelease d tag s = insertWatch (releasePoint (s.record d) e) (.release d tag) s := by
  unfold placeRelease
  rw [h]
  simp [dueAtOnce_ahead ahead]

/-- An item sent to the run-off ahead of its run-off point (R14, R37). -/
theorem sendToRunoff_ahead (h : s.entry tag = some e)
    (ahead : reached s.counter.position (runoffPoint s.config.line e) = false) (r : Reason) :
    sendToRunoff tag r s = insertWatch (runoffPoint s.config.line e) (.runoff tag)
      (removeWatch tag
        (setEntry tag (fun e => { e with state := .travelling, target := .runOff, reason := r }) s)) := by
  unfold sendToRunoff
  have e' : (removeWatch tag (setEntry tag
      (fun e => { e with state := .travelling, target := .runOff, reason := r }) s)).entry tag
        = some { e with state := .travelling, target := .runOff, reason := r } := by
    exact (entry_setEntry s tag (fun e => { e with state := .travelling, target := .runOff, reason := r })
      (fun _ => rfl)).trans (by rw [h]; rfl)
  rw [placeRunoff_ahead e' ahead]
  rfl

/-- An item that holds a unit given back to the belt ahead of its run-off point (R37, R105). -/
theorem giveBackToBelt_ahead (h : s.entry tag = some e) (r : e.reservedWith = some d)
    (ahead : reached s.counter.position (runoffPoint s.config.line e) = false) (reason : Reason) :
    giveBackToBelt tag reason s = insertWatch (runoffPoint s.config.line e) (.runoff tag)
      (removeWatch tag
        (setEntry tag (fun e => { e with state := .travelling, target := .runOff, reason := reason })
          (setEntry tag (fun e => { e with reservedWith := none }) (setDestination d DestRecord.giveBack s)))) := by
  unfold giveBackToBelt returnUnit
  rw [h, Option.bind_some, r]
  have e' : (setEntry tag (fun e => { e with reservedWith := none }) (setDestination d DestRecord.giveBack s)).entry tag
      = some { e with reservedWith := none } := by
    refine (entry_setEntry _ tag (fun e => { e with reservedWith := none }) (fun _ => rfl)).trans ?_
    show Option.map _ (s.entry tag) = _
    rw [h]
    rfl
  exact sendToRunoff_ahead e' ahead reason

/-! ### A command that delivers a watch -/

/-- The delivery of the watch a command names (R12, entry 12). -/
theorem deliverNamed_delivers {k : WatchKind} {rest : List Watch} (h : s.delivers k rest) :
    event (deliverNamed k) s
      = .next (drainTest (arbitrate (handle k { s with watches := rest }))) := by
  obtain ⟨held, p, w, r⟩ := h
  have due : s.dueWatch = some ⟨p, k⟩ := by simp [State.dueWatch, w, r]
  simp [event, held, deliverNamed, due, deliver, w]

end Sys2Proof.Machine
end

