-- ==== Sys2Proof/Laws/Watches.lean ====
section
/-! SUPPORT. The sorted insertion of a watch as a permutation that keeps the order (R11), watches replaced in turn (R14), a
grant as an explicit state (R69), and the tag that the search of R27 gives. -/

namespace Sys2Proof.Machine

variable {s : State} {d : Station}

/-! ### Sorted insertion (R11) -/

theorem insertSorted_perm (w : Watch) (l : List Watch) : (insertSorted w l).Perm (w :: l) := by
  induction l with
  | nil => exact List.Perm.refl _
  | cons v rest ih =>
    unfold insertSorted
    split
    · exact (ih.cons v).trans (List.Perm.swap w v rest)
    · exact List.Perm.refl _

theorem mem_insertSorted {w v : Watch} {l : List Watch} : v ∈ insertSorted w l ↔ v = w ∨ v ∈ l :=
  (insertSorted_perm w l).mem_iff.trans List.mem_cons

theorem length_insertSorted (w : Watch) (l : List Watch) : (insertSorted w l).length = l.length + 1 :=
  (insertSorted_perm w l).length_eq

/-- Insertion keeps a sorted list sorted where the signed comparison orders the watches it meets: a watch the new one has
not reached has reached the new one, and so has every watch after it (R11). -/
theorem insertSorted_sorted {w : Watch} {l : List Watch}
    (sorted : l.Pairwise (fun earlier later => reached later.position earlier.position = true))
    (total : ∀ v ∈ l, reached w.position v.position = false → reached v.position w.position = true)
    (trans : ∀ v ∈ l, ∀ x ∈ l, reached v.position w.position = true → reached x.position v.position = true →
      reached x.position w.position = true) :
    (insertSorted w l).Pairwise (fun earlier later => reached later.position earlier.position = true) := by
  induction l with
  | nil => exact List.pairwise_singleton _ _
  | cons v rest ih =>
    obtain ⟨first, others⟩ := List.pairwise_cons.mp sorted
    unfold insertSorted
    split
    · rename_i h
      refine List.pairwise_cons.mpr ⟨fun x hx => ?_, ih others (fun x hx => total x (List.mem_cons_of_mem v hx))
        (fun x hx y hy => trans x (List.mem_cons_of_mem v hx) y (List.mem_cons_of_mem v hy))⟩
      rcases mem_insertSorted.mp hx with rfl | hx
      · exact h
      · exact first x hx
    · rename_i h
      have hv := total v List.mem_cons_self (Bool.not_eq_true _ ▸ h)
      refine List.pairwise_cons.mpr ⟨fun x hx => ?_, sorted⟩
      rcases List.mem_cons.mp hx with rfl | hx
      · exact hv
      · exact trans v List.mem_cons_self x (List.mem_cons_of_mem v hx) hv (first x hx)

/-- Taking watches out keeps a list sorted (R14). -/
theorem filter_sorted {l : List Watch} (p : Watch → Bool)
    (sorted : l.Pairwise (fun earlier later => reached later.position earlier.position = true)) :
    (l.filter p).Pairwise (fun earlier later => reached later.position earlier.position = true) :=
  sorted.filter p

/-! ### Watches replaced one after another (R14, R37, R69) -/

theorem replacedWatches_cons (watch : Entry → Watch) (e : Entry) (rest : List Entry) (ws : List Watch) :
    replacedWatches watch (e :: rest) ws = replacedWatches watch rest
      (insertSorted (watch e) (ws.filter (fun w => w.kind.tag? != some e.tag))) := rfl

theorem replacedWatches_append (watch : Entry → Watch) (a b : List Entry) (ws : List Watch) :
    replacedWatches watch (a ++ b) ws = replacedWatches watch b (replacedWatches watch a ws) := List.foldl_append

theorem runoffWatches_cons (l : LineRecord) (e : Entry) (sent : List Entry) (ws : List Watch) :
    runoffWatches l (e :: sent) ws = runoffWatches l sent
      (insertSorted ⟨runoffPoint l e, .runoff e.tag⟩ (ws.filter (fun w => w.kind.tag? != some e.tag))) := rfl

theorem runoffWatches_append (l : LineRecord) (a b : List Entry) (ws : List Watch) :
    runoffWatches l (a ++ b) ws = runoffWatches l b (runoffWatches l a ws) := replacedWatches_append _ a b ws

/-- RELEASE watches placed ahead of the line in turn are a replacement of watches alone (R14, R69). -/
theorem placeReleases_ahead (d : Station) (tags : List Tag) (s : State)
    (ahead : ∀ tag ∈ tags, ∃ e ∈ s.entry tag, reached s.counter.position (releasePoint (s.record d) e) = false) :
    tags.foldl (fun t tag => placeRelease d tag (removeWatch tag t)) s = { s with
      watches := replacedWatches (fun e => ⟨releasePoint (s.record d) e, .release d e.tag⟩)
        (tags.filterMap s.entry) s.watches } := by
  induction tags generalizing s with
  | nil => rfl
  | cons tag rest ih =>
    obtain ⟨e, found, free⟩ := ahead tag List.mem_cons_self
    have found : s.entry tag = some e := found
    have placed : placeRelease d tag (removeWatch tag s) = { s with
        watches := insertSorted ⟨releasePoint (s.record d) e, .release d e.tag⟩
          (s.watches.filter (fun w => w.kind.tag? != some e.tag)) } := by
      rw [placeRelease_ahead (s := removeWatch tag s) found free, tag_of_entry found]
      rfl
    rw [List.foldl_cons, placed, List.filterMap_cons_some found, replacedWatches_cons]
    exact ih _ (fun tag' member => ahead tag' (List.mem_cons_of_mem _ member))

/-! ### A grant (R69) -/

section

variable (held : List Tag) (e : Entry)

@[simp] theorem pushedWith_tag : (e.pushedWith held).tag = e.tag := by
  unfold Entry.pushedWith
  split <;> rfl

@[simp] theorem pushedWith_lead : (e.pushedWith held).lead = e.lead := by
  unfold Entry.pushedWith
  split <;> rfl

@[simp] theorem pushedWith_length : (e.pushedWith held).length = e.length := by
  unfold Entry.pushedWith
  split <;> rfl

@[simp] theorem releasePoint_pushedWith (r : DiverterRecord) : releasePoint r (e.pushedWith held) = releasePoint r e := by
  unfold releasePoint
  rw [pushedWith_lead, pushedWith_length]

end

/-- The entries that a grant marks (R69). -/
theorem markPushing_eq (tags : List Tag) (s : State) :
    markPushing tags s = { s with table := s.table.map (Entry.pushedWith tags) } := by
  unfold markPushing
  induction tags generalizing s with
  | nil =>
    have id : Entry.pushedWith [] = id := by
      funext e
      simp [Entry.pushedWith]
    rw [id, List.map_id]
    rfl
  | cons tag rest ih =>
    rw [List.foldl_cons, ih]
    show { s with table := List.map _ (List.map _ s.table) } = _
    rw [List.map_map]
    congr 2
    funext e
    by_cases own : e.tag = tag <;> by_cases other : e.tag ∈ rest <;> simp_all [Entry.pushedWith]

theorem entry_pushedWith (s : State) (held : List Tag) (tag : Tag) :
    State.entry { s with table := s.table.map (Entry.pushedWith held) } tag
      = (s.entry tag).map (Entry.pushedWith held) := by
  unfold State.entry
  rw [List.find?_map]
  congr 2
  funext e
  exact congrArg (· == tag) (pushedWith_tag held e)

theorem replacedWatches_pushedWith (r : DiverterRecord) (d : Station) (held : List Tag) (entries : List Entry)
    (ws : List Watch) :
    replacedWatches (fun e => ⟨releasePoint r e, .release d e.tag⟩) (entries.map (Entry.pushedWith held)) ws
      = replacedWatches (fun e => ⟨releasePoint r e, .release d e.tag⟩) entries ws := by
  unfold replacedWatches
  rw [List.foldl_map]
  simp only [pushedWith_tag, releasePoint_pushedWith]

/-- The whole state that a grant leaves when every item the diverter holds has its release point ahead (R69). -/
theorem grant_ahead (ahead : s.releasesAhead d) :
    grant d s = { setDiverter d (fun v => { v with push := v.push ++ (s.diverter d).pending, pending := [] })
        (energise d (setWaiting d false s)) with
      table := s.table.map (Entry.pushedWith (s.diverter d).pending)
      watches := replacedWatches (fun e => ⟨releasePoint (s.record d) e, .release d e.tag⟩)
        ((s.diverter d).pending.filterMap s.entry) s.watches } := by
  unfold grant
  dsimp only
  obtain ⟨b, base⟩ : ∃ b, b = setDiverter d
    (fun v => { v with push := v.push ++ (s.diverter d).pending, pending := [] }) (energise d (setWaiting d false s)) :=
    ⟨_, rfl⟩
  have table : b.table = s.table := by rw [base]; rfl
  have watches : b.watches = s.watches := by rw [base]; rfl
  have record : b.record d = s.record d := by rw [base]; rfl
  have position : b.counter.position = s.counter.position := by rw [base]; rfl
  rw [← base, markPushing_eq]
  have entry : b.entry = s.entry := by
    unfold State.entry
    rw [table]
  clear base
  rw [placeReleases_ahead]
  · have found : State.entry { b with table := b.table.map (Entry.pushedWith (s.diverter d).pending) }
        = fun tag => (s.entry tag).map (Entry.pushedWith (s.diverter d).pending) := by
      funext tag
      rw [entry_pushedWith, entry]
    rw [found, ← List.map_filterMap, replacedWatches_pushedWith, ← record, ← table, ← watches]
    rfl
  · intro tag member
    obtain ⟨e, found, free⟩ := ahead tag member
    refine ⟨e.pushedWith (s.diverter d).pending, ?_, ?_⟩
    · rw [entry_pushedWith, entry, show s.entry tag = some e from found]
      rfl
    · show reached b.counter.position (releasePoint (b.record d) _) = false
      rw [record, position, releasePoint_pushedWith]
      exact free

/-! ### The tag search (R27) -/

theorem tagAfter_eq_iterate (k : Nat) (t : Tag) : tagAfter t k = Nat.iterate tagFollowing k t := by
  induction k generalizing t with
  | zero => rfl
  | succ k ih => exact ih (nextTagAfter t)

/-- The tag that an admitted item gets is the first that no entry holds (R27). -/
theorem allocatedTag_of_freeTag {s : State} {k : Nat} {tag : Tag} (h : freeTag s.induction.nextTag k s.table tag) :
    s.allocatedTag = tag := by
  obtain ⟨hk, rfl, held, free⟩ := h
  obtain ⟨j, hj, e, heldj, freej⟩ := freeTagFrom_spec Config.tableCapacity s.induction.nextTag s.table
  have mem (i : Nat) (hi : i < k) : tagAfter s.induction.nextTag i ∈ s.table.map (·.tag) := by
    obtain ⟨x, hx, ht⟩ := held i hi
    rw [tagAfter_eq_iterate, ← ht]
    exact List.mem_map_of_mem hx
  have notmem : tagAfter s.induction.nextTag k ∉ s.table.map (·.tag) := by
    rw [tagAfter_eq_iterate]
    intro c
    obtain ⟨x, hx, ht⟩ := List.mem_map.mp c
    exact free x hx ht
  have same : j = k := by
    rcases Nat.lt_trichotomy j k with c | c | c
    · exact absurd (mem j c) (freej (Nat.lt_of_lt_of_le c (Nat.le_of_lt hk)))
    · exact c
    · exact absurd (heldj k c) notmem
  unfold State.allocatedTag
  rw [e, same, tagAfter_eq_iterate]

end Sys2Proof.Machine
end

