-- ==== Sys2Proof/Laws/Granting.lean ====
section
/-! SUPPORT. Everything a grant to a waiting diverter does, with the items it releases at once past their release points
(R13, R69), the arbiter's choice (R66), and its grants one after another (R65). -/

namespace Sys2Proof.Machine

variable {s t : State} {tag : Tag} {e : Entry} {d : Station}

/-! ### The arbiter's choice (R66) -/

/-- The diverter the arbiter chooses is the waiting one that the search order meets first. -/
theorem firstInSearch_of_chosen (h : s.chosen = some d) : s.firstInSearch d := by
  refine ⟨waits_of_chosen h, ?_⟩
  unfold State.chosen searchOrder at h
  cases mode : s.config.line.priority with
  | fixed =>
    rw [mode] at h
    dsimp only at h ⊢
    intro d' waits
    obtain ⟨-, i, hi, rfl, before⟩ := List.find?_eq_some_iff_getElem.mp h
    rw [List.getElem_finRange]
    by_contra c
    have := before d'.val (not_le.mp c)
    simp [waits] at this
  | rotating =>
    rw [mode] at h
    dsimp only at h ⊢
    intro d' waits
    obtain ⟨-, i, hi, rfl, before⟩ := List.find?_eq_some_iff_getElem.mp h
    rw [List.getElem_map, List.getElem_finRange, add_sub_cancel_left]
    by_contra c
    have := before (d' - (s.arbiter.lastGranted + 1)).val (not_le.mp c)
    simp [waits] at this

/-! ### Items that move to the confirm list (R72) -/

/-- Items moved to the tail of a confirm list one after another (R72). -/
def State.joins (s : State) (d : Station) (tags : List Tag) : State :=
  tags.foldl (fun t tag => joinConfirmList d tag t) s

theorem joins_append (a b : List Tag) : s.joins d (a ++ b) = (s.joins d a).joins d b := List.foldl_append

/-- Only the table and the monitors change. -/
theorem joins_eq (tags : List Tag) (s : State) :
    s.joins d tags = { s with table := (s.joins d tags).table, monitors := (s.joins d tags).monitors } := by
  induction tags generalizing s with
  | nil => rfl
  | cons tag rest ih => exact ih (joinConfirmList d tag s)

theorem joins_watches (tags : List Tag) (s : State) (w : List Watch) :
    { s.joins d tags with watches := w } = State.joins { s with watches := w } d tags := by
  induction tags generalizing s with
  | nil => rfl
  | cons tag rest ih => exact ih (joinConfirmList d tag s)

theorem joins_table (tags : List Tag) (s : State) : (s.joins d tags).table = s.confirmingTable d tags false := by
  induction tags generalizing s with
  | nil => simp [State.joins, State.confirmingTable]
  | cons tag rest ih =>
    refine (ih (joinConfirmList d tag s)).trans ?_
    show List.map _ (List.map _ s.table) = _
    rw [List.map_map]
    apply List.map_congr_left
    intro e _
    have record : (joinConfirmList d tag s).record d = s.record d := rfl
    have time : (joinConfirmList d tag s).timeStamp = s.timeStamp := rfl
    by_cases own : e.tag = tag <;> by_cases other : e.tag ∈ rest <;> simp_all [ticks]

theorem joins_monitor (tags : List Tag) (some : tags ≠ []) (s : State) :
    (s.joins d tags).monitor d = s.monitorWith (s.joins d tags) d tags := by
  induction tags using List.reverseRecOn with
  | nil => exact absurd rfl some
  | append_singleton before tag ih =>
    rw [joins_append]
    have one (u : State) : (u.joins d [tag]).monitor d = u.monitorWith (u.joins d [tag]) d [tag] := by
      unfold State.joins State.monitorWith joinConfirmList aimDeadlineTimer
      simp only [List.foldl_cons, List.foldl_nil, monitor_setMonitor]
      rfl
    rw [one]
    by_cases empty : before = []
    · subst empty
      rfl
    · have m := ih empty
      unfold State.monitorWith at m ⊢
      rw [m]
      simp only [List.append_assoc]

theorem joins_monitor_ne {d' : Station} (other : d' ≠ d) (tags : List Tag) (s : State) :
    (s.joins d tags).monitor d' = s.monitor d' := by
  induction tags generalizing s with
  | nil => rfl
  | cons tag rest ih =>
    refine (ih (joinConfirmList d tag s)).trans ?_
    unfold joinConfirmList aimDeadlineTimer
    rw [monitor_setMonitor_ne _ other, monitor_setMonitor_ne _ other]
    rfl

theorem same_joins (tags : List Tag) (s : State) : SameDrives s (s.joins d tags) :=
  SameDrives.foldl _ (fun t tag => same_joinConfirmList t d tag) tags s

theorem entry_joinConfirmList_ne {tag tag' : Tag} (other : tag' ≠ tag) :
    (joinConfirmList d tag s).entry tag' = s.entry tag' :=
  entry_setEntry_ne s other _ (fun _ => rfl)

/-! ### The RELEASE watches of a grant (R13, R69) -/

/-- Diverter `d` with some items moved from its push list to the confirm list, before it releases, and a watch list. -/
def State.unpushed (s : State) (d : Station) (r : List Tag × List Watch) : State :=
  State.joins (setDiverter d (fun v => { v with push := v.push.filter (fun x => x ∉ r.1) }) { s with watches := r.2 }) d r.1

theorem unpushed_nil (s : State) (d : Station) (w : List Watch) : s.unpushed d ([], w) = { s with watches := w } := by
  unfold State.unpushed State.joins setDiverter
  simp only [List.foldl_nil, List.not_mem_nil, not_false_eq_true, decide_true, List.filter_true]
  congr 1
  exact Vector.set_getElem_self _

theorem push_unpushed (s : State) (d : Station) (r : List Tag × List Watch) :
    ((s.unpushed d r).diverter d).push = (s.diverter d).push.filter (fun x => x ∉ r.1) := by
  unfold State.unpushed
  rw [(same_joins _ _).diverter, diverter_setDiverter]
  rfl

theorem unpushed_one (s : State) (d : Station) (tag : Tag) (w : List Watch) :
    s.unpushed d ([tag], w) = joinConfirmList d tag
      (setDiverter d (fun v => { v with push := v.push.filter (fun x => x != tag) }) { s with watches := w }) := by
  unfold State.unpushed State.joins
  simp only [List.mem_singleton, List.foldl_cons, List.foldl_nil, ← bne_iff_ne, Bool.decide_eq_true]

/-- One item released, and then the others (R69). -/
theorem unpushed_unpushed (s : State) (d : Station) (tag : Tag) (w : List Watch) (r : List Tag × List Watch) :
    (s.unpushed d ([tag], w)).unpushed d r = s.unpushed d (tag :: r.1, r.2) := by
  obtain ⟨rest, after⟩ := r
  rw [unpushed_one]
  have filters (l : List Tag) :
      (l.filter (fun x => x != tag)).filter (fun x => x ∉ rest) = l.filter (fun x => x ∉ tag :: rest) := by
    rw [List.filter_filter]
    congr 1
    funext x
    by_cases own : x = tag <;> simp [own]
  have step : setDiverter d (fun v => { v with push := v.push.filter (fun x => x ∉ rest) })
      (setDiverter d (fun v => { v with push := v.push.filter (fun x => x != tag) }) { s with watches := after })
      = setDiverter d (fun v => { v with push := v.push.filter (fun x => x ∉ tag :: rest) })
        { s with watches := after } := by
    unfold setDiverter
    simp only [Vector.set_set, Fin.getElem_fin, Vector.getElem_set_self, filters]
  show State.joins (joinConfirmList d tag (setDiverter d (fun v => { v with push := v.push.filter (fun x => x ∉ rest) })
    (setDiverter d (fun v => { v with push := v.push.filter (fun x => x != tag) }) { s with watches := after }))) d rest = _
  rw [step]
  rfl

theorem placedReleases_cons (position : Position) (watch : Entry → Watch) (e : Entry) (rest : List Entry)
    (watches : List Watch) :
    placedReleases position watch (e :: rest) watches =
      let others := watches.filter (fun w => w.kind.tag? != some e.tag)
      if reached position (watch e).position = true
          ∧ ∀ w ∈ others.head?, reached (watch e).position w.position = false then
        (e.tag :: (placedReleases position watch rest others).1, (placedReleases position watch rest others).2)
      else placedReleases position watch rest (insertSorted (watch e) others) := rfl

theorem placedReleases_map (position : Position) (watch : Entry → Watch) (f : Entry → Entry)
    (keeps : ∀ e, (f e).tag = e.tag) (entries : List Entry) (watches : List Watch) :
    placedReleases position watch (entries.map f) watches = placedReleases position (fun e => watch (f e)) entries watches := by
  induction entries generalizing watches with
  | nil => rfl
  | cons e rest ih =>
    rw [List.map_cons, placedReleases_cons, placedReleases_cons, keeps]
    simp only [ih]

theorem dueAtOnce_iff (p : Position) (s : State) :
    dueAtOnce p s = true ↔ reached s.counter.position p = true ∧ ∀ w ∈ s.watches.head?, reached p w.position = false := by
  unfold dueAtOnce
  cases s.watches <;> simp

/-- One item's RELEASE watch in place of its LATE watch (R13, R69, R72). -/
theorem placeRelease_removeWatch (found : s.entry tag = some e) (pushing : tag ∈ (s.diverter d).push) (others : List Watch)
    (ho : others = s.watches.filter (fun w => w.kind.tag? != some tag)) :
    placeRelease d tag (removeWatch tag s) =
      if reached s.counter.position (releasePoint (s.record d) e) = true
          ∧ ∀ w ∈ others.head?, reached (releasePoint (s.record d) e) w.position = false then
        if ((s.unpushed d ([tag], others)).diverter d).push = [] then releaseDiverter d (s.unpushed d ([tag], others))
        else s.unpushed d ([tag], others)
      else { s with watches := insertSorted ⟨releasePoint (s.record d) e, .release d tag⟩ others } := by
  subst ho
  have found : (removeWatch tag s).entry tag = some e := found
  unfold placeRelease
  rw [found]
  dsimp only
  by_cases due : dueAtOnce (releasePoint (s.record d) e) (removeWatch tag s) = true
  · have now : reached s.counter.position (releasePoint (s.record d) e) = true
        ∧ ∀ w ∈ (s.watches.filter (fun w => w.kind.tag? != some tag)).head?,
          reached (releasePoint (s.record d) e) w.position = false := (dueAtOnce_iff _ _).mp due
    rw [if_pos now]
    refine (if_pos due).trans ?_
    unfold deliverRelease
    refine (if_pos pushing).trans ?_
    rw [unpushed_one]
    rfl
  · have later : ¬ (reached s.counter.position (releasePoint (s.record d) e) = true
        ∧ ∀ w ∈ (s.watches.filter (fun w => w.kind.tag? != some tag)).head?,
          reached (releasePoint (s.record d) e) w.position = false) := fun c => due ((dueAtOnce_iff _ _).mpr c)
    rw [if_neg later]
    exact if_neg due

/-- The RELEASE watches of items in a push list, placed one after another: those of `placedReleases`, and the release of the
diverter once its push list is empty (R69, R72). -/
theorem placeReleases_eq (tags : List Tag) (s : State) (distinct : tags.Nodup)
    (pushing : ∀ tag ∈ tags, tag ∈ (s.diverter d).push) (pushes : (s.diverter d).push ≠ [])
    (found : ∀ tag ∈ tags, ∃ e, s.entry tag = some e) (r : List Tag × List Watch)
    (hr : r = placedReleases s.counter.position (fun e => ⟨releasePoint (s.record d) e, .release d e.tag⟩)
      (tags.filterMap s.entry) s.watches) :
    tags.foldl (fun t tag => placeRelease d tag (removeWatch tag t)) s
      = if ((s.unpushed d r).diverter d).push = [] then releaseDiverter d (s.unpushed d r) else s.unpushed d r := by
  induction tags generalizing s r with
  | nil =>
    have : r = ([], s.watches) := hr
    subst this
    rw [unpushed_nil, if_neg pushes]
    rfl
  | cons tag rest ih =>
    obtain ⟨e, he⟩ := found tag List.mem_cons_self
    have own := tag_of_entry he
    obtain ⟨fresh, distinct⟩ := List.nodup_cons.mp distinct
    obtain ⟨others, ho⟩ : ∃ o, o = s.watches.filter (fun w => w.kind.tag? != some tag) := ⟨_, rfl⟩
    rw [List.filterMap_cons_some he, placedReleases_cons, own, ← ho] at hr
    rw [List.foldl_cons, placeRelease_removeWatch he (pushing tag List.mem_cons_self) others ho]
    dsimp only at hr
    split at hr
    · rename_i due
      rw [if_pos due]
      have left (x : Tag) (hx : x ∈ rest) : x ∈ ((s.unpushed d ([tag], others)).diverter d).push := by
        rw [push_unpushed]
        exact List.mem_filter.mpr ⟨pushing x (List.mem_cons_of_mem _ hx), by
          have : x ≠ tag := fun c => fresh (c ▸ hx)
          simpa using this⟩
      split
      · rename_i empty
        have none : rest = [] := by
          rw [List.eq_nil_iff_forall_not_mem]
          intro x hx
          have := left x hx
          rw [empty] at this
          exact absurd this List.not_mem_nil
        subst none
        have : r = ([tag], others) := hr
        subst this
        rw [if_pos empty]
        rfl
      · rename_i some
        have entries (x : Tag) (hx : x ∈ rest) : (s.unpushed d ([tag], others)).entry x = s.entry x :=
          entry_joinConfirmList_ne (fun c => fresh (c ▸ hx))
        rw [ih (s.unpushed d ([tag], others)) distinct left some
          (fun x hx => by rw [entries x hx]; exact found x (List.mem_cons_of_mem _ hx)) _ rfl]
        have same : rest.filterMap (s.unpushed d ([tag], others)).entry = rest.filterMap s.entry :=
          List.filterMap_congr entries
        rw [same, hr, unpushed_unpushed, unpushed_one]
        rfl
    · rename_i ahead
      rw [if_neg ahead]
      exact ih { s with watches := insertSorted ⟨releasePoint (s.record d) e, .release d tag⟩ others } distinct
        (fun x hx => pushing x (List.mem_cons_of_mem _ hx)) pushes
        (fun x hx => found x (List.mem_cons_of_mem _ hx)) r hr

/-! ### A grant (R69) -/

/-- Every item of diverter `d` has its entry, and no item stands in its pending list twice (R62). -/
structure HoldsItems (s : State) (d : Station) : Prop where
  distinct : (s.diverter d).pending.Nodup
  found : ∀ tag ∈ (s.diverter d).pending, ∃ e, s.entry tag = some e

/-- The state of a grant before its RELEASE watches are placed (R69). -/
def State.energisedWith (s : State) (d : Station) : State :=
  markPushing (s.diverter d).pending
    (setDiverter d (fun v => { v with push := v.push ++ (s.diverter d).pending, pending := [] })
      (energise d (setWaiting d false s)))

theorem diverter_energisedWith (s : State) (d : Station) :
    (s.energisedWith d).diverter d = { s.diverter d with
      state := .energised, output := true, maxOnTimer := timerFor (s.record d).maxOn s
      push := (s.diverter d).push ++ (s.diverter d).pending, pending := [] } := by
  unfold State.energisedWith
  rw [(same_markPushing _ _).diverter, diverter_setDiverter, diverter_energise, diverter_setWaiting]
  rfl

theorem entry_energisedWith (s : State) (d : Station) (tag : Tag) :
    (s.energisedWith d).entry tag = (s.entry tag).map (Entry.pushedWith (s.diverter d).pending) := by
  unfold State.energisedWith
  rw [markPushing_eq]
  exact entry_pushedWith _ _ tag

/-- A release with nothing held for a later energisation (R73, R76). -/
theorem releaseDiverter_empty (s : State) (d : Station) (empty : (s.diverter d).pending = []) :
    releaseDiverter d s = freeSlot (setDiverter d (fun v => { v with
      state := if 0 < (s.record d).recovery then .recovery else .idle
      output := false
      testPulse := false
      maxOnTimer := none
      pulseTimer := none
      recoveryTimer :=
        if 0 < (s.record d).recovery then some (s.timeStamp + BitVec.ofNat 32 (s.record d).recovery)
        else none }) s) := by
  have twice (f g : Diverter → Diverter) (t : State) :
      setDiverter d g (setDiverter d f t) = setDiverter d (fun v => g (f v)) t := by
    unfold setDiverter
    simp only [Vector.set_set, Fin.getElem_fin, Vector.getElem_set_self]
  have through (f : Diverter → Diverter) (t : State) : setDiverter d f (freeSlot t) = freeSlot (setDiverter d f t) := rfl
  unfold releaseDiverter endRecovery
  dsimp only
  by_cases none : (s.record d).recovery = 0
  · rw [if_pos none, diverter_freeSlot, diverter_setDiverter, if_pos empty, through, twice]
    simp [none]
  · have some : 0 < (s.record d).recovery := Nat.pos_of_ne_zero none
    rw [if_neg none, through, twice]
    simp [some, timerFor, ticks]

/-- The state that a grant leaves (R69). -/
theorem grant_eq (holds : HoldsItems s d) (push : (s.diverter d).push = []) (holding : (s.diverter d).pending ≠ [])
    (u : State) (hu : u = (s.energisedWith d).unpushed d (s.grantReleases d)) :
    grant d s = if s.pushedAt d = [] then releaseDiverter d u else u := by
  have pushing := congrArg Diverter.push (diverter_energisedWith s d)
  dsimp only at pushing
  rw [push, List.nil_append] at pushing
  have releases := placeReleases_eq (d := d) (s.diverter d).pending (s.energisedWith d) holds.distinct
    (by rw [pushing]; exact fun _ => id) (by rw [pushing]; exact holding)
    (fun tag member => by
      obtain ⟨e, found⟩ := holds.found tag member
      rw [entry_energisedWith, found]
      exact ⟨_, rfl⟩) (s.grantReleases d) ?_
  · rw [push_unpushed, pushing, ← hu] at releases
    exact releases
  · unfold State.grantReleases
    have found : (s.energisedWith d).entry = fun tag => (s.entry tag).map (Entry.pushedWith (s.diverter d).pending) := by
      funext tag
      exact entry_energisedWith s d tag
    have watches : (s.energisedWith d).watches = s.watches := by
      unfold State.energisedWith
      rw [markPushing_eq]
      rfl
    have record : (s.energisedWith d).record d = s.record d := by
      unfold State.energisedWith
      rw [markPushing_eq]
      rfl
    have position : (s.energisedWith d).counter.position = s.counter.position := by
      unfold State.energisedWith
      rw [markPushing_eq]
      rfl
    rw [found, ← List.map_filterMap, placedReleases_map _ _ _ (pushedWith_tag _), watches, record, position]
    simp only [pushedWith_tag, releasePoint_pushedWith]

theorem waits_energisedWith (s : State) (d : Station) :
    (s.energisedWith d).arbiter = { s.arbiter with
      slotsInUse := s.arbiter.slotsInUse + 1, waiting := s.arbiter.waiting.set d false, lastGranted := d } := by
  unfold State.energisedWith
  rw [markPushing_eq]
  rfl

/-- Only the parts a grant changes differ. -/
def GrantFrame (s t : State) : Prop :=
  ∃ watches table diverters arbiter monitors, t = { s with
    watches := watches, table := table, diverters := diverters, arbiter := arbiter, monitors := monitors }

theorem GrantFrame.unchanged (h : GrantFrame s t) : UnchangedBut grantParts s t := by
  obtain ⟨_, _, _, _, _, rfl⟩ := h
  intro p other
  cases p <;> first | exact rfl | exact ⟨rfl, rfl, rfl, rfl, rfl⟩ | exact absurd other (by decide)

theorem GrantFrame.trans {u : State} (h : GrantFrame s t) (k : GrantFrame t u) : GrantFrame s u := by
  obtain ⟨_, _, _, _, _, rfl⟩ := h
  obtain ⟨_, _, _, _, _, rfl⟩ := k
  exact ⟨_, _, _, _, _, rfl⟩

theorem grantFrame_setDiverter (f : Diverter → Diverter) (s : State) : GrantFrame s (setDiverter d f s) :=
  ⟨_, _, _, _, _, rfl⟩

theorem grantFrame_joins (tags : List Tag) (s : State) : GrantFrame s (s.joins d tags) :=
  ⟨_, _, _, _, _, joins_eq tags s⟩

theorem grantFrame_markPushing (tags : List Tag) (s : State) : GrantFrame s (markPushing tags s) :=
  ⟨_, _, _, _, _, markPushing_eq tags s⟩

theorem grantFrame_energise (s : State) : GrantFrame s (energise d (setWaiting d false s)) := ⟨_, _, _, _, _, rfl⟩

theorem grantFrame_watches (w : List Watch) (s : State) : GrantFrame s { s with watches := w } := ⟨_, _, _, _, _, rfl⟩

theorem grantFrame_unpushed (s : State) (d : Station) (r : List Tag × List Watch) :
    GrantFrame s ((s.energisedWith d).unpushed d r) :=
  (((((grantFrame_energise s).trans (grantFrame_setDiverter _ _)).trans (grantFrame_markPushing _ _)).trans
    (grantFrame_watches _ _)).trans (grantFrame_setDiverter _ _)).trans (grantFrame_joins _ _)

/-- What a grant leaves alone (R69). -/
theorem unchanged_grant (holds : HoldsItems s d) (push : (s.diverter d).push = []) (holding : (s.diverter d).pending ≠ []) :
    UnchangedBut grantParts s (grant d s) := by
  obtain ⟨u, hu⟩ : ∃ u, u = (s.energisedWith d).unpushed d (s.grantReleases d) := ⟨_, rfl⟩
  have frame : GrantFrame s u := hu ▸ grantFrame_unpushed s d _
  apply GrantFrame.unchanged
  rw [grant_eq holds push holding u hu]
  split
  · rw [releaseDiverter_empty u d ?_]
    · exact frame.trans ⟨_, _, _, _, _, rfl⟩
    · rw [hu, State.unpushed, (same_joins _ _).diverter, diverter_setDiverter]
      exact congrArg Diverter.pending (diverter_energisedWith s d)
  · exact frame

/-- A waiting diverter holds items, and pushes and times nothing (R63). -/
theorem waiting_diverter (law : DriveLaw s) (waits : s.waits d = true) :
    (s.diverter d).pending ≠ [] ∧ (s.diverter d).push = [] ∧ (s.diverter d).testPulse = false
      ∧ (s.diverter d).pulseTimer = none ∧ (s.diverter d).recoveryTimer = none := by
  obtain ⟨-, waiting, pushing, -, pulse, -, -, holding, -, -, -, pulseTimer, recovery⟩ := law.1 d
  have state := waiting.mp waits
  have noPulse : (s.diverter d).testPulse = false := by
    by_contra c
    simpa [state] using pulse (by simpa using c)
  refine ⟨holding state, ?_, noPulse, by simpa [noPulse] using pulseTimer, by simpa [state] using recovery⟩
  by_contra c
  simpa [state] using (pushing c).1

/-- Everything a grant to a waiting diverter does (R13, R69, R72, R73). -/
theorem grantTo_grant (law : DriveLaw s) (waits : s.waits d = true) (holds : HoldsItems s d) :
    GrantTo d s (grant d s) := by
  obtain ⟨holding, push, noPulse, noPulseTimer, noRecovery⟩ := waiting_diverter law waits
  obtain ⟨u, hu⟩ : ∃ u, u = (s.energisedWith d).unpushed d (s.grantReleases d) := ⟨_, rfl⟩
  have frame : GrantFrame s u := hu ▸ grantFrame_unpushed s d _
  have record : u.record d = s.record d := by
    obtain ⟨_, _, _, _, _, f⟩ := frame
    rw [f]
    rfl
  have time : u.timeStamp = s.timeStamp := by
    obtain ⟨_, _, _, _, _, f⟩ := frame
    rw [f]
  have own : u.diverter d =
      { state := .energised, disabled := (s.diverter d).disabled, testPulse := false, push := s.pushedAt d, pending := [],
        maxOnTimer := some (s.timeStamp + BitVec.ofNat 32 (s.record d).maxOn), recoveryTimer := none, pulseTimer := none,
        output := true } := by
    rw [hu, State.unpushed, (same_joins _ _).diverter, diverter_setDiverter]
    show { (s.energisedWith d).diverter d with
      push := ((s.energisedWith d).diverter d).push.filter (fun x => x ∉ s.passedAt d) } = _
    rw [diverter_energisedWith]
    dsimp only
    rw [push, noPulse, noPulseTimer, noRecovery, List.nil_append]
    rfl
  have other (d' : Station) (h : d' ≠ d) : u.diverter d' = s.diverter d' ∧ u.monitor d' = s.monitor d' := by
    rw [hu, State.unpushed, (same_joins _ _).diverter, diverter_setDiverter_ne _ h, joins_monitor_ne h]
    unfold State.energisedWith
    rw [markPushing_eq]
    refine ⟨?_, rfl⟩
    refine (diverter_setDiverter_ne (energise d (setWaiting d false s)) h
      (fun v => { v with push := v.push ++ (s.diverter d).pending, pending := [] })).trans ?_
    exact diverter_setDiverter_ne (setWaiting d false s) h
      (fun v => { v with state := .energised, output := true, maxOnTimer := timerFor (s.record d).maxOn s })
  have arbiter : u.arbiter = { s.arbiter with
      slotsInUse := s.arbiter.slotsInUse + 1, waiting := s.arbiter.waiting.set d false, lastGranted := d } := by
    rw [hu, State.unpushed, (same_joins _ _).arbiter]
    exact waits_energisedWith s d
  have table : u.table = State.confirmingTable
      { s with table := s.table.map (Entry.pushedWith (s.diverter d).pending) } d (s.passedAt d) false := by
    rw [hu, State.unpushed, joins_table]
    unfold State.energisedWith
    rw [markPushing_eq]
    rfl
  have watches : u.watches = (s.grantReleases d).2 := by
    rw [hu, State.unpushed, joins_eq]
    rfl
  have monitor : u.monitor d = if s.passedAt d = [] then s.monitor d else s.monitorWith u d (s.passedAt d) := by
    have before : (s.energisedWith d).monitor d = s.monitor d := by
      unfold State.energisedWith
      rw [markPushing_eq]
      rfl
    split
    · rename_i none
      have none : (s.grantReleases d).1 = [] := none
      rw [hu, State.unpushed, none]
      exact before
    · rename_i some
      rw [hu, State.unpushed, joins_monitor _ some]
      unfold State.monitorWith
      rw [← before]
      rfl
  rw [grant_eq holds push holding u hu]
  split
  · rename_i all
    rw [releaseDiverter_empty u d (by rw [own])]
    refine ⟨?_, ?_, table, watches, monitor, fun d' h => ⟨?_, (other d' h).2⟩⟩
    · rw [diverter_freeSlot, diverter_setDiverter, own, record, time, State.grantedDiverter, if_pos all, all]
      rfl
    · show { u.arbiter with slotsInUse := u.arbiter.slotsInUse - 1 } = _
      rw [arbiter, if_pos all]
      rfl
    · rw [diverter_freeSlot, diverter_setDiverter_ne _ h]
      exact (other d' h).1
  · rename_i some
    refine ⟨?_, ?_, table, watches, monitor, other⟩
    · rw [own, State.grantedDiverter, if_neg some]
    · rw [arbiter, if_neg some]

/-! ### The arbiter's grants (R65) -/

theorem entry_iff_mem (s : State) (tag : Tag) : (∃ e, s.entry tag = some e) ↔ tag ∈ s.table.map (·.tag) := by
  unfold State.entry
  rw [← Option.isSome_iff_exists, List.find?_isSome]
  simp

/-- A grant leaves every tag its entry. -/
theorem GrantTo.tags (h : GrantTo d s t) : t.table.map (·.tag) = s.table.map (·.tag) := by
  rw [h.table, State.confirmingTable, List.map_map, List.map_map]
  apply List.map_congr_left
  intro e _
  show (if _ then _ else _ : Entry).tag = _
  split <;> exact pushedWith_tag _ e

theorem GrantTo.holdsItems (h : GrantTo d s t) (holds : ∀ d, HoldsItems s d) (d' : Station) : HoldsItems t d' := by
  by_cases own : d' = d
  · subst own
    have empty : (t.diverter d').pending = [] := by
      rw [h.diverter, State.grantedDiverter]
      split <;> rfl
    constructor <;> rw [empty]
    · exact List.nodup_nil
    · exact fun _ m => absurd m List.not_mem_nil
  · have same := (h.others d' own).1
    constructor <;> rw [same]
    · exact (holds d').distinct
    · intro tag m
      rw [entry_iff_mem, h.tags, ← entry_iff_mem]
      exact (holds d').found tag m

theorem grants_arbitrateRounds (n : Nat) (law : DriveLaw s) (holds : ∀ d, HoldsItems s d) (few : s.waitingSet.card ≤ n) :
    Grants s (arbitrateRounds n s) := by
  induction n generalizing s with
  | zero =>
    refine .stay (.inr fun c => ?_)
    have e : s.waitingSet = ∅ := Finset.card_eq_zero.mp (by omega)
    have := Finset.notMem_empty c
    rw [← e] at this
    simpa [State.waitingSet] using this
  | succ n ih =>
    unfold arbitrateRounds
    split
    · rename_i free
      split
      · rename_i c chosen
        have waits := waits_of_chosen chosen
        have one := grantTo_grant law waits (holds c)
        obtain ⟨holding, push, -⟩ := waiting_diverter law waits
        have fewer := waitingSet_grant waits
        exact .next free (firstInSearch_of_chosen chosen) one
          (unchanged_grant (holds c) push holding)
          (ih (drive_grant law waits free) (one.holdsItems holds) (by omega))
      · rename_i none
        exact .stay (.inr (waits_of_chosen_none none))
    · rename_i busy
      exact .stay (.inl (by simpa using busy))

/-- Everything the arbiter's examination does (R65, R66, R69). -/
theorem grants_arbitrate (law : DriveLaw s) (holds : ∀ d, HoldsItems s d) : Grants s (arbitrate s) :=
  grants_arbitrateRounds 16 law holds (by simpa using Finset.card_le_univ s.waitingSet)

/-! ### Items of a lawful state -/

/-- An item in a pending list has its one entry, PENDING at that station (R36, R62). -/
theorem pending_entry (tags : TagLaw s) (place : PlaceLaw s) (held : tag ∈ (s.diverter d).pending) :
    ∃ e, s.entry tag = some e ∧ e ∈ s.table ∧ e.state = .pending ∧ e.target = .station d := by
  have m := (place.lists d).1.mem_iff.mp held
  simp only [State.tagsAt, List.mem_map, List.mem_filter, Bool.and_eq_true, beq_iff_eq] at m
  obtain ⟨e, ⟨member, state, target⟩, rfl⟩ := m
  obtain ⟨x, found⟩ := (entry_iff_mem s e.tag).mpr (List.mem_map_of_mem member)
  have same : x = e := by
    have own := tag_of_entry found
    exact List.inj_on_of_nodup_map tags.2.1 (mem_of_entry found) member own
  exact ⟨e, same ▸ found, member, state, target⟩

theorem holdsItems_of_laws (tags : TagLaw s) (place : PlaceLaw s) (d : Station) : HoldsItems s d where
  distinct := by
    refine (place.lists d).1.nodup_iff.mpr ?_
    exact (List.filter_sublist.map _).nodup tags.2.1
  found tag held := by
    obtain ⟨e, found, -⟩ := pending_entry tags place held
    exact ⟨e, found⟩

/-! ### The items released at once under the laws (R11 to R13) -/

/-- With every item ahead of its release point a grant releases none at once and replaces the watches (R69). -/
theorem placedReleases_ahead (position : Position) (watch : Entry → Watch) (entries : List Entry) (watches : List Watch)
    (ahead : ∀ e ∈ entries, reached position (watch e).position = false) :
    placedReleases position watch entries watches = ([], replacedWatches watch entries watches) := by
  induction entries generalizing watches with
  | nil => rfl
  | cons e rest ih =>
    have free := ahead e List.mem_cons_self
    rw [placedReleases_cons, replacedWatches_cons]
    dsimp only
    rw [if_neg (by simp [free])]
    exact ih _ (fun x m => ahead x (List.mem_cons_of_mem _ m))

theorem grantReleases_ahead (ahead : s.releasesAhead d) :
    s.grantReleases d = ([], replacedWatches (fun e => ⟨releasePoint (s.record d) e, .release d e.tag⟩)
      ((s.diverter d).pending.filterMap s.entry) s.watches) := by
  refine placedReleases_ahead _ _ _ _ (fun e m => ?_)
  obtain ⟨tag, held, found⟩ := List.mem_filterMap.mp m
  obtain ⟨x, fx, free⟩ := ahead tag held
  have : x = e := Option.some.inj ((show s.entry tag = some x from fx).symm.trans found)
  exact this ▸ free

/-- With a reached point before every point that is not reached, the items released at once are those whose release point
the line has reached (R13). -/
theorem placedReleases_reached (position : Position) (watch : Entry → Watch) (entries : List Entry) (watches : List Watch)
    (first : ∀ e ∈ entries, reached position (watch e).position = true →
      (∀ w ∈ watches, reached (watch e).position w.position = false)
      ∧ ∀ x ∈ entries, reached position (watch x).position = false →
        reached (watch e).position (watch x).position = false) :
    (placedReleases position watch entries watches).1
      = (entries.filter (fun e => reached position (watch e).position)).map (·.tag) := by
  induction entries generalizing watches with
  | nil => rfl
  | cons e rest ih =>
    rw [placedReleases_cons]
    dsimp only
    have others (w : Watch) (m : w ∈ watches.filter (fun w => w.kind.tag? != some e.tag)) : w ∈ watches :=
      (List.mem_filter.mp m).1
    by_cases now : reached position (watch e).position = true
    · have own := first e List.mem_cons_self now
      rw [if_pos ⟨now, fun w m => own.1 w (others w (List.mem_of_mem_head? m))⟩, List.filter_cons_of_pos (by exact now),
        List.map_cons]
      refine congrArg (e.tag :: ·) (ih _ (fun x m r => ⟨fun w h => ?_, fun y n => ?_⟩))
      · exact (first x (List.mem_cons_of_mem _ m) r).1 w (others w h)
      · exact (first x (List.mem_cons_of_mem _ m) r).2 y (List.mem_cons_of_mem _ n)
    · have ahead : reached position (watch e).position = false := by simpa using now
      rw [if_neg (by simp [ahead]), List.filter_cons_of_neg (by simp [ahead])]
      refine ih _ (fun x m r => ⟨fun w h => ?_, fun y n => ?_⟩)
      · rcases mem_insertSorted.mp h with rfl | h
        · exact (first x (List.mem_cons_of_mem _ m) r).2 e List.mem_cons_self ahead
        · exact (first x (List.mem_cons_of_mem _ m) r).1 w (others w h)
      · exact (first x (List.mem_cons_of_mem _ m) r).2 y (List.mem_cons_of_mem _ n)

/-- A difference of small integers in 32 bits. -/
theorem ofInt_sub_ofInt (a b : Int) : BitVec.ofInt 32 a - BitVec.ofInt 32 b = BitVec.ofInt 32 (a - b) := by
  rw [sub_eq_add_neg a b, BitVec.ofInt_add, BitVec.ofInt_neg, BitVec.sub_eq_add_neg]

/-- A position at a small signed distance from an origin. -/
def Near (origin q : Position) (z : Int) : Prop := q = origin + BitVec.ofInt 32 z ∧ -16777216 ≤ z ∧ z ≤ 16777216

theorem Near.reached {o p q : Position} {a b : Int} (hp : Near o p a) (hq : Near o q b) :
    reached p q = decide (b ≤ a) := by
  obtain ⟨rfl, a1, a2⟩ := hp
  obtain ⟨rfl, b1, b2⟩ := hq
  have e : o + BitVec.ofInt 32 a - (o + BitVec.ofInt 32 b) = BitVec.ofInt 32 (a - b) := by
    rw [← ofInt_sub_ofInt]
    exact add_sub_add_left_eq_sub _ _ _
  unfold Machine.reached
  rw [e, BitVec.toInt_ofInt]
  have : (a - b).bmod (2 ^ 32) = a - b := by
    apply Int.bmod_eq_of_le <;> omega
  rw [this]
  congr 1
  exact propext (by omega)

theorem near_of_behind {o q : Position} (h : 0 ≤ (o - q).toInt ∧ (o - q).toInt ≤ 4194304) :
    ∃ z, Near o q z ∧ -4194304 ≤ z ∧ z ≤ 0 := by
  refine ⟨-(o - q).toInt, ⟨?_, by omega, by omega⟩, by omega, by omega⟩
  rw [BitVec.ofInt_neg, BitVec.ofInt_toInt]
  bv_omega

theorem Near.add {o q : Position} {z : Int} (h : Near o q z) (n : Nat) (small : z + n ≤ 16777216) :
    Near o (q + BitVec.ofNat 32 n) (z + n) := by
  obtain ⟨rfl, a, b⟩ := h
  refine ⟨?_, by omega, small⟩
  rw [BitVec.ofInt_add, BitVec.ofInt_natCast, BitVec.add_assoc]

theorem Near.sub {o q : Position} {z : Int} (h : Near o q z) (n : Nat) (small : -16777216 ≤ z - n) :
    Near o (q - BitVec.ofNat 32 n) (z - n) := by
  obtain ⟨rfl, a, b⟩ := h
  refine ⟨?_, small, by omega⟩
  rw [← ofInt_sub_ofInt, BitVec.ofInt_natCast]
  exact add_sub_assoc _ _ _

/-- The lead of an entry that holds a watch is near the high-water mark. -/
theorem near_lead (bounds : BoundLaw s) (member : e ∈ s.table) (watch : (s.watchOf e).isSome = true) :
    ∃ z, Near s.counter.highWater e.lead z ∧ -4194304 ≤ z ∧ z ≤ 0 :=
  near_of_behind (bounds.leads e member watch)

theorem near_releasePoint (bounds : BoundLaw s) (member : e ∈ s.table) (watch : (s.watchOf e).isSome = true)
    (d : Station) : ∃ z, Near s.counter.highWater (releasePoint (s.record d) e) z := by
  obtain ⟨z, near, low, high⟩ := near_lead bounds member watch
  have length := bounds.lengths e member
  obtain ⟨offset, -, -, margin⟩ := bounds.active.stations d
  exact ⟨_, ((near.add e.length (by omega)).add (s.record d).offset
    (by simp only [State.record, Fin.getElem_fin] at *; omega)).add (s.record d).releaseMargin
    (by simp only [State.record, Fin.getElem_fin] at *; omega)⟩

/-- Every watch of the list is near the high-water mark (R11). -/
theorem near_watch (watches : WatchLaw s) (bounds : BoundLaw s) (w : Watch) (member : w ∈ s.watches) :
    ∃ z, Near s.counter.highWater w.position z := by
  rcases List.mem_append.mp (watches.each.mem_iff.mp member) with m | m
  · obtain ⟨e, held, h⟩ := List.mem_filterMap.mp m
    have some : (s.watchOf e).isSome = true := by rw [h]; rfl
    obtain ⟨z, near, low, high⟩ := near_lead bounds held some
    have line := bounds.active.runoff
    have exit := bounds.active.tolerances.1
    have stations := bounds.active.stations
    unfold State.watchOf at h
    split at h
    · obtain rfl := Option.some.inj h
      unfold runoffPoint
      split
      · exact ⟨_, (near.add _ (by omega)).add _ (by omega)⟩
      · exact ⟨_, by simpa [ticks] using near.add s.config.line.runoffOffset (by omega)⟩
    · rename_i d _ _
      obtain rfl := Option.some.inj h
      obtain ⟨offset, advance, -, -⟩ := stations d
      exact ⟨_, (near.add (s.record d).offset (by simp only [State.record, Fin.getElem_fin] at *; omega)).sub
        (s.record d).advance (by simp only [State.record, Fin.getElem_fin] at *; omega)⟩
    · rename_i d _ _
      obtain rfl := Option.some.inj h
      obtain ⟨offset, -, late, -⟩ := stations d
      exact ⟨_, (near.add (s.record d).offset (by simp only [State.record, Fin.getElem_fin] at *; omega)).add
        (s.record d).lateMargin (by simp only [State.record, Fin.getElem_fin] at *; omega)⟩
    · rename_i d _ _
      obtain rfl := Option.some.inj h
      exact near_releasePoint bounds held some d
    · exact absurd h (by simp)
  · unfold State.slotWatch at m
    split at m
    · rename_i lead refused slot
      obtain rfl := List.mem_singleton.mp m
      obtain ⟨z, near, low, high⟩ := near_of_behind (bounds.slot lead refused slot)
      exact ⟨_, near.add _ (by have := bounds.active.maxLength.2; omega)⟩
    · exact absurd m List.not_mem_nil

/-- The line position is near the high-water mark while the line works (R6). -/
theorem near_position (bounds : BoundLaw s) (working : s.line.state.working = true) :
    ∃ z, Near s.counter.highWater s.counter.position z := by
  have excursion := bounds.excursion working
  have tolerance := bounds.active.tolerances.2
  obtain ⟨z, near, -⟩ := near_of_behind (o := s.counter.highWater) (q := s.counter.position) (by
    rw [BitVec.toInt_eq_toNat_of_lt (by omega)]
    omega)
  exact ⟨z, near⟩

/-- Under the laws a grant releases at once the items whose release point the line has reached, and no other (R13, R69). -/
theorem passedAt_of_laws (tags : TagLaw s) (laws : TrackingLaw s) (d : Station) :
    s.passedAt d = (s.diverter d).pending.filter (fun tag =>
      (s.entry tag).any (fun e => reached s.counter.position (releasePoint (s.record d) e))) := by
  have listed (l : List Tag) (sub : ∀ tag ∈ l, tag ∈ (s.diverter d).pending) :
      ((l.filterMap s.entry).filter (fun e => reached s.counter.position (releasePoint (s.record d) e))).map (·.tag)
        = l.filter (fun tag =>
          (s.entry tag).any (fun e => reached s.counter.position (releasePoint (s.record d) e))) := by
    induction l with
    | nil => rfl
    | cons tag rest ih =>
      obtain ⟨e, found, -⟩ := pending_entry tags laws.place (sub tag List.mem_cons_self)
      have rest := ih (fun x m => sub x (List.mem_cons_of_mem _ m))
      rw [List.filterMap_cons_some found, List.filter_cons, List.filter_cons, found, Option.any_some]
      split
      · rw [List.map_cons, rest, tag_of_entry found]
      · exact rest
  unfold State.passedAt State.grantReleases
  rw [placedReleases_reached, listed _ (fun _ => id)]
  intro e member now
  obtain ⟨tag, held, found⟩ := List.mem_filterMap.mp member
  have facts (x : Entry) (m : x ∈ (s.diverter d).pending.filterMap s.entry) :
      x ∈ s.table ∧ x.state = .pending ∧ (s.watchOf x).isSome = true := by
    obtain ⟨tag, held, found⟩ := List.mem_filterMap.mp m
    obtain ⟨y, fy, my, state, target⟩ := pending_entry tags laws.place held
    have : x = y := Option.some.inj (found.symm.trans fy)
    subst this
    exact ⟨my, state, by rw [State.watchOf, state, target]; rfl⟩
  obtain ⟨inTable, state, watch⟩ := facts e member
  have working : s.line.state.working = true := by
    have full : s.table ≠ [] := List.ne_nil_of_mem inTable
    cases line : s.line.state with
    | idle => exact absurd (laws.place.empty (.inl line)) full
    | ready => exact absurd (laws.place.empty (.inr line)) full
    | halted => exact absurd (state.symm.trans (laws.place.halted line e inTable)) (by decide)
    | running => rfl
    | draining => rfl
  obtain ⟨a, position⟩ := near_position laws.bound working
  obtain ⟨b, point⟩ := near_releasePoint laws.bound inTable watch d
  have before : b ≤ a := by simpa [position.reached point] using now
  refine ⟨fun w m => ?_, fun x m ahead => ?_⟩
  · obtain ⟨c, near⟩ := near_watch laws.watch laws.bound w m
    have after := laws.watch.ahead w m
    rw [position.reached near, decide_eq_false_iff_not] at after
    rw [show reached _ _ = _ from point.reached near, decide_eq_false_iff_not]
    omega
  · obtain ⟨inTable, -, watch⟩ := facts x m
    obtain ⟨c, near⟩ := near_releasePoint laws.bound inTable watch d
    have after : reached s.counter.position (releasePoint (s.record d) x) = false := ahead
    rw [position.reached near, decide_eq_false_iff_not] at after
    rw [show reached _ _ = _ from point.reached near, decide_eq_false_iff_not]
    omega

/-- A grant whose items are all ahead of their release points (R69). -/
theorem grantTo_ahead (law : DriveLaw s) (waits : s.waits d = true) (ahead : s.releasesAhead d) :
    GrantTo d s (grant d s) := by
  obtain ⟨holding, push, noPulse, noPulseTimer, noRecovery⟩ := waiting_diverter law waits
  have passed : s.passedAt d = [] := congrArg Prod.fst (grantReleases_ahead ahead)
  have pushed : s.pushedAt d = (s.diverter d).pending := by simp [State.pushedAt, passed]
  rw [grant_ahead ahead]
  refine ⟨?_, ?_, ?_, (congrArg Prod.snd (grantReleases_ahead ahead)).symm, ?_, fun d' other => ⟨?_, rfl⟩⟩
  · refine (diverter_setDiverter (energise d (setWaiting d false s)) d
      (fun v => { v with push := v.push ++ (s.diverter d).pending, pending := [] })).trans ?_
    rw [diverter_energise, diverter_setWaiting, State.grantedDiverter, pushed, if_neg holding]
    simp only [push, noPulse, noPulseTimer, noRecovery, List.nil_append]
    rfl
  · rw [pushed, if_neg holding]
    rfl
  · rw [passed]
    simp [State.confirmingTable]
  · rw [passed, if_pos rfl]
    rfl
  · refine (diverter_setDiverter_ne (energise d (setWaiting d false s)) other
      (fun v => { v with push := v.push ++ (s.diverter d).pending, pending := [] })).trans ?_
    exact diverter_setDiverter_ne (setWaiting d false s) other
      (fun v => { v with state := .energised, output := true, maxOnTimer := timerFor (s.record d).maxOn s })

end Sys2Proof.Machine
end

