-- ==== Sys2Proof/Tests/Slice0.lean ====
section
/-! SUPPORT. Tests: ill-formed commands are refused, fixed values written out from the spec, and for every statement with
hypotheses a state and operands that meet them, clause by clause, at the ends of their ranges. -/

namespace Sys2Proof.Tests

open Sys2Proof.Machine

/-! ### Small states -/

/-- A station's record: offset, alternate, advance 5, late margin 3, release margin 2. -/
def stationRecord (offset alternate : Nat) : DiverterRecord :=
  { DiverterRecord.default with
    installed := true, offset := offset, advance := 5, lateMargin := 3, releaseMargin := 2, alternate := alternate }

/-- A line of two stations at offsets 40 and 80, the second the alternate of the first, with the run-off at 200. -/
def twoStations : Configuration where
  line :=
    { LineRecord.default with
      minLength := 10, maxLength := 20, minGap := 8, runoffOffset := 200, reverseTolerance := 2, holdThreshold := 2,
      driveBudget := 1 }
  diverters := ((Vector.replicate 16 DiverterRecord.default).set 0 (stationRecord 40 2)).set 1 (stationRecord 80 0)

/-- The two-station line in a line state, nothing on it. -/
def lane (l : LineState) : State :=
  { State.reset with
    config := twoStations
    pendingConfig := twoStations
    diverters :=
      ((Vector.replicate 16 Diverter.atReset).set 0 { Diverter.atReset with state := .idle }).set 1
        { Diverter.atReset with state := .idle }
    arbiter := { State.reset.arbiter with budget := 1 }
    line := { State.reset.line with state := l, haltCause := if l = .halted then .order else .none, runPermit := l.working } }

/-- The two-station line in RUNNING with entries, watches and a position. -/
def running (table : List Entry) (watches : List Watch) (position : Position) : State :=
  { lane .running with
    table := table, watches := watches
    counter := { State.reset.counter with position := position, highWater := position } }

/-- An entry of length 15, on its way to the run-off. -/
def item (tag : Tag) (lead : Position) : Entry := newEntry tag lead 15 {}

/-- An entry on its way to a station. -/
def bound (tag : Tag) (lead : Position) (d : Station) : Entry :=
  { item tag lead with assigned := some (.station d), target := .station d }

/-- An entry with a station's diverter: its state, and its unit. -/
def taken (tag : Tag) (lead : Position) (d : Station) (st : EntryState) : Entry :=
  { bound tag lead d with state := st, reservedWith := some d }

/-- A destination open for uncounted items, or counted with a number of units left. -/
def opened (base remaining outstanding : Nat) (r : DestRecord) : DestRecord :=
  { r with base := base, remaining := remaining, outstanding := outstanding, causes := {} }

/-- The diverter of station 1 waits for a slot with item 1, while station 2 pushes item 2 and holds the one slot. -/
def contested (position : Position) : State :=
  { running [taken 1 0 0 .pending, taken 2 (-40) 1 .pushing] [⟨43, .late 0 1⟩, ⟨57, .release 1 2⟩] position with
    diverters := ((lane .running).diverters.set 0 { Diverter.atReset with state := .waiting, pending := [1] }).set 1
      { Diverter.atReset with state := .energised, push := [2], output := true, maxOnTimer := some 500 }
    arbiter :=
      { budget := 1, slotsInUse := 1, waiting := (Vector.replicate 16 false).set 0 true, lastGranted := 1 }
    destinations := ((lane .running).destinations.set 0 (opened 0 0 1 DestRecord.atReset)).set 1
      (opened 0 0 1 DestRecord.atReset) }

/-- The diverter of station 1 pushes item 1, with nothing waiting. -/
def pushing (position : Position) : State :=
  { running [taken 1 0 0 .pushing] [⟨57, .release 0 1⟩] position with
    diverters := (lane .running).diverters.set 0
      { Diverter.atReset with state := .energised, push := [1], output := true, maxOnTimer := some 500 }
    arbiter := { (lane .running).arbiter with slotsInUse := 1 }
    destinations := (lane .running).destinations.set 0 (opened 0 0 1 DestRecord.atReset) }

/-- The diverter of station 1 recovers and holds what it is given. -/
def recovering (held : List Tag) (position : Position) : State :=
  { running [taken 1 0 0 .pending] [⟨43, .late 0 1⟩] position with
    diverters := (lane .running).diverters.set 0
      { Diverter.atReset with state := .recovery, pending := held, recoveryTimer := some 0 }
    destinations := (lane .running).destinations.set 0 (opened 0 0 1 DestRecord.atReset) }

/-- Item 1 awaits its confirmation at station 1. -/
def confirming (base remaining : Nat) (reload : Bool) : State :=
  { running [{ taken 1 0 0 .confirming with confirmDeadline := some 0 }] [] 60 with
    monitors := (lane .running).monitors.set 0
      { confirm := [1], deadlineTimer := some 0, eye := .clear, chute := .clear, chuteTimer := none }
    destinations := (lane .running).destinations.set 0
      { opened base remaining 1 DestRecord.atReset with autoReload := reload } }

/-- The chute of station 1 in a chute state with its timer run out, and its eye at a level. -/
def chuteAt (l : LineState) (c : ChuteState) (eye : EyeLevel) : State :=
  { lane l with
    monitors := (lane l).monitors.set 0
      { confirm := [], deadlineTimer := none, eye := eye, chute := c, chuteTimer := some 0 } }

/-- A state with the answer slot, the buffer, the transmitter and the receiver as given. -/
def linked (answer : Option Frame) (orders : List Frame) (t : Transmitter) (r : Receiver) : State :=
  { lane .ready with link := { (lane .ready).link with answer := answer, orders := orders, transmitter := t, receiver := r } }

/-- STRT under NUMBER 5 as the frame that carries it, and a notice frame. -/
def strtFrame : Frame := { cls := classOrder, kind := 0x10, number := 5, payload := [] }
def noticeFrame : Frame := { cls := classNotice, kind := 0x86, number := 5, payload := [] }

/-- A report queue with notices 0 and 1 sent and notice 2 waiting, under a window. -/
def sentTwo (window : Nat) : ReportQueue :=
  { ReportQueue.atReset .power with
    notices := [⟨0, 0, 0, 0, .restart .power⟩, ⟨1, 0, 0, 0, .exitUnexpected⟩, ⟨2, 0, 0, 0, .exitUnexpected⟩]
    next := 3, sendPointer := 2, highestSent := 1, window := window
    retryTimer := if window = 0 then none else some 0 }

/-- Station 1 waits with item 4; station 2 pushes item 2, its maximum on-time run out, and holds item 3, while item 1 awaits
its confirmation there. The supervision timer has run out under the loss action RUNOFF_ALL. -/
def crowded (position : Position) : State :=
  { running
      [{ taken 1 (-60) 1 .confirming with confirmDeadline := some 500 }, taken 2 (-42) 1 .pushing,
        taken 3 (-25) 1 .pending, taken 4 17 0 .pending]
      [⟨55, .release 1 2⟩, ⟨58, .late 1 3⟩, ⟨60, .late 0 4⟩] position with
    diverters := ((lane .running).diverters.set 0 { Diverter.atReset with state := .waiting, pending := [4] }).set 1
      { Diverter.atReset with
        state := .energised, push := [2], pending := [3], output := true, maxOnTimer := some 0 }
    arbiter :=
      { budget := 1, slotsInUse := 1, waiting := (Vector.replicate 16 false).set 0 true, lastGranted := 1 }
    monitors := (lane .running).monitors.set 1
      { confirm := [1], deadlineTimer := some 500, eye := .clear, chute := .clear, chuteTimer := none }
    destinations := ((lane .running).destinations.set 0 (opened 5 4 1 DestRecord.atReset)).set 1
      (opened 0 0 3 DestRecord.atReset)
    supervisor := { state := .up, time := 50, action := .runoffAll, timer := some 0 } }

/-- `crowded` with the recovery time 0 at station 2. -/
def crowdedBriefly (position : Position) : State :=
  { crowded position with
    config := { twoStations with diverters := twoStations.diverters.set 1 { stationRecord 80 0 with recovery := 0 } } }

/-- The two-station line with the late margin 30 at station 1, so that an item is past its release point 13 ticks before its
late point, and the recovery time 0 at station 2. -/
def lateLine : Configuration :=
  { twoStations with
    diverters := (twoStations.diverters.set 0 { stationRecord 40 2 with lateMargin := 30 }).set 1
      { stationRecord 80 0 with recovery := 0 } }

/-- `crowded` on that line, with item 4 past its release point 47. -/
def crowdedPast (position : Position) : State :=
  { crowded position with
    config := lateLine
    table := (crowded position).table.dropLast ++ [taken 4 (-10) 0 .pending] }

/-- A slot is free, and the diverter of station 1 of that line, in a state, holds items. -/
def overdue (v : Diverter) (table : List Entry) (watches : List Watch) (position : Position) : State :=
  { running table watches position with
    config := lateLine
    pendingConfig := lateLine
    diverters := (lane .running).diverters.set 0 { v with pending := table.map (·.tag) }
    arbiter :=
      { budget := 1, slotsInUse := 0, waiting := (Vector.replicate 16 false).set 0 (v.state == .waiting)
        lastGranted := 15 }
    destinations := (lane .running).destinations.set 0 (opened 0 0 table.length DestRecord.atReset) }

/-- Station 1 waits: with item 1 past its release point 57, and with item 2 behind it, its release point 73 ahead. -/
def overdueAll : State :=
  overdue { Diverter.atReset with state := .waiting } [taken 1 0 0 .pending] [⟨70, .late 0 1⟩] 60
def overdueSome : State :=
  overdue { Diverter.atReset with state := .waiting } [taken 1 0 0 .pending, taken 2 16 0 .pending]
    [⟨70, .late 0 1⟩, ⟨86, .late 0 2⟩] 60

/-- The recovery of station 1 runs out with item 1 past its release point. -/
def overdueRecovery : State :=
  overdue { Diverter.atReset with state := .recovery, recoveryTimer := some 0 } [taken 1 0 0 .pending]
    [⟨70, .late 0 1⟩] 60

/-- Item 1 waits for station 1 while a test pulse that began before STRT runs out at station 2. -/
def pulsingBeside : State :=
  { running [taken 1 0 0 .pending] [⟨43, .late 0 1⟩] 40 with
    diverters := ((lane .running).diverters.set 0 { Diverter.atReset with state := .waiting, pending := [1] }).set 1
      { Diverter.atReset with state := .energised, testPulse := true, output := true, pulseTimer := some 0 }
    arbiter :=
      { budget := 1, slotsInUse := 1, waiting := (Vector.replicate 16 false).set 0 true, lastGranted := 1 }
    destinations := (lane .running).destinations.set 0 (opened 0 0 1 DestRecord.atReset) }

/-! ### The laws, checked -/

/-- The clauses of `DiverterLaw`, checked. -/
def lawful (v : Diverter) (waits : Bool) : Bool :=
  decide ((v.output = true ↔ v.state = .energised) ∧ (waits = true ↔ v.state = .waiting)
    ∧ (v.push ≠ [] → v.state = .energised ∧ v.testPulse = false)
    ∧ (v.state = .energised → v.testPulse = false → v.push ≠ []) ∧ (v.testPulse = true → v.state = .energised)
    ∧ (v.disabled = true → v.state = .off) ∧ (v.state = .off ∨ v.state = .idle → v.pending = [])
    ∧ (v.state = .waiting → v.pending ≠ []) ∧ v.push.length ≤ Config.listCapacity
    ∧ v.pending.length ≤ Config.listCapacity
    ∧ (v.maxOnTimer.isSome = true ↔ v.state = .energised ∧ v.testPulse = false)
    ∧ (v.pulseTimer.isSome = true ↔ v.testPulse = true) ∧ (v.recoveryTimer.isSome = true ↔ v.state = .recovery))

theorem driveLaw_of_checks {s : State} (each : ∀ d, lawful (s.diverter d) (s.waits d) = true)
    (slots : s.arbiter.slotsInUse = s.energisedCount) (fits : s.arbiter.slotsInUse ≤ s.arbiter.budget) : DriveLaw s := by
  refine ⟨fun d => ?_, slots, fits⟩
  obtain ⟨a, b, c, d, e, f, g, h, i, j, k, l, m⟩ := of_decide_eq_true (each d)
  exact ⟨a, b, c, d, e, f, g, h, i, j, k, l, m⟩

theorem driveLaw_lane (l : LineState) : DriveLaw (lane l) := by
  cases l <;> exact driveLaw_of_checks (by decide) (by decide) (by decide)

theorem driveLaw_contested (p : Position) : DriveLaw (contested p) :=
  driveLaw_of_checks
    (show ∀ d, lawful ((contested 0).diverter d) ((contested 0).waits d) = true by decide)
    (show (contested 0).arbiter.slotsInUse = (contested 0).energisedCount by decide)
    (show (contested 0).arbiter.slotsInUse ≤ (contested 0).arbiter.budget by decide)

theorem driveLaw_pushing (p : Position) : DriveLaw (pushing p) :=
  driveLaw_of_checks
    (show ∀ d, lawful ((pushing 0).diverter d) ((pushing 0).waits d) = true by decide)
    (show (pushing 0).arbiter.slotsInUse = (pushing 0).energisedCount by decide)
    (show (pushing 0).arbiter.slotsInUse ≤ (pushing 0).arbiter.budget by decide)

theorem driveLaw_crowded (p : Position) : DriveLaw (crowded p) :=
  driveLaw_of_checks
    (show ∀ d, lawful ((crowded 42).diverter d) ((crowded 42).waits d) = true by decide)
    (show (crowded 42).arbiter.slotsInUse = (crowded 42).energisedCount by decide)
    (show (crowded 42).arbiter.slotsInUse ≤ (crowded 42).arbiter.budget by decide)

theorem noSlotWasted_of_full {s : State} (full : s.slotFree = false) : NoSlotWasted s :=
  fun free => absurd (full.symm.trans free) (by decide)

/-- `State.releasesAhead`, checked. -/
def releasing (s : State) (d : Station) : Bool :=
  (s.diverter d).pending.all (fun tag =>
    (s.entry tag).any (fun e => !reached s.counter.position (releasePoint (s.record d) e)))

theorem releasesAhead_of_check {s : State} {d : Station} (check : releasing s d = true) : s.releasesAhead d := by
  intro tag member
  have passes := List.all_eq_true.mp check tag member
  match found : s.entry tag with
  | none =>
    rw [found] at passes
    cases passes
  | some e =>
    rw [found] at passes
    exact ⟨e, rfl, by simpa using passes⟩

/-- Every waiting diverter has the release points it needs ahead, checked. -/
theorem releasesAhead_of_checks {s u : State} (checks : ∀ c, u.waits c = true → releasing s c = true) :
    ∀ c, u.waits c = true → s.releasesAhead c :=
  fun c waits => releasesAhead_of_check (checks c waits)

theorem tagLaw_crowded (p : Position) : TagLaw (crowded p) :=
  show TagLaw (crowded 42) by unfold TagLaw; decide

theorem placeLaw_crowded (p : Position) : PlaceLaw (crowded p) :=
  have base : PlaceLaw (crowded 42) :=
    ⟨by decide, by decide, by decide, by decide, by decide, by decide, by decide, by decide, by decide⟩
  ⟨base.1, base.2, base.3, base.4, base.5, base.6, base.7, base.8, base.9⟩

theorem monitorLaw_crowded (p : Position) : MonitorLaw (crowded p) :=
  have base : MonitorLaw (crowded 42) := ⟨by decide, by decide⟩
  ⟨base.1, base.2⟩

theorem bounded_twoStations : twoStations.Bounded := ⟨by decide, by decide, by decide, by decide⟩

theorem trackingLaw_crowded : TrackingLaw (crowded 54) where
  watch := ⟨by decide, by decide, by decide, by decide⟩
  place := placeLaw_crowded 54
  count := ⟨by decide, by decide, by decide⟩
  monitor := monitorLaw_crowded 54
  bound := ⟨by decide, by decide, nofun, by decide, bounded_twoStations, bounded_twoStations, by decide⟩

theorem lawful_crowdedBriefly :
    DriveLaw (crowdedBriefly 55) ∧ TagLaw (crowdedBriefly 55) ∧ PlaceLaw (crowdedBriefly 55)
      ∧ MonitorLaw (crowdedBriefly 55) :=
  ⟨driveLaw_of_checks (by decide) (by decide) (by decide), by unfold TagLaw; decide,
    ⟨by decide, by decide, by decide, by decide, by decide, by decide, by decide, by decide, by decide⟩,
    by decide, by decide⟩

theorem lawful_pulsingBeside :
    DriveLaw pulsingBeside ∧ TagLaw pulsingBeside ∧ PlaceLaw pulsingBeside :=
  ⟨driveLaw_of_checks (by decide) (by decide) (by decide), by unfold TagLaw; decide,
    by decide, by decide, by decide, by decide, by decide, by decide, by decide, by decide, by decide⟩

theorem lawful_crowdedPast :
    DriveLaw (crowdedPast 55) ∧ TagLaw (crowdedPast 55) ∧ PlaceLaw (crowdedPast 55) ∧ MonitorLaw (crowdedPast 55) :=
  ⟨driveLaw_of_checks (by decide) (by decide) (by decide), by unfold TagLaw; decide,
    ⟨by decide, by decide, by decide, by decide, by decide, by decide, by decide, by decide, by decide⟩,
    by decide, by decide⟩

theorem bounded_lateLine : lateLine.Bounded := ⟨by decide, by decide, by decide, by decide⟩

theorem lawful_overdueAll : DriveLaw overdueAll ∧ TagLaw overdueAll ∧ TrackingLaw overdueAll :=
  ⟨driveLaw_of_checks (by decide) (by decide) (by decide), by unfold TagLaw; decide,
    { watch := ⟨by decide, by decide, by decide, by decide⟩
      place := ⟨by decide, by decide, by decide, by decide, by decide, by decide, by decide, by decide, by decide⟩
      count := ⟨by decide, by decide, by decide⟩
      monitor := ⟨by decide, by decide⟩
      bound := ⟨by decide, by decide, nofun, by decide, bounded_lateLine, bounded_lateLine, by decide⟩ }⟩

theorem lawful_overdueSome : DriveLaw overdueSome ∧ TagLaw overdueSome ∧ TrackingLaw overdueSome :=
  ⟨driveLaw_of_checks (by decide) (by decide) (by decide), by unfold TagLaw; decide,
    { watch := ⟨by decide, by decide, by decide, by decide⟩
      place := ⟨by decide, by decide, by decide, by decide, by decide, by decide, by decide, by decide, by decide⟩
      count := ⟨by decide, by decide, by decide⟩
      monitor := ⟨by decide, by decide⟩
      bound := ⟨by decide, by decide, nofun, by decide, bounded_lateLine, bounded_lateLine, by decide⟩ }⟩

theorem lawful_overdueRecovery : DriveLaw overdueRecovery ∧ TagLaw overdueRecovery ∧ PlaceLaw overdueRecovery :=
  ⟨driveLaw_of_checks (by decide) (by decide) (by decide), by unfold TagLaw; decide,
    by decide, by decide, by decide, by decide, by decide, by decide, by decide, by decide, by decide⟩

theorem lineLaw_crowded : LineLaw (crowded 54) := by
  unfold LineLaw
  decide

/-- A DRAINING line with nothing left on it but what one diverter is doing. -/
def draining (v : Diverter) (slots : Nat) : State :=
  { lane .draining with
    config := { twoStations with diverters := twoStations.diverters.set 0 { stationRecord 40 2 with recovery := 0 } }
    diverters := (lane .draining).diverters.set 0 v
    arbiter := { (lane .draining).arbiter with slotsInUse := slots } }

/-- A diverter at the end of its recovery, and one at the end of a test pulse. -/
def recovered : Diverter := { Diverter.atReset with state := .recovery, recoveryTimer := some 0 }
def pulsed : Diverter :=
  { Diverter.atReset with state := .energised, testPulse := true, output := true, pulseTimer := some 0 }

theorem lawful_draining :
    (DriveLaw (draining recovered 0) ∧ TagLaw (draining recovered 0) ∧ PlaceLaw (draining recovered 0)
        ∧ MonitorLaw (draining recovered 0))
      ∧ (DriveLaw (draining pulsed 1) ∧ TagLaw (draining pulsed 1) ∧ PlaceLaw (draining pulsed 1)) :=
  ⟨⟨driveLaw_of_checks (by decide) (by decide) (by decide), by unfold TagLaw; decide,
      ⟨by decide, by decide, by decide, by decide, by decide, by decide, by decide, by decide, by decide⟩,
      by decide, by decide⟩,
    driveLaw_of_checks (by decide) (by decide) (by decide), by unfold TagLaw; decide,
    by decide, by decide, by decide, by decide, by decide, by decide, by decide, by decide, by decide⟩

theorem firstInSearch_crowded (p : Position) :
    ((crowded p).withDiverter 1 ((crowded p).released 1)).firstInSearch 0 :=
  ⟨rfl, show ∀ d' : Station, ((crowded 42).withDiverter 1 ((crowded 42).released 1)).waits d' = true →
    (0 : Station) - (1 + 1) ≤ d' - (1 + 1) by decide⟩

/-! ### Fixed values written out from the spec -/

/-- Ill-formed commands: one for each check (entry 22). -/
theorem test_ill_formed :
    (Instr.cmit 1 (List.replicate 49 0)).wellFormed = false ∧ (Instr.cmit 1 (List.replicate 48 0)).wellFormed = true
      ∧ (Instr.unknownKind 1 0x44 []).wellFormed = false ∧ (Instr.unknownKind 1 0x45 []).wellFormed = true
      ∧ (Instr.maxOnExpiry 0).wellFormed = false ∧ (Instr.maxOnExpiry 17).wellFormed = false
      ∧ (Instr.maxOnExpiry 1).wellFormed = true ∧ (Instr.maxOnExpiry 16).wellFormed = true
      ∧ (Instr.lateWatch 0 1).wellFormed = false ∧ (Instr.releaseWatch 1 0).wellFormed = false
      ∧ (Instr.fireWatch 0).wellFormed = false ∧ (Instr.runoffWatch 65535).wellFormed = true := by decide

/-- An ill-formed command is refused by its meaning. -/
theorem test_ill_formed_refused :
    exec (.maxOnExpiry 17) State.reset = .refused .illFormed ∧ exec (.releaseWatch 0 1) State.reset = .refused .illFormed
      ∧ exec (.unknownKind 1 0x44 []) State.reset = .refused .illFormed := ⟨rfl, rfl, rfl⟩

/-- The check value that R171 names: the CRC of the nine characters 123456789. -/
theorem test_crc : crc [0x31, 0x32, 0x33, 0x34, 0x35, 0x36, 0x37, 0x38, 0x39] = 0x29B1 := by decide +kernel

/-- The worked order frame of 12_frame_layouts_and_connections.md: ASGN of tag 52 to station 7 under NUMBER 301. -/
theorem test_asgn_frame :
    (Frame.bytes { cls := classOrder, kind := OrderKind.asgn.code, number := 301, payload := [0x34, 0x00, 0x07, 0x00] }).take 10
      = [0xA6, 0x04, 0x01, 0x20, 0x2D, 0x01, 0x34, 0x00, 0x07, 0x00] := by decide

/-- The quadrature table of R3 at the reference 00. -/
theorem test_quadrature :
    classify ⟨false, false⟩ ⟨true, false⟩ = .forward ∧ classify ⟨false, false⟩ ⟨false, true⟩ = .reverse
      ∧ classify ⟨false, false⟩ ⟨true, true⟩ = .illegal ∧ classify ⟨false, false⟩ ⟨false, false⟩ = .noChange := by decide

/-- The two-station configuration is valid. -/
theorem test_two_stations_valid : twoStations.failure = none := by decide

/-- A grant to a diverter whose one item is past its release point: released within the grant into RECOVERY, the item at the
tail of the confirm list, the slot free again (R69, R72, R73). -/
theorem test_grant_past_release :
    (match exec .slotGrant overdueAll with
      | .next t => decide ((t.diverter 0).state = .recovery ∧ (t.diverter 0).pending = [] ∧ (t.diverter 0).output = false
          ∧ t.slotFree = true ∧ (t.monitor 0).confirm = [1] ∧ t.watches = [] ∧ t.arbiter.lastGranted = 0)
      | _ => false) = true := by decide +kernel

/-- The freed slot passes on from such a grant to the next waiting diverter (R65). -/
theorem test_slot_passes_on :
    (match exec (.releaseWatch 2 2) (crowdedPast 55) with
      | .next t => decide ((t.diverter 0).state = .recovery ∧ (t.monitor 0).confirm = [4]
          ∧ (t.diverter 1).state = .energised ∧ (t.diverter 1).push = [3] ∧ t.arbiter.lastGranted = 1)
      | _ => false) = true := by decide +kernel

/-! ### Witnesses: the queue of commands, resets -/

theorem witness_EmptyQueueMillisecond :
    (lane .idle).pending = [] ∧ (lane .idle).held = none
      ∧ (linked none [] (.sending false [1]) .hunting).pending = []
      ∧ (linked none [] (.sending false [1]) .hunting).held = none
      ∧ (linked none [] (.sending false [1]) .hunting).link.transmitter ≠ .free := by decide

theorem witness_EmptyQueueMillisecond_free :
    (linked (some noticeFrame) [] .free .hunting).pending = [] ∧ (linked (some noticeFrame) [] .free .hunting).held = none
      ∧ (linked (some noticeFrame) [] .free .hunting).link.transmitter = .free
      ∧ (linked (some noticeFrame) [] .free .hunting).link.answer = some noticeFrame
      ∧ (lane .idle).link.transmitter = .free ∧ (lane .idle).link.answer = none ∧ (lane .idle).queue.eligible = true
      ∧ (lane .idle).queue.notices[(lane .idle).queue.distance (lane .idle).queue.sendPointer]?
        = some ⟨0, 0, 0, 0, .restart .power⟩
      ∧ ({ (lane .idle).queue with window := 0 } : ReportQueue).eligible = false := by decide

theorem witness_WellFormedCommandsRun :
    Instr.forwardTick.wellFormed = true ∧ stationOf 0 = none ∧ stationOf 17 = none := by decide

theorem witness_ResetCommands :
    (∃ c cause, c = Instr.powerOn Config.resetLevels ∧ cause = ResetCause.power)
      ∧ (∃ c cause, c = Instr.pinReset Config.resetLevels ∧ cause = ResetCause.pin)
      ∧ (beginOrderReset (lane .ready)).held = some .order := ⟨⟨_, _, rfl, rfl⟩, ⟨_, _, rfl, rfl⟩, rfl⟩

theorem witness_LinkRateFollowsStraps :
    (∃ l : Levels, l.strap1Closed = false ∧ l.strap0Closed = false)
      ∧ (∃ l : Levels, l.strap1Closed = false ∧ l.strap0Closed = true)
      ∧ (∃ l : Levels, l.strap1Closed = true ∧ l.strap0Closed = false)
      ∧ (∃ l : Levels, l.strap1Closed = true ∧ l.strap0Closed = true)
      ∧ (beginOrderReset (lane .ready)).held = some .order
      ∧ exec .forwardTick (lane .idle) = .next (forwardTick (lane .idle)) :=
  ⟨⟨Config.resetLevels, rfl, rfl⟩, ⟨{ Config.resetLevels with strap0Closed := true }, rfl, rfl⟩,
    ⟨{ Config.resetLevels with strap1Closed := true }, rfl, rfl⟩,
    ⟨{ Config.resetLevels with strap1Closed := true, strap0Closed := true }, rfl, rfl⟩, rfl, rfl⟩

/-! ### Witnesses: orders in general, configuration -/

theorem witness_OrderFormChecks :
    (lane .ready).takes 1 OrderKind.cmit.code ∧ [(0 : Byte)].length ≠ OrderKind.cmit.payloadLength
      ∧ (lane .ready).takes 1 OrderKind.asgn.code ∧ [1, 0, 1].length ≠ OrderKind.asgn.payloadLength
      ∧ [1, 0, 1, 1].length = OrderKind.asgn.payloadLength
      ∧ (∃ i ∈ OrderKind.asgn.reserved, byteAt [1, 0, 1, 1] i ≠ 0) := by decide

theorem witness_LostLinkRefuses :
    OrderKind.strt ∈ ([.asgn, .drop, .strt, .cmit, .cfgl, .cfgd, .opnd, .clsd, .adjd, .dena, .ddis, .tfir] : List OrderKind)
      ∧ ({ lane .ready with supervisor := ⟨.lost, 0, .continueOn, none⟩ } : State).takes 1 OrderKind.strt.code
      ∧ OrderKind.strt.formed []
      ∧ ({ lane .ready with supervisor := ⟨.lost, 0, .continueOn, none⟩ } : State).supervisor.state = .lost := by decide

/-- The state after the order with NUMBER 1 and KIND STRT was answered and its answer sent. -/
def answeredOnce (t : Transmitter) : State :=
  { linked none [] t .hunting with
    link := { (linked none [] t .hunting).link with last := some ⟨1, 0x10, answerFrame 1 0x10 ⟨.done, []⟩⟩ } }

theorem witness_UnknownAndReplayedOrders :
    OrderKind.ofCode 0 = none ∧ OrderKind.ofCode 0x45 = none ∧ OrderKind.ofCode 0xFF = none
      ∧ (lane .ready).takes 1 0x45 ∧ (lane .ready).link.transmitter = .free
      ∧ (linked none [] (.sending false [1]) .hunting).takes 1 0x45
      ∧ (linked none [] (.sending false [1]) .hunting).link.transmitter ≠ .free
      ∧ (answeredOnce .free).held = none ∧ (answeredOnce .free).link.answer = none
      ∧ (answeredOnce .free).link.last = some ⟨1, 0x10, answerFrame 1 0x10 ⟨.done, []⟩⟩
      ∧ (answeredOnce .free).link.transmitter = .free
      ∧ (answeredOnce (.sending false [1])).link.last = some ⟨1, 0x10, answerFrame 1 0x10 ⟨.done, []⟩⟩
      ∧ (answeredOnce (.sending false [1])).link.transmitter ≠ .free ∧ OrderKind.strt.code = 0x10 := by decide

/-- CFGL with every field at its least value, and with every field at its greatest. -/
def cfglLeast : List Byte := [1, 0, 1, 0, 0, 0, 1, 0, 0, 0, 0, 0, 1, 0, 0, 0, 50, 0, 1, 1]
def cfglMost : List Byte :=
  [0xFF, 0xFF, 0xFF, 0xFF, 0xFF, 0xFF, 0xFF, 0xFF, 0x0F, 0, 1, 1, 0xFF, 0x0F, 0xFF, 0x0F, 0x88, 0x13, 96, 8]

/-- CFGD of station 1 with every field at its least value, of station 16 with every field at its greatest. -/
def cfgdLeast : List Byte :=
  [1, 1, 1, 0, 0, 0, 0, 0, 0, 0, 0, 0, 0, 0, 10, 0, 0, 0, 10, 0, 100, 0, 100, 0, 0, 0]
def cfgdMost : List Byte :=
  [16, 0, 0xFF, 0xFF, 0x0F, 0, 0xFF, 0xFF, 0x0F, 0, 0xFF, 0xFF, 0xFF, 0xFF, 0xD0, 0x07, 0xE8, 0x03, 0x88, 0x13, 0x30,
    0x75, 0x30, 0x75, 16, 0]

theorem witness_ConfigurationWrites_line :
    (lane .running).takes 1 OrderKind.cfgl.code ∧ (lane .running).supervisor.state = .up
      ∧ OrderKind.cfgl.formed cfglLeast ∧ (lineRecordOf cfglLeast).any (·.inRange) = true
      ∧ OrderKind.cfgl.formed cfglMost ∧ (lineRecordOf cfglMost).any (·.inRange) = true
      ∧ OrderKind.cfgl.formed (cfglMost.set 18 97) ∧ (lineRecordOf (cfglMost.set 18 97)).all (fun r => !r.inRange) = true
      ∧ (lineRecordOf (cfglMost.set 19 9)).all (fun r => !r.inRange) = true
      ∧ (lineRecordOf (cfglLeast.set 16 49)).all (fun r => !r.inRange) = true
      ∧ lineRecordOf (cfglMost.set 10 2) = none := by decide

theorem witness_ConfigurationWrites_diverter :
    (lane .running).takes 1 OrderKind.cfgd.code
      ∧ OrderKind.cfgd.formed cfgdLeast ∧ number1 cfgdLeast 0 = stationNumber 0
      ∧ (diverterRecordOf cfgdLeast).any (·.inRange) = true
      ∧ OrderKind.cfgd.formed cfgdMost ∧ number1 cfgdMost 0 = stationNumber 15
      ∧ (diverterRecordOf cfgdMost).any (·.inRange) = true
      ∧ OrderKind.cfgd.formed (cfgdMost.set 0 17) ∧ stationOf (number1 (cfgdMost.set 0 17) 0) = none
      ∧ stationOf (number1 (cfgdMost.set 0 0) 0) = none
      ∧ (diverterRecordOf (cfgdLeast.set 6 1)).all (fun r => !r.inRange) = true
      ∧ (diverterRecordOf (cfgdMost.set 24 17)).all (fun r => !r.inRange) = true := by decide

theorem witness_RdcfReads :
    (lane .ready).takes 1 OrderKind.rdcf.code ∧ OrderKind.rdcf.formed [0, 0] ∧ OrderKind.rdcf.formed [1, 16]
      ∧ byteAt [0, 0] 0 = 0 ∧ byteAt [0, 0] 1 = 0 ∧ byteAt [1, 0] 0 = 1
      ∧ number1 [0, 1] 1 = stationNumber 0 ∧ number1 [1, 16] 1 = stationNumber 15 ∧ 16 < number1 [0, 17] 1
      ∧ (byteAt [2, 0] 0 ≠ 0 ∧ byteAt [2, 0] 0 ≠ 1)
      ∧ twoStations.line.inRange = true ∧ (stationRecord 40 2).inRange = true := by decide

theorem witness_CmitRefused :
    (∀ l : LineState, l ∈ [LineState.idle, .ready, .running] → (lane l).takes 1 OrderKind.cmit.code)
      ∧ (lane .running).supervisor.state = .up ∧ (lane .running).line.state ≠ .idle ∧ (lane .running).line.state ≠ .ready
      ∧ (lane .halted).line.state ≠ .idle ∧ (lane .halted).line.state ≠ .ready
      ∧ State.reset.takes 1 OrderKind.cmit.code ∧ State.reset.line.state = .idle
      ∧ State.reset.pendingConfig.failure = some (1, 0) := by decide

theorem witness_CmitCommits :
    (lane .idle).takes 1 OrderKind.cmit.code ∧ (lane .idle).supervisor.state = .up ∧ (lane .idle).line.state = .idle
      ∧ (lane .idle).pendingConfig.failure = none ∧ (lane .ready).takes 1 OrderKind.cmit.code
      ∧ (lane .ready).line.state = .ready ∧ (lane .ready).pendingConfig.failure = none := by decide

/-- The two-station configuration with other records. -/
def stations (a b : DiverterRecord) (minLength runoff : Nat) : Configuration :=
  { line := { twoStations.line with minLength := minLength, runoffOffset := runoff }
    diverters := (twoStations.diverters.set 0 a).set 1 b }

theorem witness_CommitChecks :
    (∀ d : Station, Configuration.default.diverters[d].installed = false)
      ∧ (stations (stationRecord 40 2) (stationRecord 80 0) 21 200).line.maxLength
          < (stations (stationRecord 40 2) (stationRecord 80 0) 21 200).line.minLength
      ∧ (stations (stationRecord 80 2) (stationRecord 80 0) 10 200).failure = some (3, 2)
      ∧ (stations (stationRecord 25 2) (stationRecord 80 0) 10 200).failure = some (4, 1)
      ∧ (stations (stationRecord 26 2) (stationRecord 80 1) 10 200).failure = some (5, 2)
      ∧ (stations (stationRecord 26 1) (stationRecord 80 0) 10 200).failure = some (5, 1)
      ∧ (stations (stationRecord 26 2) (stationRecord 80 0) 10 102).failure = some (6, 2)
      ∧ (stations (stationRecord 26 2) (stationRecord 80 0) 10 103).failure = none := by decide

/-! ### Witnesses: line orders -/

theorem witness_StrtStarts :
    (lane .ready).takes 1 OrderKind.strt.code ∧ (lane .ready).supervisor.state = .up
      ∧ ((lane .ready).line.state = .ready ∧ (lane .ready).line.lineStop = .inactive
        ∧ (lane .ready).counter.faultLatch = false ∧ ∃ d, (lane .ready).installed d = true)
      ∧ (lane .running).takes 1 OrderKind.strt.code
      ∧ ¬ ((lane .running).line.state = .ready ∧ (lane .running).line.lineStop = .inactive
        ∧ (lane .running).counter.faultLatch = false ∧ ∃ d, (lane .running).installed d = true) := by decide

theorem witness_StopDrains :
    (running [item 1 0] [] 60).takes 1 OrderKind.stop.code ∧ (running [item 1 0] [] 60).line.state = .running
      ∧ ¬ ({ running [item 1 0] [] 60 with line := { (lane .running).line with state := .draining } } : State).isDrained
      ∧ ({ lane .running with line := { (lane .running).line with state := .draining } } : State).isDrained
      ∧ (lane .running).takes 1 OrderKind.stop.code ∧ (lane .draining).takes 1 OrderKind.stop.code
      ∧ (lane .draining).line.state = .draining ∧ (lane .idle).takes 1 OrderKind.stop.code
      ∧ (lane .idle).line.state = .idle ∧ (lane .draining).held = none ∧ (lane .draining).isDrained
      ∧ ¬ (lane .running).isDrained := by decide

theorem witness_HaltOrderHalts :
    (∀ l : LineState, l ∈ [LineState.idle, .ready, .running, .draining, .halted] →
        (lane l).takes 1 OrderKind.halt.code ∧ (lane l).line.state = l) := by decide

theorem witness_FieldHalts :
    (lane .running).held = none ∧ StopLevel.inactive = (lane .running).line.lineStop
      ∧ (lane .running).line.lineStop = .inactive ∧ (lane .running).line.state.working = true
      ∧ (lane .ready).line.lineStop = .inactive ∧ (lane .ready).line.state.working = false
      ∧ ({ lane .ready with line := { (lane .ready).line with lineStop := .active } } : State).line.lineStop = .active
      ∧ (lane .running).counter.faultLatch = false ∧ (lane .ready).line.state.working = false := by decide

theorem witness_ClrClears :
    (lane .ready).takes 1 OrderKind.clr.code ∧ ((lane .ready).table.map (·.tag)).Nodup
      ∧ (lane .ready).line.state = .ready ∧ (lane .ready).line.lineStop = .inactive
      ∧ ({ lane .halted with table := [taken 1 0 0 .frozen, item 2 40] } : State).takes 1 OrderKind.clr.code
      ∧ (({ lane .halted with table := [taken 1 0 0 .frozen, item 2 40] } : State).table.map (·.tag)).Nodup
      ∧ (lane .halted).line.state = .halted ∧ (lane .halted).line.lineStop = .inactive
      ∧ (lane .running).takes 1 OrderKind.clr.code ∧ (lane .running).line.state = .running := by decide

theorem witness_RstrResets :
    (lane .running).takes 1 OrderKind.rstr.code
      ∧ ({ lane .ready with link := { (lane .ready).link with transmitter := .sending true [1], resetDue := true } } : State).held
        = none := by decide

theorem witness_RstrResets_held :
    (beginOrderReset (lane .ready)).held.isSome = true ∧ (beginOrderReset (lane .ready)).pending = []
      ∧ Instr.forwardTick.wellFormed = true ∧ (∀ l, Instr.forwardTick ≠ .powerOn l)
      ∧ (∀ l, Instr.forwardTick ≠ .pinReset l) ∧ (∀ l, Instr.forwardTick ≠ .rstrReset l) :=
  ⟨rfl, rfl, rfl, nofun, nofun, nofun⟩

/-! ### Witnesses: item orders -/

theorem witness_AsgnAssigns :
    (running [item 1 0] [⟨200, .runoff 1⟩] 34).takes 1 OrderKind.asgn.code
      ∧ (running [item 1 0] [⟨200, .runoff 1⟩] 34).supervisor.state = .up
      ∧ (running [item 1 0] [⟨200, .runoff 1⟩] 34).line.state = .running ∧ OrderKind.asgn.formed [1, 0, 1, 0]
      ∧ number1 [1, 0, 1, 0] 2 = (Dest.station 0).number
      ∧ (running [item 1 0] [⟨200, .runoff 1⟩] 34).destInstalled (.station 0) = true
      ∧ (running [item 1 0] [⟨200, .runoff 1⟩] 34).entry (halfAt [1, 0, 1, 0] 0) = some (item 1 0)
      ∧ (item 1 0).reason.forced = false ∧ (item 1 0).state = .travelling
      ∧ reached 34 ((running [item 1 0] [⟨200, .runoff 1⟩] 34).destPoint (.station 0) (item 1 0)) = false
      ∧ number1 [1, 0, 0, 0] 2 = Dest.runOff.number
      ∧ (running [item 1 0] [] 199).destInstalled .runOff = true
      ∧ reached 199 ((running [item 1 0] [] 199).destPoint .runOff (item 1 0)) = false := by decide

theorem witness_AsgnRefused :
    (lane .ready).takes 1 OrderKind.asgn.code ∧ (lane .ready).supervisor.state = .up ∧ OrderKind.asgn.formed [1, 0, 1, 0]
      ∧ (lane .ready).line.state.working = false
      ∧ (running [item 1 0] [] 35).takes 1 OrderKind.asgn.code ∧ (running [item 1 0] [] 35).line.state.working = true
      ∧ Dest.ofNumber (number1 [1, 0, 17, 0] 2) = none ∧ (running [item 1 0] [] 35).destInstalled (.station 2) = false
      ∧ number1 [1, 0, 3, 0] 2 = (Dest.station 2).number
      ∧ number1 [1, 0, 1, 0] 2 = (Dest.station 0).number
      ∧ (running [item 1 0] [] 35).destInstalled (.station 0) = true
      ∧ (running [item 2 0] [] 35).entry (halfAt [1, 0, 1, 0] 0) = none
      ∧ (running [{ item 1 0 with reason := .dropped }] [] 35).entry 1 = some { item 1 0 with reason := .dropped }
      ∧ Reason.dropped.forced = true
      ∧ (running [taken 1 0 0 .pending] [] 35).entry 1 = some (taken 1 0 0 .pending)
      ∧ (taken 1 0 0 .pending).reason.forced = false ∧ (taken 1 0 0 .pending).state ≠ .travelling
      ∧ (running [item 1 0] [] 35).entry (halfAt [1, 0, 1, 0] 0) = some (item 1 0)
      ∧ reached 35 ((running [item 1 0] [] 35).destPoint (.station 0) (item 1 0)) = true := by decide

theorem witness_DropSends :
    (lane .ready).takes 1 OrderKind.drop.code ∧ (lane .ready).supervisor.state = .up ∧ OrderKind.drop.formed [1, 0]
      ∧ (lane .ready).line.state.working = false
      ∧ (running [item 1 0] [] 199).line.state.working = true
      ∧ (running [item 2 0] [] 60).entry (halfAt [1, 0] 0) = none
      ∧ (pushing 40).entry (halfAt [1, 0] 0) = some (taken 1 0 0 .pushing) ∧ (taken 1 0 0 .pushing).state = .pushing
      ∧ (running [item 1 0] [] 199).entry (halfAt [1, 0] 0) = some (item 1 0) ∧ (item 1 0).state = .travelling
      ∧ reached 199 (runoffPoint (running [item 1 0] [] 199).config.line (item 1 0)) = false
      ∧ (contested 42).takes 1 OrderKind.drop.code ∧ (contested 42).line.state.working = true
      ∧ (contested 42).entry (halfAt [1, 0] 0) = some (taken 1 0 0 .pending)
      ∧ (taken 1 0 0 .pending).target = .station 0 ∧ (taken 1 0 0 .pending).reservedWith = some 0
      ∧ reached 42 (runoffPoint (contested 42).config.line (taken 1 0 0 .pending)) = false
      ∧ ((contested 42).diverter 0).state = .waiting ∧ ((recovering [1] 42).diverter 0).state ≠ .waiting := by decide

theorem witness_ItemReads :
    (running [item 1 0] [] 60).takes 1 OrderKind.qitm.code ∧ OrderKind.qitm.formed [1, 0]
      ∧ (running [item 2 0] [] 60).entry (halfAt [1, 0] 0) = none
      ∧ (running [item 1 0] [] 60).table[0]? = some (item 1 0) ∧ (item 1 0).tag = halfAt [1, 0] 0
      ∧ OrderKind.list.formed [95] ∧ number1 [95] 0 ≤ 95 ∧ 95 < number1 [96] 0 ∧ OrderKind.list.formed [96]
      ∧ (running [item 1 0] [] 60).takes 1 OrderKind.list.code := by decide

/-! ### Witnesses: destination and diverter orders -/

theorem witness_StationOrdersRefused :
    OrderKind.clsd ∈ ([.opnd, .clsd, .adjd, .dena, .ddis] : List OrderKind)
      ∧ (lane .idle).takes 1 OrderKind.clsd.code ∧ OrderKind.clsd.formed [1] ∧ (lane .idle).supervisor.state = .up
      ∧ (lane .idle).line.state = .idle ∧ (lane .ready).line.state ≠ .idle
      ∧ (∀ d, number1 [3] 0 = stationNumber d → (lane .ready).installed d = false)
      ∧ (∀ d, number1 [0] 0 = stationNumber d → (lane .ready).installed d = false)
      ∧ (∀ d, number1 [17] 0 = stationNumber d → (lane .ready).installed d = false) := by decide

theorem witness_OpndOpens :
    (lane .ready).takes 1 OrderKind.opnd.code ∧ (lane .ready).grantsStation .opnd [1, 2, 0, 0] 0
      ∧ (byteAt [1, 2, 0, 0] 1 ≠ 0 ∧ byteAt [1, 2, 0, 0] 1 ≠ 1)
      ∧ (pushing 40).takes 1 OrderKind.opnd.code ∧ (pushing 40).grantsStation .opnd [1, 1, 5, 0] 0
      ∧ byteAt [1, 1, 5, 0] 1 = 1 ∧ 0 < ((pushing 40).destination 0).outstanding
      ∧ (lane .ready).grantsStation .opnd [2, 0, 0, 0] 1 ∧ byteAt [2, 0, 0, 0] 1 = 0
      ∧ ((lane .ready).destination 1).outstanding = 0 := by decide

theorem witness_ClsdCloses :
    (lane .ready).takes 1 OrderKind.clsd.code ∧ (lane .ready).grantsStation .clsd [1] 0
      ∧ ((lane .ready).destination 0).causes.host = true
      ∧ (pushing 40).takes 1 OrderKind.clsd.code ∧ (pushing 40).grantsStation .clsd [1] 0
      ∧ ((pushing 40).destination 0).causes.host = false := by decide

/-- The two-station line in READY with station 1's destination counted to 5. -/
def counted (outstanding : Nat) (reload : Bool) (causes : Causes) : State :=
  { lane .ready with
    destinations := (lane .ready).destinations.set 0
      { opened 5 (5 - outstanding) outstanding DestRecord.atReset with autoReload := reload, causes := causes } }

theorem witness_AdjdAdjusts :
    (lane .ready).takes 1 OrderKind.adjd.code ∧ (lane .ready).grantsStation .adjd [1, 0, 0, 0] 0
      ∧ ((lane .ready).destination 0).base = 0
      ∧ (∀ r ∈ [true, false], (counted 2 r {}).takes 1 OrderKind.adjd.code
        ∧ (counted 2 r {}).grantsStation .adjd [1, 0, 4, 0] 0 ∧ 0 < ((counted 2 r {}).destination 0).base
        ∧ ((counted 2 r {}).destination 0).base < ((counted 2 r {}).destination 0).outstanding + number2 [1, 0, 4, 0] 2
        ∧ ((counted 2 r {}).destination 0).outstanding + number2 [1, 0, 3, 0] 2 ≤ ((counted 2 r {}).destination 0).base
        ∧ 0 < number2 [1, 0, 3, 0] 2 ∧ number2 [1, 0, 0, 0] 2 = 0 ∧ ((counted 0 r {}).destination 0).outstanding = 0
        ∧ ((counted 0 r {}).destination 0).causes.batchEnd = false ∧ ((counted 0 r {}).destination 0).autoReload = r)
      ∧ ((counted 0 true { batchEnd := true }).destination 0).causes.batchEnd = true := by decide

theorem witness_QdstReads :
    (lane .idle).takes 1 OrderKind.qdst.code ∧ OrderKind.qdst.formed [0] ∧ (lane .idle).line.state = .idle
      ∧ (lane .ready).takes 1 OrderKind.qdst.code ∧ (lane .ready).line.state ≠ .idle
      ∧ Dest.ofNumber (number1 [17] 0) = none ∧ (lane .ready).destInstalled (.station 2) = false
      ∧ number1 [3] 0 = (Dest.station 2).number
      ∧ number1 [0] 0 = Dest.runOff.number ∧ (lane .ready).destInstalled .runOff = true
      ∧ number1 [2] 0 = (Dest.station 1).number ∧ (lane .ready).destInstalled (.station 1) = true := by decide

/-- The two-station line in READY with station 1's diverter disabled. -/
def disabledOne : State :=
  { lane .ready with
    diverters := (lane .ready).diverters.set 0 { Diverter.atReset with disabled := true }
    destinations := (lane .ready).destinations.set 0 { DestRecord.atReset with causes := { disabled := true } } }

theorem witness_DenaEnables :
    (lane .ready).takes 1 OrderKind.dena.code ∧ (lane .ready).grantsStation .dena [1] 0
      ∧ ((lane .ready).diverter 0).disabled = false
      ∧ disabledOne.takes 1 OrderKind.dena.code ∧ disabledOne.grantsStation .dena [1] 0
      ∧ (disabledOne.diverter 0).disabled = true ∧ (disabledOne.destination 0).causes.disabled = true := by decide

theorem witness_DdisDisables :
    (disabledOne.takes 1 OrderKind.ddis.code ∧ disabledOne.grantsStation .ddis [1] 0
        ∧ (disabledOne.diverter 0).disabled = true)
      ∧ ((lane .ready).takes 1 OrderKind.ddis.code ∧ (lane .ready).grantsStation .ddis [1] 0
        ∧ ((lane .ready).diverter 0).disabled = false ∧ DriveLaw (lane .ready) ∧ NoSlotWasted (lane .ready)
        ∧ ((lane .ready).diverter 0).state = .idle ∧ ¬ (lane .ready).isDrained
        ∧ ((lane .ready).destination 0).causes.disabled = false) :=
  ⟨by decide, by decide, by decide, by decide, driveLaw_lane _, (by unfold NoSlotWasted; decide), by decide, by decide,
    by decide⟩

theorem witness_DdisDisables_items :
    ((pushing 40).takes 1 OrderKind.ddis.code ∧ (pushing 40).grantsStation .ddis [1] 0 ∧ DriveLaw (pushing 40)
        ∧ ((pushing 40).diverter 0).push = [1] ∧ ((pushing 40).diverter 0).pending = []
        ∧ (∀ d, (pushing 40).waits d = false) ∧ (pushing 40).entry 1 = some (taken 1 0 0 .pushing)
        ∧ ((pushing 40).monitor 0).confirm = [])
      ∧ ((contested 40).takes 1 OrderKind.ddis.code ∧ (contested 40).grantsStation .ddis [1] 0 ∧ DriveLaw (contested 40)
        ∧ NoSlotWasted (contested 40) ∧ ((contested 40).diverter 0).push = [] ∧ ((contested 40).diverter 0).pending = [1]
        ∧ (contested 40).entry 1 = some (taken 1 0 0 .pending) ∧ (taken 1 0 0 .pending).reservedWith = some 0
        ∧ ((contested 40).diverter 0).state ≠ .energised
        ∧ reached 40 (runoffPoint (contested 40).config.line (taken 1 0 0 .pending)) = false) :=
  ⟨⟨by decide, by decide, driveLaw_pushing _, by decide, by decide, by decide, by decide, by decide⟩,
    by decide, by decide, driveLaw_contested _, (by unfold NoSlotWasted; decide), by decide, by decide, by decide,
    by decide, by decide, by decide⟩

theorem witness_DdisDisables_lists :
    ((crowded 42).takes 1 OrderKind.ddis.code ∧ (crowded 42).grantsStation .ddis [2] 1
        ∧ (crowded 42).grantsStation .ddis [1] 0)
      ∧ (TagLaw (crowded 42) ∧ DriveLaw (crowded 42) ∧ NoSlotWasted (crowded 42) ∧ PlaceLaw (crowded 42)
        ∧ MonitorLaw (crowded 42))
      ∧ (crowded 42).line.state ≠ .draining
      ∧ (∀ d : Station, ∀ e ∈ ((crowded 42).diverter d).pending.filterMap (crowded 42).entry,
        reached 42 (runoffPoint (crowded 42).config.line e) = false)
      ∧ (((crowded 42).diverter 1).disabled = false ∧ ((crowded 42).diverter 1).state = .energised
        ∧ ((crowded 42).diverter 1).push = [2] ∧ ((crowded 42).diverter 1).pending = [3]
        ∧ ((crowded 42).monitor 1).confirm = [1])
      ∧ (crowded 42).releasesAhead 0
      ∧ (((crowded 42).diverter 0).disabled = false ∧ ((crowded 42).diverter 0).state ≠ .energised) :=
  ⟨by decide, ⟨tagLaw_crowded _, driveLaw_crowded _, noSlotWasted_of_full (by decide), placeLaw_crowded _,
    monitorLaw_crowded _⟩, by decide, by decide, by decide, releasesAhead_of_check (by decide), by decide⟩

theorem witness_DdisDisables_drained :
    ((draining recovered 0).takes 1 OrderKind.ddis.code ∧ (draining recovered 0).grantsStation .ddis [1] 0
        ∧ ((draining recovered 0).diverter 0).disabled = false ∧ ((draining recovered 0).diverter 0).state ≠ .energised
        ∧ ((draining recovered 0).diverter 0).push = [] ∧ ((draining recovered 0).diverter 0).pending = [])
      ∧ NoSlotWasted (draining recovered 0)
      ∧ ((draining recovered 0).withDiverter 0 { Diverter.atReset with disabled := true }).isDrained :=
  ⟨by decide, (by unfold NoSlotWasted; decide), by decide⟩

theorem witness_TfirPulses :
    (lane .running).takes 1 OrderKind.tfir.code ∧ (lane .running).supervisor.state = .up
      ∧ OrderKind.tfir.formed [1, 0, 1, 0] ∧ (lane .running).line.state ≠ .ready
      ∧ (lane .ready).takes 1 OrderKind.tfir.code ∧ (lane .ready).line.state = .ready
      ∧ (∀ d, number1 [17, 0, 1, 0] 0 = stationNumber d → (lane .ready).installed d = false)
      ∧ number2 [1, 0, 0, 0] 2 = 0 ∧ ((lane .ready).record 0).maxOn < number2 [1, 0, 0xF5, 1] 2
      ∧ number1 [1, 0, 1, 0] 0 = stationNumber 0 ∧ (lane .ready).installed 0 = true ∧ 1 ≤ number2 [1, 0, 1, 0] 2
      ∧ number2 [1, 0, 0xF4, 1] 2 ≤ ((lane .ready).record 0).maxOn ∧ ((lane .ready).diverter 0).state = .idle
      ∧ (lane .ready).arbiter.slotsInUse < (lane .ready).arbiter.budget
      ∧ (disabledOne.diverter 0).state ≠ .idle := by decide

/-! ### Witnesses: link orders -/

theorem witness_LinkSets :
    (lane .ready).takes 1 OrderKind.link.code
      ∧ (∀ p ∈ ([[1, 0, 0, 0, 20, 0], [49, 0, 0, 0, 20, 0], [0x11, 0x27, 0, 0, 20, 0], [0, 0, 3, 0, 20, 0],
          [0, 0, 0, 0, 19, 0], [0, 0, 0, 0, 0xD1, 0x07]] : List (List Byte)),
        OrderKind.link.formed p ∧ ((1 ≤ number2 p 0 ∧ number2 p 0 ≤ 49) ∨ 10000 < number2 p 0 ∨ 2 < number1 p 2
          ∨ number2 p 4 < 20 ∨ 2000 < number2 p 4))
      ∧ (∀ p ∈ ([[0, 0, 0, 0, 20, 0], [50, 0, 1, 0, 20, 0], [0x10, 0x27, 2, 0, 0xD0, 0x07]] : List (List Byte)),
        OrderKind.link.formed p ∧ (number2 p 0 = 0 ∨ (50 ≤ number2 p 0 ∧ number2 p 0 ≤ 10000)) ∧ number1 p 2 ≤ 2
          ∧ 20 ≤ number2 p 4 ∧ number2 p 4 ≤ 2000) := by decide

theorem witness_WindSets :
    (lane .ready).takes 1 OrderKind.wind.code ∧ OrderKind.wind.formed [17] ∧ 16 < number1 [17] 0
      ∧ OrderKind.wind.formed [16] ∧ number1 [16] 0 ≤ 16 ∧ number1 [0] 0 ≤ 16
      ∧ (lane .ready).link.transmitter = .free
      ∧ ({ sentTwo 16 with retryTimer := some 200 } : ReportQueue).eligible = true
      ∧ (sentTwo 16).notices[(sentTwo 16).distance (sentTwo 16).sendPointer]? ≠ none
      ∧ ({ sentTwo 0 with window := 0 } : ReportQueue).eligible = false := by decide

theorem witness_AckAcknowledges :
    (∀ w ∈ [0, 1, 4], ({ lane .ready with queue := sentTwo w } : State).takes 1 OrderKind.ack.code)
      ∧ OrderKind.ack.formed [2, 0] ∧ (sentTwo 4).inFlight ≤ (sentTwo 4).distance (halfAt [2, 0] 0)
      ∧ OrderKind.ack.formed [1, 0] ∧ (sentTwo 4).distance (halfAt [1, 0] 0) < (sentTwo 4).inFlight
      ∧ (sentTwo 4).distance (halfAt [0, 0] 0) < (sentTwo 4).inFlight
      ∧ (ReportQueue.acknowledge 1 0 (sentTwo 4)).eligible = true
      ∧ (ReportQueue.acknowledge 1 0 (sentTwo 4)).notices[(ReportQueue.acknowledge 1 0 (sentTwo 4)).distance
          (ReportQueue.acknowledge 1 0 (sentTwo 4)).sendPointer]? ≠ none
      ∧ (ReportQueue.acknowledge 1 0 (sentTwo 0)).eligible = false := by decide

theorem witness_StatReports :
    (lane .ready).takes 1 OrderKind.stat.code ∧ OrderKind.stat.formed [2] ∧ byteAt [2] 0 ≠ 0 ∧ byteAt [2] 0 ≠ 1
      ∧ OrderKind.stat.formed [0] ∧ byteAt [0] 0 = 0 ∧ OrderKind.stat.formed [1] ∧ byteAt [1] 0 = 1 := by decide

/-- A line with its supervision timer run out. -/
def silent (s : State) (l : LinkState) (a : LossAction) : State :=
  { s with supervisor := { state := l, time := 50, action := a, timer := some 0 } }

theorem witness_LinkLostAndRestored :
    (lane .ready).held = none ∧ expired (lane .ready).supervisor.timer (lane .ready) = false
      ∧ (∀ l ∈ [LinkState.up, .lost], ∀ a ∈ [LossAction.continueOn, .runoffAll, .halt],
        (silent (lane .running) l a).held = none
          ∧ expired (silent (lane .running) l a).supervisor.timer (silent (lane .running) l a) = true
          ∧ (silent (lane .running) l a).supervisor.state = l ∧ (silent (lane .running) l a).supervisor.action = a
          ∧ (silent (lane .running) l a).line.state.working = true)
      ∧ (silent (lane .ready) .up .halt).line.state.working = false
      ∧ (contested 42).table ≠ [] ∧ ((contested 42).table.map (·.tag)).Nodup
      ∧ (∀ e ∈ (contested 42).table, reached 42 (runoffPoint (contested 42).config.line e) = false)
      ∧ (∀ e ∈ (contested 42).table, ∀ d, e.state = .pending → e.target = .station d → e.reservedWith = some d)
      ∧ (silent (lane .running) .up .runoffAll).table = [] ∧ ¬ (silent (lane .running) .up .runoffAll).isDrained
      ∧ (silent (lane .draining) .up .runoffAll).isDrained
      ∧ (silent (lane .ready) .lost .halt).takes 1 OrderKind.rsum.code
      ∧ (silent (lane .ready) .up .halt).takes 1 OrderKind.rsum.code := by decide

theorem witness_LinkLostAndRestored_runoffAll :
    ((crowded 42).held = none ∧ expired (crowded 42).supervisor.timer (crowded 42) = true
        ∧ (crowded 42).supervisor.state = .up ∧ (crowded 42).line.state.working = true
        ∧ (crowded 42).supervisor.action = .runoffAll ∧ (crowded 42).table ≠ [])
      ∧ (TagLaw (crowded 42) ∧ DriveLaw (crowded 42) ∧ PlaceLaw (crowded 42))
      ∧ (∀ e ∈ (crowded 42).table.filter (fun e => e.target != .runOff && (e.state == .travelling || e.state == .pending)),
        reached 42 (runoffPoint (crowded 42).config.line e) = false)
      ∧ ((crowded 42).table.filter (fun e => e.target != .runOff && (e.state == .travelling || e.state == .pending)))
        = [taken 3 (-25) 1 .pending, taken 4 17 0 .pending] :=
  ⟨by decide, ⟨tagLaw_crowded _, driveLaw_crowded _, placeLaw_crowded _⟩, by decide, by decide⟩

/-! ### Witnesses: the belt and the watches -/

/-- The counter of a state one tick later, outside IDLE. -/
def ticked (s : State) (position : Position) (reference : Sample) (highWater : Position) : PositionCounter :=
  { s.counter with
    position := position, reference := reference, highWater := highWater, belt := .moving
    standstill := some (s.timeStamp + 500) }

theorem witness_ForwardTickCounts :
    (running [] [] 10).held = none
      ∧ classify ⟨false, false⟩ ⟨true, false⟩ = .forward
      ∧ (ticked (running [] [] 10) 11 ⟨true, false⟩ 11).position = (running [] [] 10).counter.position + 1
      ∧ 0 < ((running [] [] 10).counter.position + 1 - (running [] [] 10).counter.highWater).toInt
      ∧ (running [] [] 10).watches = [] ∧ ¬ (running [] [] 10).isDrained
      ∧ (running [item 1 0] [⟨200, .runoff 1⟩] 198).watches = [⟨200, .runoff 1⟩] ∧ reached 199 200 = false
      ∧ reached 200 200 = true ∧ (running [] [] 10).line.state ≠ .idle
      ∧ (deliver ⟨200, .runoff 1⟩
          { running [item 1 0] [⟨200, .runoff 1⟩] 199 with
            counter := ticked (running [item 1 0] [⟨200, .runoff 1⟩] 199) 200 ⟨true, false⟩ 200 }).dueWatch = none := by
  decide

/-- Two RUNOFF watches at one position, one tick ahead of the line. -/
def abreast : State := running [item 1 0, item 2 0] [⟨200, .runoff 1⟩, ⟨200, .runoff 2⟩] 199

/-- The states of the delivery run that a forward tick begins on `abreast`. -/
def abreastRun : Nat → State
  | 0 => submit (.belt .moving) { abreast with counter := ticked abreast 200 ⟨true, false⟩ 200 }
  | i + 1 => deliver ⟨200, .runoff (if i = 0 then 1 else 2)⟩ (abreastRun i)

theorem witness_ForwardTickCounts_run :
    abreast.held = none ∧ abreast.line.state ≠ .idle ∧ abreast.counter.belt = .stopped
      ∧ abreastRun 0 = submit (.belt .moving) { abreast with counter := ticked abreast 200 ⟨true, false⟩ 200 }
      ∧ (∀ i < 2, ∃ w rest, (abreastRun i).watches = w :: rest
        ∧ reached (abreastRun i).counter.position w.position = true ∧ abreastRun (i + 1) = deliver w (abreastRun i))
      ∧ (∀ w ∈ (abreastRun 2).watches.head?, reached (abreastRun 2).counter.position w.position = false)
      ∧ 2 ≤ 4 * abreast.watches.length := by
  refine ⟨rfl, by decide, rfl, rfl, ?_, by decide +kernel, by decide⟩
  intro i h
  match i, h with
  | 0, _ => exact ⟨⟨200, .runoff 1⟩, [⟨200, .runoff 2⟩], by decide +kernel, by decide +kernel, rfl⟩
  | 1, _ => exact ⟨⟨200, .runoff 2⟩, [], by decide +kernel, by decide +kernel, rfl⟩

theorem witness_ForwardTickCounts_laws :
    (crowded 54).held = none ∧ LineLaw (crowded 54) ∧ TagLaw (crowded 54) ∧ DriveLaw (crowded 54)
      ∧ NoSlotWasted (crowded 54) ∧ TrackingLaw (crowded 54)
      ∧ reached 55 ((crowded 54).watches.head?.elim 0 (·.position)) = true
      ∧ (crowded 55).watches = ⟨55, .release 1 2⟩ :: (crowded 55).watches.tail
      ∧ reached (crowded 55).counter.position 55 = true :=
  ⟨rfl, lineLaw_crowded, tagLaw_crowded _, driveLaw_crowded _, noSlotWasted_of_full (by decide), trackingLaw_crowded,
    by decide, by decide, by decide⟩

theorem witness_ReverseTickAndStandstill :
    (running [] [] 10).held = none ∧ classify ⟨false, false⟩ ⟨false, true⟩ = .reverse
      ∧ (ticked (running [] [] 10) 9 ⟨false, true⟩ 10).position = (running [] [] 10).counter.position - 1
      ∧ (running [] [] 10).line.state.working = true
      ∧ (running [] [] 10).config.line.reverseTolerance < ((10 : Position) - 7).toNat
      ∧ ((10 : Position) - 8).toNat ≤ (running [] [] 10).config.line.reverseTolerance
      ∧ (lane .ready).line.state.working = false ∧ (lane .ready).line.state ≠ .idle
      ∧ expired (some 0) (lane .ready) = true ∧ expired (lane .ready).counter.standstill (lane .ready) = false := by
  decide

/-- Item 1, bound for station 1, at its fire point 35; the diverter of station 1 and its destination as given. -/
def firing (v : Diverter) (waits : Bool) (slots : Nat) (r : DestRecord) : State :=
  { running [bound 1 0 0] [⟨35, .fire 1⟩] 35 with
    diverters := (lane .running).diverters.set 0 v
    arbiter := { (lane .running).arbiter with slotsInUse := slots, waiting := (Vector.replicate 16 false).set 0 waits }
    destinations := (lane .running).destinations.set 0 r }

/-- Station 2 pushes and holds the one slot. -/
def slotTaken (s : State) : State :=
  { s with
    diverters := s.diverters.set 1
      { Diverter.atReset with state := .energised, push := [9], output := true, maxOnTimer := some 500 }
    arbiter := { s.arbiter with slotsInUse := 1 } }

def idleDiverter : Diverter := { Diverter.atReset with state := .idle }
def pushingDiverter (push pending : List Tag) : Diverter :=
  { Diverter.atReset with state := .energised, push := push, pending := pending, output := true, maxOnTimer := some 500 }
def recoveringDiverter (pending : List Tag) : Diverter :=
  { Diverter.atReset with state := .recovery, pending := pending, recoveryTimer := some 50 }

theorem witness_FireWatch_delivers (v : Diverter) (w : Bool) (k : Nat) (r : DestRecord) :
    (firing v w k r).delivers (.fire 1) [] ∧ (firing v w k r).entry 1 = some (bound 1 0 0)
      ∧ (bound 1 0 0).target = .station 0
      ∧ ([] : List Watch).all (fun w => w.kind.tag? != some 1) = true
      ∧ reached 35 (releasePoint (twoStations.diverters[0]) (bound 1 0 0)) = false
      ∧ reached 35 (latePoint (twoStations.diverters[0]) (bound 1 0 0)) = false
      ∧ reached 35 (runoffPoint twoStations.line (bound 1 0 0)) = false
      ∧ reached 35 (firePoint (twoStations.diverters[1]) (bound 1 0 0)) = false
      ∧ (twoStations.diverters[0]).alternate = stationNumber 1 :=
  ⟨⟨rfl, 35, rfl, show reached 35 35 = true by decide⟩, rfl, rfl, rfl, by decide, by decide, by decide, by decide, by decide⟩

theorem witness_FireWatch_laws :
    (DriveLaw (firing idleDiverter false 0 (opened 0 0 0 DestRecord.atReset))
        ∧ NoSlotWasted (firing idleDiverter false 0 (opened 0 0 0 DestRecord.atReset)))
      ∧ (DriveLaw (slotTaken (firing idleDiverter false 0 (opened 1 1 0 DestRecord.atReset)))
        ∧ NoSlotWasted (slotTaken (firing idleDiverter false 0 (opened 1 1 0 DestRecord.atReset))))
      ∧ (DriveLaw (firing (pushingDiverter [5, 6, 7] []) false 1 (opened 0 0 3 DestRecord.atReset))
        ∧ NoSlotWasted (firing (pushingDiverter [5, 6, 7] []) false 1 (opened 0 0 3 DestRecord.atReset)))
      ∧ (DriveLaw (firing (recoveringDiverter [4, 5, 6]) false 0 (opened 0 0 3 DestRecord.atReset))
        ∧ NoSlotWasted (firing (recoveringDiverter [4, 5, 6]) false 0 (opened 0 0 3 DestRecord.atReset)))
      ∧ (DriveLaw (firing (recoveringDiverter [4, 5, 6, 7]) false 0 (opened 0 0 4 DestRecord.atReset))
        ∧ NoSlotWasted (firing (recoveringDiverter [4, 5, 6, 7]) false 0 (opened 0 0 4 DestRecord.atReset))) :=
  ⟨⟨driveLaw_of_checks (by decide) (by decide) (by decide), by unfold NoSlotWasted; decide⟩,
    ⟨driveLaw_of_checks (by decide) (by decide) (by decide), by unfold NoSlotWasted; decide⟩,
    ⟨driveLaw_of_checks (by decide) (by decide) (by decide), by unfold NoSlotWasted; decide⟩,
    ⟨driveLaw_of_checks (by decide) (by decide) (by decide), by unfold NoSlotWasted; decide⟩,
    ⟨driveLaw_of_checks (by decide) (by decide) (by decide), by unfold NoSlotWasted; decide⟩⟩

theorem witness_FireWatchDecides :
    ((firing idleDiverter false 0 (opened 0 0 0 DestRecord.atReset)).destination 0).open
      ∧ (firing idleDiverter false 0 (opened 0 0 0 DestRecord.atReset)).slotFree = true
      ∧ ((slotTaken (firing idleDiverter false 0 (opened 1 1 0 DestRecord.atReset))).destination 0).open
      ∧ (slotTaken (firing idleDiverter false 0 (opened 1 1 0 DestRecord.atReset))).slotFree = false
      ∧ (pushingDiverter [5, 6, 7] []).push.length < 4 ∧ (recoveringDiverter [4, 5, 6]).pending.length < 4
      ∧ (recoveringDiverter [4, 5, 6, 7]).pending.length = 4
      ∧ ¬ ((firing idleDiverter false 0 DestRecord.atReset).destination 0).open
      ∧ ¬ (opened 3 0 3 DestRecord.atReset).open ∧ (bound 1 0 0).flags.viaAlternate = false
      ∧ (running [bound 1 0 1] [⟨75, .fire 1⟩] 75).entry 1 = some (bound 1 0 1)
      ∧ ((running [bound 1 0 1] [⟨75, .fire 1⟩] 75).record 1).alternate = 0
      ∧ ¬ ((running [bound 1 0 1] [⟨75, .fire 1⟩] 75).destination 1).open := by decide

/-- A state with the line at another position. -/
def passed (s : State) (p : Position) : State :=
  { s with counter := { s.counter with position := p, highWater := p } }

theorem driveLaw_passed {s : State} (p : Position) (law : DriveLaw s) : DriveLaw (passed s p) := ⟨law.1, law.2.1, law.2.2⟩

theorem witness_FireWatch_coincidences (v : Diverter) (w : Bool) (k : Nat) (r : DestRecord) :
    (∀ p, reached p 35 = true → (passed (firing v w k r) p).delivers (.fire 1) [])
      ∧ (passed (firing v w k r) 57).reachedFirst (releasePoint (twoStations.diverters[0]) (bound 1 0 0)) []
      ∧ (passed (firing v w k r) 43).reachedFirst (latePoint (twoStations.diverters[0]) (bound 1 0 0)) []
      ∧ reached 43 (runoffPoint twoStations.line (bound 1 0 0)) = false
      ∧ (passed (firing v w k r) 200).reachedFirst (runoffPoint twoStations.line (bound 1 0 0)) []
      ∧ ¬ ({ passed (firing v w k r) 200 with table := [] } : State).isDrained
      ∧ (passed (firing v w k r) 75).reachedFirst (firePoint (twoStations.diverters[1]) (bound 1 0 0)) []
      ∧ (reached 43 35 = true ∧ reached 57 35 = true ∧ reached 75 35 = true ∧ reached 200 35 = true)
      ∧ (1 : Tag) ∉ ([5, 6, 7] : List Tag) ∧ (1 : Tag) ∉ ([4, 5, 6] : List Tag) := by
  exact ⟨fun p past => ⟨rfl, 35, rfl, past⟩, ⟨show reached 57 57 = true by decide, nofun⟩,
    ⟨show reached 43 43 = true by decide, nofun⟩, by decide, ⟨show reached 200 200 = true by decide, nofun⟩,
    fun h => LineState.noConfusion h.1, ⟨show reached 75 75 = true by decide, nofun⟩, by decide, by decide, by decide⟩

theorem witness_RunoffWatchAndExitEye :
    ((running [item 1 0] [⟨200, .runoff 1⟩] 200).delivers (.runoff 1) [] ∧ NoSlotWasted (running [item 1 0] [⟨200, .runoff 1⟩] 200))
      ∧ (running [item 1 0] [⟨200, .runoff 1⟩] 200).entry 1 = some (item 1 0)
      ∧ ¬ (running [] [] 200).isDrained
      ∧ (lane .running).config.line.exitEye = false ∧ (lane .ready).line.state.working = false :=
  ⟨⟨⟨rfl, 200, rfl, by decide⟩, by unfold NoSlotWasted; decide⟩, by decide, by decide, by decide, by decide⟩

/-- The two-station line with an exit eye. -/
def eyed (table : List Entry) (position : Position) : State :=
  { running table [] position with
    config := { twoStations with line := { twoStations.line with exitEye := true, exitTolerance := 5 } } }

/-- The last entry of a DRAINING line with its one watch, the line at 200. -/
def lastItem (e : Entry) (w : Watch) : State :=
  { running [e] [w] 200 with line := { (lane .running).line with state := .draining } }

theorem witness_RunoffWatch_drained :
    ((lastItem (item 1 0) ⟨200, .runoff 1⟩).delivers (.runoff 1) [] ∧ NoSlotWasted (lastItem (item 1 0) ⟨200, .runoff 1⟩)
        ∧ (lastItem (item 1 0) ⟨200, .runoff 1⟩).entry 1 = some (item 1 0)
        ∧ ({ lastItem (item 1 0) ⟨200, .runoff 1⟩ with table := [], watches := [] } : State).isDrained)
      ∧ ((lastItem (bound 1 0 1) ⟨75, .fire 1⟩).delivers (.fire 1) [] ∧ DriveLaw (lastItem (bound 1 0 1) ⟨75, .fire 1⟩)
        ∧ ¬ ((lastItem (bound 1 0 1) ⟨75, .fire 1⟩).destination 1).open
        ∧ ((lastItem (bound 1 0 1) ⟨75, .fire 1⟩).record 1).alternate = 0
        ∧ reached 200 (runoffPoint twoStations.line (bound 1 0 1)) = true
        ∧ ({ lastItem (bound 1 0 1) ⟨75, .fire 1⟩ with table := [], watches := [] } : State).isDrained) :=
  ⟨⟨⟨rfl, 200, rfl, by decide⟩, by unfold NoSlotWasted; decide, by decide, by decide⟩, ⟨rfl, 75, rfl, by decide⟩,
    driveLaw_of_checks (by decide) (by decide) (by decide), by decide, by decide, by decide, by decide⟩

theorem witness_RunoffWatchAndExitEye_seen :
    (eyed [item 1 0] 205).held = none ∧ (eyed [item 1 0] 205).config.line.exitEye = true
      ∧ (eyed [item 1 0] 205).line.state.working = true ∧ (eyed [item 1 0] 205).table = [] ++ item 1 0 :: []
      ∧ ((eyed [item 1 0] 205).table.map (·.tag)).Nodup
      ∧ (item 1 0).awaitedAtExit (eyed [item 1 0] 205).config.line 205
      ∧ (item 1 0).awaitedAtExit (eyed [item 1 0] 205).config.line 195
      ∧ (∀ x ∈ (eyed [item 1 0] 206).table, ¬ x.awaitedAtExit (eyed [item 1 0] 206).config.line 206) := by decide

theorem witness_LateWatchMisses :
    ((contested 43).delivers (.late 0 1) [⟨57, .release 1 2⟩] ∧ NoSlotWasted (contested 43)
        ∧ 1 ∈ ((contested 43).diverter 0).pending ∧ (contested 43).entry 1 = some (taken 1 0 0 .pending)
        ∧ (taken 1 0 0 .pending).reservedWith = some 0
        ∧ reached 43 (runoffPoint (contested 43).config.line (taken 1 0 0 .pending)) = false
        ∧ ((contested 43).diverter 0).state = .waiting)
      ∧ ((recovering [1] 43).delivers (.late 0 1) [] ∧ NoSlotWasted (recovering [1] 43)
        ∧ 1 ∈ ((recovering [1] 43).diverter 0).pending ∧ ((recovering [1] 43).diverter 0).state ≠ .waiting) :=
  ⟨⟨⟨rfl, 43, rfl, by decide⟩, by unfold NoSlotWasted; decide, by decide, by decide, by decide, by decide, by decide⟩,
    ⟨rfl, 43, rfl, by decide⟩, by unfold NoSlotWasted; decide, by decide, by decide⟩

/-- `pushing` with the recovery time 0 at station 1. -/
def pushingBriefly (position : Position) : State :=
  { pushing position with
    config := { twoStations with diverters := twoStations.diverters.set 0 { stationRecord 40 2 with recovery := 0 } } }

theorem witness_ReleaseWatchReleases :
    ((pushing 57).delivers (.release 0 1) [] ∧ DriveLaw (pushing 57) ∧ NoSlotWasted (pushing 57)
        ∧ 1 ∈ ((pushing 57).diverter 0).push ∧ (pushing 57).entry 1 = some (taken 1 0 0 .pushing)
        ∧ (∀ d, (pushing 57).waits d = false) ∧ ((pushing 57).record 0).recovery ≠ 0
        ∧ ((pushing 57).diverter 0).push.filter (fun x => x != 1) = [])
      ∧ ((pushingBriefly 57).delivers (.release 0 1) [] ∧ DriveLaw (pushingBriefly 57)
        ∧ ((pushingBriefly 57).record 0).recovery = 0 ∧ ((pushingBriefly 57).diverter 0).pending = [])
      ∧ (pushingDiverter [1, 2] []).push.filter (fun x => x != (1 : Tag)) ≠ [] :=
  ⟨⟨⟨rfl, 57, rfl, by decide⟩, driveLaw_pushing _, by unfold NoSlotWasted; decide, by decide, by decide, by decide,
      by decide, by decide⟩,
    ⟨⟨rfl, 57, rfl, by decide⟩, driveLaw_of_checks (by decide) (by decide) (by decide), by decide, by decide⟩, by decide⟩

theorem witness_ReleaseWatchReleases_waiting :
    ((crowded 55).delivers (.release 1 2) [⟨58, .late 1 3⟩, ⟨60, .late 0 4⟩] ∧ DriveLaw (crowded 55)
        ∧ NoSlotWasted (crowded 55) ∧ TagLaw (crowded 55) ∧ PlaceLaw (crowded 55) ∧ MonitorLaw (crowded 55))
      ∧ (2 ∈ ((crowded 55).diverter 1).push ∧ (crowded 55).entry 2 = some (taken 2 (-42) 1 .pushing)
        ∧ ((crowded 55).diverter 1).push.filter (fun x => x != 2) = [] ∧ ((crowded 55).monitor 1).confirm ≠ []
        ∧ ((pushing 57).monitor 0).confirm = [])
      ∧ ((∀ c, ((crowded 55).withDiverter 1 ((crowded 55).released 1)).waits c = true → (crowded 55).releasesAhead c)
        ∧ ((crowded 55).withDiverter 1 ((crowded 55).released 1)).firstInSearch 0)
      ∧ ((crowdedBriefly 55).delivers (.release 1 2) [⟨58, .late 1 3⟩, ⟨60, .late 0 4⟩]
        ∧ NoSlotWasted (crowdedBriefly 55) ∧ ((crowdedBriefly 55).released 1).state = .waiting
        ∧ (∀ c, ((crowdedBriefly 55).withDiverter 1 ((crowdedBriefly 55).released 1)).waits c = true →
          (crowdedBriefly 55).releasesAhead c)) :=
  ⟨⟨⟨rfl, 55, rfl, by decide⟩, driveLaw_crowded _, noSlotWasted_of_full (by decide), tagLaw_crowded _,
      placeLaw_crowded _, monitorLaw_crowded _⟩, by decide, ⟨releasesAhead_of_checks (by decide), firstInSearch_crowded _⟩,
    ⟨rfl, 55, rfl, by decide⟩, noSlotWasted_of_full (by decide), by decide, releasesAhead_of_checks (by decide)⟩

theorem witness_ReleaseWatchReleases_passedOn :
    ((crowdedPast 55).delivers (.release 1 2) [⟨58, .late 1 3⟩, ⟨60, .late 0 4⟩] ∧ NoSlotWasted (crowdedPast 55))
      ∧ (2 ∈ ((crowdedPast 55).diverter 1).push ∧ ((crowdedPast 55).diverter 1).push.filter (fun x => x != 2) = [])
      ∧ ((crowdedPast 55).withDiverter 1 ((crowdedPast 55).released 1)).firstInSearch 0
      ∧ (crowdedPast 55).pushedAt 0 = []
      ∧ ((crowdedPast 55).withDiverter 1 ((crowdedPast 55).released 1)).waits 1 = true
      ∧ ((crowdedPast 55).withDiverter 1 ((crowdedPast 55).released 1)).pushedAt 1 = [3] :=
  ⟨⟨⟨rfl, 55, rfl, by decide⟩, noSlotWasted_of_full (by decide)⟩, by decide,
    ⟨rfl, show ∀ d' : Station, ((crowdedPast 55).withDiverter 1 ((crowdedPast 55).released 1)).waits d' = true →
      (0 : Station) - (1 + 1) ≤ d' - (1 + 1) by decide⟩, by decide, by decide, by decide⟩

/-! ### Witnesses: induction -/

/-- The two-station line in a line state at a position, with the measuring slot and the entry eye as given. -/
def measuring (l : LineState) (slot : Slot) (eye : EyeLevel) (position : Position) (table : List Entry) : State :=
  { lane l with
    table := table
    counter := { State.reset.counter with position := position, highWater := position }
    induction := { State.reset.induction with slot := slot, eye := eye, lastTrailing := some 2, nextTag := 7 }
    watches := match slot with | .opened lead _ => [⟨lead + 20, .lengthLimit⟩] | _ => [] }

/-- A state on which the line is behind its high-water mark. -/
def jogged (s : State) : State :=
  { s with counter := { s.counter with highWater := s.counter.position + 1 } }

theorem witness_EntryEyeMeasures_edges :
    (measuring .running .empty .blocked 10 []).held = none ∧ (measuring .running .empty .blocked 10 []).induction.eye = .blocked
      ∧ (measuring .draining .empty .clear 10 []).induction.eye = .clear
      ∧ (measuring .draining .empty .clear 10 []).line.state.working = true
      ∧ (measuring .draining .empty .clear 10 []).induction.slot = .empty
      ∧ (measuring .draining .empty .clear 10 []).counter.highWater
          = (measuring .draining .empty .clear 10 []).counter.position
      ∧ (measuring .ready .empty .clear 10 []).line.state.working = false
      ∧ (jogged (measuring .running .empty .clear 10 [])).counter.highWater
          ≠ (jogged (measuring .running .empty .clear 10 [])).counter.position
      ∧ (measuring .running .closed .blocked 40 []).induction.slot = .closed
      ∧ (measuring .running .closed .blocked 40 []).line.state.working = true
      ∧ (measuring .running (.opened 10 false) .blocked 19 []).induction.slot ≠ .closed := by decide

theorem witness_EntryEyeMeasures_intervals :
    (measuring .running (.opened 10 false) .blocked 19 []).induction.slot = .opened 10 false
      ∧ ((19 : Position) - 10).toNat < twoStations.line.minLength
      ∧ twoStations.line.minLength ≤ ((20 : Position) - 10).toNat
      ∧ (measuring .draining (.opened 10 true) .blocked 20 []).induction.slot = .opened 10 true
      ∧ 96 ≤ (measuring .running (.opened 10 false) .blocked 20 (List.replicate 96 (item 1 0))).table.length
      ∧ (measuring .running (.opened 10 false) .blocked 20 [item 1 0]).table.length < 96
      ∧ (∀ e ∈ (measuring .running (.opened 10 false) .blocked 20 [item 1 0]).table, e.tag ≠ 7)
      ∧ 0 < twoStations.line.minGap ∧ ((9 : Position) - 2).toInt < (twoStations.line.minGap : Int)
      ∧ ¬ ((10 : Position) - 2).toInt < (twoStations.line.minGap : Int)
      ∧ reached 20 (10 + BitVec.ofNat 32 twoStations.line.runoffOffset + 0) = false := by decide

theorem witness_LengthLimitWatchOffers :
    ((measuring .running (.opened 10 false) .blocked 30 [item 1 0]).delivers .lengthLimit []
        ∧ NoSlotWasted (measuring .running (.opened 10 false) .blocked 30 [item 1 0]))
      ∧ ¬ (measuring .running (.opened 10 false) .blocked 30 [item 1 0]).isDrained
      ∧ (measuring .running (.opened 10 false) .blocked 30 [item 1 0]).line.state.working = true
      ∧ (measuring .running (.opened 10 false) .blocked 30 [item 1 0]).induction.slot = .opened 10 false
      ∧ (∀ e ∈ (measuring .running (.opened 10 false) .blocked 30 [item 1 0]).table, e.tag ≠ 7)
      ∧ reached 30 (10 + BitVec.ofNat 32 twoStations.line.runoffOffset + 0) = false
      ∧ (measuring .draining (.opened 10 true) .clear 30 [item 1 0]).induction.slot = .opened 10 true
      ∧ ¬ (measuring .draining (.opened 10 true) .clear 30 [item 1 0]).isDrained :=
  ⟨⟨⟨rfl, 30, rfl, by decide⟩, by unfold NoSlotWasted; decide⟩, by decide, by decide, by decide, by decide, by decide,
    by decide, by decide⟩

/-- The tag search: the next tag, one past a held tag, and past 65535 and a held tag 1. -/
theorem witness_freeTag :
    freeTag 7 0 [item 1 0] 7 ∧ freeTag 7 1 [item 7 0] 8 ∧ freeTag 65535 2 [item 65535 0, item 1 0] 2 := by
  unfold freeTag
  decide

/-! ### Witnesses: the arbiter, the diverters' timers, the monitors -/

/-- `contested` with a second slot free, under a priority mode. -/
def granting (mode : PriorityMode) : State :=
  { contested 40 with
    config := { twoStations with line := { twoStations.line with priority := mode, driveBudget := 2 } }
    arbiter := { (contested 40).arbiter with budget := 2 } }

theorem witness_SlotGrantChooses :
    ((granting .fixed).held = none ∧ DriveLaw (granting .fixed) ∧ (granting .fixed).slotFree = true
        ∧ (granting .fixed).firstInSearch 0)
      ∧ (DriveLaw (granting .rotating) ∧ (granting .rotating).firstInSearch 0)
      ∧ (∀ tag ∈ ((granting .fixed).diverter 0).pending, ∃ e, (granting .fixed).entry tag = some e
        ∧ reached 40 (releasePoint ((granting .fixed).record 0) e) = false)
      ∧ (contested 40).slotFree = false ∧ ¬ (contested 40).isDrained ∧ (∀ d, (lane .running).waits d = false) := by
  refine ⟨⟨by decide, driveLaw_of_checks (by decide) (by decide) (by decide), by decide, by decide, ?_⟩,
    ⟨driveLaw_of_checks (by decide) (by decide) (by decide), by decide, ?_⟩, ?_, by decide, by decide, by decide⟩
  · show ∀ d' : Station, (granting .fixed).waits d' = true → 0 ≤ d'
    decide
  · show ∀ d' : Station, (granting .rotating).waits d' = true → (0 : Station) - (1 + 1) ≤ d' - (1 + 1)
    decide
  · intro tag h
    obtain rfl : tag = 1 := List.mem_singleton.mp h
    exact ⟨taken 1 0 0 .pending, by decide, by decide⟩

/-- Grants past release points: one that releases within itself, and one with an item on either side of its point. -/
theorem witness_SlotGrantChooses_passed :
    (overdueAll.held = none ∧ overdueAll.slotFree = true ∧ overdueAll.firstInSearch 0 ∧ overdueAll.passedAt 0 = [1]
        ∧ overdueAll.pushedAt 0 = [] ∧ overdueAll.entry 1 = some (taken 1 0 0 .pending))
      ∧ (overdueSome.held = none ∧ overdueSome.slotFree = true ∧ overdueSome.firstInSearch 0
        ∧ overdueSome.passedAt 0 = [1] ∧ overdueSome.pushedAt 0 = [2]
        ∧ overdueSome.entry 2 = some (taken 2 16 0 .pending)) :=
  ⟨⟨rfl, by decide, ⟨rfl, show ∀ d' : Station, overdueAll.waits d' = true → 0 - (15 + 1) ≤ d' - (15 + 1) by decide⟩,
      by decide, by decide, by decide⟩,
    rfl, by decide, ⟨rfl, show ∀ d' : Station, overdueSome.waits d' = true → 0 - (15 + 1) ≤ d' - (15 + 1) by decide⟩,
    by decide, by decide, by decide⟩

theorem witness_DiverterTimersExpire_passed :
    (overdueRecovery.held = none ∧ NoSlotWasted overdueRecovery ∧ (overdueRecovery.diverter 0).state = .recovery
        ∧ expired (overdueRecovery.diverter 0).recoveryTimer overdueRecovery = true
        ∧ (overdueRecovery.diverter 0).pending ≠ [] ∧ overdueRecovery.slotFree = true
        ∧ overdueRecovery.pushedAt 0 = [])
      ∧ ((crowdedPast 55).held = none ∧ NoSlotWasted (crowdedPast 55) ∧ ((crowdedPast 55).diverter 1).state = .energised
        ∧ expired ((crowdedPast 55).diverter 1).maxOnTimer (crowdedPast 55) = true) :=
  ⟨⟨rfl, by unfold NoSlotWasted; decide, rfl, by decide, by decide, by decide, by decide⟩,
    rfl, noSlotWasted_of_full (by decide), rfl, by decide⟩

/-- A state in which 500 ms have passed. -/
def later (s : State) : State := { s with timeStamp := s.timeStamp + 500 }

/-- A test pulse at station 1 of a READY line, run out. -/
def pulsing : State :=
  { lane .ready with
    diverters := (lane .ready).diverters.set 0
      { Diverter.atReset with state := .energised, testPulse := true, output := true, pulseTimer := some 0 }
    arbiter := { (lane .ready).arbiter with slotsInUse := 1 } }

theorem witness_DiverterTimersExpire :
    ((later (pushing 50)).held = none ∧ DriveLaw (later (pushing 50)) ∧ NoSlotWasted (later (pushing 50))
        ∧ ((later (pushing 50)).diverter 0).state = .energised
        ∧ expired ((later (pushing 50)).diverter 0).maxOnTimer (later (pushing 50)) = true
        ∧ (∀ d, (later (pushing 50)).waits d = false) ∧ 0 < ((later (pushing 50)).record 0).recovery
        ∧ expired ((pushing 50).diverter 0).maxOnTimer (pushing 50) = false)
      ∧ (DriveLaw pulsing ∧ NoSlotWasted pulsing ∧ (pulsing.diverter 0).state = .energised
        ∧ expired (pulsing.diverter 0).pulseTimer pulsing = true ∧ (∀ d, pulsing.waits d = false)
        ∧ 0 < (pulsing.record 0).recovery ∧ ((lane .ready).diverter 0).state ≠ .energised) :=
  ⟨⟨by decide, driveLaw_pushing 50, by unfold NoSlotWasted; decide, by decide, by decide, by decide, by decide, by decide⟩,
    driveLaw_of_checks (by decide) (by decide) (by decide), by unfold NoSlotWasted; decide, by decide, by decide, by decide,
    by decide, by decide⟩

/-- A state with no drive slot left. -/
def slotless (s : State) : State := { s with arbiter := { s.arbiter with budget := 0 } }

theorem witness_DiverterTimersExpire_recovery :
    (DriveLaw (recovering [] 40) ∧ NoSlotWasted (recovering [] 40) ∧ ((recovering [] 40).diverter 0).state = .recovery
        ∧ expired ((recovering [] 40).diverter 0).recoveryTimer (recovering [] 40) = true
        ∧ ((recovering [] 40).diverter 0).pending = []
        ∧ ¬ ((recovering [] 40).withDiverter 0
          { (recovering [] 40).diverter 0 with state := .idle, recoveryTimer := none }).isDrained)
      ∧ (DriveLaw (recovering [1] 40) ∧ NoSlotWasted (recovering [1] 40)
        ∧ ((recovering [1] 40).diverter 0).pending ≠ [] ∧ (recovering [1] 40).slotFree = true)
      ∧ (∀ tag ∈ ((recovering [1] 40).diverter 0).pending, ∃ e, (recovering [1] 40).entry tag = some e
        ∧ reached 40 (releasePoint ((recovering [1] 40).record 0) e) = false)
      ∧ (DriveLaw (slotless (recovering [1] 40)) ∧ NoSlotWasted (slotless (recovering [1] 40))
        ∧ (slotless (recovering [1] 40)).slotFree = false ∧ (slotless (recovering [1] 40)).table ≠ []) := by
  refine ⟨⟨driveLaw_of_checks (by decide) (by decide) (by decide), by unfold NoSlotWasted; decide, by decide, by decide,
      by decide, by decide⟩,
    ⟨driveLaw_of_checks (by decide) (by decide) (by decide), by unfold NoSlotWasted; decide, by decide, by decide⟩, ?_,
    ⟨driveLaw_of_checks (by decide) (by decide) (by decide), by unfold NoSlotWasted; decide, by decide, by decide⟩⟩
  intro tag h
  obtain rfl : tag = 1 := List.mem_singleton.mp h
  exact ⟨taken 1 0 0 .pending, by decide, by decide⟩

theorem witness_DiverterTimersExpire_drained :
    ((draining recovered 0).held = none ∧ ((draining recovered 0).diverter 0).state = .recovery
        ∧ expired ((draining recovered 0).diverter 0).recoveryTimer (draining recovered 0) = true
        ∧ ((draining recovered 0).diverter 0).pending = []
        ∧ ((draining recovered 0).withDiverter 0
          { (draining recovered 0).diverter 0 with state := .idle, recoveryTimer := none }).isDrained)
      ∧ NoSlotWasted (draining recovered 0)
      ∧ ((draining pulsed 1).held = none ∧ ((draining pulsed 1).diverter 0).state = .energised
        ∧ expired ((draining pulsed 1).diverter 0).pulseTimer (draining pulsed 1) = true
        ∧ ((draining pulsed 1).withDiverter 0 ((draining pulsed 1).released 0)).isDrained)
      ∧ NoSlotWasted (draining pulsed 1) :=
  ⟨by decide, (by unfold NoSlotWasted; decide), by decide, by unfold NoSlotWasted; decide⟩

theorem witness_DiverterTimersExpire_waiting :
    ((crowded 42).held = none ∧ DriveLaw (crowded 42) ∧ NoSlotWasted (crowded 42) ∧ TagLaw (crowded 42)
        ∧ PlaceLaw (crowded 42) ∧ MonitorLaw (crowded 42) ∧ ((crowded 42).diverter 1).state = .energised
        ∧ expired ((crowded 42).diverter 1).maxOnTimer (crowded 42) = true
        ∧ ((crowded 42).withDiverter 1 ((crowded 42).released 1)).firstInSearch 0 ∧ (crowded 42).releasesAhead 0)
      ∧ (pulsingBeside.held = none ∧ DriveLaw pulsingBeside ∧ NoSlotWasted pulsingBeside ∧ TagLaw pulsingBeside
        ∧ PlaceLaw pulsingBeside ∧ (pulsingBeside.diverter 1).state = .energised
        ∧ expired (pulsingBeside.diverter 1).pulseTimer pulsingBeside = true ∧ pulsingBeside.releasesAhead 0
        ∧ pulsingBeside.line.state ≠ .draining) :=
  ⟨⟨rfl, driveLaw_crowded _, noSlotWasted_of_full (by decide), tagLaw_crowded _, placeLaw_crowded _,
      monitorLaw_crowded _, rfl, by decide, firstInSearch_crowded _, releasesAhead_of_check (by decide)⟩,
    rfl, lawful_pulsingBeside.1, noSlotWasted_of_full (by decide), lawful_pulsingBeside.2.1,
    lawful_pulsingBeside.2.2, rfl, by decide, releasesAhead_of_check (by decide), by decide⟩

/-- The destination of station 1 after the unit of `confirming` is consumed. -/
def consumed (base remaining : Nat) (reload : Bool) : DestRecord :=
  { opened base remaining 0 DestRecord.atReset with autoReload := reload, filled := 1 }

theorem witness_ConfirmsAndDeadlines_completion (r : Bool) (remaining : Nat) :
    (confirming 3 remaining r).held = none ∧ ((confirming 3 remaining r).monitor 0).eye = .clear
      ∧ (confirming 3 remaining r).installed 0 = true ∧ (confirming 3 remaining r).line.state.working = true
      ∧ expired ((confirming 3 remaining r).monitor 0).deadlineTimer (confirming 3 remaining r) = true
      ∧ ((confirming 3 remaining r).monitor 0).confirm = 1 :: [] ∧ (1 : Tag) ∉ ([] : List Tag)
      ∧ (∀ next ∈ ([] : List Tag).head?, (confirming 3 remaining r).deadlineReached next = false)
      ∧ (confirming 3 remaining r).entry 1 = some { taken 1 0 0 .confirming with confirmDeadline := some 0 }
      ∧ ({ confirming 3 remaining r with
          table := (confirming 3 remaining r).table.filter (fun x => x.tag != 1) } : State).line.state ≠ .draining
      ∧ consumed 3 remaining r = { (confirming 3 remaining r).destination 0 with
          outstanding := ((confirming 3 remaining r).destination 0).outstanding - 1
          filled := if 0 < ((confirming 3 remaining r).destination 0).base
            then ((confirming 3 remaining r).destination 0).filled + 1
            else min 65535 (((confirming 3 remaining r).destination 0).filled + 1) } :=
  ⟨rfl, rfl, rfl, rfl, show reached 0 0 = true by decide, rfl, List.not_mem_nil, nofun, rfl, nofun, rfl⟩

theorem witness_ConfirmsAndDeadlines_batch :
    (consumed 3 0 true).remaining = 0 ∧ (consumed 3 0 true).outstanding = 0 ∧ 0 < (consumed 3 0 true).base
      ∧ (consumed 3 0 true).causes.batchEnd = false ∧ (consumed 3 0 true).autoReload = true
      ∧ (consumed 3 0 false).autoReload = false ∧ 0 < (consumed 3 2 true).remaining ∧ (consumed 0 0 true).base = 0 := by
  decide

theorem witness_ConfirmsAndDeadlines_edges :
    ((chuteAt .ready .full .blocked).monitor 0).eye = .blocked
      ∧ ((chuteAt .ready .clear .clear).monitor 0).eye = .clear ∧ (chuteAt .ready .clear .clear).installed 2 = false
      ∧ ((chuteAt .ready .clear .clear).monitor 2).eye = .clear
      ∧ (chuteAt .ready .clear .clear).installed 0 = true ∧ ¬ (chuteAt .ready .clear .clear).isDrained
      ∧ ((chuteAt .ready .clear .clear).monitor 0).confirm = []
      ∧ (chuteAt .halted .emptying .clear).line.state = .halted ∧ (chuteAt .idle .clear .clear).line.state = .idle
      ∧ expired ((lane .running).monitor 0).deadlineTimer (lane .running) = false := by decide

/-- Items 1 and 2 are due at station 1 and item 3, where there is one, is not. -/
def twoDue (l : LineState) (third : List Entry) : State :=
  { lane l with
    table := [{ taken 1 0 0 .confirming with confirmDeadline := some 0 },
      { taken 2 0 0 .confirming with confirmDeadline := some 0 }] ++ third
    monitors := (lane l).monitors.set 0
      { confirm := [1, 2] ++ third.map (·.tag), deadlineTimer := some 0, eye := .clear, chute := .clear, chuteTimer := none }
    destinations := (lane l).destinations.set 0 (opened 0 0 (2 + third.length) DestRecord.atReset) }

/-- Item 3 awaits its confirmation with time left. -/
def third : List Entry := [{ taken 3 0 0 .confirming with confirmDeadline := some 5 }]

/-- `twoDue` less the items that are due. -/
def twoLeft (l : LineState) (third : List Entry) : State :=
  { twoDue l third with
    table := (twoDue l third).table.filter (fun x => !([1, 2] : List Tag).contains x.tag) }

theorem witness_ConfirmsAndDeadlines_due :
    (([1, 2] : List Tag) ≠ [] ∧ ([1, 2] : List Tag).tail = [2] ∧ ([1, 2] : List Tag).Nodup ∧ 1 ∉ [(3 : Tag)]
        ∧ 2 ∉ [(3 : Tag)])
      ∧ ((twoDue .running third).held = none
        ∧ expired ((twoDue .running third).monitor 0).deadlineTimer (twoDue .running third) = true
        ∧ ((twoDue .running third).monitor 0).confirm = [1, 2] ++ [3]
        ∧ (twoDue .running third).deadlineReached 2 = true ∧ (twoDue .running third).deadlineReached 3 = false
        ∧ (twoDue .running third).entry 1 ≠ none ∧ (twoDue .running third).entry 2 ≠ none
        ∧ 2 ≤ ((twoDue .running third).destination 0).outstanding ∧ ¬ (twoLeft .running third).isDrained)
      ∧ ((twoDue .draining []).held = none
        ∧ expired ((twoDue .draining []).monitor 0).deadlineTimer (twoDue .draining []) = true
        ∧ ((twoDue .draining []).monitor 0).confirm = [1, 2] ++ []
        ∧ (twoDue .draining []).deadlineReached 2 = true
        ∧ (twoDue .draining []).entry 1 ≠ none ∧ (twoDue .draining []).entry 2 ≠ none
        ∧ 2 ≤ ((twoDue .draining []).destination 0).outstanding ∧ (twoLeft .draining []).isDrained) := by decide

theorem witness_ChuteTiming :
    (∀ c ∈ [ChuteState.clear, .filling, .full, .emptying],
      (chuteAt .ready c .blocked).held = none ∧ ((chuteAt .ready c .blocked).monitor 0).eye = .blocked
        ∧ (chuteAt .ready c .blocked).installed 0 = true ∧ (chuteAt .ready c .blocked).line.state ≠ .idle
        ∧ expired ((chuteAt .ready c .blocked).monitor 0).chuteTimer (chuteAt .ready c .blocked) = true
        ∧ ((chuteAt .ready c .blocked).monitor 0).chute = c)
      ∧ ((chuteAt .ready .full .clear).monitor 0).eye = .clear ∧ (lane .ready).installed 2 = false
      ∧ (chuteAt .idle .filling .blocked).line.state = .idle
      ∧ expired ((lane .ready).monitor 0).chuteTimer (lane .ready) = false := by decide

/-! ### Witnesses: the link -/

theorem witness_FramesReceived :
    (linked none [] .free .hunting).held = none ∧ (linked none [] .free .hunting).link.receiver = .hunting
      ∧ ([0xA6] : List Byte) ≠ [] ∧ number1 ([0xA6] ++ [48]) 1 ≤ 48
      ∧ ([0xA6] ++ [(48 : Byte)]).length < number1 ([0xA6] ++ [48]) 1 + 8
      ∧ strtFrame.bytes.dropLast ++ [strtFrame.bytes.getLast!] = strtFrame.bytes ∧ strtFrame.cls = classOrder
      ∧ strtFrame.payload.length ≤ 48 ∧ strtFrame.kind = OrderKind.strt.code
      ∧ (linked (some noticeFrame) [strtFrame, strtFrame] (.sending true noticeFrame.bytes)
          (.assembling strtFrame.bytes.dropLast)).link.answer = some noticeFrame
      ∧ (linked none [] .free (.assembling strtFrame.bytes.dropLast)).link.answer = none
      ∧ (linked none [] .free (.assembling strtFrame.bytes.dropLast)).link.orders = [] := by decide +kernel

theorem witness_FramesDiscarded :
    (linked none [] .free (.assembling [0xA6])).link.receiver = .assembling [0xA6]
      ∧ ([0xA6] : List Byte).length = 1 ∧ 48 < (49 : Byte).toNat ∧ (49 : Byte) ≠ 0xA6
      ∧ noticeFrame.bytes.dropLast ++ [noticeFrame.bytes.getLast!] = noticeFrame.bytes ∧ noticeFrame.cls ≠ classOrder
      ∧ noticeFrame.payload.length ≤ 48
      ∧ 2 ≤ ([0xA6, 0, 1, 0x10, 5, 0, 0] : List Byte).length ∧ number1 [0xA6, 0, 1, 0x10, 5, 0, 0] 1 ≤ 48
      ∧ ([0xA6, 0, 1, 0x10, 5, 0, 0] ++ [(0 : Byte)]).length = number1 [0xA6, 0, 1, 0x10, 5, 0, 0] 1 + 8
      ∧ crc ((([0xA6, 0, 1, 0x10, 5, 0, 0] : List Byte).drop 1).take 5) ≠ halfAt ([0xA6, 0, 1, 0x10, 5, 0, 0] ++ [0]) 6
      ∧ 0xA6 ∉ ([0xA6, 0, 1, 0x10, 5, 0, 0] ++ [(0 : Byte)]).tail
      ∧ expired (some 0) (lane .ready) = true ∧ expired (lane .ready).link.gapTimer (lane .ready) = false := by
  decide +kernel

/-- The states that receiving characters one after another leads through. -/
def receiving (tail : List Byte) (start : State) (i : Nat) : State :=
  (tail.take i).foldl (fun s x => if s.held.isSome then s else receive x s) start

theorem receiving_step (tail : List Byte) (start : State) {i : Nat} {x : Byte} (h : tail[i]? = some x) :
    exec (.characterReceived x) (receiving tail start i) = .next (receiving tail start (i + 1)) := by
  unfold receiving
  rw [List.take_add_one, h]
  simp only [Option.toList_some, List.foldl_append, List.foldl_cons, List.foldl_nil]
  rfl

theorem witness_FramesDiscarded_again (held : List Byte) (b : Byte) (start : State) :
    (receiving (held ++ [b]).tail start 0 = start
        ∧ ∀ i x, (held ++ [b]).tail[i]? = some x →
          exec (.characterReceived x) (receiving (held ++ [b]).tail start i)
            = .next (receiving (held ++ [b]).tail start (i + 1)))
      ∧ number1 [0xA6, 0, 0xA6, 0x10, 5, 0, 0] 1 ≤ 48
      ∧ ([0xA6, 0, 0xA6, 0x10, 5, 0, 0] ++ [(0 : Byte)]).length = number1 [0xA6, 0, 0xA6, 0x10, 5, 0, 0] 1 + 8
      ∧ crc ((([0xA6, 0, 0xA6, 0x10, 5, 0, 0] : List Byte).drop 1).take 5)
          ≠ halfAt ([0xA6, 0, 0xA6, 0x10, 5, 0, 0] ++ [0]) 6 :=
  ⟨⟨rfl, fun _ _ => receiving_step _ _⟩, by decide, by decide, by decide +kernel⟩

theorem witness_TransmitterTurns :
    (linked none [] .free .hunting).held = none ∧ (linked none [] .free .hunting).link.transmitter = .free
      ∧ (linked (some strtFrame) [] (.sending false [1]) .hunting).link.answer = some strtFrame
      ∧ (linked (some strtFrame) [] (.sending true [1]) .hunting).link.transmitter = .sending true [1]
      ∧ (linked (some strtFrame) [] (.sending true [1]) .hunting).link.resetDue = false
      ∧ (linked (some strtFrame) [] (.sending true [1]) .hunting).queue.eligible = true
      ∧ (linked (some strtFrame) [strtFrame] (.sending true [1]) .hunting).link.orders = strtFrame :: []
      ∧ strtFrame.kind = OrderKind.strt.code
      ∧ ({ (linked none [] .free .hunting).queue with window := 0 } : ReportQueue).eligible = false
      ∧ (linked none [] (.sending false [1]) .hunting).link.answer = none := by decide

theorem witness_TransmitterTurns_both :
    ∃ n, (linked (some strtFrame) [strtFrame] (.sending true [1]) .hunting).link.orders = strtFrame :: []
      ∧ (linked (some strtFrame) [strtFrame] (.sending true [1]) .hunting).queue.eligible = true
      ∧ (linked (some strtFrame) [strtFrame] (.sending true [1]) .hunting).queue.notices[
          (linked (some strtFrame) [strtFrame] (.sending true [1]) .hunting).queue.distance
            (linked (some strtFrame) [strtFrame] (.sending true [1]) .hunting).queue.sendPointer]? = some n :=
  ⟨⟨0, 0, 0, 0, .restart .power⟩, by decide⟩

/-- An order frame whose KIND names no order. -/
def strangeFrame : Frame := { cls := classOrder, kind := 0x45, number := 5, payload := [] }

theorem witness_UnknownKindFrames :
    OrderKind.ofCode strangeFrame.kind = none ∧ strangeFrame.cls = classOrder ∧ strangeFrame.payload.length ≤ 48
      ∧ strangeFrame.bytes.dropLast ++ [strangeFrame.bytes.getLast!] = strangeFrame.bytes
      ∧ (linked (some strtFrame) [strangeFrame] (.sending true [1]) .hunting).link.orders = strangeFrame :: []
      ∧ (linked (some strtFrame) [strangeFrame] (.sending true [1]) .hunting).queue.eligible = true := by decide +kernel

theorem witness_RetryGoesBack :
    expired (lane .ready).queue.retryTimer (lane .ready) = false
      ∧ expired (sentTwo 4).retryTimer ({ lane .ready with queue := sentTwo 4 } : State) = true
      ∧ (lane .ready).link.transmitter = .free ∧ (lane .ready).link.answer = none
      ∧ ({ sentTwo 4 with sendPointer := 0, retryTimer := some 200 } : ReportQueue).eligible = true
      ∧ (sentTwo 4).notices[0]? ≠ none
      ∧ (linked none [] (.sending false [1]) .hunting).link.transmitter ≠ .free := by decide

/-- A queue of a number of notices. -/
def filledTo (n : Nat) : ReportQueue := { ReportQueue.atReset .power with next := BitVec.ofNat 16 n }

theorem witness_NoticeAdmission :
    (filledTo 59).occupancy < (if NoticeBody.kept .exitUnexpected = true then 64 else 60)
      ∧ (if NoticeBody.kept .exitUnexpected = true then 64 else 60) ≤ (filledTo 60).occupancy
      ∧ (filledTo 63).occupancy < (if NoticeBody.kept (.link true) = true then 64 else 60)
      ∧ (if NoticeBody.kept (.link true) = true then 64 else 60) ≤ (filledTo 64).occupancy := by decide

/-! ### Witnesses: the laws -/

theorem witness_LineAndTagLawsKept :
    LineLaw (lane .running) ∧ TagLaw (running [item 1 0, item 2 30] [] 60)
      ∧ step (lane .running) = .next (millisecond (lane .running))
      ∧ step (running [item 1 0, item 2 30] [] 60) = .next (millisecond (running [item 1 0, item 2 30] [] 60)) := by
  refine ⟨?_, ?_, rfl, rfl⟩
  · unfold LineLaw
    decide
  · unfold TagLaw
    decide

theorem witness_TrackingLawKept :
    LineLaw (crowded 54) ∧ TagLaw (crowded 54) ∧ DriveLaw (crowded 54) ∧ NoSlotWasted (crowded 54)
      ∧ TrackingLaw (crowded 54)
      ∧ step { crowded 54 with pending := [.forwardTick] } = .next (forwardTick (crowded 54)) :=
  ⟨lineLaw_crowded, tagLaw_crowded _, driveLaw_crowded _, noSlotWasted_of_full (by decide), trackingLaw_crowded, rfl⟩

theorem witness_QueueLawKept :
    QueueLaw (sentTwo 4) ∧ step { lane .ready with queue := sentTwo 4 }
      = .next (millisecond { lane .ready with queue := sentTwo 4 }) := by
  refine ⟨⟨by decide, by decide, by decide, ?_, by decide, by decide, by decide, by decide, by decide, by decide⟩, rfl⟩
  intro i n h
  match i, h with
  | 0, h => obtain rfl := Option.some.inj h; rfl
  | 1, h => obtain rfl := Option.some.inj h; rfl
  | 2, h => obtain rfl := Option.some.inj h; rfl

theorem witness_LinkLawKept :
    LinkLaw (linked (some noticeFrame) [strtFrame, strtFrame] (.sending true [1]) .hunting).link
      ∧ step (linked (some noticeFrame) [strtFrame, strtFrame] (.sending true [1]) .hunting)
        = .next (millisecond (linked (some noticeFrame) [strtFrame, strtFrame] (.sending true [1]) .hunting)) :=
  ⟨⟨by decide, by decide, by decide, by decide, by decide, by decide, fun _ _ => rfl, by decide, by decide⟩, rfl⟩

theorem witness_DriveLawKept :
    DriveLaw (contested 43) ∧ NoSlotWasted (contested 43)
      ∧ step (contested 43) = .next (millisecond (contested 43)) :=
  ⟨driveLaw_contested _, by unfold NoSlotWasted; decide, rfl⟩

end Sys2Proof.Tests
end

