-- ==== Sys2Proof/Proofs/Effects.lean ====
section
/-! PROOF. One walk over the commands and the orders for any relation between states: a relation that the traffic of the
link stays within, and that each effect of an order or an event stays within, holds between a state and its next. -/

namespace Sys2Proof.Machine

/-- A relation between states that is reflexive and transitive, and that the traffic of link, report queue and supervisor
stays within. -/
structure Neutral (R : State → State → Prop) : Prop where
  refl : ∀ s, R s s
  trans : ∀ {s t u}, R s t → R t u → R s u
  traffic : ∀ s l q v, R s { s with link := l, queue := q, supervisor := v }

/-- A rule whose changed state stays within a relation. -/
def RuleWithin (R : State → State → Prop) (rule : OrderRule) : Prop := ∀ p s, R s (rule p s).1

/-! ### The checks before a rule -/

section

variable {R : State → State → Prop} (N : Neutral R)

include N

theorem Neutral.formChecked {k : OrderKind} {own : OrderRule} (h : RuleWithin R own) :
    RuleWithin R (formChecked k own) := by
  intro p s
  unfold Machine.formChecked
  split
  · exact N.refl s
  · split
    · exact N.refl s
    · exact h p s

theorem Neutral.linkChecked {own : OrderRule} (h : RuleWithin R own) : RuleWithin R (linkChecked own) := by
  intro p s
  unfold Machine.linkChecked
  split
  · exact N.refl s
  · exact h p s

/-- The checks of OPND, CLSD and ADJD pass on to an installed station (R109). -/
theorem Neutral.destinationChecked {own : Station → OrderRule}
    (h : ∀ d p s, s.installed d = true → R s (own d p s).1) : RuleWithin R (destinationChecked own) := by
  intro p s
  unfold Machine.destinationChecked
  split
  · exact N.refl s
  · split
    · split
      · rename_i installed
        exact h _ p s installed
      · exact N.refl s
    · exact N.refl s
    · exact N.refl s

/-- The checks of DDIS and DENA pass on to an installed station (R78, R80). -/
theorem Neutral.diverterChecked {own : Station → OrderRule}
    (h : ∀ d p s, s.installed d = true → R s (own d p s).1) : RuleWithin R (diverterChecked own) := by
  intro p s
  unfold Machine.diverterChecked
  split
  · exact N.refl s
  · split
    · split
      · rename_i installed
        exact h _ p s installed
      · exact N.refl s
    · exact N.refl s

/-- The checks of ASGN and DROP pass on while the line works (R40). -/
theorem Neutral.lineChecked {own : OrderRule} (h : ∀ p s, s.line.state.working = true → R s (own p s).1) :
    RuleWithin R (lineChecked own) := by
  refine N.linkChecked (fun p s => ?_)
  split
  · rename_i working
    exact h p s working
  · exact N.refl s

/-! ### Traffic -/

theorem Neutral.startNext (s : State) : R s (startNext s) := by
  rcases startNext_cases s with e | ⟨_, _, _, e⟩ | ⟨_, _, _, _, e⟩ <;> rw [e]
  · exact N.refl s
  · exact N.traffic s _ s.queue s.supervisor
  · exact N.traffic s _ _ s.supervisor

theorem Neutral.submit (b : NoticeBody) (s : State) : R s (submit b s) :=
  N.trans (N.traffic s s.link (s.queue.offer b s.timeStamp s.counter.position) s.supervisor) (N.startNext _)

theorem Neutral.placeAnswer (f : Frame) (s : State) : R s (placeAnswer f s) :=
  N.trans (N.traffic s { s.link with answer := some f } s.queue s.supervisor) (N.startNext _)

theorem Neutral.restartSupervision (s : State) : R s (restartSupervision s) := N.traffic s s.link s.queue _

theorem Neutral.setReceiver (r : Receiver) (s : State) : R s (setReceiver r s) := N.traffic s _ s.queue s.supervisor

theorem Neutral.countDiscard (s : State) : R s (countDiscard s) := N.traffic s _ s.queue s.supervisor

theorem Neutral.setGapTimer (s : State) : R s (setGapTimer s) := N.traffic s _ s.queue s.supervisor

theorem Neutral.offerOrder (f : Frame) (s : State) : R s (offerOrder f s) := by
  unfold Machine.offerOrder
  split
  · exact N.traffic s _ s.queue s.supervisor
  · exact N.traffic s _ s.queue s.supervisor

theorem Neutral.dropFrame (s : State) : R s (dropFrame s) := by
  unfold Machine.dropFrame
  split
  · exact N.trans (N.trans (N.countDiscard s) (N.setReceiver _ _)) (N.setGapTimer _)
  · exact N.refl s

theorem Neutral.gapExpiry (s : State) : R s (gapExpiry s) := by
  unfold Machine.gapExpiry
  split
  · exact N.dropFrame s
  · exact N.refl s

theorem Neutral.retryExpiry (s : State) : R s (retryExpiry s) := by
  unfold Machine.retryExpiry
  split
  · exact N.trans (N.traffic s s.link _ s.supervisor) (N.startNext _)
  · exact N.refl s

theorem Neutral.replayOrder (n : Half) (k : Byte) (s : State) : R s (replayOrder n k s) := by
  unfold Machine.replayOrder
  split
  · exact N.refl s
  · split
    · exact N.placeAnswer _ s
    · exact N.refl s

/-- An order that is taken stays within the relation when its rule does (R149). -/
theorem Neutral.takeOrder {rule : OrderRule} (h : RuleWithin R rule) (n : Half) (k : Byte) (p : List Byte) (s : State) :
    R s (takeOrder rule n k p s) := by
  unfold Machine.takeOrder
  split
  · exact N.refl s
  · split
    · exact N.placeAnswer _ s
    · unfold answerOrder
      dsimp only
      exact N.trans (N.trans (h p s) (N.traffic _ _ (rule p s).1.queue (rule p s).1.supervisor)) (N.placeAnswer _ _)

/-! ### Orders without an effect beyond the traffic -/

theorem Neutral.rdcf : RuleWithin R rdcf := by
  refine N.formChecked (fun p s => ?_)
  split
  · exact N.refl s
  · split <;> exact N.refl s

theorem Neutral.qitm : RuleWithin R qitm := by
  refine N.formChecked (fun p s => ?_)
  split <;> exact N.refl s

theorem Neutral.list : RuleWithin R list := by
  refine N.formChecked (fun p s => ?_)
  split <;> exact N.refl s

theorem Neutral.qdst : RuleWithin R qdst := by
  refine N.formChecked (fun p s => ?_)
  split
  · exact N.refl s
  · split
    · exact N.refl s
    · split <;> exact N.refl s
    · exact N.refl s

theorem Neutral.rstr : RuleWithin R rstr := N.formChecked (fun _ s => N.traffic s _ s.queue s.supervisor)

theorem Neutral.stat : RuleWithin R stat := by
  refine N.formChecked (fun p s => ?_)
  split
  · exact N.refl s
  · dsimp only
    split
    · exact N.traffic s _ s.queue s.supervisor
    · exact N.refl s

theorem Neutral.link : RuleWithin R link := by
  refine N.formChecked (fun p s => ?_)
  split
  · exact N.refl s
  · split
    · exact N.trans (N.traffic s s.link _ _) (N.restartSupervision _)
    · exact N.refl s

theorem Neutral.wind : RuleWithin R wind := by
  refine N.formChecked (fun p s => ?_)
  split
  · exact N.refl s
  · exact N.trans (N.traffic s s.link _ s.supervisor) (N.startNext _)

theorem Neutral.ack : RuleWithin R ack := by
  refine N.formChecked (fun p s => ?_)
  split
  · exact N.trans (N.traffic s s.link _ s.supervisor) (N.startNext _)
  · exact N.refl s

theorem Neutral.rsum : RuleWithin R rsum := by
  refine N.formChecked (fun p s => ?_)
  dsimp only
  split
  · exact N.trans (N.trans (N.traffic s s.link s.queue _) (N.restartSupervision _)) (N.submit _ _)
  · exact N.refl s

theorem Neutral.unknownRule : RuleWithin R unknownRule := fun _ s => N.refl s

end

/-! ### The effects of the orders -/

/-- A neutral relation that every effect of an order stays within, each under the conditions its order checks. -/
structure OrderEffects (R : State → State → Prop) : Prop extends Neutral R where
  lineRecord : ∀ s (r : LineRecord), r.inRange = true →
    R s { s with pendingConfig := { s.pendingConfig with line := r } }
  diverterRecord : ∀ s (d : Station) (r : DiverterRecord), r.inRange = true →
    R s { s with pendingConfig := { s.pendingConfig with diverters := s.pendingConfig.diverters.set d r } }
  commit : ∀ s, s.line.state = .idle ∨ s.line.state = .ready → s.pendingConfig.failure = none → R s (commit s)
  start : ∀ s, s.mayStart = true → R s (startLine s)
  drain : ∀ s, s.line.state = .running → R s (drainTest (beginDrain s))
  halt : ∀ s c, R s (requestHalt c s)
  clearHalted : ∀ s, s.line.state = .halted → R s (clearHalted s)
  clearReady : ∀ s, s.line.state = .ready → R s (clearReady s)
  markLate : ∀ s e, s.entry e.tag = some e → R s (markLate e s)
  assign : ∀ s d e, s.line.state.working = true → s.destInstalled d = true → s.entry e.tag = some e →
    e.state = .travelling → reached s.counter.position (s.destPoint d e) = false → R s (assignEntry d e s)
  dropTravelling : ∀ s e, s.entry e.tag = some e → e.state = .travelling → R s (sendToRunoff e.tag .dropped s)
  dropPending : ∀ s e, s.entry e.tag = some e → e.state = .pending → R s (dropPending e s)
  opened : ∀ s d base reload, (s.destination d).outstanding = 0 →
    R s (setDestination d (DestRecord.openedBy base reload) s)
  closed : ∀ s d, R s (changeCauses d (fun c => { c with host := true }) s)
  adjusted : ∀ s d n, (s.destination d).counted = true → (s.destination d).outstanding + n ≤ (s.destination d).base →
    R s (terminalCount d (setDestination d (DestRecord.adjustedTo n) s))
  enabled : ∀ s d, s.installed d = true → (s.diverter d).disabled = true →
    R s (changeCauses d (fun c => { c with disabled := false })
      (setDiverter d (fun v => { v with disabled := false, state := .idle }) s))
  disabled : ∀ s d, R s (disableDiverter d s)
  pulsed : ∀ s d timer, s.line.state = .ready → (s.diverter d).state = .idle →
    R s (takeSlot (setDiverter d (fun v => { v with
      state := .energised, testPulse := true, push := [], output := true, pulseTimer := timer }) s))

namespace OrderEffects

variable {R : State → State → Prop} (E : OrderEffects R)

include E

theorem cfgl : RuleWithin R cfgl := by
  refine E.formChecked (E.linkChecked (fun p s => ?_))
  split
  · split
    · rename_i r _ range
      exact E.lineRecord s r range
    · exact E.refl s
  · exact E.refl s

theorem cfgd : RuleWithin R cfgd := by
  refine E.formChecked (E.linkChecked (fun p s => ?_))
  split
  · split
    · rename_i d r _ _ range
      exact E.diverterRecord s d r range
    · exact E.refl s
  · exact E.refl s

theorem cmit : RuleWithin R cmit := by
  refine E.formChecked (E.linkChecked (fun p s => ?_))
  split
  · rename_i line
    split
    · exact E.refl s
    · rename_i valid
      exact E.commit s line valid
  · exact E.refl s

theorem strt : RuleWithin R strt := by
  refine E.formChecked (E.linkChecked (fun p s => ?_))
  split
  · rename_i may
    exact E.start s may
  · exact E.refl s

theorem stop : RuleWithin R stop := by
  refine E.formChecked (fun p s => ?_)
  split
  · rename_i running
    exact E.drain s running
  all_goals exact E.refl s

theorem haltRule : RuleWithin R Machine.halt := E.formChecked (fun _ s => E.halt s .order)

theorem clr : RuleWithin R clr := by
  refine E.formChecked (fun p s => ?_)
  split
  · exact E.refl s
  · rename_i line
    split
    · exact E.refl s
    · split
      · rename_i halted
        exact E.clearHalted s halted
      · rename_i other
        refine E.clearReady s ?_
        cases state : s.line.state <;> simp_all [LineState.working]

theorem asgn : RuleWithin R asgn := by
  refine E.formChecked (E.lineChecked (fun p s working => ?_))
  split
  · exact E.refl s
  · split
    · exact E.refl s
    · rename_i d _ installed
      split
      · exact E.refl s
      · rename_i e found
        rw [← tag_of_entry found] at found
        split
        · exact E.refl s
        · split
          · exact E.refl s
          · rename_i travelling
            split
            · exact E.markLate s e found
            · rename_i ahead
              exact E.assign s d e working (by simpa using installed) found (by simpa using travelling)
                (by simpa using ahead)

theorem drop : RuleWithin R drop := by
  refine E.formChecked (E.lineChecked (fun p s _ => ?_))
  split
  · exact E.refl s
  · rename_i e found
    rw [← tag_of_entry found] at found
    split
    · rename_i state
      exact E.dropTravelling s e found state
    · rename_i state
      exact E.dropPending s e found state
    all_goals exact E.refl s

theorem opnd : RuleWithin R opnd := by
  refine E.formChecked (E.linkChecked (E.destinationChecked (fun d p s _ => ?_)))
  split
  · exact E.refl s
  · split
    · exact E.refl s
    · rename_i none
      exact E.trans (E.opened s d _ _ (by omega)) (E.submit _ _)

theorem clsd : RuleWithin R clsd :=
  E.formChecked (E.linkChecked (E.destinationChecked (fun d _ s _ => E.closed s d)))

theorem adjd : RuleWithin R adjd := by
  refine E.formChecked (E.linkChecked (E.destinationChecked (fun d p s _ => ?_)))
  split
  · exact E.refl s
  · rename_i counted
    split
    · exact E.refl s
    · rename_i fits
      exact E.adjusted s d _ (by simpa using counted) (by omega)

theorem dena : RuleWithin R dena := by
  refine E.formChecked (E.linkChecked (E.diverterChecked (fun d p s installed => ?_)))
  split
  · rename_i off
    exact E.enabled s d installed off
  · exact E.refl s

theorem ddis : RuleWithin R ddis := by
  refine E.formChecked (E.linkChecked (E.diverterChecked (fun d p s _ => ?_)))
  split
  · exact E.refl s
  · unfold done
    dsimp only
    exact E.disabled s d

theorem tfir : RuleWithin R tfir := by
  refine E.formChecked (E.linkChecked (fun p s => ?_))
  split
  · exact E.refl s
  · rename_i ready
    split
    · exact E.refl s
    · rename_i d _
      split
      · exact E.refl s
      · split
        · exact E.refl s
        · rename_i idle
          split
          · exact E.refl s
          · exact E.pulsed s d _ (by simpa using ready) (by simpa using idle)

/-- Every order's rule (R172). -/
theorem rule (k : OrderKind) : RuleWithin R k.rule := by
  cases k
  case cfgl => exact E.cfgl
  case cfgd => exact E.cfgd
  case cmit => exact E.cmit
  case rdcf => exact E.rdcf
  case strt => exact E.strt
  case stop => exact E.stop
  case halt => exact E.haltRule
  case clr => exact E.clr
  case rstr => exact E.rstr
  case asgn => exact E.asgn
  case drop => exact E.drop
  case qitm => exact E.qitm
  case list => exact E.list
  case opnd => exact E.opnd
  case clsd => exact E.clsd
  case adjd => exact E.adjd
  case qdst => exact E.qdst
  case dena => exact E.dena
  case ddis => exact E.ddis
  case tfir => exact E.tfir
  case link => exact E.link
  case wind => exact E.wind
  case ack => exact E.ack
  case rsum => exact E.rsum
  case stat => exact E.stat

/-! ### The receiver and the transmitter -/

theorem serviceOrders (s : State) : R s (serviceOrders s) := by
  unfold Machine.serviceOrders
  split
  · split
    · exact E.refl s
    · refine E.trans (E.traffic s _ s.queue s.supervisor) (E.takeOrder ?_ _ _ _ _)
      unfold ruleOf
      split
      · exact E.rule _
      · exact E.unknownRule
  · exact E.refl s

theorem goodFrame (f : Frame) (s : State) : R s (goodFrame f s) :=
  E.trans (E.trans (E.restartSupervision s) (E.offerOrder f _)) (E.serviceOrders _)

theorem examine (n : Nat) (bytes : List Byte) (s : State) : R s (examine n bytes s) := by
  induction n generalizing bytes s with
  | zero => exact E.refl s
  | succ n ih =>
    cases bytes with
    | nil => exact E.refl s
    | cons b rest =>
      unfold Machine.examine
      split
      · exact E.trans (E.setReceiver _ s) (ih _ _)
      · exact E.trans (E.trans (E.countDiscard s) (E.setReceiver _ _)) (ih _ _)
      · exact E.trans (E.trans (E.countDiscard s) (E.setReceiver _ _)) (ih _ _)
      · refine E.trans (E.trans (E.setReceiver .hunting s) (E.goodFrame _ _)) (ih _ _)

theorem receive (b : Byte) (s : State) : R s (receive b s) := E.trans (E.examine _ _ s) (E.setGapTimer _)

end OrderEffects

/-! ### The effects of the events -/

/-- A relation that every effect of an order and of an event stays within. -/
structure EventEffects (R : State → State → Prop) : Prop extends OrderEffects R where
  forwardTick : ∀ s, R s (forwardTick s)
  reverseTick : ∀ s, R s (reverseTick s)
  illegalTransition : ∀ s, R s (illegalTransition s)
  standstillExpiry : ∀ s, R s (standstillExpiry s)
  deliverNamed : ∀ s k, R s (deliverNamed k s)
  entryLeadingEdge : ∀ s, R s (entryLeadingEdge s)
  entryTrailingEdge : ∀ s, R s (entryTrailingEdge s)
  exitLeadingEdge : ∀ s, R s (exitLeadingEdge s)
  grantOne : ∀ s, R s (grantOne s)
  drainTest : ∀ s, R s (drainTest s)
  maxOnEvent : ∀ s d, R s (maxOnEvent d s)
  recoveryEvent : ∀ s d, R s (recoveryEvent d s)
  pulseEvent : ∀ s d, R s (pulseEvent d s)
  deadlineEvent : ∀ s d, R s (deadlineEvent d s)
  confirmLeading : ∀ s d, R s (confirmLeading d s)
  confirmTrailing : ∀ s d, R s (confirmTrailing d s)
  chuteEvent : ∀ s d, R s (chuteEvent d s)
  lineStopChange : ∀ s level, R s (lineStopChange level s)
  runoffAll : ∀ s, R s (runoffAll s)
  reset : ∀ s cause levels, R s (resetState cause levels s)
  resetHeld : ∀ s cause levels, R s { resetState cause levels s with held := some cause }

namespace EventEffects

variable {R : State → State → Prop} (E : EventEffects R)

include E

theorem lossAction (s : State) : R s (lossAction s) := by
  unfold Machine.lossAction
  split
  · rename_i working
    split
    · exact E.refl s
    · exact E.trans (E.runoffAll s) (E.drainTest _)
    · have h := E.halt s .link
      rwa [requestHalt, if_pos working] at h
  · exact E.refl s

theorem supervisionExpiry (s : State) : R s (supervisionExpiry s) := by
  unfold Machine.supervisionExpiry
  dsimp only
  split
  · split
    · exact E.trans (E.trans (E.trans (E.restartSupervision s) (E.traffic _ s.link s.queue _)) (E.submit _ _))
        (E.lossAction _)
    · exact E.restartSupervision s
  · exact E.refl s

theorem transmitComplete (s : State) : R s (transmitComplete s) := by
  unfold Machine.transmitComplete
  split
  · exact E.refl s
  · dsimp only
    split
    · exact E.trans (E.traffic s _ s.queue s.supervisor) (E.resetHeld _ .order _)
    · exact E.trans (E.trans (E.traffic s _ s.queue s.supervisor) (E.startNext _)) (E.serviceOrders _)

theorem resetPart (cause : ResetCause) (levels : Levels) (s : State) : R s (resetPart cause levels s) :=
  E.trans (E.reset s cause levels) (E.startNext _)

theorem goodOrderByte (b : Byte) (s : State) : R s (goodOrderByte b s) := by
  unfold Machine.goodOrderByte
  split
  · exact E.receive b s
  all_goals exact E.refl s

theorem discardByte (b : Byte) (s : State) : R s (discardByte b s) := by
  unfold Machine.discardByte
  split
  · exact E.receive b s
  · exact E.receive b s
  all_goals exact E.refl s

/-- An event that is acted on, or not while a reset is held. -/
theorem event {f : State → State} {s t : State} (h : R s (f s)) (run : event f s = .next t) : R s t := by
  unfold Machine.event at run
  obtain rfl := Host.Outcome.next.inj run
  split
  · exact E.refl s
  · exact h

theorem stationEvent {n : Nat} {f : Station → State → State} {s t : State} (h : ∀ d, R s (f d s))
    (run : stationEvent n f s = .next t) : R s t := by
  unfold Machine.stationEvent at run
  split at run
  · exact E.event (h _) run
  · cases run

/-- A command that is an order's (entry 5). -/
theorem order {rule : OrderRule} (h : RuleWithin R rule) {n : Half} {k : Byte} {p : List Byte} {s t : State}
    (run : Machine.event (takeOrder rule n k p) s = .next t) : R s t :=
  E.event (E.takeOrder h n k p s) run

theorem unknownKind {n : Half} {k : Byte} {p : List Byte} {s t : State}
    (run : execUnknownKind n k p s = .next t) : R s t := by
  unfold execUnknownKind at run
  split at run
  · cases run
  · exact E.order E.unknownRule run

theorem resets {cause : ResetCause} {levels : Levels} {s t : State}
    (run : Host.Outcome.next (φ := Fault) (ρ := Refusal) (Machine.resetPart cause levels s) = .next t) : R s t :=
  Host.Outcome.next.inj run ▸ E.resetPart cause levels s

theorem rstrReset {levels : Levels} {s t : State} (run : execRstrReset levels s = .next t) : R s t := by
  unfold execRstrReset at run
  obtain rfl := Host.Outcome.next.inj run
  split
  · exact E.resetPart _ _ s
  · exact E.refl s

/-- Every command that is executed stays within the relation. -/
theorem exec {c : Instr} {s t : State} (run : exec c s = .next t) : R s t := by
  cases c
  case cfgl => exact E.order E.cfgl run
  case cfgd => exact E.order E.cfgd run
  case cmit => exact E.order E.cmit run
  case rdcf => exact E.order E.rdcf run
  case strt => exact E.order E.strt run
  case stop => exact E.order E.stop run
  case halt => exact E.order E.haltRule run
  case clr => exact E.order E.clr run
  case rstr => exact E.order E.rstr run
  case asgn => exact E.order E.asgn run
  case drop => exact E.order E.drop run
  case qitm => exact E.order E.qitm run
  case list => exact E.order E.list run
  case opnd => exact E.order E.opnd run
  case clsd => exact E.order E.clsd run
  case adjd => exact E.order E.adjd run
  case qdst => exact E.order E.qdst run
  case dena => exact E.order E.dena run
  case ddis => exact E.order E.ddis run
  case tfir => exact E.order E.tfir run
  case link => exact E.order E.link run
  case wind => exact E.order E.wind run
  case ack => exact E.order E.ack run
  case rsum => exact E.order E.rsum run
  case stat => exact E.order E.stat run
  case unknownKind => exact E.unknownKind run
  case orderReplay => exact E.event (E.replayOrder _ _ s) run
  case forwardTick => exact E.event (E.forwardTick s) run
  case reverseTick => exact E.event (E.reverseTick s) run
  case illegalTransition => exact E.event (E.illegalTransition s) run
  case standstillTimerExpiry => exact E.event (E.standstillExpiry s) run
  case fireWatch => exact E.event (E.deliverNamed s _) run
  case runoffWatch => exact E.event (E.deliverNamed s _) run
  case lateWatch => exact E.stationEvent (fun d => E.deliverNamed s _) run
  case releaseWatch => exact E.stationEvent (fun d => E.deliverNamed s _) run
  case lengthLimitWatch => exact E.event (E.deliverNamed s _) run
  case entryEyeLeadingEdge => exact E.event (E.entryLeadingEdge s) run
  case entryEyeTrailingEdge => exact E.event (E.entryTrailingEdge s) run
  case exitEyeLeadingEdge => exact E.event (E.exitLeadingEdge s) run
  case slotGrant => exact E.event (f := fun t => Machine.drainTest (Machine.grantOne t)) (E.trans (E.grantOne s) (E.drainTest _)) run
  case maxOnExpiry => exact E.stationEvent (E.maxOnEvent s) run
  case recoveryTimerExpiry => exact E.stationEvent (E.recoveryEvent s) run
  case pulseTimerExpiry => exact E.stationEvent (E.pulseEvent s) run
  case deadlineTimerExpiry => exact E.stationEvent (E.deadlineEvent s) run
  case confirmEyeLeadingEdge => exact E.stationEvent (E.confirmLeading s) run
  case confirmEyeTrailingEdge => exact E.stationEvent (E.confirmTrailing s) run
  case chuteTimerExpiry => exact E.stationEvent (E.chuteEvent s) run
  case lineStopChange => exact E.event (E.lineStopChange s _) run
  case drainComplete => exact E.event (E.drainTest s) run
  case powerOn => exact E.resets run
  case pinReset => exact E.resets run
  case rstrReset => exact E.rstrReset run
  case goodOrderFrame => exact E.event (E.goodOrderByte _ s) run
  case frameDiscard => exact E.event (E.discardByte _ s) run
  case characterFault => exact E.event (E.dropFrame s) run
  case gapTimerExpiry => exact E.event (E.gapExpiry s) run
  case transmitComplete => exact E.event (E.transmitComplete s) run
  case retryTimerExpiry => exact E.event (E.retryExpiry s) run
  case supervisionTimerExpiry => exact E.event (E.supervisionExpiry s) run
  case characterReceived => exact E.event (E.receive _ s) run

end EventEffects

end Sys2Proof.Machine
end

