-- ==== Sys2Proof/Proofs/Scope.lean ====
section
/-! PROOF. The commands and the empty queue: O1, O2 and O3. -/

namespace Sys2Proof.Machine

/-! ### The millisecond (R1, entries 2 and 3) -/

theorem overdue_iff (timer : Timer) (s : State) : overdue timer s = true ↔ OverdueAt s.timeStamp timer := by
  cases timer <;> simp [overdue, OverdueAt, reached]

theorem mem_whenOverdue {c c' : Instr} {timer : Timer} {s : State} :
    c ∈ whenOverdue timer c' s ↔ c = c' ∧ OverdueAt s.timeStamp timer := by
  rw [whenOverdue, ← overdue_iff]
  split <;> simp_all

theorem whenOverdue_sublist (timer : Timer) (c : Instr) (s : State) : (whenOverdue timer c s).Sublist [c] := by
  unfold whenOverdue
  split
  · exact List.Sublist.refl _
  · exact List.nil_sublist _

/-- The expiry commands of a station's timers. -/
def stationExpiries (d : Station) : List Instr :=
  [.maxOnExpiry (stationNumber d)] ++ [.recoveryTimerExpiry (stationNumber d)] ++ [.pulseTimerExpiry (stationNumber d)]
    ++ [.deadlineTimerExpiry (stationNumber d)] ++ [.chuteTimerExpiry (stationNumber d)]

/-- The expiry commands of all timers, in the order of `overdueCommands`. -/
def allExpiries : List Instr :=
  (List.finRange 16).flatMap stationExpiries ++ [.standstillTimerExpiry] ++ [.gapTimerExpiry] ++ [.retryTimerExpiry]
    ++ [.supervisionTimerExpiry]

theorem allExpiries_nodup : allExpiries.Nodup := by decide

theorem stationOverdue_sublist (s : State) (d : Station) : (stationOverdue s d).Sublist (stationExpiries d) :=
  ((((whenOverdue_sublist _ _ s).append (whenOverdue_sublist _ _ s)).append (whenOverdue_sublist _ _ s)).append
    (whenOverdue_sublist _ _ s)).append (whenOverdue_sublist _ _ s)

theorem flatMap_sublist {α β : Type} {f g : α → List β} (h : ∀ a, (f a).Sublist (g a)) (l : List α) :
    (l.flatMap f).Sublist (l.flatMap g) := by
  induction l with
  | nil => exact List.Sublist.refl _
  | cons a l ih =>
    rw [List.flatMap_cons, List.flatMap_cons]
    exact (h a).append ih

theorem overdueCommands_sublist (s : State) : (overdueCommands s).Sublist allExpiries :=
  ((((flatMap_sublist (stationOverdue_sublist s) _).append (whenOverdue_sublist _ _ s)).append
    (whenOverdue_sublist _ _ s)).append (whenOverdue_sublist _ _ s)).append (whenOverdue_sublist _ _ s)

/-- Each expiry is queued once. -/
theorem overdueCommands_nodup (s : State) : (overdueCommands s).Nodup :=
  (overdueCommands_sublist s).nodup allExpiries_nodup

/-- The commands of the timers that are overdue, and no other. -/
theorem mem_overdueCommands {c : Instr} {s : State} : c ∈ overdueCommands s ↔
    (∃ d, c = .maxOnExpiry (stationNumber d) ∧ OverdueAt s.timeStamp (s.diverter d).maxOnTimer)
    ∨ (∃ d, c = .recoveryTimerExpiry (stationNumber d) ∧ OverdueAt s.timeStamp (s.diverter d).recoveryTimer)
    ∨ (∃ d, c = .pulseTimerExpiry (stationNumber d) ∧ OverdueAt s.timeStamp (s.diverter d).pulseTimer)
    ∨ (∃ d, c = .deadlineTimerExpiry (stationNumber d) ∧ OverdueAt s.timeStamp (s.monitor d).deadlineTimer)
    ∨ (∃ d, c = .chuteTimerExpiry (stationNumber d) ∧ OverdueAt s.timeStamp (s.monitor d).chuteTimer)
    ∨ (c = .standstillTimerExpiry ∧ OverdueAt s.timeStamp s.counter.standstill)
    ∨ (c = .gapTimerExpiry ∧ OverdueAt s.timeStamp s.link.gapTimer)
    ∨ (c = .retryTimerExpiry ∧ OverdueAt s.timeStamp s.queue.retryTimer)
    ∨ (c = .supervisionTimerExpiry ∧ OverdueAt s.timeStamp s.supervisor.timer) := by
  simp only [overdueCommands, stationOverdue, List.mem_append, List.mem_flatMap, List.mem_finRange, true_and,
    mem_whenOverdue, exists_or, or_assoc]

/-- A busy transmitter takes nothing (R152). -/
theorem startNext_busy {s : State} (h : s.link.transmitter ≠ .free) : startNext s = s := by
  unfold startNext
  split <;> simp_all

/-- A free transmitter takes a waiting answer first (R152). -/
theorem startNext_answering {s : State} {f : Frame} (free : s.link.transmitter = .free)
    (answer : s.link.answer = some f) :
    startNext s = { s with link := { s.link with transmitter := .sending true f.bytes } } := by
  unfold startNext
  rw [free, answer]

/-- A free transmitter with neither an answer nor an eligible notice stays free (R152). -/
theorem startNext_none {s : State} (free : s.link.transmitter = .free) (answer : s.link.answer = none)
    (h : s.queue.eligible = false ∨ s.queue.notices[s.queue.distance s.queue.sendPointer]? = none) :
    startNext s = s := by
  unfold startNext
  rw [free, answer]
  rcases h with h | h <;> simp [h]

/-- A free transmitter takes an eligible notice, which is recorded as sent (R152, R159). -/
theorem startNext_notice {s : State} {n : Notice} (free : s.link.transmitter = .free) (answer : s.link.answer = none)
    (eligible : s.queue.eligible = true)
    (notice : s.queue.notices[s.queue.distance s.queue.sendPointer]? = some n) :
    startNext s =
      { s with
        link := { s.link with transmitter := .sending false n.frame.bytes }
        queue := s.queue.recordSent s.timeStamp } := by
  unfold startNext
  rw [free, answer]
  simp [eligible, notice]

/-- The millisecond leaves everything but the clock, the queue, the transmitter and the waiting commands (entry 2). -/
theorem unchanged_millisecond (s : State) :
    UnchangedBut [.timeStamp, .queue, .transmitter, .waitingCommands] s (millisecond s) := by
  intro p hp
  unfold millisecond
  split
  · cases p <;> simp [Part.same]
  · cases p <;> simp_all [Part.same]

/-! ### Commands leave the queue of commands (entry 20) -/

/-- The commands that wait are as they were. -/
def KeepsWaiting (s t : State) : Prop := t.pending = s.pending

theorem Work.keepsWaiting {s t : State} (h : Work s t) : KeepsWaiting s t := h.pending

theorem pending_freeze (c : HaltCause) (s : State) : (freeze c s).pending = s.pending := rfl

theorem pending_requestHalt (c : HaltCause) (s : State) : (requestHalt c s).pending = s.pending := by
  unfold requestHalt haltLine submitLine
  split
  · rw [submit_pending, pending_freeze]
  · rfl

theorem pending_drainTest (s : State) : (drainTest s).pending = s.pending := by
  unfold drainTest completeDrain submitLine
  split
  · simp
  · rfl

theorem pending_settle (s : State) : (settle s).pending = s.pending :=
  (pending_drainTest _).trans (work_arbitrate s).pending

theorem pending_standstillTick (s : State) : (standstillTick s).pending = s.pending := by
  unfold standstillTick
  dsimp only
  split
  · rfl
  · split
    · rw [submit_pending]
    · rfl

theorem pending_commit (s : State) : (commit s).pending = s.pending := by
  have submitted (l : List Station) (t u : State) : (l.foldl (fun t d =>
      if u.installed d && (u.destination d).causes != { host := true } then submitDest d t else t) t).pending
        = t.pending := by
    induction l generalizing t with
    | nil => rfl
    | cons d l ih =>
      rw [List.foldl_cons, ih]
      split
      · exact submit_pending _ t
      · rfl
  unfold commit commitLine submitLine resetDestinations
  split
  · rw [submit_pending, setLine_pending, submitted]
    rfl
  · rw [submitted]
    rfl

theorem pending_clearWork (s : State) : (clearWork s).pending = s.pending :=
  (Work.foldl (fun t tag => returnUnit tag t) (fun t tag => work_returnUnit t tag) _ s).pending

theorem work_runoffEntry (e : Entry) (s : State) : Work s (runoffEntry e s) := by
  unfold runoffEntry
  split
  · exact work_sendToRunoff s _ _
  · exact .trans (work_leavePending s _ _) (work_giveBackToBelt _ _ _)
  · exact .refl s

theorem work_runoffAll (s : State) : Work s (runoffAll s) := Work.foldl _ (fun t e => work_runoffEntry e t) _ s

theorem work_dropPending (e : Entry) (s : State) : Work s (dropPending e s) := by
  unfold dropPending
  refine .trans ?_ (work_giveBackToBelt _ _ _)
  split
  · exact work_leavePending s _ _
  · exact .refl s

theorem keepsWaiting_neutral : Neutral KeepsWaiting where
  refl _ := rfl
  trans h k := k.trans h
  traffic _ _ _ _ := rfl

theorem keepsWaiting_orders : OrderEffects KeepsWaiting where
  toNeutral := keepsWaiting_neutral
  lineRecord _ _ _ := rfl
  diverterRecord _ _ _ _ := rfl
  commit s _ _ := pending_commit s
  start s _ := submit_pending _ _
  drain s _ := (pending_drainTest _).trans (submit_pending _ _)
  halt s c := pending_requestHalt c s
  clearHalted s _ := by
    unfold KeepsWaiting clearHalted submitLine
    simp [pending_clearWork]
  clearReady s _ := by
    unfold KeepsWaiting clearReady
    simp [pending_clearWork]
  markLate s e _ := by
    unfold markLate
    split <;> rfl
  assign _ _ _ _ _ _ _ _ := rfl
  dropTravelling s e _ _ := (work_sendToRunoff s e.tag .dropped).pending
  dropPending s e _ _ := (work_dropPending e s).pending
  opened _ _ _ _ _ := rfl
  closed s d := (work_changeCauses s d _).pending
  adjusted s d n _ _ := (Work.trans (work_setDestination s d _) (work_terminalCount _ d)).pending
  enabled s d _ _ := (Work.trans (work_setDiverter s d _) (work_changeCauses _ d _)).pending
  disabled s d := by
    refine (pending_settle _).trans ?_
    exact (Work.trans (Work.trans (Work.trans (work_endPush s d) (work_emptyPending _ d)) (work_switchOff _ d))
      (work_changeCauses _ d _)).pending
  pulsed _ _ _ _ _ := rfl

theorem keepsWaiting_events : EventEffects KeepsWaiting where
  toOrderEffects := keepsWaiting_orders
  forwardTick s := (pending_drainTest _).trans ((work_deliveryRun _ _).pending.trans (pending_standstillTick _))
  reverseTick s := by
    unfold reverseTick reverseTest
    split
    · exact (pending_requestHalt _ _).trans (pending_standstillTick _)
    · exact pending_standstillTick _
  illegalTransition s := by
    unfold illegalTransition
    dsimp only
    split
    · rfl
    · exact pending_requestHalt _ _
  standstillExpiry s := by
    unfold standstillExpiry
    split
    · exact submit_pending _ _
    · rfl
  deliverNamed s k := by
    unfold deliverNamed
    split
    · split
      · exact (pending_drainTest _).trans (work_deliver s _).pending
      · rfl
    · rfl
  entryLeadingEdge s := (work_entryLeadingEdge s).pending
  entryTrailingEdge s := (work_entryTrailingEdge s).pending
  exitLeadingEdge s := (work_exitLeadingEdge s).pending
  grantOne s := (work_grantOne s).pending
  drainTest s := pending_drainTest s
  maxOnEvent s d := by
    unfold maxOnEvent
    split
    · exact (pending_settle _).trans (work_maxOnExpiry s d).pending
    · rfl
  recoveryEvent s d := by
    unfold recoveryEvent
    split
    · exact (pending_settle _).trans (work_endRecovery s d).pending
    · rfl
  pulseEvent s d := by
    unfold pulseEvent
    split
    · exact (pending_settle _).trans (work_releaseDiverter s d).pending
    · rfl
  deadlineEvent s d := by
    unfold deadlineEvent
    split
    · exact (pending_drainTest _).trans (work_deadlineExpiry s d).pending
    · rfl
  confirmLeading s d := by
    unfold confirmLeading
    dsimp only
    split
    · rfl
    · split
      · exact (pending_drainTest _).trans ((work_chuteBlocked _ d).pending.trans (work_matchEdge _ d).pending)
      · rfl
  confirmTrailing s d := by
    unfold confirmTrailing
    dsimp only
    split
    · rfl
    · split
      · exact (work_chuteCleared _ d).pending
      · rfl
  chuteEvent s d := by
    unfold chuteEvent
    split
    · exact (work_chuteExpiry s d).pending
    · rfl
  lineStopChange s level := by
    unfold lineStopChange
    dsimp only
    split
    · rfl
    · split
      · exact pending_requestHalt _ _
      · rfl
  runoffAll s := (work_runoffAll s).pending
  reset _ _ _ := rfl
  resetHeld _ _ _ := rfl

/-! ### Which commands run (entry 22) -/

theorem event_runs (f : State → State) (s : State) : ∃ t, event f s = .next t := ⟨_, rfl⟩

theorem stationEvent_runs {n : Nat} (h : diverterNumber n = true) (f : Station → State → State) (s : State) :
    ∃ t, stationEvent n f s = .next t := by
  have range : 1 ≤ n ∧ n ≤ 16 := by simpa [diverterNumber] using h
  unfold stationEvent stationOf
  rw [dif_pos range]
  exact event_runs _ s

/-- Every well-formed command has a next state. -/
theorem exec_runs {c : Instr} (h : c.wellFormed = true) (s : State) : ∃ t, exec c s = .next t := by
  cases c
  case unknownKind number kind payload =>
    simp only [Instr.wellFormed, Bool.and_eq_true, Option.isNone_iff_eq_none] at h
    show ∃ t, execUnknownKind number kind payload s = .next t
    unfold execUnknownKind
    rw [h.2]
    exact event_runs _ s
  case lateWatch n tag =>
    simp only [Instr.wellFormed, Bool.and_eq_true] at h
    exact stationEvent_runs h.1 _ s
  case releaseWatch n tag =>
    simp only [Instr.wellFormed, Bool.and_eq_true] at h
    exact stationEvent_runs h.1 _ s
  case maxOnExpiry n => exact stationEvent_runs h _ s
  case recoveryTimerExpiry n => exact stationEvent_runs h _ s
  case pulseTimerExpiry n => exact stationEvent_runs h _ s
  case deadlineTimerExpiry n => exact stationEvent_runs h _ s
  case confirmEyeLeadingEdge n => exact stationEvent_runs h _ s
  case confirmEyeTrailingEdge n => exact stationEvent_runs h _ s
  case chuteTimerExpiry n => exact stationEvent_runs h _ s
  all_goals exact ⟨_, rfl⟩

theorem stationEvent_refused {n : Nat} (h : stationOf n = none) (f : Station → State → State) (s : State) :
    stationEvent n f s = .refused .illFormed := by
  unfold stationEvent
  rw [h]

theorem ofCode_code (k : OrderKind) : OrderKind.ofCode k.code = some k := by
  cases k <;> rfl

theorem unknownKind_refused (k : OrderKind) (number : Half) (p : List Byte) (s : State) :
    exec (.unknownKind number k.code p) s = .refused .illFormed := by
  show execUnknownKind number k.code p s = _
  unfold execUnknownKind
  rw [ofCode_code]

end Sys2Proof.Machine

open Sys2Proof Sys2Proof.Machine

/-- Settles O1: the step takes the command at the front of the queue. -/
theorem frontCommandRuns : Obligations.FrontCommandRuns := fun _ _ => rfl

/-- Settles O2, from what the transmitter takes and which expiries are overdue. -/
theorem emptyQueueMillisecond : Obligations.EmptyQueueMillisecond := by
  intro s empty free
  have run : millisecond s
      = { tickTime (startNext s) with pending := overdueCommands (tickTime (startNext s)) } := by
    simp [millisecond, free]
  have stepped : step s = .next (millisecond s) := by
    unfold step
    rw [empty]
  refine ⟨millisecond s, stepped, ?_, ?_, fun c => ?_, fun busy => ?_, fun f idle answer => ?_,
    fun idle answer nothing => ?_, fun n idle answer eligible notice => ?_, unchanged_millisecond s⟩
  · rw [run]
    simp
  · rw [run]
    exact overdueCommands_nodup _
  · rw [run]
    refine mem_overdueCommands.trans ?_
    simp [State.diverter, State.monitor]
  · rw [run]
    simp [startNext_busy busy]
  · rw [run]
    simp [startNext_answering idle answer]
  · rw [run]
    simp [startNext_none idle answer nothing]
  · rw [run]
    simp [startNext_notice idle answer eligible notice]

/-- Settles O3: a well-formed command runs, every effect leaves the waiting commands, and a number or a KIND that is no
command's is refused. -/
theorem wellFormedCommandsRun : Obligations.WellFormedCommandsRun := by
  refine ⟨fun c s formed => ?_, fun n tag s none => ?_, fun k number p s => unknownKind_refused k number p s⟩
  · obtain ⟨t, run⟩ := exec_runs formed s
    exact ⟨t, run, keepsWaiting_events.exec run⟩
  · exact ⟨stationEvent_refused none _ s, stationEvent_refused none _ s, stationEvent_refused none _ s,
      stationEvent_refused none _ s, stationEvent_refused none _ s, stationEvent_refused none _ s,
      stationEvent_refused none _ s, stationEvent_refused none _ s, stationEvent_refused none _ s⟩

end

