-- ==== Sys2Proof/Proofs/Spots.lean ====
section
/-! PROOF. The law of the items, tag by tag: where the watch and the list places of one tag are, the law of one item,
the laws that hold of all items together, and that the two say what `TrackingLaw` says. -/

namespace Sys2Proof.Machine

variable {s t : State} {tag tag' : Tag} {e : Entry} {d : Station} {a : Prop}

/-! ### Where one tag stands -/

/-- Where a tag stands: its watches, and how often it is in each list of the diverters and monitors. -/
@[ext] structure Spot where
  watches : List Watch
  pending : Station → Nat
  push : Station → Nat
  confirm : Station → Nat

/-- No watch and no place in a list. -/
def Spot.nowhere : Spot := ⟨[], fun _ => 0, fun _ => 0, fun _ => 0⟩

/-- A watch serves the entry of a tag. -/
def Watch.serves (tag : Option Tag) (w : Watch) : Bool := w.kind.tag? == tag

/-- Where a tag stands in a state. -/
def State.spot (s : State) (tag : Tag) : Spot where
  watches := s.watches.filter (Watch.serves (some tag))
  pending d := (s.diverter d).pending.count tag
  push d := (s.diverter d).push.count tag
  confirm d := (s.monitor d).confirm.count tag

/-- Whether an entry in a state belongs in a list of station `d`, as a number. -/
def Entry.holds (e : Entry) (st : EntryState) (d : Station) : Nat := (e.state == st && e.target == .station d).toNat

/-- Where the tag of an entry has to stand by its state and target (R11, R36). -/
def State.spotOf (s : State) (e : Entry) : Spot where
  watches := (s.watchOf e).toList
  pending := e.holds .pending
  push := e.holds .pushing
  confirm := e.holds .confirming

/-- Where a tag has to stand: nowhere without an entry. -/
def State.spotAt (s : State) (o : Option Entry) : Spot := o.elim .nowhere s.spotOf

/-- The law of one entry by itself (R36, R37, R88). -/
structure EntryLaw (s : State) (e : Entry) : Prop where
  travelling : e.state = .travelling → e.reservedWith = none ∧ ∀ d, e.target = .station d → s.installed d = true
  taken : e.state = .pending ∨ e.state = .pushing ∨ e.state = .confirming →
    ∃ d, e.target = .station d ∧ e.reservedWith = some d ∧ s.installed d = true
  deadline : e.confirmDeadline.isSome = true ↔ e.state = .confirming

/-- The law of one tag: it stands where its entry has to, and the entry keeps its law. -/
structure ItemLaw (s : State) (tag : Tag) : Prop where
  spot : s.spot tag = s.spotAt (s.entry tag)
  entry : ∀ e, s.entry tag = some e → EntryLaw s e

/-! ### The laws of all items together -/

/-- A position behind an origin by less than the bound of the leads. -/
def Behind (origin q : Position) : Prop := 0 ≤ (origin - q).toInt ∧ (origin - q).toInt ≤ 4194304

/-- The belt and the configuration: the distances that rest on neither the entries nor the watches. -/
structure BeltLaw (s : State) : Prop where
  excursion : s.line.state.working = true →
    (s.counter.highWater - s.counter.position).toNat ≤ s.config.line.reverseTolerance
  active : s.config.Bounded
  written : s.pendingConfig.Bounded
  alternates : ∀ d a : Station, s.installed d = true → (s.record d).alternate = stationNumber a → s.installed a = true
  slotLead : ∀ lead refused, s.induction.slot = .opened lead refused → Behind s.counter.highWater lead
  slotWorks : s.induction.slot ≠ .empty → s.line.state.working = true

/-- One entry beside the line state and the high-water mark: FROZEN in HALTED alone, otherwise on a working line. -/
structure EntryFits (s : State) (e : Entry) : Prop where
  alive : e.state = .frozen ∧ s.line.state = .halted ∨ e.state ≠ .frozen ∧ s.line.state.working = true
  lead : e.state ≠ .confirming → e.state ≠ .frozen → Behind s.counter.highWater e.lead
  length : e.length ≤ 65535

/-- When a diverter is OFF (R63, R80), and that an OFF diverter neither pushes nor waits. -/
structure SwitchLaw (s : State) : Prop where
  off : ∀ d, (s.diverter d).state = .off ↔ s.installed d = false ∨ (s.diverter d).disabled = true
  closed : ∀ d, (s.diverter d).disabled = true → (s.destination d).causes.disabled = true
  quiet : ∀ d, (s.diverter d).state = .off → (s.diverter d).push = [] ∧ s.waits d = false

/-- The watch list as a list: sorted, near the high-water mark, one induction watch for an OPEN slot; and, where `a`
asks for it, every watch ahead of the line. -/
structure ListLaw (a : Prop) (s : State) : Prop where
  near : ∀ w ∈ s.watches, ∃ z, Near s.counter.highWater w.position z
  sorted : s.watches.Pairwise (fun earlier later => reached later.position earlier.position = true)
  slotWatch : s.watches.filter (Watch.serves none) = s.slotWatch
  ahead : a → ∀ w ∈ s.watches, reached s.counter.position w.position = false

/-- The laws of all items together, which hold while single items are on their way; `a` says that no watch is reached.
-/
structure Base (a : Prop) (s : State) : Prop where
  tags : TagLaw s
  count : CountLaw s
  monitor : MonitorLaw s
  belt : BeltLaw s
  fits : ∀ e ∈ s.table, EntryFits s e
  switches : SwitchLaw s
  list : ListLaw a s

/-- The whole law of the items, tag by tag. -/
structure Closed (a : Prop) (s : State) : Prop where
  base : Base a s
  items : ∀ tag, ItemLaw s tag

/-! ### The table by tags -/

theorem entry_cons (e : Entry) (l : List Entry) (tag : Tag) :
    (e :: l).find? (fun x => x.tag == tag) = if e.tag = tag then some e else l.find? (fun x => x.tag == tag) := by
  rw [List.find?_cons]
  by_cases h : e.tag = tag
  · simp [h]
  · rw [if_neg h, beq_false_of_ne h]

theorem find_none_of_notMem {l : List Entry} (h : tag ∉ l.map (·.tag)) : l.find? (fun x => x.tag == tag) = none := by
  rw [List.find?_eq_none]
  intro x hx c
  exact h (List.mem_map.mpr ⟨x, hx, by simpa using c⟩)

/-- A tag in a list of selected entries: once when its entry is selected, and never otherwise. -/
theorem count_selected (l : List Entry) (distinct : (l.map (·.tag)).Nodup) (p : Entry → Bool) (tag : Tag) :
    ((l.filter p).map (·.tag)).count tag = (l.find? (fun x => x.tag == tag)).elim 0 (fun e => (p e).toNat) := by
  induction l with
  | nil => rfl
  | cons e l ih =>
    obtain ⟨fresh, distinct⟩ := List.nodup_cons.mp distinct
    have rest := ih distinct
    rw [entry_cons, List.filter_cons]
    by_cases own : e.tag = tag
    · subst own
      rw [find_none_of_notMem fresh] at rest
      cases sel : p e <;> simp [sel, rest]
    · cases p e <;> simp [own, rest]

theorem count_tagsAt (tags : TagLaw s) (st : EntryState) (d : Station) (tag : Tag) :
    (s.tagsAt st d).count tag = (s.entry tag).elim 0 (·.holds st d) :=
  count_selected s.table tags.2.1 _ tag

/-- A watch that an entry holds serves the entry. -/
theorem serves_watchOf {w : Watch} (h : s.watchOf e = some w) : w.kind.tag? = some e.tag := by
  unfold State.watchOf at h
  split at h
  · exact (Option.some.inj h) ▸ rfl
  · exact (Option.some.inj h) ▸ rfl
  · exact (Option.some.inj h) ▸ rfl
  · exact (Option.some.inj h) ▸ rfl
  · cases h

/-- The watches of a table that serve one tag. -/
theorem filter_watches (s : State) (l : List Entry) (distinct : (l.map (·.tag)).Nodup) (tag : Tag) :
    (l.filterMap s.watchOf).filter (Watch.serves (some tag))
      = (l.find? (fun x => x.tag == tag)).elim [] (fun e => (s.watchOf e).toList) := by
  induction l with
  | nil => rfl
  | cons e l ih =>
    obtain ⟨fresh, distinct⟩ := List.nodup_cons.mp distinct
    have rest := ih distinct
    rw [entry_cons, List.filterMap_cons]
    by_cases own : e.tag = tag
    · subst own
      rw [find_none_of_notMem fresh] at rest
      cases held : s.watchOf e with
      | none => simpa [held] using rest
      | some w =>
        have serves : Watch.serves (some e.tag) w = true := by simp [Watch.serves, serves_watchOf held]
        simpa [held, List.filter_cons, serves] using rest
    · cases held : s.watchOf e with
      | none => simpa [held, own] using rest
      | some w =>
        have serves : Watch.serves (some tag) w = false := by simpa [Watch.serves, serves_watchOf held] using own
        simpa [held, own, List.filter_cons, serves] using rest

theorem filter_watches_none (s : State) (l : List Entry) :
    (l.filterMap s.watchOf).filter (Watch.serves none) = [] := by
  rw [List.filter_eq_nil_iff]
  intro w m
  obtain ⟨e, -, held⟩ := List.mem_filterMap.mp m
  simp [Watch.serves, serves_watchOf held]

theorem filter_slotWatch (s : State) (tag : Tag) : s.slotWatch.filter (Watch.serves (some tag)) = [] := by
  unfold State.slotWatch
  split <;> rfl

theorem filter_slotWatch_none (s : State) : s.slotWatch.filter (Watch.serves none) = s.slotWatch := by
  unfold State.slotWatch
  split <;> rfl

/-- Two lists of watches are permutations when they agree on the watches that serve each tag, and on those of no tag. -/
theorem perm_of_serves {l m : List Watch} (h : ∀ k, l.filter (Watch.serves k) = m.filter (Watch.serves k)) :
    l.Perm m := by
  rw [List.perm_iff_count]
  intro w
  have own : Watch.serves w.kind.tag? w = true := beq_self_eq_true _
  rw [← List.count_filter own, h, List.count_filter own]

theorem eq_of_perm_toList {α : Type} {l : List α} {o : Option α} (h : l.Perm o.toList) : l = o.toList := by
  cases o with
  | none => exact List.perm_nil.mp h
  | some x => exact List.perm_singleton.mp h

theorem watchOf_isSome (taken : e.state = .pending ∨ e.state = .pushing ∨ e.state = .confirming →
      ∃ d, e.target = .station d) :
    (s.watchOf e).isSome = true ↔ e.state ≠ .confirming ∧ e.state ≠ .frozen := by
  unfold State.watchOf
  cases st : e.state <;> cases tg : e.target <;> simp_all

/-! ### The law as a whole -/

theorem mem_table_of_entry_iff (tags : TagLaw s) : s.entry tag = some e ↔ e ∈ s.table ∧ e.tag = tag := by
  refine ⟨fun h => ⟨mem_of_entry h, tag_of_entry h⟩, ?_⟩
  rintro ⟨member, rfl⟩
  obtain ⟨x, found⟩ := (entry_iff_mem s e.tag).mpr (List.mem_map_of_mem member)
  rw [found, List.inj_on_of_nodup_map tags.2.1 (mem_of_entry found) member (tag_of_entry found)]

theorem entry_of_mem (tags : TagLaw s) (h : e ∈ s.table) : s.entry e.tag = some e :=
  (mem_table_of_entry_iff tags).mpr ⟨h, rfl⟩

theorem closed_of_laws (tags : TagLaw s) (quiet : ∀ d, (s.diverter d).state = .off →
      (s.diverter d).push = [] ∧ s.waits d = false) (law : TrackingLaw s) : Closed True s := by
  obtain ⟨watch, place, count, monitor, bound⟩ := law
  have entries (e : Entry) (m : e ∈ s.table) : EntryLaw s e :=
    ⟨place.travelling e m, place.taken e m, place.deadline e m⟩
  have some (e : Entry) (m : e ∈ s.table) :=
    watchOf_isSome (s := s) (e := e) (fun h => (place.taken e m h).imp (fun _ k => k.1))
  constructor
  · refine ⟨tags, count, monitor, ⟨bound.excursion, bound.active, bound.pending, bound.alternates, bound.slot,
      watch.slot⟩, fun e m => ⟨?_, fun c f => bound.leads e m ((some e m).mpr ⟨c, f⟩), bound.lengths e m⟩,
      ⟨place.off, place.closed, quiet⟩, ⟨near_watch watch bound, watch.sorted, ?_, fun _ => watch.ahead⟩⟩
    · have full := List.ne_nil_of_mem m
      cases line : s.line.state with
      | idle => exact absurd (place.empty (.inl line)) full
      | ready => exact absurd (place.empty (.inr line)) full
      | halted => exact .inl ⟨place.halted line e m, rfl⟩
      | running => exact .inr ⟨place.working (by rw [line]; rfl) e m, rfl⟩
      | draining => exact .inr ⟨place.working (by rw [line]; rfl) e m, rfl⟩
    · have p := watch.each.filter (Watch.serves none)
      rw [List.filter_append, filter_watches_none, filter_slotWatch_none, List.nil_append] at p
      unfold State.slotWatch at p ⊢
      split at p
      · exact List.perm_singleton.mp p
      · exact List.perm_nil.mp p
  · intro tag
    refine ⟨?_, fun e found => entries e (mem_of_entry found)⟩
    have pw := watch.each.filter (Watch.serves (Option.some tag))
    rw [List.filter_append, filter_watches s _ tags.2.1, filter_slotWatch, List.append_nil] at pw
    have pl := place.lists
    have counts := fun st d => count_tagsAt tags st d tag
    unfold State.spot State.spotAt
    change List.Perm _ ((s.entry tag).elim [] _) at pw
    cases found : s.entry tag with
    | none =>
      rw [found] at pw counts
      ext1
      · exact List.perm_nil.mp pw
      · funext d; exact ((pl d).1.count_eq tag).trans (counts .pending d)
      · funext d; exact ((pl d).2.1.count_eq tag).trans (counts .pushing d)
      · funext d; exact ((pl d).2.2.count_eq tag).trans (counts .confirming d)
    | some e =>
      rw [found] at pw counts
      ext1
      · exact eq_of_perm_toList pw
      · funext d; exact ((pl d).1.count_eq tag).trans (counts .pending d)
      · funext d; exact ((pl d).2.1.count_eq tag).trans (counts .pushing d)
      · funext d; exact ((pl d).2.2.count_eq tag).trans (counts .confirming d)

/-- The law tag by tag is the law of the items. -/
theorem Closed.tracking (h : Closed True s) : TrackingLaw s := by
  obtain ⟨⟨tags, count, monitor, belt, fits, switches, list⟩, items⟩ := h
  have entries (e : Entry) (m : e ∈ s.table) : EntryLaw s e := (items e.tag).entry e (entry_of_mem tags m)
  have some (e : Entry) (m : e ∈ s.table) :=
    watchOf_isSome (s := s) (e := e) (fun h => ((entries e m).taken h).imp (fun _ k => k.1))
  have spots (tag : Tag) := (items tag).spot
  have lists (st : EntryState) (f : State → Station → List Tag) (g : Spot → Station → Nat)
      (hf : ∀ tag, g (s.spot tag) = fun d => (f s d).count tag) (hn : g .nowhere = fun _ => 0)
      (he : ∀ e, g (s.spotOf e) = e.holds st) (d : Station) : (f s d).Perm (s.tagsAt st d) := by
    rw [List.perm_iff_count]
    intro tag
    rw [count_tagsAt tags, show (f s d).count tag = g (s.spot tag) d by rw [hf], spots tag]
    cases s.entry tag with
    | none => exact congrFun hn d
    | some e => exact congrFun (he e) d
  refine ⟨⟨list.ahead trivial, list.sorted, ?_, belt.slotWorks⟩, ?_, count, monitor, ?_⟩
  · refine perm_of_serves (fun k => ?_)
    rw [List.filter_append]
    cases k with
    | none => rw [list.slotWatch, filter_watches_none, filter_slotWatch_none, List.nil_append]
    | some tag =>
      rw [filter_watches s s.table tags.2.1, filter_slotWatch, List.append_nil]
      refine (congrArg Spot.watches (spots tag)).trans ?_
      show (s.spotAt (s.entry tag)).watches = (s.entry tag).elim _ _
      cases s.entry tag <;> rfl
  · refine ⟨fun line => ?_, fun line e m => ?_, fun line e m => ?_, fun e m => (entries e m).travelling,
      fun e m => (entries e m).taken, fun e m => (entries e m).deadline, fun d => ⟨?_, ?_, ?_⟩, switches.off,
      switches.closed⟩
    · rw [List.eq_nil_iff_forall_not_mem]
      intro e m
      rcases (fits e m).alive with ⟨-, k⟩ | ⟨-, k⟩ <;> rcases line with line | line <;> rw [line] at k <;> cases k
    · rcases (fits e m).alive with ⟨k, -⟩ | ⟨-, k⟩
      · exact k
      · rw [line] at k; cases k
    · rcases (fits e m).alive with ⟨-, k⟩ | ⟨k, -⟩
      · rw [k] at line; cases line
      · exact k
    · exact lists .pending (fun s d => (s.diverter d).pending) Spot.pending (fun _ => rfl) rfl (fun _ => rfl) d
    · exact lists .pushing (fun s d => (s.diverter d).push) Spot.push (fun _ => rfl) rfl (fun _ => rfl) d
    · exact lists .confirming (fun s d => (s.monitor d).confirm) Spot.confirm (fun _ => rfl) rfl (fun _ => rfl) d
  · exact ⟨belt.excursion, fun e m w => (fits e m).lead ((some e m).mp w).1 ((some e m).mp w).2, belt.slotLead,
      fun e m => (fits e m).length, belt.active, belt.written, belt.alternates⟩

end Sys2Proof.Machine
end

