-- ==== Sys2Proof/Proofs/Primitives.lean ====
section
/-! PROOF. What the single updates of an entry, a watch, a list or a unit do to the laws of all items together and to
the place of one tag. -/

namespace Sys2Proof.Machine

variable {s t u : State} {tag : Tag} {e : Entry} {d : Station} {a : Prop}

/-! ### States that agree about items -/

/-- All tags but one stand where they stood, with the entries they had. -/
structure OnlyItem (tag : Tag) (s t : State) : Prop where
  config : t.config = s.config
  slot : t.induction.slot = s.induction.slot
  entry : ∀ x, x ≠ tag → t.entry x = s.entry x
  spot : ∀ x, x ≠ tag → t.spot x = s.spot x

/-- All tags stand where they stood, with the entries they had. -/
structure SameItems (s t : State) : Prop where
  config : t.config = s.config
  slot : t.induction.slot = s.induction.slot
  entry : ∀ x, t.entry x = s.entry x
  spot : ∀ x, t.spot x = s.spot x

theorem OnlyItem.refl (tag : Tag) (s : State) : OnlyItem tag s s := ⟨rfl, rfl, fun _ _ => rfl, fun _ _ => rfl⟩

theorem OnlyItem.trans (h : OnlyItem tag s t) (k : OnlyItem tag t u) : OnlyItem tag s u :=
  ⟨k.config.trans h.config, k.slot.trans h.slot, fun x n => (k.entry x n).trans (h.entry x n),
    fun x n => (k.spot x n).trans (h.spot x n)⟩

theorem SameItems.only (h : SameItems s t) (tag : Tag) : OnlyItem tag s t :=
  ⟨h.config, h.slot, fun x _ => h.entry x, fun x _ => h.spot x⟩

theorem SameItems.trans (h : SameItems s t) (k : SameItems t u) : SameItems s u :=
  ⟨k.config.trans h.config, k.slot.trans h.slot, fun x => (k.entry x).trans (h.entry x),
    fun x => (k.spot x).trans (h.spot x)⟩

theorem watchOf_congr (h : t.config = s.config) : t.watchOf = s.watchOf := by
  funext e
  unfold State.watchOf State.record
  rw [h]

theorem spotOf_congr (h : t.config = s.config) : t.spotOf = s.spotOf := by
  funext e
  unfold State.spotOf
  rw [watchOf_congr h]

theorem EntryLaw.congr (law : EntryLaw s e) (h : t.config = s.config) : EntryLaw t e := by
  have same (d : Station) : t.installed d = s.installed d := by
    unfold State.installed State.record
    rw [h]
  refine ⟨fun st => ⟨(law.travelling st).1, fun d tg => ?_⟩, fun st => ?_, law.deadline⟩
  · rw [same]
    exact (law.travelling st).2 d tg
  · obtain ⟨d, tg, rs, installed⟩ := law.taken st
    exact ⟨d, tg, rs, (same d).trans installed⟩

theorem ItemLaw.congr (law : ItemLaw s tag) (config : t.config = s.config) (entry : t.entry tag = s.entry tag)
    (spot : t.spot tag = s.spot tag) : ItemLaw t tag := by
  refine ⟨?_, fun e found => (law.entry e (entry ▸ found)).congr config⟩
  rw [spot, law.spot, entry]
  unfold State.spotAt
  rw [spotOf_congr config]

theorem ItemLaw.only {x : Tag} (law : ItemLaw s x) (h : OnlyItem tag s t) (ne : x ≠ tag) : ItemLaw t x :=
  law.congr h.config (h.entry x ne) (h.spot x ne)

theorem ItemLaw.same {x : Tag} (law : ItemLaw s x) (h : SameItems s t) : ItemLaw t x :=
  law.congr h.config (h.entry x) (h.spot x)

/-- How many deliveries an entry may still ask for in one run: from a FIRE watch over an alternate's FIRE and a LATE
watch to a RUNOFF watch (entry 18). -/
def Entry.weight (e : Entry) : Nat :=
  match e.state, e.target with
  | .travelling, .station _ => if e.flags.viaAlternate then 3 else 4
  | .travelling, .runOff => 1
  | .pending, _ => 2
  | .pushing, _ => 1
  | .confirming, _ => 0
  | .frozen, _ => 0

/-- The deliveries that the entry of a tag may still ask for. -/
def State.weightAt (s : State) (tag : Tag) : Nat := (s.entry tag).elim 0 Entry.weight

/-- An item has been put in its place: its law holds, the other items are as they were, and it may ask for at most `k`
deliveries. -/
structure Puts (a : Prop) (tag : Tag) (k : Nat) (s t : State) : Prop where
  base : Base a t
  only : OnlyItem tag s t
  item : ItemLaw t tag
  weight : t.weightAt tag ≤ k

theorem Puts.after {k : Nat} (h : OnlyItem tag s t) (p : Puts a tag k t u) : Puts a tag k s u :=
  ⟨p.base, h.trans p.only, p.item, p.weight⟩

theorem Puts.then {k : Nat} (p : Puts a tag k s t) (base : Base a u) (h : SameItems t u) : Puts a tag k s u := by
  refine ⟨base, p.only.trans (h.only tag), p.item.same h, ?_⟩
  unfold State.weightAt
  rw [h.entry]
  exact p.weight

theorem Puts.le {k m : Nat} (p : Puts a tag k s t) (h : k ≤ m) : Puts a tag m s t :=
  ⟨p.base, p.only, p.item, p.weight.trans h⟩

/-- An item in its place closes the law when it was the one on its way. -/
theorem Puts.closed {k : Nat} (p : Puts a tag k s t) (others : ∀ x, x ≠ tag → ItemLaw s x) : Closed a t := by
  refine ⟨p.base, fun x => ?_⟩
  by_cases h : x = tag
  · exact h ▸ p.item
  · exact (others x h).only p.only h

/-- An item with its entry in its lists, whose watch has still to be placed. -/
structure Unwatched (s : State) (tag : Tag) (e : Entry) : Prop where
  found : s.entry tag = some e
  law : EntryLaw s e
  spot : s.spot tag = { s.spotOf e with watches := [] }

/-! ### The parts of the law -/

section

theorem CountLaw.same (h : CountLaw s) (destinations : t.destinations = s.destinations) (table : t.table = s.table) :
    CountLaw t := by
  have same (d : Station) : t.destination d = s.destination d := by
    unfold State.destination
    rw [destinations]
  refine ⟨fun d => ?_, fun d => ?_, fun d => ?_⟩
  · rw [same, h.outstanding]
    unfold State.reservedAt
    rw [table]
  · rw [same]; exact h.counted d
  · rw [same]; exact h.uncounted d

theorem MonitorLaw.same (h : MonitorLaw s) (monitors : t.monitors = s.monitors) (table : t.table = s.table) :
    MonitorLaw t := by
  have same (d : Station) : t.monitor d = s.monitor d := by
    unfold State.monitor
    rw [monitors]
  have entry : t.entry = s.entry := by
    unfold State.entry
    rw [table]
  refine ⟨fun d => ?_, fun d => ?_⟩
  · rw [same, entry]; exact h.deadline d
  · rw [same]; exact h.chute d

theorem BeltLaw.same (h : BeltLaw s) (counter : t.counter = s.counter) (line : t.line = s.line)
    (config : t.config = s.config) (written : t.pendingConfig = s.pendingConfig)
    (slot : t.induction.slot = s.induction.slot) : BeltLaw t := by
  refine ⟨?_, config ▸ h.active, written ▸ h.written, ?_, ?_, ?_⟩
  · rw [line, counter, config]; exact h.excursion
  · unfold State.installed State.record
    rw [config]; exact h.alternates
  · rw [slot, counter]; exact h.slotLead
  · rw [slot, line]; exact h.slotWorks

theorem EntryFits.same (h : EntryFits s e) (counter : t.counter = s.counter) (line : t.line = s.line) :
    EntryFits t e := by
  refine ⟨?_, ?_, h.length⟩
  · rw [line]; exact h.alive
  · rw [counter]; exact h.lead

theorem SwitchLaw.same (h : SwitchLaw s) (diverters : t.diverters = s.diverters) (config : t.config = s.config)
    (destinations : t.destinations = s.destinations) (waiting : t.arbiter.waiting = s.arbiter.waiting) :
    SwitchLaw t := by
  refine ⟨?_, ?_, ?_⟩
  · unfold State.diverter State.installed State.record
    rw [diverters, config]; exact h.off
  · unfold State.diverter State.destination
    rw [diverters, destinations]; exact h.closed
  · unfold State.diverter State.waits
    rw [diverters, waiting]; exact h.quiet

theorem ListLaw.same (h : ListLaw a s) (watches : t.watches = s.watches) (counter : t.counter = s.counter)
    (config : t.config = s.config) (slot : t.induction.slot = s.induction.slot) : ListLaw a t := by
  have slotWatch : t.slotWatch = s.slotWatch := by
    unfold State.slotWatch
    rw [slot, config]
  refine ⟨?_, ?_, ?_, ?_⟩
  · rw [watches, counter]; exact h.near
  · rw [watches]; exact h.sorted
  · rw [watches, slotWatch]; exact h.slotWatch
  · rw [watches, counter]; exact h.ahead

/-- Work that leaves the measuring slot: the parts of the law that the rest of the part decides are kept. -/
theorem Base.work (h : Base a s) (w : Work s t) (slot : t.induction.slot = s.induction.slot) (count : CountLaw t)
    (monitor : MonitorLaw t) (fits : ∀ e ∈ t.table, EntryFits s e) (switches : SwitchLaw t) (list : ListLaw a t) :
    Base a t :=
  ⟨w.tags h.tags, count, monitor, h.belt.same w.counter w.line w.config w.pendingConfig slot,
    fun e m => (fits e m).same w.counter w.line, switches, list⟩

/-- Work that touches no item and no register that the law speaks of. -/
theorem Base.same (h : Base a s) (w : Work s t) (slot : t.induction.slot = s.induction.slot)
    (table : t.table = s.table) (watches : t.watches = s.watches) (diverters : t.diverters = s.diverters)
    (waiting : t.arbiter.waiting = s.arbiter.waiting) (monitors : t.monitors = s.monitors)
    (destinations : t.destinations = s.destinations) : Base a t :=
  h.work w slot (h.count.same destinations table) (h.monitor.same monitors table)
    (fun e m => h.fits e (table ▸ m)) (h.switches.same diverters w.config destinations waiting)
    (h.list.same watches w.counter w.config slot)

theorem sameItems (config : t.config = s.config) (slot : t.induction.slot = s.induction.slot)
    (table : t.table = s.table) (watches : t.watches = s.watches) (diverters : t.diverters = s.diverters)
    (monitors : t.monitors = s.monitors) : SameItems s t := by
  refine ⟨config, slot, fun x => ?_, fun x => ?_⟩
  · unfold State.entry
    rw [table]
  · unfold State.spot State.diverter State.monitor
    rw [watches, diverters, monitors]

theorem Base.submit (h : Base a s) (b : NoticeBody) : Base a (submit b s) :=
  h.same (work_submit s b) (by simp) (by simp) (by simp) (by simp) (by simp) (by simp) (by simp)

theorem sameItems_submit (s : State) (b : NoticeBody) : SameItems s (submit b s) :=
  sameItems (by simp) (by simp) (by simp) (by simp) (by simp) (by simp)

theorem Base.evaluateHold (h : Base a s) : Base a (evaluateHold s) :=
  h.same (work_evaluateHold s) rfl rfl rfl rfl rfl rfl rfl

end

/-! ### Distances -/

theorem BeltLaw.near_position (h : BeltLaw s) (working : s.line.state.working = true) :
    ∃ z, Near s.counter.highWater s.counter.position z ∧ -4095 ≤ z ∧ z ≤ 0 := by
  have excursion := h.excursion working
  have tolerance := h.active.tolerances.2
  have signed : (s.counter.highWater - s.counter.position).toInt
      = (s.counter.highWater - s.counter.position).toNat := BitVec.toInt_eq_toNat_of_lt (by omega)
  refine ⟨-(s.counter.highWater - s.counter.position).toInt, ⟨?_, by omega, by omega⟩, by omega, by omega⟩
  rw [BitVec.ofInt_neg, BitVec.ofInt_toInt]
  bv_omega

/-- The watch of an entry near an origin is near it too, and not far after the entry's lead. -/
theorem near_watchOf (active : s.config.Bounded) {origin : Position} {z : Int} {w : Watch} (near : Near origin e.lead z)
    (low : -4194304 ≤ z) (high : z ≤ 0) (length : e.length ≤ 65535) (h : s.watchOf e = some w) :
    ∃ y, Near origin w.position y ∧ y ≤ z + 1179645 := by
  have line := active.runoff
  have exit := active.tolerances.1
  have stations := active.stations
  unfold State.watchOf at h
  split at h
  · obtain rfl := Option.some.inj h
    unfold runoffPoint
    split
    · exact ⟨_, (near.add _ (by omega)).add _ (by omega), by omega⟩
    · exact ⟨_, by simpa [ticks] using near.add s.config.line.runoffOffset (by omega), by omega⟩
  · rename_i d _ _
    obtain rfl := Option.some.inj h
    obtain ⟨offset, advance, -, -⟩ := stations d
    have record : s.record d = s.config.diverters[d] := rfl
    rw [← record] at offset advance
    exact ⟨_, (near.add (s.record d).offset (by omega)).sub (s.record d).advance (by omega), by omega⟩
  · rename_i d _ _
    obtain rfl := Option.some.inj h
    obtain ⟨offset, -, late, -⟩ := stations d
    have record : s.record d = s.config.diverters[d] := rfl
    rw [← record] at offset late
    exact ⟨_, (near.add (s.record d).offset (by omega)).add (s.record d).lateMargin (by omega), by omega⟩
  · rename_i d _ _
    obtain rfl := Option.some.inj h
    obtain ⟨offset, -, -, margin⟩ := stations d
    have record : s.record d = s.config.diverters[d] := rfl
    rw [← record] at offset margin
    exact ⟨_, ((near.add e.length (by omega)).add (s.record d).offset (by omega)).add (s.record d).releaseMargin
      (by omega), by omega⟩
  · cases h

/-- An entry that holds a watch is neither CONFIRMING nor FROZEN. -/
theorem states_of_watchOf {w : Watch} (h : s.watchOf e = some w) : e.state ≠ .confirming ∧ e.state ≠ .frozen := by
  unfold State.watchOf at h
  split at h <;> simp_all

theorem EntryFits.working (h : EntryFits s e) (alive : e.state ≠ .frozen) : s.line.state.working = true := by
  rcases h.alive with ⟨frozen, -⟩ | ⟨-, working⟩
  · exact absurd frozen alive
  · exact working

theorem Base.near_own (h : Base a s) {w : Watch} (fits : EntryFits s e) (held : s.watchOf e = some w) :
    ∃ z, Near s.counter.highWater w.position z := by
  obtain ⟨confirming, frozen⟩ := states_of_watchOf held
  obtain ⟨z, near, low, high⟩ := near_of_behind (fits.lead confirming frozen)
  obtain ⟨y, at_y, -⟩ := near_watchOf h.belt.active near low high fits.length held
  exact ⟨y, at_y⟩

/-- A point that is not due at once is ahead of the line, when every watch is (R13). -/
theorem Base.ahead_of_not_due (h : Base a s) (working : s.line.state.working = true) {p : Position}
    (near : ∃ z, Near s.counter.highWater p z) (later : dueAtOnce p s = false) :
    a → reached s.counter.position p = false := by
  intro all
  by_contra c
  have now : reached s.counter.position p = true := by simpa using c
  refine absurd ((dueAtOnce_iff p s).mpr ⟨now, fun w m => ?_⟩) (by simp [later])
  have member := List.mem_of_mem_head? m
  obtain ⟨x, position, -⟩ := h.belt.near_position working
  obtain ⟨y, point⟩ := near
  obtain ⟨z, watch⟩ := h.list.near w member
  have before := h.list.ahead all w member
  rw [position.reached point, decide_eq_true_eq] at now
  rw [position.reached watch, decide_eq_false_iff_not] at before
  rw [point.reached watch, decide_eq_false_iff_not]
  omega

/-! ### Watches -/

theorem filter_insertSorted_not {p : Watch → Bool} {w : Watch} (h : p w = false) (l : List Watch) :
    (insertSorted w l).filter p = l.filter p := by
  induction l with
  | nil => simp [insertSorted, h]
  | cons v l ih =>
    unfold insertSorted
    split
    · rw [List.filter_cons, List.filter_cons, ih]
    · rw [List.filter_cons, h]
      rfl

theorem filter_insertSorted_only {p : Watch → Bool} {w : Watch} (h : p w = true) {l : List Watch}
    (none : l.filter p = []) : (insertSorted w l).filter p = [w] := by
  have perm := (insertSorted_perm w l).filter p
  rw [List.filter_cons, h, none] at perm
  exact List.perm_singleton.mp perm

/-- A watch near the others joins a sorted list (R11). -/
theorem insertSorted_pairwise {origin : Position} {l : List Watch} {w : Watch}
    (near : ∀ v ∈ l, ∃ z, Near origin v.position z) (point : ∃ z, Near origin w.position z)
    (sorted : l.Pairwise (fun earlier later => reached later.position earlier.position = true)) :
    (insertSorted w l).Pairwise (fun earlier later => reached later.position earlier.position = true) := by
  obtain ⟨y, point⟩ := point
  refine insertSorted_sorted sorted (fun v m ahead => ?_) (fun v m x n first second => ?_)
  · obtain ⟨z, at_z⟩ := near v m
    have ahead : reached w.position v.position = false := ahead
    show reached v.position w.position = true
    rw [point.reached at_z, decide_eq_false_iff_not] at ahead
    rw [at_z.reached point, decide_eq_true_eq]
    omega
  · obtain ⟨z, at_z⟩ := near v m
    obtain ⟨z', at_z'⟩ := near x n
    have first : reached v.position w.position = true := first
    show reached x.position w.position = true
    rw [at_z.reached point, decide_eq_true_eq] at first
    rw [at_z'.reached at_z, decide_eq_true_eq] at second
    rw [at_z'.reached point, decide_eq_true_eq]
    omega

/-- A watch of an entry joins the list (R11). -/
theorem ListLaw.insert (h : ListLaw a s) (w : Watch) {tag : Tag} (serves : w.kind.tag? = some tag)
    (near : ∃ z, Near s.counter.highWater w.position z) (free : a → reached s.counter.position w.position = false) :
    ListLaw a (insertWatch w.position w.kind s) := by
  refine ⟨fun v m => ?_, insertSorted_pairwise h.near near h.sorted, ?_, fun all v m => ?_⟩
  · rcases mem_insertSorted.mp m with rfl | m
    · exact near
    · exact h.near v m
  · refine (filter_insertSorted_not ?_ s.watches).trans h.slotWatch
    simp [Watch.serves, serves]
  · rcases mem_insertSorted.mp m with rfl | m
    · exact free all
    · exact h.ahead all v m

/-- Watches of entries leave the list (R14). -/
theorem ListLaw.remove (h : ListLaw a s) (p : Watch → Bool) (keeps : ∀ w, w.kind.tag? = none → p w = true) :
    ListLaw a { s with watches := s.watches.filter p } := by
  refine ⟨fun w m => h.near w (List.mem_of_mem_filter m), filter_sorted p h.sorted, ?_,
    fun all w m => h.ahead all w (List.mem_of_mem_filter m)⟩
  refine Eq.trans ?_ h.slotWatch
  show (s.watches.filter p).filter _ = _
  rw [List.filter_filter]
  refine List.filter_congr (fun w _ => ?_)
  cases serves : Watch.serves none w with
  | false => rfl
  | true => simpa using keeps w (by simpa [Watch.serves] using serves)

theorem Base.insertWatch (h : Base a s) (w : Watch) {tag : Tag} (serves : w.kind.tag? = some tag)
    (near : ∃ z, Near s.counter.highWater w.position z) (free : a → reached s.counter.position w.position = false) :
    Base a (insertWatch w.position w.kind s) :=
  h.work (work_insertWatch s _ _) rfl ⟨h.count.outstanding, h.count.counted, h.count.uncounted⟩
    ⟨h.monitor.deadline, h.monitor.chute⟩ h.fits ⟨h.switches.off, h.switches.closed, h.switches.quiet⟩
    (h.list.insert w serves near free)

theorem Base.removeWatch (h : Base a s) (tag : Tag) : Base a (removeWatch tag s) :=
  h.work (work_removeWatch s _) rfl ⟨h.count.outstanding, h.count.counted, h.count.uncounted⟩
    ⟨h.monitor.deadline, h.monitor.chute⟩ h.fits ⟨h.switches.off, h.switches.closed, h.switches.quiet⟩
    (h.list.remove _ (fun w none => by simp [none]))

theorem spot_removeWatch (s : State) (tag : Tag) :
    (removeWatch tag s).spot tag = { s.spot tag with watches := [] } := by
  unfold State.spot removeWatch
  congr 1
  dsimp only
  rw [List.filter_filter, List.filter_eq_nil_iff]
  intro w _
  simp [Watch.serves]

theorem only_removeWatch (s : State) (tag : Tag) : OnlyItem tag s (removeWatch tag s) := by
  refine ⟨rfl, rfl, fun _ _ => rfl, fun x ne => ?_⟩
  unfold State.spot removeWatch
  congr 1
  dsimp only
  rw [List.filter_filter]
  refine List.filter_congr (fun w _ => ?_)
  by_cases own : w.kind.tag? = some x
  · simp [Watch.serves, own, ne]
  · simp [Watch.serves, own]

theorem only_insertWatch (s : State) {w : Watch} (serves : w.kind.tag? = some tag) :
    OnlyItem tag s (insertWatch w.position w.kind s) := by
  refine ⟨rfl, rfl, fun _ _ => rfl, fun x ne => ?_⟩
  unfold State.spot insertWatch
  congr 1
  refine filter_insertSorted_not ?_ s.watches
  have : tag ≠ x := fun c => ne c.symm
  simp [Watch.serves, serves, this]

/-- The watch that an item in its lists still lacked is inserted. -/
theorem Puts.insert (h : Base a s) (item : Unwatched s tag e) {w : Watch} (held : s.watchOf e = some w)
    (free : a → reached s.counter.position w.position = false) :
    Puts a tag e.weight s (insertWatch w.position w.kind s) := by
  obtain ⟨found, law, spot⟩ := item
  have serves : w.kind.tag? = some tag := (serves_watchOf held).trans (congrArg some (tag_of_entry found))
  have near := h.near_own (h.fits e (mem_of_entry found)) held
  have entry : (Machine.insertWatch w.position w.kind s).entry tag = some e := found
  refine ⟨h.insertWatch w serves near free, only_insertWatch s serves, ⟨?_, ?_⟩, ?_⟩
  · rw [entry]
    have places := Spot.ext_iff.mp spot
    obtain ⟨watches, pending, push, confirm⟩ := places
    ext1
    · show (insertSorted w s.watches).filter _ = (s.watchOf e).toList
      rw [held]
      exact filter_insertSorted_only (by simp [Watch.serves, serves]) watches
    · exact pending
    · exact push
    · exact confirm
  · intro x hx
    obtain rfl := Option.some.inj (entry.symm.trans hx)
    exact law.congr rfl
  · unfold State.weightAt
    rw [entry]
    exact le_refl _

/-! ### Entries -/

/-- The table around the entry of a tag. -/
theorem table_split (tags : TagLaw s) (found : s.entry tag = some e) : ∃ l r, s.table = l ++ e :: r
    ∧ (∀ x ∈ l, x.tag ≠ tag) ∧ ∀ x ∈ r, x.tag ≠ tag := by
  obtain ⟨own, l, r, table, before⟩ := List.find?_eq_some_iff_append.mp found
  refine ⟨l, r, table, fun x m => by simpa using before x m, fun x m c => ?_⟩
  have distinct := tags.2.1
  rw [table, List.map_append, List.map_cons, List.nodup_append] at distinct
  refine (List.nodup_cons.mp distinct.2.1).1 ?_
  rw [show e.tag = x.tag from (tag_of_entry found).trans c.symm]
  exact List.mem_map_of_mem m

theorem map_others {l : List Entry} (f : Entry → Entry) (h : ∀ x ∈ l, x.tag ≠ tag) :
    l.map (fun e => if e.tag == tag then f e else e) = l := by
  conv_rhs => rw [← List.map_id l]
  refine List.map_congr_left (fun x m => ?_)
  rw [beq_false_of_ne (h x m)]
  rfl

theorem table_setEntry (found : s.entry tag = some e) {l r : List Entry} (table : s.table = l ++ e :: r)
    (before : ∀ x ∈ l, x.tag ≠ tag) (after : ∀ x ∈ r, x.tag ≠ tag) (f : Entry → Entry) :
    (setEntry tag f s).table = l ++ f e :: r := by
  rw [setEntry_table, table, List.map_append, List.map_cons, map_others f before, map_others f after,
    tag_of_entry found, beq_self_eq_true]
  rfl

theorem filter_others {l : List Entry} (h : ∀ x ∈ l, x.tag ≠ tag) : l.filter (fun e => e.tag != tag) = l := by
  rw [List.filter_eq_self]
  intro x m
  simpa using h x m

theorem table_removeEntry (found : s.entry tag = some e) {l r : List Entry} (table : s.table = l ++ e :: r)
    (before : ∀ x ∈ l, x.tag ≠ tag) (after : ∀ x ∈ r, x.tag ≠ tag) :
    (removeEntry tag s).table = l ++ r := by
  rw [removeEntry_table, table, List.filter_append, List.filter_cons, filter_others before, filter_others after,
    tag_of_entry found]
  simp

/-- One entry changed: the units of a station that entries hold. -/
theorem reservedAt_setEntry (tags : TagLaw s) (found : s.entry tag = some e) (f : Entry → Entry) (d : Station) :
    (setEntry tag f s).reservedAt d + (if e.reservedWith = some d then 1 else 0)
      = s.reservedAt d + (if (f e).reservedWith = some d then 1 else 0) := by
  obtain ⟨l, r, table, before, after⟩ := table_split tags found
  unfold State.reservedAt
  rw [table_setEntry found table before after, table]
  simp only [List.countP_append, List.countP_cons, beq_iff_eq]
  omega

theorem reservedAt_removeEntry (tags : TagLaw s) (found : s.entry tag = some e) (d : Station) :
    (removeEntry tag s).reservedAt d + (if e.reservedWith = some d then 1 else 0) = s.reservedAt d := by
  obtain ⟨l, r, table, before, after⟩ := table_split tags found
  unfold State.reservedAt
  rw [table_removeEntry found table before after, table]
  simp only [List.countP_append, List.countP_cons, beq_iff_eq]
  omega

theorem mem_setEntry (tags : TagLaw s) (found : s.entry tag = some e) {f : Entry → Entry} {x : Entry}
    (m : x ∈ (setEntry tag f s).table) : x = f e ∨ x ∈ s.table := by
  obtain ⟨l, r, table, before, after⟩ := table_split tags found
  rw [table_setEntry found table before after] at m
  rw [table]
  rcases List.mem_append.mp m with m | m
  · exact .inr (List.mem_append_left _ m)
  · rcases List.mem_cons.mp m with m | m
    · exact .inl m
    · exact .inr (List.mem_append_right _ (List.mem_cons_of_mem _ m))

theorem entry_removeEntry (s : State) (tag : Tag) : (removeEntry tag s).entry tag = none := by
  unfold State.entry
  rw [removeEntry_table, List.find?_eq_none]
  intro x m
  simpa using (List.mem_filter.mp m).2

theorem entry_removeEntry_ne (s : State) {x : Tag} (ne : x ≠ tag) : (removeEntry tag s).entry x = s.entry x := by
  unfold State.entry
  rw [removeEntry_table]
  induction s.table with
  | nil => rfl
  | cons y l ih =>
    by_cases own : y.tag = tag
    · have other : ¬ tag = x := fun c => ne c.symm
      rw [List.filter_cons, entry_cons, own, if_neg other]
      simpa using ih
    · rw [List.filter_cons, if_pos (by simpa using own), entry_cons, entry_cons, ih]

theorem only_setEntry (s : State) (tag : Tag) {f : Entry → Entry} (keeps : ∀ x, (f x).tag = x.tag) :
    OnlyItem tag s (setEntry tag f s) :=
  ⟨rfl, rfl, fun _ ne => entry_setEntry_ne s ne f keeps, fun _ _ => rfl⟩

theorem only_removeEntry (s : State) (tag : Tag) : OnlyItem tag s (removeEntry tag s) :=
  ⟨rfl, rfl, fun _ ne => entry_removeEntry_ne s ne, fun _ _ => rfl⟩

/-- One entry changed: the monitors keep their law when its deadline stays, or when no confirm list names it. -/
theorem MonitorLaw.setEntry (h : MonitorLaw s) (found : s.entry tag = some e) {f : Entry → Entry}
    (keeps : ∀ x, (f x).tag = x.tag)
    (deadline : (f e).confirmDeadline = e.confirmDeadline ∨ ∀ d, tag ∉ (s.monitor d).confirm) :
    MonitorLaw (setEntry tag f s) := by
  refine ⟨fun d => (h.deadline d).trans ?_, h.chute⟩
  show _ = ((s.monitor d).confirm.head?.bind _).bind _
  cases head : (s.monitor d).confirm.head? with
  | none => rfl
  | some x =>
    show (s.entry x).bind _ = ((Machine.setEntry tag f s).entry x).bind _
    by_cases own : x = tag
    · subst own
      rcases deadline with same | absent
      · rw [entry_setEntry s x f keeps, found]
        exact same.symm
      · exact absurd (List.mem_of_mem_head? head) (absent d)
    · rw [entry_setEntry_ne s own f keeps]

/-- An entry that no confirm list names leaves the table. -/
theorem MonitorLaw.removeEntry (h : MonitorLaw s) (absent : ∀ d, tag ∉ (s.monitor d).confirm) :
    MonitorLaw (removeEntry tag s) := by
  refine ⟨fun d => (h.deadline d).trans ?_, h.chute⟩
  show _ = ((s.monitor d).confirm.head?.bind _).bind _
  cases head : (s.monitor d).confirm.head? with
  | none => rfl
  | some x =>
    have ne : x ≠ tag := fun c => absent d (c ▸ List.mem_of_mem_head? head)
    show (s.entry x).bind _ = ((Machine.removeEntry tag s).entry x).bind _
    rw [entry_removeEntry_ne s ne]

/-- An entry is changed, but not the unit it holds. -/
theorem Base.setEntry (h : Base a s) (found : s.entry tag = some e) {f : Entry → Entry}
    (keeps : ∀ x, (f x).tag = x.tag) (fits : EntryFits s (f e)) (reserved : (f e).reservedWith = e.reservedWith)
    (deadline : (f e).confirmDeadline = e.confirmDeadline ∨ ∀ d, tag ∉ (s.monitor d).confirm) :
    Base a (setEntry tag f s) := by
  refine h.work (work_setEntry s tag f keeps) rfl ⟨fun d => ?_, h.count.counted, h.count.uncounted⟩
    (h.monitor.setEntry found keeps deadline) (fun x m => ?_) ⟨h.switches.off, h.switches.closed, h.switches.quiet⟩
    ⟨h.list.near, h.list.sorted, h.list.slotWatch, h.list.ahead⟩
  · have moved := reservedAt_setEntry h.tags found f d
    rw [reserved] at moved
    have same := h.count.outstanding d
    show (s.destination d).outstanding = _
    omega
  · rcases mem_setEntry h.tags found m with rfl | m
    · exact fits
    · exact h.fits x m

end Sys2Proof.Machine
end

