-- ==== Sys2Proof/Proofs/Registers.lean ====
section
/-! PROOF. What a change of a diverter, the arbiter, a monitor or a destination does to the laws of all items
together. -/

namespace Sys2Proof.Machine

variable {s t u : State} {tag : Tag} {e : Entry} {d : Station} {a : Prop}

/-! ### Diverters and the arbiter -/

/-- A diverter is changed, but not whether it is OFF or disabled. -/
theorem SwitchLaw.setDiverter (h : SwitchLaw s) {f : Diverter → Diverter}
    (off : (f (s.diverter d)).state = .off ↔ (s.diverter d).state = .off)
    (disabled : (f (s.diverter d)).disabled = (s.diverter d).disabled)
    (quiet : (s.diverter d).state = .off → (f (s.diverter d)).push = []) : SwitchLaw (setDiverter d f s) := by
  refine ⟨fun d' => ?_, fun d' => ?_, fun d' => ?_⟩ <;> by_cases own : d' = d
  · subst own
    rw [diverter_setDiverter, off, disabled]
    exact h.off d'
  · rw [diverter_setDiverter_ne s own]
    exact h.off d'
  · subst own
    rw [diverter_setDiverter, disabled]
    exact h.closed d'
  · rw [diverter_setDiverter_ne s own]
    exact h.closed d'
  · subst own
    rw [diverter_setDiverter, off, waits_setDiverter]
    exact fun o => ⟨quiet o, (h.quiet d' o).2⟩
  · rw [diverter_setDiverter_ne s own, waits_setDiverter]
    exact h.quiet d'

theorem Base.setDiverter (h : Base a s) {f : Diverter → Diverter}
    (off : (f (s.diverter d)).state = .off ↔ (s.diverter d).state = .off)
    (disabled : (f (s.diverter d)).disabled = (s.diverter d).disabled)
    (quiet : (s.diverter d).state = .off → (f (s.diverter d)).push = []) : Base a (setDiverter d f s) :=
  h.work (work_setDiverter s d f) rfl ⟨h.count.outstanding, h.count.counted, h.count.uncounted⟩
    ⟨h.monitor.deadline, h.monitor.chute⟩ h.fits (h.switches.setDiverter off disabled quiet)
    ⟨h.list.near, h.list.sorted, h.list.slotWatch, h.list.ahead⟩

/-- A diverter that is not OFF changes between the other states. -/
theorem Base.switchDiverter (h : Base a s) {f : Diverter → Diverter} (on : (s.diverter d).state ≠ .off)
    (stays : (f (s.diverter d)).state ≠ .off) (disabled : (f (s.diverter d)).disabled = (s.diverter d).disabled) :
    Base a (Machine.setDiverter d f s) :=
  h.setDiverter ⟨fun c => absurd c stays, fun c => absurd c on⟩ disabled (fun c => absurd c on)

theorem Base.setWaiting (h : Base a s) {b : Bool} (on : b = true → (s.diverter d).state ≠ .off) :
    Base a (setWaiting d b s) := by
  refine h.work (work_setWaiting s d b) rfl ⟨h.count.outstanding, h.count.counted, h.count.uncounted⟩
    ⟨h.monitor.deadline, h.monitor.chute⟩ h.fits ⟨h.switches.off, h.switches.closed, fun d' off => ?_⟩
    ⟨h.list.near, h.list.sorted, h.list.slotWatch, h.list.ahead⟩
  refine ⟨(h.switches.quiet d' off).1, ?_⟩
  by_cases own : d' = d
  · subst own
    rw [waits_setWaiting]
    by_contra c
    exact on (by simpa using c) off
  · rw [waits_setWaiting_ne s own]
    exact (h.switches.quiet d' off).2

theorem Base.takeSlot (h : Base a s) : Base a (takeSlot s) :=
  h.same (work_takeSlot s) rfl rfl rfl rfl rfl rfl rfl

theorem Base.freeSlot (h : Base a s) : Base a (freeSlot s) :=
  h.same (work_freeSlot s) rfl rfl rfl rfl rfl rfl rfl

theorem Base.lastGranted (h : Base a s) (d : Station) :
    Base a { s with arbiter := { s.arbiter with lastGranted := d } } :=
  h.same (work_lastGranted s d) rfl rfl rfl rfl rfl rfl rfl

/-- Where a tag stands after the lists of a diverter have changed. -/
theorem spot_setDiverter (s : State) (d : Station) (f : Diverter → Diverter) (tag : Tag) :
    (setDiverter d f s).spot tag = { s.spot tag with
      pending := Function.update (s.spot tag).pending d ((f (s.diverter d)).pending.count tag)
      push := Function.update (s.spot tag).push d ((f (s.diverter d)).push.count tag) } := by
  ext1
  · rfl
  · funext d'
    by_cases own : d' = d
    · subst own
      simp [State.spot]
    · simp [State.spot, diverter_setDiverter_ne s own, own]
  · funext d'
    by_cases own : d' = d
    · subst own
      simp [State.spot]
    · simp [State.spot, diverter_setDiverter_ne s own, own]
  · rfl

/-- The lists of a diverter are changed at one tag. -/
theorem only_setDiverter (s : State) (d : Station) {f : Diverter → Diverter} {tag : Tag}
    (pending : ∀ x, x ≠ tag → (f (s.diverter d)).pending.count x = (s.diverter d).pending.count x)
    (push : ∀ x, x ≠ tag → (f (s.diverter d)).push.count x = (s.diverter d).push.count x) :
    OnlyItem tag s (setDiverter d f s) := by
  refine ⟨rfl, rfl, fun _ _ => rfl, fun x ne => ?_⟩
  rw [spot_setDiverter, pending x ne, push x ne]
  ext1
  · rfl
  · exact Function.update_eq_self d (s.spot x).pending
  · exact Function.update_eq_self d (s.spot x).push
  · rfl

theorem sameItems_setDiverter (s : State) (d : Station) {f : Diverter → Diverter}
    (pending : (f (s.diverter d)).pending = (s.diverter d).pending)
    (push : (f (s.diverter d)).push = (s.diverter d).push) : SameItems s (setDiverter d f s) := by
  refine ⟨rfl, rfl, fun _ => rfl, fun x => ?_⟩
  rw [spot_setDiverter, pending, push]
  ext1
  · rfl
  · exact Function.update_eq_self d (s.spot x).pending
  · exact Function.update_eq_self d (s.spot x).push
  · rfl

theorem sameItems_setWaiting (s : State) (d : Station) (b : Bool) : SameItems s (setWaiting d b s) :=
  sameItems rfl rfl rfl rfl rfl rfl

theorem sameItems_takeSlot (s : State) : SameItems s (takeSlot s) := sameItems rfl rfl rfl rfl rfl rfl

theorem sameItems_freeSlot (s : State) : SameItems s (freeSlot s) := sameItems rfl rfl rfl rfl rfl rfl

theorem count_snoc (l : List Tag) (tag x : Tag) : (l ++ [tag]).count x = l.count x + (if tag = x then 1 else 0) := by
  rw [List.count_append, List.count_singleton]
  simp only [beq_iff_eq]

theorem count_without_ne (l : List Tag) {x : Tag} (ne : x ≠ tag) :
    (l.filter (fun t => t != tag)).count x = l.count x :=
  List.count_filter (p := fun t => t != tag) (by simpa using ne)

theorem count_without_self (l : List Tag) (tag : Tag) : (l.filter (fun t => t != tag)).count tag = 0 := by
  rw [List.count_eq_zero]
  intro c
  simpa using (List.mem_filter.mp c).2

/-! ### The release of a diverter (R73, R76) -/

/-- The end of recovery moves no item. -/
theorem Base.endRecovery (h : Base a s) (on : (s.diverter d).state ≠ .off) :
    Base a (endRecovery d s) ∧ SameItems s (endRecovery d s) := by
  unfold Machine.endRecovery
  split
  · exact ⟨h.switchDiverter on (by simp) rfl, sameItems_setDiverter s d rfl rfl⟩
  · refine ⟨(h.switchDiverter on (by simp) rfl).setWaiting (fun _ => ?_), ?_⟩
    · rw [diverter_setDiverter]
      simp
    · exact (sameItems_setDiverter s d rfl rfl).trans (sameItems_setWaiting _ d true)

/-- A release moves no item. -/
theorem Base.releaseDiverter (h : Base a s) (on : (s.diverter d).state ≠ .off) :
    Base a (releaseDiverter d s) ∧ SameItems s (releaseDiverter d s) := by
  have first := (h.switchDiverter (f := fun v => { v with
    state := .recovery, output := false, testPulse := false, maxOnTimer := none, pulseTimer := none }) on (by simp)
      rfl).freeSlot
  have moved : SameItems s (Machine.freeSlot (Machine.setDiverter d (fun v => { v with
      state := .recovery, output := false, testPulse := false, maxOnTimer := none, pulseTimer := none }) s)) :=
    (sameItems_setDiverter s d rfl rfl).trans (sameItems_freeSlot _)
  unfold Machine.releaseDiverter
  dsimp only
  split
  · obtain ⟨base, same⟩ := first.endRecovery (d := d) (by simp)
    exact ⟨base, moved.trans same⟩
  · exact ⟨first.switchDiverter (by simp) (by simp) rfl, moved.trans (sameItems_setDiverter _ d rfl rfl)⟩

/-- An energised diverter holds the items it held (R67, R69). -/
theorem Base.energise (h : Base a s) (on : (s.diverter d).state ≠ .off) :
    Base a (energise d s) ∧ SameItems s (energise d s) := by
  unfold Machine.energise
  refine ⟨((h.switchDiverter on (by simp) rfl).takeSlot).lastGranted d, ?_⟩
  exact (sameItems_setDiverter s d (f := fun v => { v with
    state := .energised, output := true, maxOnTimer := timerFor (s.record d).maxOn s }) rfl rfl).trans
      (sameItems rfl rfl rfl rfl rfl rfl)

/-! ### Monitors -/

/-- A confirm list is changed and the deadline timer is aimed at its first entry (R86, R88). -/
theorem Base.setConfirm (h : Base a s) (d : Station) (f : List Tag → List Tag) :
    Base a (aimDeadlineTimer d (setMonitor d (fun m => { m with confirm := f m.confirm }) s)) := by
  refine h.work (.trans (work_setMonitor s d _) (work_aimDeadlineTimer _ d)) rfl
    ⟨h.count.outstanding, h.count.counted, h.count.uncounted⟩ ⟨fun d' => ?_, fun d' => ?_⟩ h.fits
    ⟨h.switches.off, h.switches.closed, h.switches.quiet⟩
    ⟨h.list.near, h.list.sorted, h.list.slotWatch, h.list.ahead⟩
  · by_cases own : d' = d
    · subst own
      unfold aimDeadlineTimer
      rw [monitor_setMonitor]
      rfl
    · unfold aimDeadlineTimer
      rw [monitor_setMonitor_ne _ own, monitor_setMonitor_ne _ own]
      exact h.monitor.deadline d'
  · by_cases own : d' = d
    · subst own
      unfold aimDeadlineTimer
      rw [monitor_setMonitor, monitor_setMonitor]
      exact h.monitor.chute d'
    · unfold aimDeadlineTimer
      rw [monitor_setMonitor_ne _ own, monitor_setMonitor_ne _ own]
      exact h.monitor.chute d'

/-- A monitor is changed, but not its confirm list and deadline timer (R95). -/
theorem Base.setChute (h : Base a s) (d : Station) {f : Monitor → Monitor}
    (confirm : (f (s.monitor d)).confirm = (s.monitor d).confirm)
    (deadline : (f (s.monitor d)).deadlineTimer = (s.monitor d).deadlineTimer)
    (chute : (f (s.monitor d)).chuteTimer.isSome = true
      ↔ (f (s.monitor d)).chute = .filling ∨ (f (s.monitor d)).chute = .emptying) : Base a (setMonitor d f s) := by
  refine h.work (work_setMonitor s d f) rfl ⟨h.count.outstanding, h.count.counted, h.count.uncounted⟩
    ⟨fun d' => ?_, fun d' => ?_⟩ h.fits ⟨h.switches.off, h.switches.closed, h.switches.quiet⟩
    ⟨h.list.near, h.list.sorted, h.list.slotWatch, h.list.ahead⟩ <;> by_cases own : d' = d
  · subst own
    rw [monitor_setMonitor, confirm, deadline]
    exact h.monitor.deadline d'
  · rw [monitor_setMonitor_ne s own]
    exact h.monitor.deadline d'
  · subst own
    rw [monitor_setMonitor]
    exact chute
  · rw [monitor_setMonitor_ne s own]
    exact h.monitor.chute d'

/-- Where a tag stands after the confirm list of a monitor has changed. -/
theorem spot_setMonitor (s : State) (d : Station) (f : Monitor → Monitor) (tag : Tag) :
    (setMonitor d f s).spot tag = { s.spot tag with
      confirm := Function.update (s.spot tag).confirm d ((f (s.monitor d)).confirm.count tag) } := by
  ext1
  · rfl
  · rfl
  · rfl
  · funext d'
    by_cases own : d' = d
    · subst own
      simp [State.spot]
    · simp [State.spot, monitor_setMonitor_ne s own, own]

theorem only_setMonitor (s : State) (d : Station) {f : Monitor → Monitor} {tag : Tag}
    (confirm : ∀ x, x ≠ tag → (f (s.monitor d)).confirm.count x = (s.monitor d).confirm.count x) :
    OnlyItem tag s (setMonitor d f s) := by
  refine ⟨rfl, rfl, fun _ _ => rfl, fun x ne => ?_⟩
  rw [spot_setMonitor, confirm x ne]
  ext1
  · rfl
  · rfl
  · rfl
  · exact Function.update_eq_self d (s.spot x).confirm

theorem sameItems_setMonitor (s : State) (d : Station) {f : Monitor → Monitor}
    (confirm : (f (s.monitor d)).confirm = (s.monitor d).confirm) : SameItems s (setMonitor d f s) := by
  refine ⟨rfl, rfl, fun _ => rfl, fun x => ?_⟩
  rw [spot_setMonitor, confirm]
  ext1
  · rfl
  · rfl
  · rfl
  · exact Function.update_eq_self d (s.spot x).confirm

theorem sameItems_aimDeadlineTimer (s : State) (d : Station) : SameItems s (aimDeadlineTimer d s) :=
  sameItems_setMonitor s d rfl

/-! ### Destinations -/

/-- The counts of one destination record by themselves (R100). -/
structure DestRecord.Balanced (r : DestRecord) : Prop where
  counted : 0 < r.base → r.remaining + r.outstanding + r.filled = r.base
  uncounted : r.base = 0 → r.remaining = 0

theorem CountLaw.balanced (h : CountLaw s) (d : Station) : (s.destination d).Balanced := ⟨h.counted d, h.uncounted d⟩

/-- A destination changes with the units that entries hold of it. -/
theorem CountLaw.change (h : CountLaw s) (others : ∀ x, x ≠ d → t.destination x = s.destination x)
    (balanced : (t.destination d).Balanced) (own : (t.destination d).outstanding = t.reservedAt d)
    (held : ∀ x, x ≠ d → t.reservedAt x = s.reservedAt x) : CountLaw t := by
  refine ⟨fun x => ?_, fun x => ?_, fun x => ?_⟩ <;> by_cases same : x = d
  · exact same ▸ own
  · rw [others x same, held x same]
    exact h.outstanding x
  · exact same ▸ balanced.counted
  · rw [others x same]
    exact h.counted x
  · exact same ▸ balanced.uncounted
  · rw [others x same]
    exact h.uncounted x

theorem DestRecord.Balanced.reserve {r : DestRecord} (h : r.Balanced) (admits : r.admits = true) :
    r.reserve.Balanced := by
  unfold DestRecord.admits DestRecord.counted at admits
  obtain ⟨counted, uncounted⟩ := h
  unfold DestRecord.reserve DestRecord.counted
  constructor
  · intro base
    have base : 0 < r.base := base
    have sum := counted base
    simp [base] at admits ⊢
    omega
  · intro base
    have base : r.base = 0 := base
    simp [base, uncounted base]

theorem DestRecord.Balanced.giveBack {r : DestRecord} (h : r.Balanced) (held : 0 < r.outstanding) :
    r.giveBack.Balanced := by
  obtain ⟨counted, uncounted⟩ := h
  unfold DestRecord.giveBack DestRecord.counted
  constructor
  · intro base
    have base : 0 < r.base := base
    have sum := counted base
    simp [base]
    omega
  · intro base
    have base : r.base = 0 := base
    simp [base, uncounted base]

theorem DestRecord.Balanced.consume {r : DestRecord} (h : r.Balanced) (held : 0 < r.outstanding) :
    r.consume.Balanced := by
  obtain ⟨counted, uncounted⟩ := h
  unfold DestRecord.consume DestRecord.counted
  constructor
  · intro base
    have base : 0 < r.base := base
    have sum := counted base
    simp [base]
    omega
  · exact uncounted

/-- A destination is changed, but not its units, and its counts stay balanced. -/
theorem Base.setDestination (h : Base a s) {f : DestRecord → DestRecord}
    (balanced : (f (s.destination d)).Balanced)
    (outstanding : (f (s.destination d)).outstanding = (s.destination d).outstanding)
    (disabled : (s.diverter d).disabled = true → (f (s.destination d)).causes.disabled = true) :
    Base a (setDestination d f s) := by
  refine h.work (work_setDestination s d f) rfl
    (h.count.change (d := d) (fun x ne => destination_setDestination_ne s ne f) ?_ ?_ (fun _ _ => rfl))
    ⟨h.monitor.deadline, h.monitor.chute⟩ h.fits ⟨h.switches.off, fun x dis => ?_, h.switches.quiet⟩
    ⟨h.list.near, h.list.sorted, h.list.slotWatch, h.list.ahead⟩
  · rw [destination_setDestination]
    exact balanced
  · rw [destination_setDestination, outstanding]
    exact h.count.outstanding d
  · by_cases own : x = d
    · subst own
      rw [destination_setDestination]
      exact disabled dis
    · rw [destination_setDestination_ne s own]
      exact h.switches.closed x dis

theorem sameItems_setDestination (s : State) (d : Station) (f : DestRecord → DestRecord) :
    SameItems s (setDestination d f s) := sameItems rfl rfl rfl rfl rfl rfl

/-- A causes set is changed (R102). -/
theorem Base.changeCauses (h : Base a s) {f : Causes → Causes}
    (disabled : (s.diverter d).disabled = true → (f (s.destination d).causes).disabled = true) :
    Base a (changeCauses d f s) ∧ SameItems s (changeCauses d f s) := by
  unfold Machine.changeCauses submitDest
  split
  · exact ⟨h, sameItems rfl rfl rfl rfl rfl rfl⟩
  · have b := h.count.balanced d
    exact ⟨(h.setDestination (f := fun r => { r with causes := f r.causes }) ⟨b.counted, b.uncounted⟩ rfl
      disabled).submit _, (sameItems_setDestination s d _).trans (sameItems_submit _ _)⟩

/-- The terminal count test moves no item and keeps the counts (R107, R108). -/
theorem Base.terminalCount (h : Base a s) (d : Station) :
    Base a (terminalCount d s) ∧ SameItems s (terminalCount d s) := by
  unfold Machine.terminalCount endBatch
  split
  · rename_i full
    dsimp only
    split
    · have notice := h.submit (.batch d (s.destination d).serial (s.destination d).filled (s.destination d).autoReload)
      have same : (Machine.submit (.batch d (s.destination d).serial (s.destination d).filled
          (s.destination d).autoReload) s).destination d = s.destination d := by
        unfold State.destination
        rw [submit_destinations]
      unfold DestRecord.atTerminalCount at full
      simp only [Bool.and_eq_true, decide_eq_true_eq] at full
      have empty : (s.destination d).outstanding = 0 := full.1.2
      refine ⟨notice.setDestination ⟨fun _ => ?_, fun base => base⟩ rfl (fun dis => ?_),
        (sameItems_submit s _).trans (sameItems_setDestination _ d _)⟩
      · rw [same]
        show (s.destination d).base + (s.destination d).outstanding + 0 = (s.destination d).base
        omega
      · exact notice.switches.closed d dis
    · obtain ⟨base, moved⟩ := (h.submit (.batch d (s.destination d).serial (s.destination d).filled
        (s.destination d).autoReload)).changeCauses (d := d) (f := fun c => { c with batchEnd := true })
        (fun dis => (h.submit _).switches.closed d dis)
      exact ⟨base, (sameItems_submit s _).trans moved⟩
  · exact ⟨h, sameItems rfl rfl rfl rfl rfl rfl⟩

/-- The unit that an entry holds changes together with the counts of the destination (R104, R105). -/
theorem Base.exchange (h : Base a s) (found : s.entry tag = some e) (o : Option Station) (g : DestRecord → DestRecord)
    (others : ∀ x, x ≠ d → (e.reservedWith = some x ↔ o = some x)) (balanced : (g (s.destination d)).Balanced)
    (units : (g (s.destination d)).outstanding + (if e.reservedWith = some d then 1 else 0)
      = (s.destination d).outstanding + (if o = some d then 1 else 0))
    (causes : (g (s.destination d)).causes = (s.destination d).causes) :
    Base a (Machine.setEntry tag (fun e => { e with reservedWith := o }) (Machine.setDestination d g s)) := by
  have moved (x : Station) := reservedAt_setEntry h.tags found (fun e => { e with reservedWith := o }) x
  have monitor := h.monitor.setEntry found (f := fun e => { e with reservedWith := o }) (fun _ => rfl) (.inl rfl)
  refine h.work (.trans (work_setDestination s d _) (work_setEntry _ tag _ (fun _ => rfl))) rfl
    (h.count.change (d := d) (fun x ne => destination_setDestination_ne s ne _) ?_ ?_ (fun x ne => ?_))
    ⟨monitor.deadline, monitor.chute⟩ (fun x m => ?_)
    ⟨h.switches.off, fun x dis => ?_, h.switches.quiet⟩
    ⟨h.list.near, h.list.sorted, h.list.slotWatch, h.list.ahead⟩
  · show ((Machine.setDestination d g s).destination d).Balanced
    rw [destination_setDestination]
    exact balanced
  · show ((Machine.setDestination d g s).destination d).outstanding = _
    rw [destination_setDestination]
    have sum := moved d
    have own := h.count.outstanding d
    show (g (s.destination d)).outstanding = (Machine.setEntry tag _ s).reservedAt d
    dsimp only at sum
    omega
  · have sum := moved x
    simp only [others x ne] at sum
    exact Nat.add_right_cancel sum
  · rcases mem_setEntry (s := s) h.tags found m with rfl | m
    · have fits := h.fits e (mem_of_entry found)
      exact ⟨fits.alive, fits.lead, fits.length⟩
    · exact h.fits x m
  · show ((Machine.setDestination d g s).destination x).causes.disabled = true
    by_cases own : x = d
    · subst own
      rw [destination_setDestination, causes]
      exact h.switches.closed x dis
    · rw [destination_setDestination_ne s own]
      exact h.switches.closed x dis

/-- A unit is reserved for an entry that holds none (R104). -/
theorem Base.reserve (h : Base a s) (found : s.entry tag = some e) (none : e.reservedWith = none)
    (admits : (s.destination d).admits = true) :
    Base a (Machine.setEntry tag (fun e => { e with reservedWith := some d })
      (Machine.setDestination d DestRecord.reserve s)) :=
  h.exchange found (some d) _ (fun x ne => by simp [none, ne.symm]) ((h.count.balanced d).reserve admits)
    (by simp [none, DestRecord.reserve]) rfl

/-- The unit that an entry holds is given back (R105). -/
theorem Base.giveBack (h : Base a s) (found : s.entry tag = some e) (held : e.reservedWith = some d) :
    Base a (Machine.setEntry tag (fun e => { e with reservedWith := none })
      (Machine.setDestination d DestRecord.giveBack s)) := by
  have units := reservedAt_setEntry h.tags found (fun e => { e with reservedWith := none }) d
  have own := h.count.outstanding d
  simp only [held, reduceCtorEq, if_false, if_true] at units
  exact h.exchange found none _ (fun x ne => by simp [held, ne.symm]) ((h.count.balanced d).giveBack (by omega))
    (by simp [held, DestRecord.giveBack]; omega) rfl

/-- An entry without a unit leaves the table (R34). -/
theorem Base.removeEntry (h : Base a s) (found : s.entry tag = some e) (none : e.reservedWith = none)
    (absent : ∀ d, tag ∉ (s.monitor d).confirm) : Base a (removeEntry tag s) := by
  refine h.work (work_removeEntry s tag) rfl ⟨fun d => ?_, h.count.counted, h.count.uncounted⟩
    (h.monitor.removeEntry absent) (fun x m => h.fits x (List.mem_of_mem_filter m))
    ⟨h.switches.off, h.switches.closed, h.switches.quiet⟩
    ⟨h.list.near, h.list.sorted, h.list.slotWatch, h.list.ahead⟩
  have units := reservedAt_removeEntry h.tags found d
  have own := h.count.outstanding d
  simp only [none, reduceCtorEq, if_false] at units
  show (s.destination d).outstanding = _
  omega

end Sys2Proof.Machine
end

