-- ==== Sys2Proof/Proofs/Items.lean ====
section
/-! PROOF. The ways of one item: to the run-off, to a confirm list, out of the table, to a push or a pending list, and
the decision at its fire point. Each takes the item from where it is on its way to its next place. -/

namespace Sys2Proof.Machine

variable {s t u : State} {tag : Tag} {e : Entry} {d : Station} {a : Prop}

/-! ### Places -/

theorem holds_other {st : EntryState} (h : e.state ≠ st) : e.holds st = fun _ => 0 := by
  funext d
  simp [Entry.holds, h]

theorem holds_own {st : EntryState} (h : e.state = st) (target : e.target = .station d) :
    e.holds st = Function.update (fun _ => 0) d 1 := by
  funext x
  by_cases own : x = d
  · simp [Entry.holds, h, target, own]
  · have other : ¬ d = x := fun c => own c.symm
    simp [Entry.holds, h, target, own, other]

section

variable (s) (e)

/-- A TRAVELLING item has no place beside its watch. -/
theorem spotOf_travelling (state : e.state = .travelling) : { s.spotOf e with watches := [] } = Spot.nowhere := by
  ext1
  · rfl
  all_goals exact holds_other (by simp [state])

/-- A PENDING item has its place in the pending list of its target. -/
theorem spotOf_pending (state : e.state = .pending) (target : e.target = .station d) :
    { s.spotOf e with watches := [] } = { Spot.nowhere with pending := Function.update (fun _ => 0) d 1 } := by
  ext1
  · rfl
  · exact holds_own state target
  all_goals exact holds_other (by simp [state])

/-- A PUSHING item has its place in the push list of its target. -/
theorem spotOf_pushing (state : e.state = .pushing) (target : e.target = .station d) :
    { s.spotOf e with watches := [] } = { Spot.nowhere with push := Function.update (fun _ => 0) d 1 } := by
  ext1
  · rfl
  · exact holds_other (by simp [state])
  · exact holds_own state target
  · exact holds_other (by simp [state])

/-- A CONFIRMING item has its place in the confirm list of its target, and no watch. -/
theorem spotOf_confirming (state : e.state = .confirming) (target : e.target = .station d) :
    s.spotOf e = { Spot.nowhere with confirm := Function.update (fun _ => 0) d 1 } := by
  ext1
  · unfold State.spotOf State.watchOf
    rw [state]
    rfl
  · exact holds_other (by simp [state])
  · exact holds_other (by simp [state])
  · exact holds_own state target

end

theorem update_zero (f : Station → Nat) (h : f = Function.update (fun _ => 0) d 1) :
    Function.update f d 0 = fun _ => 0 := by
  subst h
  funext x
  by_cases own : x = d <;> simp [own]

/-- A tag in no list has its entry's tag in no confirm list. -/
theorem notMem_confirm (h : (s.spot tag).confirm = fun _ => 0) (d : Station) : tag ∉ (s.monitor d).confirm :=
  List.count_eq_zero.mp (congrFun h d)

/-- An item without a place in a list, with whatever watch, that is not CONFIRMING or FROZEN. -/
structure Loose (s : State) (tag : Tag) (e : Entry) : Prop where
  found : s.entry tag = some e
  confirming : e.state ≠ .confirming
  frozen : e.state ≠ .frozen
  deadline : e.confirmDeadline = none
  lists : { s.spot tag with watches := [] } = Spot.nowhere

theorem Unwatched.nowhere (item : Unwatched s tag e) (state : e.state = .travelling) : s.spot tag = .nowhere := by
  rw [item.spot, spotOf_travelling s e state]

theorem unwatched_travelling (found : s.entry tag = some e) (law : EntryLaw s e) (state : e.state = .travelling)
    (spot : s.spot tag = .nowhere) : Unwatched s tag e :=
  ⟨found, law, spot.trans (spotOf_travelling s e state).symm⟩

theorem EntryLaw.no_deadline (law : EntryLaw s e) (state : e.state ≠ .confirming) : e.confirmDeadline = none := by
  by_contra c
  exact state (law.deadline.mp (Option.isSome_iff_ne_none.mpr c))

/-! ### Out of the table -/

/-- An entry that stands nowhere and holds no unit leaves the table. -/
theorem Puts.removeEntry (h : Base a s) (found : s.entry tag = some e) (none : e.reservedWith = none)
    (spot : s.spot tag = .nowhere) : Puts a tag 0 s (removeEntry tag s) := by
  have gone := entry_removeEntry s tag
  refine ⟨h.removeEntry found none (notMem_confirm (congrArg Spot.confirm spot)), only_removeEntry s tag, ⟨?_, ?_⟩, ?_⟩
  · rw [gone]
    exact spot
  · intro x hx
    rw [gone] at hx
    cases hx
  · unfold State.weightAt
    rw [gone]
    exact le_refl 0

/-- The removal of an item at its run-off point (R53). -/
theorem Puts.deliverRunoff (h : Base a s) (item : Unwatched s tag e) (state : e.state = .travelling) :
    Puts a tag 0 s (deliverRunoff tag s) := by
  unfold Machine.deliverRunoff
  rw [item.found]
  dsimp only
  unfold runoffRemoval
  rw [tag_of_entry item.found]
  dsimp only
  obtain ⟨v, early, base, same⟩ : ∃ v, v = (if s.config.line.exitEye && !e.flags.exitSeen
      then submit (.exitMissing tag) s
      else s) ∧ Base a v ∧ SameItems s v := by
    refine ⟨_, rfl, ?_⟩
    split
    · exact ⟨h.submit _, sameItems_submit s _⟩
    · exact ⟨h, sameItems rfl rfl rfl rfl rfl rfl⟩
  rw [← early]
  have told := same.trans (sameItems_submit v (.outcome tag e.assigned .runOff .runoff (runoffReason e) e.flags))
  have removed := Puts.removeEntry (base.submit _) ((told.entry tag).trans item.found) (item.law.travelling state).1
    ((told.spot tag).trans (item.nowhere state))
  exact (removed.after (told.only tag)).then
    (removed.base.same (work_countRunoff _) rfl rfl rfl rfl rfl rfl rfl) (sameItems rfl rfl rfl rfl rfl rfl)

/-! ### To the run-off (R37, R53, R54) -/

/-- The RUNOFF watch of an item on its way to the run-off (R11, R13). -/
theorem Puts.placeRunoff (h : Base a s) (item : Unwatched s tag e) (state : e.state = .travelling)
    (target : e.target = .runOff) : Puts a tag 1 s (placeRunoff tag s) := by
  have held : s.watchOf e = some ⟨runoffPoint s.config.line e, .runoff tag⟩ := by
    unfold State.watchOf
    rw [state, target, tag_of_entry item.found]
  have fits := h.fits e (mem_of_entry item.found)
  unfold Machine.placeRunoff
  rw [item.found]
  dsimp only
  split
  · exact (Puts.deliverRunoff h item state).le (by omega)
  · rename_i later
    refine (Puts.insert h item held ?_).le (by simp [Entry.weight, state, target])
    exact h.ahead_of_not_due (fits.working (by simp [state])) (h.near_own fits held) (by simpa using later)

/-- An item without a unit is sent to the run-off (R14, R37). -/
theorem Puts.sendToRunoff (h : Base a s) (item : Loose s tag e) (none : e.reservedWith = none) (r : Reason) :
    Puts a tag 1 s (sendToRunoff tag r s) := by
  have fits := h.fits e (mem_of_entry item.found)
  have keeps (x : Entry) : ({ x with state := .travelling, target := .runOff, reason := r } : Entry).tag = x.tag := rfl
  have changed := h.setEntry item.found (f := fun e => { e with state := .travelling, target := .runOff, reason := r })
    keeps ⟨.inr ⟨by simp, fits.working item.frozen⟩, fun _ _ => fits.lead item.confirming item.frozen, fits.length⟩ rfl
    (.inl rfl)
  have entry := (entry_setEntry s tag (fun e => { e with state := .travelling, target := .runOff, reason := r })
    keeps).trans (congrArg _ item.found)
  unfold Machine.sendToRunoff
  refine (Puts.placeRunoff (changed.removeWatch tag) (unwatched_travelling entry ?_ rfl ?_) rfl rfl).after
    ((only_setEntry s tag keeps).trans (only_removeWatch _ tag))
  · exact ⟨fun _ => ⟨none, fun d c => by cases c⟩, fun c => by simp at c, by simp [item.deadline]⟩
  · rw [spot_removeWatch]
    exact item.lists

/-- The return of a unit leaves the item where it is (R105). -/
theorem returnUnit_spec (h : Base a s) (found : s.entry tag = some e) :
    Base a (returnUnit tag s) ∧ OnlyItem tag s (returnUnit tag s)
      ∧ (returnUnit tag s).entry tag = some { e with reservedWith := none }
      ∧ (returnUnit tag s).spot tag = s.spot tag := by
  unfold returnUnit
  rw [found, Option.bind_some]
  split
  · rename_i d held
    have keeps (x : Entry) : ({ x with reservedWith := none } : Entry).tag = x.tag := rfl
    refine ⟨h.giveBack found held, (sameItems_setDestination s d _).only tag |>.trans (only_setEntry _ tag keeps), ?_,
      rfl⟩
    exact (entry_setEntry _ tag (fun e => { e with reservedWith := none }) keeps).trans (congrArg _ found)
  · rename_i none
    refine ⟨h, .refl tag s, found.trans ?_, rfl⟩
    rw [← none]

/-- An item is given back to the belt (R37, R105). -/
theorem Puts.giveBackToBelt (h : Base a s) (item : Loose s tag e) (r : Reason) :
    Puts a tag 1 s (giveBackToBelt tag r s) := by
  obtain ⟨base, only, entry, spot⟩ := returnUnit_spec h item.found
  refine (Puts.sendToRunoff base ⟨entry, item.confirming, item.frozen, item.deadline, ?_⟩ rfl r).after only
  rw [spot]
  exact item.lists

/-! ### To a confirm list (R72, R74, R88) -/

/-- An item that holds a unit of a station joins the station's confirm list. -/
theorem Puts.joinConfirmList (h : Base a s) (found : s.entry tag = some e) (frozen : e.state ≠ .frozen)
    (target : e.target = .station d) (unit : e.reservedWith = some d) (installed : s.installed d = true)
    (spot : s.spot tag = .nowhere) : Puts a tag 0 s (Machine.joinConfirmList d tag s) := by
  have fits := h.fits e (mem_of_entry found)
  obtain ⟨f, hf⟩ : ∃ f : Entry → Entry, f = fun e => { e with
    state := .confirming, confirmDeadline := some (s.timeStamp + ticks (s.record d).confirmTime) } := ⟨_, rfl⟩
  have keeps (x : Entry) : (f x).tag = x.tag := by rw [hf]
  have changed := h.setEntry found keeps (by
    rw [hf]
    exact ⟨.inr ⟨by simp, fits.working frozen⟩, fun c => absurd rfl c, fits.length⟩) (by rw [hf])
    (.inr (notMem_confirm (congrArg Spot.confirm spot)))
  have entry : (Machine.joinConfirmList d tag s).entry tag = some (f e) := by
    unfold Machine.joinConfirmList
    rw [← hf]
    exact (entry_setEntry s tag f keeps).trans (congrArg _ found)
  have only : OnlyItem tag s (Machine.joinConfirmList d tag s) := by
    unfold Machine.joinConfirmList
    rw [← hf]
    refine (only_setEntry s tag keeps).trans (.trans ?_ ((sameItems_aimDeadlineTimer _ d).only tag))
    refine only_setMonitor _ d (fun x ne => ?_)
    rw [count_snoc, if_neg (fun c => ne c.symm)]
    rfl
  refine ⟨?_, only, ⟨?_, ?_⟩, ?_⟩
  · unfold Machine.joinConfirmList
    rw [← hf]
    exact changed.setConfirm d (fun l => l ++ [tag])
  · have target' : (f e).target = .station d := by rw [hf]; exact target
    have state' : (f e).state = .confirming := by rw [hf]
    rw [entry]
    unfold Machine.joinConfirmList
    rw [(sameItems_aimDeadlineTimer _ d).spot, spot_setMonitor]
    have before : (setEntry tag f s).spot tag = .nowhere := spot
    have absent : (s.monitor d).confirm.count tag = 0 := congrFun (congrArg Spot.confirm spot) d
    rw [← hf, before]
    refine Eq.trans ?_ (spotOf_confirming _ (f e) state' target').symm
    show ({ Spot.nowhere with
      confirm := Function.update _ d (((s.monitor d).confirm ++ [tag]).count tag) } : Spot) = _
    rw [count_snoc, absent, if_pos rfl]
    rfl
  · intro x hx
    obtain rfl := Option.some.inj (entry.symm.trans hx)
    rw [hf]
    exact ⟨fun c => (by cases c), fun _ => ⟨d, target, unit, installed⟩, by simp⟩
  · unfold State.weightAt
    rw [entry, hf]
    exact le_refl 0

/-- A push that ends early puts its item in the confirm list (R74, R79). -/
theorem Puts.truncatePush (h : Base a s) (item : Loose s tag e) (target : e.target = .station d)
    (unit : e.reservedWith = some d) (installed : s.installed d = true) : Puts a tag 0 s (truncatePush d tag s) := by
  have fits := h.fits e (mem_of_entry item.found)
  have keeps (x : Entry) : ({ x with flags := { x.flags with truncated := true } } : Entry).tag = x.tag := rfl
  have changed := (h.removeWatch tag).setEntry item.found
    (f := fun e => { e with flags := { e.flags with truncated := true } }) keeps
    ⟨fits.alive, fits.lead, fits.length⟩ rfl (.inl rfl)
  have entry := (entry_setEntry (removeWatch tag s) tag
    (fun e => { e with flags := { e.flags with truncated := true } }) keeps).trans (congrArg _ item.found)
  unfold Machine.truncatePush
  refine (Puts.joinConfirmList changed entry item.frozen target unit installed ?_).after
    ((only_removeWatch s tag).trans (only_setEntry _ tag keeps))
  exact (spot_removeWatch s tag).trans item.lists

/-! ### The end of a push (R72, R73) -/

/-- A RELEASE watch is delivered: the item joins the confirm list, and an emptied push list releases the diverter. -/
theorem Puts.deliverRelease (h : Base a s) (item : Unwatched s tag e) (state : e.state = .pushing)
    (target : e.target = .station d) : Puts a tag 0 s (deliverRelease d tag s) := by
  obtain ⟨x, target', unit, installed⟩ := item.law.taken (.inr (.inl state))
  obtain rfl : d = x := Dest.station.inj (target.symm.trans target')
  have places := item.spot.trans (spotOf_pushing s e state target)
  have push : (s.spot tag).push = Function.update (fun _ => 0) d 1 := congrArg Spot.push places
  have member : tag ∈ (s.diverter d).push := by
    refine List.count_pos_iff.mp ?_
    have one : (s.spot tag).push d = 1 := by rw [push]; simp
    exact lt_of_lt_of_eq Nat.zero_lt_one one.symm
  have on : (s.diverter d).state ≠ .off := fun c => List.ne_nil_of_mem member (h.switches.quiet d c).1
  obtain ⟨v, hv⟩ : ∃ v, v = setDiverter d (fun v => { v with push := v.push.filter (fun t => t != tag) }) s := ⟨_, rfl⟩
  have base : Base a v := hv ▸ h.switchDiverter on on rfl
  have only : OnlyItem tag s v := hv ▸ only_setDiverter s d (fun _ _ => rfl) (fun x ne => count_without_ne _ ne)
  have free : v.spot tag = .nowhere := by
    rw [hv, spot_setDiverter]
    ext1
    · exact (congrArg Spot.watches places :)
    · exact (Function.update_eq_self d (s.spot tag).pending).trans (congrArg Spot.pending places :)
    · show Function.update (s.spot tag).push d (((s.diverter d).push.filter (fun t => t != tag)).count tag) = _
      rw [count_without_self]
      exact update_zero _ push
    · exact (congrArg Spot.confirm places :)
  have joined : Puts a tag 0 v (Machine.joinConfirmList d tag v) :=
    Puts.joinConfirmList base (hv ▸ item.found) (by simp [state]) target unit (hv ▸ installed) free
  have on' : ((Machine.joinConfirmList d tag v).diverter d).state ≠ .off := by
    rw [(same_joinConfirmList v d tag).diverter, hv, diverter_setDiverter]
    exact on
  unfold Machine.deliverRelease
  rw [if_pos member, ← hv]
  dsimp only
  split
  · obtain ⟨base, same⟩ := joined.base.releaseDiverter on'
    exact (joined.then base same).after only
  · exact joined.after only

/-- The RELEASE watch of an item in a push list (R11, R13, R69). -/
theorem Puts.placeRelease (h : Base a s) (item : Unwatched s tag e) (state : e.state = .pushing)
    (target : e.target = .station d) : Puts a tag 1 s (placeRelease d tag s) := by
  have held : s.watchOf e = some ⟨releasePoint (s.record d) e, .release d tag⟩ := by
    unfold State.watchOf
    rw [state, target, tag_of_entry item.found]
  have fits := h.fits e (mem_of_entry item.found)
  unfold Machine.placeRelease
  rw [item.found]
  dsimp only
  split
  · exact (Puts.deliverRelease h item state target).le (by omega)
  · rename_i later
    refine (Puts.insert h item held ?_).le (by simp [Entry.weight, state])
    exact h.ahead_of_not_due (fits.working (by simp [state])) (h.near_own fits held) (by simpa using later)

/-! ### Late watches (R70) -/

/-- An item leaves a pending list. -/
theorem leavePending_spec (h : Base a s) (d : Station) (tag : Tag) :
    Base a (leavePending d tag s) ∧ OnlyItem tag s (leavePending d tag s)
      ∧ (leavePending d tag s).entry = s.entry
      ∧ (leavePending d tag s).spot tag
        = { s.spot tag with pending := Function.update (s.spot tag).pending d 0 } := by
  have first : Base a (setDiverter d (fun v => { v with pending := v.pending.filter (fun t => t != tag) }) s) :=
    h.setDiverter Iff.rfl rfl (fun c => (h.switches.quiet d c).1)
  have only : OnlyItem tag s (setDiverter d (fun v => { v with pending := v.pending.filter (fun t => t != tag) }) s) :=
    only_setDiverter s d (fun x ne => count_without_ne _ ne) (fun _ _ => rfl)
  have spot : (setDiverter d (fun v => { v with pending := v.pending.filter (fun t => t != tag) }) s).spot tag
      = { s.spot tag with pending := Function.update (s.spot tag).pending d 0 } := by
    rw [spot_setDiverter]
    ext1
    · rfl
    · dsimp only
      rw [count_without_self]
    · exact Function.update_eq_self d (s.spot tag).push
    · rfl
  unfold leavePending
  dsimp only
  split
  · rename_i waiting
    have same := (sameItems_setDiverter (setDiverter d (fun v => { v with
      pending := v.pending.filter (fun t => t != tag) }) s) d (f := fun v => { v with state := .idle }) rfl rfl).trans
        (sameItems_setWaiting _ d false)
    refine ⟨(first.switchDiverter ?_ (by simp) rfl).setWaiting (by simp), only.trans (same.only tag), ?_, ?_⟩
    · rw [waiting.1]
      simp
    · funext x
      exact (same.entry x).trans rfl
    · exact (same.spot tag).trans spot
  · exact ⟨first, only, rfl, spot⟩

/-- An item in a pending list that leaves it stands in no list. -/
theorem loose_leavePending (h : Base a s) (found : s.entry tag = some e) (law : EntryLaw s e)
    (state : e.state = .pending) (target : e.target = .station d)
    (lists : { s.spot tag with watches := [] } = { s.spotOf e with watches := [] }) :
    Loose (leavePending d tag s) tag e := by
  obtain ⟨-, -, entry, spot⟩ := leavePending_spec h d tag
  refine ⟨(congrFun entry tag).trans found, by simp [state], by simp [state], law.no_deadline (by simp [state]), ?_⟩
  rw [spot]
  have places := Spot.ext_iff.mp (lists.trans (spotOf_pending s e state target))
  obtain ⟨-, pending, push, confirm⟩ := places
  ext1
  · rfl
  · exact update_zero _ pending
  · exact push
  · exact confirm

theorem mem_pending (state : e.state = .pending) (target : e.target = .station d)
    (lists : { s.spot tag with watches := [] } = { s.spotOf e with watches := [] }) : tag ∈ (s.diverter d).pending := by
  refine List.count_pos_iff.mp ?_
  have one : (s.spot tag).pending d = 1 := by
    rw [show (s.spot tag).pending = e.holds .pending from congrArg Spot.pending lists, holds_own state target]
    simp
  exact lt_of_lt_of_eq Nat.zero_lt_one one.symm

/-- A LATE watch is delivered: the item is given back to the belt. -/
theorem Puts.deliverLate (h : Base a s) (item : Unwatched s tag e) (state : e.state = .pending)
    (target : e.target = .station d) : Puts a tag 1 s (deliverLate d tag s) := by
  have lists : { s.spot tag with watches := [] } = { s.spotOf e with watches := [] } := by rw [item.spot]
  obtain ⟨base, only, -, -⟩ := leavePending_spec h d tag
  unfold Machine.deliverLate
  rw [if_pos (mem_pending state target lists)]
  exact (Puts.giveBackToBelt base (loose_leavePending h item.found item.law state target lists) _).after only

/-- The LATE watch of an item in a pending list (R11, R13, R67). -/
theorem Puts.placeLate (h : Base a s) (item : Unwatched s tag e) (state : e.state = .pending)
    (target : e.target = .station d) : Puts a tag 2 s (placeLate d tag s) := by
  have held : s.watchOf e = some ⟨latePoint (s.record d) e, .late d tag⟩ := by
    unfold State.watchOf
    rw [state, target, tag_of_entry item.found]
  have fits := h.fits e (mem_of_entry item.found)
  unfold Machine.placeLate
  rw [item.found]
  dsimp only
  split
  · exact (Puts.deliverLate h item state target).le (by omega)
  · rename_i later
    refine (Puts.insert h item held ?_).le (by simp [Entry.weight, state])
    exact h.ahead_of_not_due (fits.working (by simp [state])) (h.near_own fits held) (by simpa using later)

/-! ### Hand-over (R67, R68) -/

/-- An item that a station has reserved a unit for, in no list yet. -/
structure Handed (s : State) (tag : Tag) (d : Station) (e : Entry) : Prop where
  found : s.entry tag = some e
  state : e.state = .travelling
  target : e.target = .station d
  unit : e.reservedWith = some d
  installed : s.installed d = true
  deadline : e.confirmDeadline = none
  spot : s.spot tag = .nowhere

theorem Handed.same (item : Handed s tag d e) (h : SameItems s t) : Handed t tag d e := by
  refine ⟨(h.entry tag).trans item.found, item.state, item.target, item.unit, ?_, item.deadline,
    (h.spot tag).trans item.spot⟩
  unfold State.installed State.record
  rw [h.config]
  exact item.installed

/-- An item joins the tail of a push list. -/
theorem Puts.joinPush (h : Base a s) (item : Handed s tag d e) (on : (s.diverter d).state ≠ .off) :
    Puts a tag 1 s (joinPush d tag s) := by
  obtain ⟨found, state, target, unit, installed, deadline, spot⟩ := item
  have fits := h.fits e (mem_of_entry found)
  have keeps (x : Entry) : ({ x with state := .pushing } : Entry).tag = x.tag := rfl
  have moved : Base a (setDiverter d (fun v => { v with push := v.push ++ [tag] }) s) := h.switchDiverter on on rfl
  have only : OnlyItem tag s (setDiverter d (fun v => { v with push := v.push ++ [tag] }) s) := by
    refine only_setDiverter s d (fun _ _ => rfl) (fun x ne => ?_)
    rw [count_snoc, if_neg (fun c => ne c.symm)]
    rfl
  have place := spot_setDiverter s d (fun v => { v with push := v.push ++ [tag] }) tag
  dsimp only at place
  have absent : (s.diverter d).push.count tag = 0 := congrFun (congrArg Spot.push spot) d
  rw [spot, count_snoc, absent, if_pos rfl] at place
  have changed := moved.setEntry found (f := fun e => { e with state := .pushing }) keeps
    ⟨.inr ⟨by simp, fits.working (by simp [state])⟩, fun _ _ => fits.lead (by simp [state]) (by simp [state]),
      fits.length⟩ rfl (.inl rfl)
  have entry := (entry_setEntry (setDiverter d (fun v => { v with push := v.push ++ [tag] }) s) tag
    (fun e => { e with state := .pushing }) keeps).trans (congrArg _ found)
  unfold Machine.joinPush
  refine (Puts.placeRelease changed ⟨entry, ⟨fun c => (by cases c), fun _ => ⟨d, target, unit, installed⟩,
    by simp [deadline]⟩, ?_⟩ rfl target).after (only.trans (only_setEntry _ tag keeps))
  refine place.trans (Eq.trans ?_ (spotOf_pushing _ { e with state := .pushing } rfl target).symm)
  rw [show (s.diverter d).pending.count tag = Spot.nowhere.pending d from congrFun (congrArg Spot.pending spot) d,
    Function.update_eq_self]
  rfl

/-- An item joins the tail of a pending list. -/
theorem Puts.joinPending (h : Base a s) (item : Handed s tag d e) : Puts a tag 2 s (joinPending d tag s) := by
  obtain ⟨found, state, target, unit, installed, deadline, spot⟩ := item
  have fits := h.fits e (mem_of_entry found)
  have keeps (x : Entry) : ({ x with state := .pending } : Entry).tag = x.tag := rfl
  have moved : Base a (setDiverter d (fun v => { v with pending := v.pending ++ [tag] }) s) :=
    h.setDiverter Iff.rfl rfl (fun c => (h.switches.quiet d c).1)
  have only : OnlyItem tag s (setDiverter d (fun v => { v with pending := v.pending ++ [tag] }) s) := by
    refine only_setDiverter s d (fun x ne => ?_) (fun _ _ => rfl)
    rw [count_snoc, if_neg (fun c => ne c.symm)]
    rfl
  have place := spot_setDiverter s d (fun v => { v with pending := v.pending ++ [tag] }) tag
  dsimp only at place
  have absent : (s.diverter d).pending.count tag = 0 := congrFun (congrArg Spot.pending spot) d
  rw [spot, count_snoc, absent, if_pos rfl] at place
  have changed := moved.setEntry found (f := fun e => { e with state := .pending }) keeps
    ⟨.inr ⟨by simp, fits.working (by simp [state])⟩, fun _ _ => fits.lead (by simp [state]) (by simp [state]),
      fits.length⟩ rfl (.inl rfl)
  have entry := (entry_setEntry (setDiverter d (fun v => { v with pending := v.pending ++ [tag] }) s) tag
    (fun e => { e with state := .pending }) keeps).trans (congrArg _ found)
  unfold Machine.joinPending
  refine (Puts.placeLate changed ⟨entry, ⟨fun c => (by cases c), fun _ => ⟨d, target, unit, installed⟩,
    by simp [deadline]⟩, ?_⟩ rfl target).after (only.trans (only_setEntry _ tag keeps))
  refine place.trans (Eq.trans ?_ (spotOf_pending _ { e with state := .pending } rfl target).symm)
  rw [show (s.diverter d).push.count tag = Spot.nowhere.push d from congrFun (congrArg Spot.push spot) d,
    Function.update_eq_self]
  rfl

theorem Puts.holdOrOverflow (h : Base a s) (item : Handed s tag d e) : Puts a tag 2 s (holdOrOverflow d tag s) := by
  unfold Machine.holdOrOverflow
  split
  · exact Puts.joinPending h item
  · refine (Puts.giveBackToBelt h ⟨item.found, by simp [item.state], by simp [item.state], item.deadline, ?_⟩ _).le
      (by omega)
    rw [item.spot]
    rfl

/-- The hand-over of an item to a diverter that is not OFF (R67). -/
theorem Puts.handOver (h : Base a s) (item : Handed s tag d e) (on : (s.diverter d).state ≠ .off) :
    Puts a tag 2 s (handOver d tag s) := by
  unfold Machine.handOver
  split
  · split
    · obtain ⟨base, same⟩ := h.energise on
      refine ((Puts.joinPush base (item.same same) ?_).after (same.only tag)).le (by omega)
      rw [diverter_energise]
      simp
    · have same := (sameItems_setDiverter s d (f := fun v => { v with state := .waiting }) rfl rfl).trans
        (sameItems_setWaiting _ d true)
      refine (Puts.joinPending ((h.switchDiverter on (by simp) rfl).setWaiting (fun _ => ?_))
        (item.same same)).after (same.only tag)
      rw [diverter_setDiverter]
      simp
  · split
    · exact (Puts.joinPush h item on).le (by omega)
    · exact Puts.holdOrOverflow h item
  · exact Puts.holdOrOverflow h item
  · exact Puts.holdOrOverflow h item
  · rename_i off
    exact absurd off on

/-! ### The fire decision (R49 to R51) -/

/-- An installed station that admits an item is not OFF. -/
theorem Base.on_of_admits (h : Base a s) (installed : s.installed d = true) (admits : (s.destination d).admits = true) :
    (s.diverter d).state ≠ .off := by
  intro off
  rcases (h.switches.off d).mp off with c | disabled
  · rw [installed] at c
    cases c
  · have cause := h.switches.closed d disabled
    simp [DestRecord.admits, Causes.isEmpty, cause] at admits

/-- A unit is reserved and the item is handed over (R49, R67). -/
theorem Puts.reserveAndHandOver (h : Base a s) (item : Unwatched s tag e) (state : e.state = .travelling)
    (target : e.target = .station d) (admits : (s.destination d).admits = true) :
    Puts a tag 2 s (reserveAndHandOver d tag s) := by
  obtain ⟨unit, stations⟩ := item.law.travelling state
  have installed := stations d target
  have keeps (x : Entry) : ({ x with reservedWith := some d } : Entry).tag = x.tag := rfl
  have entry := (entry_setEntry (setDestination d DestRecord.reserve s) tag (fun e => { e with reservedWith := some d })
    keeps).trans (congrArg _ item.found)
  unfold Machine.reserveAndHandOver
  refine (Puts.handOver (h.reserve item.found unit admits) ⟨entry, state, target, rfl, installed,
    item.law.no_deadline (by simp [state]), item.nowhere state⟩ (h.on_of_admits installed admits)).after ?_
  exact ((sameItems_setDestination s d _).only tag).trans (only_setEntry _ tag keeps)

/-- An item that no destination takes (R51). -/
theorem Puts.closeToItem (h : Base a s) (item : Unwatched s tag e) (state : e.state = .travelling) :
    Puts a tag 1 s (closeToItem tag s) := by
  have fits := h.fits e (mem_of_entry item.found)
  have keeps (x : Entry) : ({ x with target := .runOff, reason := .destClosed } : Entry).tag = x.tag := rfl
  have changed := h.setEntry item.found (f := fun e => { e with target := .runOff, reason := .destClosed }) keeps
    ⟨fits.alive, fits.lead, fits.length⟩ rfl (.inl rfl)
  have entry := (entry_setEntry s tag (fun e => { e with target := .runOff, reason := .destClosed }) keeps).trans
    (congrArg _ item.found)
  unfold Machine.closeToItem
  refine (Puts.placeRunoff changed (unwatched_travelling entry ?_ state (item.nowhere state)) state rfl).after
    (only_setEntry s tag keeps)
  exact ⟨fun _ => ⟨(item.law.travelling state).1, fun d c => (by cases c)⟩, fun c => item.law.taken c |>.elim
    (fun d k => by simp [state] at c), item.law.deadline⟩

theorem Puts.decideAtAlternate (h : Base a s) (item : Unwatched s tag e) (state : e.state = .travelling)
    (target : e.target = .station d) : Puts a tag 2 s (decideAtAlternate d tag s) := by
  unfold Machine.decideAtAlternate
  split
  · rename_i admits
    exact Puts.reserveAndHandOver h item state target admits
  · exact (Puts.closeToItem h item state).le (by omega)

/-- An item is sent on to an installed alternate (R50). -/
theorem Puts.sendToAlternate (h : Base a s) (item : Unwatched s tag e) (state : e.state = .travelling) {x : Station}
    (installed : s.installed x = true) : Puts a tag 3 s (sendToAlternate x e s) := by
  have own := tag_of_entry item.found
  have fits := h.fits e (mem_of_entry item.found)
  obtain ⟨f, hf⟩ : ∃ f : Entry → Entry, f = fun e => { e with
    target := .station x, flags := { e.flags with viaAlternate := true } } := ⟨_, rfl⟩
  have keeps (x : Entry) : (f x).tag = x.tag := by rw [hf]
  have state' : (f e).state = .travelling := by rw [hf]; exact state
  have target' : (f e).target = .station x := by rw [hf]
  have changed := h.setEntry item.found keeps (by rw [hf]; exact ⟨fits.alive, fits.lead, fits.length⟩) (by rw [hf])
    (.inl (by rw [hf]))
  have entry := (entry_setEntry s tag f keeps).trans (congrArg _ item.found)
  have item' : Unwatched (setEntry tag f s) tag (f e) := by
    refine unwatched_travelling entry ⟨fun _ => ⟨?_, fun d c => ?_⟩, fun c => ?_, ?_⟩ state' (item.nowhere state)
    · rw [hf]
      exact (item.law.travelling state).1
    · obtain rfl : x = d := Dest.station.inj (target'.symm.trans c)
      exact installed
    · rw [state'] at c
      simp at c
    · rw [hf]
      exact item.law.deadline
  have held : (setEntry tag f s).watchOf (f e) = some ⟨firePoint (s.record x) e, .fire tag⟩ := by
    unfold State.watchOf
    rw [state', target', keeps, own]
    dsimp only
    rw [hf]
    rfl
  unfold Machine.sendToAlternate
  rw [own, ← hf]
  dsimp only
  split
  · exact ((Puts.decideAtAlternate changed item' state' target').after (only_setEntry s tag keeps)).le (by omega)
  · rename_i later
    have fits' := changed.fits (f e) (mem_of_entry entry)
    refine ((Puts.insert changed item' held ?_).after (only_setEntry s tag keeps)).le ?_
    · exact changed.ahead_of_not_due (fits'.working (by simp [state'])) (changed.near_own fits' held)
        (by simpa using later)
    · rw [hf]
      simp [Entry.weight, state]

/-- The fire decision takes at least one delivery off what the item may ask for (R49 to R51). -/
theorem Puts.fireDecision (h : Base a s) (item : Unwatched s tag e) (state : e.state = .travelling)
    (target : e.target = .station d) : Puts a tag (e.weight - 1) s (fireDecision d e s) := by
  have own := tag_of_entry item.found
  have few : 3 ≤ e.weight := by
    simp only [Entry.weight, state, target]
    split <;> omega
  unfold Machine.fireDecision
  rw [own]
  split
  · rename_i admits
    exact (Puts.reserveAndHandOver h item state target admits).le (by omega)
  · split
    · exact (Puts.closeToItem h item state).le (by omega)
    · rename_i direct
      split
      · rename_i x alternate
        have installed := (item.law.travelling state).2 d target
        refine (Puts.sendToAlternate h item state (h.belt.alternates d x installed ?_)).le ?_
        · unfold stationOf at alternate
          split at alternate
          · obtain rfl := Option.some.inj alternate
            unfold stationNumber
            dsimp only
            omega
          · cases alternate
        · simp [Entry.weight, state, target, direct]
      · exact (Puts.closeToItem h item state).le (by omega)

end Sys2Proof.Machine
end

