-- ==== Sys2Proof/Proofs/Grants.lean ====
section
/-! PROOF. Completions, grants and the arbiter's examination keep the law of the items. -/

namespace Sys2Proof.Machine

variable {s t u : State} {tag : Tag} {e : Entry} {d : Station} {a : Prop}

/-! ### Completions (R55, R89, R90) -/

/-- A state with other diverters, another arbiter and other monitors. -/
def withDrives (v : Vector Diverter 16) (r : Arbiter) (m : Vector Monitor 16) (s : State) : State :=
  { s with diverters := v, arbiter := r, monitors := m }

/-- An update that neither reads nor writes the diverters, the arbiter and the monitors. -/
def Blind (g : State → State) : Prop := ∀ v r m s, g (withDrives v r m s) = withDrives v r m (g s)

theorem blind_startNext : Blind startNext := by
  intro v r m s
  unfold startNext withDrives
  dsimp only
  split
  · rfl
  · split
    · split <;> rfl
    · rfl
  · rfl

theorem blind_submit (b : NoticeBody) : Blind (submit b) := fun v r m s =>
  blind_startNext v r m { s with queue := s.queue.offer b s.timeStamp s.counter.position }

theorem Blind.comp {f g : State → State} (hf : Blind f) (hg : Blind g) : Blind (fun s => f (g s)) := by
  intro v r m s
  show f (g (withDrives v r m s)) = _
  rw [hg, hf]

theorem blind_setDestination (d : Station) (f : DestRecord → DestRecord) : Blind (setDestination d f) :=
  fun _ _ _ _ => rfl

theorem blind_changeCauses (d : Station) (f : Causes → Causes) : Blind (changeCauses d f) := by
  intro v r m s
  unfold changeCauses
  split
  · rename_i same
    exact (congrArg (withDrives v r m) (if_pos same)).symm
  · rename_i other
    refine Eq.trans ?_ (congrArg (withDrives v r m) (if_neg other)).symm
    exact blind_submit _ v r m (setDestination d (fun r => { r with causes := f r.causes }) s)

theorem blind_endBatch (d : Station) : Blind (endBatch d) := by
  intro v r m s
  unfold endBatch
  dsimp only
  rw [show submit _ (withDrives v r m s) = _ from blind_submit _ v r m s]
  split
  · rename_i reload
    refine Eq.trans ?_ (congrArg (withDrives v r m) (if_pos reload)).symm
    rfl
  · rename_i closes
    refine Eq.trans ?_ (congrArg (withDrives v r m) (if_neg closes)).symm
    exact blind_changeCauses d _ v r m _

theorem blind_terminalCount (d : Station) : Blind (terminalCount d) := by
  intro v r m s
  unfold terminalCount
  split
  · rename_i full
    refine Eq.trans ?_ (congrArg (withDrives v r m) (if_pos full)).symm
    exact blind_endBatch d v r m s
  · rename_i more
    exact (congrArg (withDrives v r m) (if_neg more)).symm

/-- The rest of a completion: the entry leaves the table, its OUTCOME is submitted, and its unit is consumed. -/
def completion (d : Station) (tag : Tag) (b : NoticeBody) (s : State) : State :=
  consumeUnit d (submit b (removeEntry tag s))

theorem blind_completion (d : Station) (tag : Tag) (b : NoticeBody) : Blind (completion d tag b) :=
  (blind_terminalCount d).comp ((blind_setDestination d _).comp ((blind_submit b).comp (fun _ _ _ _ => rfl)))

/-- The deadline timer of a lawful monitor is aimed already. -/
theorem aimDeadlineTimer_idle (h : MonitorLaw s) (d : Station) : aimDeadlineTimer d s = s := by
  have aimed : s.monitors[d].deadlineTimer = (s.monitors[d].confirm.head?.bind s.entry).bind (·.confirmDeadline) :=
    h.deadline d
  unfold aimDeadlineTimer setMonitor
  dsimp only
  rw [← aimed]
  exact congrArg (fun m => { s with monitors := m }) (Vector.set_getElem_self d.isLt)

theorem aimDeadlineTimer_retimed (s : State) (d : Station) (z : Option TimeStamp) :
    aimDeadlineTimer d { s with monitors := s.monitors.set d { s.monitors[d] with deadlineTimer := z } }
      = aimDeadlineTimer d s := by
  unfold aimDeadlineTimer setMonitor
  simp
  rfl

/-- A blind update in between does not see whether the deadline timer is aimed before it as well. -/
theorem Blind.aim {g : State → State} (h : Blind g) (d : Station) (s : State) :
    aimDeadlineTimer d (g (aimDeadlineTimer d s)) = aimDeadlineTimer d (g s) := by
  have kept : (g s).monitors = s.monitors := (congrArg State.monitors (h s.diverters s.arbiter s.monitors s) :)
  obtain ⟨m, hm⟩ : ∃ m, m = s.monitors.set d { s.monitors[d] with
    deadlineTimer := (s.monitors[d].confirm.head?.bind s.entry).bind (·.confirmDeadline) } := ⟨_, rfl⟩
  have drives : g (withDrives s.diverters s.arbiter m s) = { g s with monitors := m } := by
    rw [h]
    have same := congrArg (fun t => withDrives t.diverters t.arbiter m (g s)) (h s.diverters s.arbiter s.monitors s)
    exact same.symm
  have early : aimDeadlineTimer d s = withDrives s.diverters s.arbiter m s := by
    rw [hm]
    rfl
  rw [early, drives, hm]
  refine Eq.trans ?_ (aimDeadlineTimer_retimed (g s) d
    ((s.monitors[d].confirm.head?.bind s.entry).bind (·.confirmDeadline)))
  rw [kept]

/-- A completion may aim the deadline timer before the entry leaves as well as after. -/
theorem completeEntry_eq (found : s.entry tag = some e) (r : OutcomeResult)
    (law : MonitorLaw (completion d tag (.outcome tag e.assigned (.station d) r .none e.flags)
      (aimDeadlineTimer d (setMonitor d (fun m => { m with confirm := m.confirm.filter (fun t => t != tag) }) s)))) :
    completeEntry d tag r s
      = completion d tag (.outcome tag e.assigned (.station d) r .none e.flags)
        (aimDeadlineTimer d
          (setMonitor d (fun m => { m with confirm := m.confirm.filter (fun t => t != tag) }) s)) := by
  rw [← aimDeadlineTimer_idle law d, (blind_completion d tag _).aim]
  unfold completeEntry
  rw [found]
  rfl

/-- A CONFIRMING item leaves its confirm list. -/
theorem leaveConfirm_spec (h : Base a s) (place : s.spot tag
      = { Spot.nowhere with confirm := Function.update (fun _ => 0) d 1 }) {v : State} (hv : v = aimDeadlineTimer d
      (setMonitor d (fun m => { m with confirm := m.confirm.filter (fun t => t != tag) }) s)) :
    Base a v ∧ OnlyItem tag s v ∧ v.spot tag = .nowhere := by
  subst hv
  refine ⟨h.setConfirm d (fun l => l.filter (fun t => t != tag)), ?_, ?_⟩
  · exact (only_setMonitor s d (fun x ne => count_without_ne _ ne)).trans ((sameItems_aimDeadlineTimer _ d).only tag)
  · rw [(sameItems_aimDeadlineTimer _ d).spot, spot_setMonitor]
    ext1
    · exact (congrArg Spot.watches place :)
    · exact (congrArg Spot.pending place :)
    · exact (congrArg Spot.push place :)
    · show Function.update (s.spot tag).confirm d (((s.monitor d).confirm.filter (fun t => t != tag)).count tag) = _
      rw [count_without_self]
      exact update_zero _ (congrArg Spot.confirm place :)

/-- A unit is consumed by an entry that leaves the table (R106). -/
theorem Base.completion (h : Base a s) (found : s.entry tag = some e) (unit : e.reservedWith = some d)
    (spot : s.spot tag = .nowhere) (b : NoticeBody) :
    Base a (completion d tag b s) ∧ SameItems (Machine.removeEntry tag s) (completion d tag b s) := by
  obtain ⟨v, hv⟩ : ∃ v, v = Machine.submit b (Machine.removeEntry tag s) := ⟨_, rfl⟩
  have units (x : Station) : v.reservedAt x + (if e.reservedWith = some x then 1 else 0) = s.reservedAt x := by
    refine Eq.trans ?_ (reservedAt_removeEntry h.tags found x)
    rw [hv]
    unfold State.reservedAt
    rw [submit_table]
  have told (x : Station) : v.destination x = s.destination x := by
    rw [hv]
    unfold State.destination
    rw [submit_destinations]
    rfl
  have diverter (x : Station) : v.diverter x = s.diverter x := by
    rw [hv]
    simp [State.diverter]
  have monitors := h.monitor.removeEntry (notMem_confirm (congrArg Spot.confirm spot))
  have work : Work s (Machine.setDestination d DestRecord.consume v) := by
    rw [hv]
    exact (work_removeEntry s tag).trans ((work_submit _ b).trans (work_setDestination _ d _))
  have own := h.count.outstanding d
  have one := units d
  rw [if_pos unit] at one
  have consumed : Base a (Machine.setDestination d DestRecord.consume v) := by
    refine h.work work (by simp [hv]) (h.count.change (d := d)
      (fun x ne => (destination_setDestination_ne _ ne _).trans (told x)) ?_ ?_ (fun x ne => ?_))
      (monitors.same (by simp [hv]) (by simp [hv])) (fun x m => h.fits x ?_)
      ⟨fun x => ?_, fun x dis => ?_, fun x => ?_⟩ (h.list.same (by simp [hv]) work.counter work.config (by simp [hv]))
    · rw [destination_setDestination, told]
      exact (h.count.balanced d).consume (by omega)
    · rw [destination_setDestination, told]
      show (s.destination d).outstanding - 1 = v.reservedAt d
      omega
    · have other : ¬ d = x := fun c => ne c.symm
      have none := units x
      rw [unit, if_neg (by simpa using other)] at none
      exact none
    · simp only [hv, setDestination_table, submit_table, removeEntry_table] at m
      exact List.mem_of_mem_filter m
    · simpa [hv, State.diverter, State.installed, State.record] using h.switches.off x
    · have before := h.switches.closed x (diverter x ▸ dis)
      by_cases same : x = d
      · subst same
        rw [destination_setDestination, told]
        exact before
      · rw [destination_setDestination_ne _ same, told]
        exact before
    · simpa [hv, State.diverter, State.waits] using h.switches.quiet x
  obtain ⟨final, counted⟩ := consumed.terminalCount d
  rw [show Machine.completion d tag b s = Machine.terminalCount d (Machine.setDestination d DestRecord.consume v) by
    rw [hv]; rfl]
  exact ⟨final, (hv ▸ sameItems_submit _ b : SameItems (Machine.removeEntry tag s) v).trans
    (sameItems_setDestination v d _) |>.trans counted⟩

/-- A CONFIRMING item is completed. -/
theorem Puts.completeEntry (h : Base a s) (found : s.entry tag = some e) (law : EntryLaw s e)
    (state : e.state = .confirming) (target : e.target = .station d) (spot : s.spot tag = s.spotOf e)
    (r : OutcomeResult) : Puts a tag 0 s (completeEntry d tag r s) := by
  obtain ⟨x, target', unit, -⟩ := law.taken (.inr (.inr state))
  obtain rfl : d = x := Dest.station.inj (target.symm.trans target')
  obtain ⟨v, hv⟩ : ∃ v, v = aimDeadlineTimer d
    (setMonitor d (fun m => { m with confirm := m.confirm.filter (fun t => t != tag) }) s) := ⟨_, rfl⟩
  obtain ⟨base, only, free⟩ := leaveConfirm_spec h (spot.trans (spotOf_confirming s e state target)) hv
  obtain ⟨final, moved⟩ := base.completion (hv ▸ found : v.entry tag = some e) unit free
    (.outcome tag e.assigned (.station d) r .none e.flags)
  have gone := entry_removeEntry v tag
  rw [completeEntry_eq found r (by rw [← hv]; exact final.monitor), ← hv]
  refine ⟨final, (only.trans (only_removeEntry v tag)).trans (moved.only tag), ⟨?_, fun x hx => ?_⟩, ?_⟩
  · rw [moved.spot, moved.entry, gone]
    exact free
  · rw [moved.entry, gone] at hx
    cases hx
  · unfold State.weightAt
    rw [moved.entry, gone]
    exact le_refl 0

/-! ### The law goes on -/

/-- The law of the items goes on, the measuring slot stays, and no entry asks for more deliveries than before. -/
structure Goes (a : Prop) (s t : State) : Prop where
  closed : Closed a t
  config : t.config = s.config
  slot : t.induction.slot = s.induction.slot
  weight : ∀ x, t.weightAt x ≤ s.weightAt x

theorem Closed.goes (h : Closed a s) : Goes a s s := ⟨h, rfl, rfl, fun _ => le_refl _⟩

theorem Goes.trans (h : Goes a s t) (k : Goes a t u) : Goes a s u :=
  ⟨k.closed, k.config.trans h.config, k.slot.trans h.slot, fun x => (k.weight x).trans (h.weight x)⟩

theorem Closed.same (h : Closed a s) (base : Base a t) (same : SameItems s t) : Closed a t :=
  ⟨base, fun x => (h.items x).same same⟩

theorem Closed.goesSame (h : Closed a s) (base : Base a t) (same : SameItems s t) : Goes a s t := by
  refine ⟨h.same base same, same.config, same.slot, fun x => ?_⟩
  unfold State.weightAt
  rw [same.entry]

theorem OnlyItem.weight (h : OnlyItem tag s t) {x : Tag} (ne : x ≠ tag) : t.weightAt x = s.weightAt x := by
  unfold State.weightAt
  rw [h.entry x ne]

/-- An item put into a place that asks for no more deliveries. -/
theorem Closed.goesPut {k : Nat} (h : Closed a s) (p : Puts a tag k s t) (le : k ≤ s.weightAt tag) : Goes a s t := by
  refine ⟨p.closed (fun x _ => h.items x), p.only.config, p.only.slot, fun x => ?_⟩
  by_cases own : x = tag
  · exact own ▸ p.weight.trans le
  · exact (p.only.weight own).le

/-- Items put in their places one after another, none of them twice. `P` says what an item still lacks. -/
theorem puts_fold {α : Type} (key : α → Tag) (f : α → State → State) (P : State → α → Prop)
    (step : ∀ s x, Base a s → P s x → Puts a (key x) (s.weightAt (key x)) s (f x s))
    (stable : ∀ s t x y, P s x → OnlyItem (key y) s t → key x ≠ key y → P t x)
    (l : List α) (distinct : (l.map key).Nodup) (h : Base a s) (others : ∀ tag, tag ∉ l.map key → ItemLaw s tag)
    (open_ : ∀ x ∈ l, P s x) : Goes a s (l.foldl (fun t x => f x t) s) := by
  induction l generalizing s with
  | nil => exact Closed.goes ⟨h, fun x => others x List.not_mem_nil⟩
  | cons x rest ih =>
    obtain ⟨fresh, distinct⟩ := List.nodup_cons.mp distinct
    have p := step s x h (open_ x List.mem_cons_self)
    have next := ih (s := f x s) distinct p.base (fun tag m => ?_) (fun y m => ?_)
    · refine ⟨next.closed, next.config.trans p.only.config, next.slot.trans p.only.slot,
        fun tag => (next.weight tag).trans ?_⟩
      by_cases own : tag = key x
      · rw [own]
        exact p.weight
      · exact (p.only.weight own).le
    · by_cases own : tag = key x
      · exact own ▸ p.item
      · exact (others tag (by simpa [own] using m)).only p.only own
    · exact stable s _ y x (open_ y (List.mem_cons_of_mem _ m)) p.only
        (fun c => fresh (c ▸ List.mem_map_of_mem m))

/-! ### Grants (R65, R69) -/

/-- An item of a push list that has still to get its RELEASE watch. -/
structure Pushed (s : State) (d : Station) (tag : Tag) : Prop where
  item : ∃ e, s.entry tag = some e ∧ EntryLaw s e ∧ e.state = .pushing ∧ e.target = .station d
    ∧ { s.spot tag with watches := [] } = { s.spotOf e with watches := [] }

theorem Pushed.only {x : Tag} (p : Pushed s d x) (h : OnlyItem tag s t) (ne : x ≠ tag) : Pushed t d x := by
  obtain ⟨e, found, law, state, target, lists⟩ := p
  refine ⟨e, (h.entry x ne).trans found, law.congr h.config, state, target, ?_⟩
  rw [h.spot x ne, spotOf_congr h.config]
  exact lists

/-- The RELEASE watch of one item of a grant in place of its LATE watch. -/
theorem Pushed.place (p : Pushed s d tag) (h : Base a s) :
    Puts a tag (s.weightAt tag) s (placeRelease d tag (removeWatch tag s)) := by
  obtain ⟨e, found, law, state, target, lists⟩ := p
  have one : s.weightAt tag = 1 := by
    unfold State.weightAt
    rw [found]
    simp [Entry.weight, state]
  rw [one]
  refine (Puts.placeRelease (h.removeWatch tag) ⟨found, law.congr rfl, ?_⟩ state target).after (only_removeWatch s tag)
  rw [spot_removeWatch]
  exact lists

/-- A tag counted in a list has its entry in that list's state and target, and is in the list once. -/
theorem Closed.listed (h : Closed a s) {st : EntryState} (list : Spot → Station → Nat)
    (none : list .nowhere = fun _ => 0) (own : ∀ e, list (s.spotOf e) = e.holds st)
    (m : 0 < list (s.spot tag) d) :
    (∃ e, s.entry tag = some e ∧ e.state = st ∧ e.target = .station d) ∧ list (s.spot tag) d = 1 := by
  rw [(h.items tag).spot] at m ⊢
  cases found : s.entry tag with
  | none =>
    rw [found] at m
    exact absurd (show 0 < list .nowhere d from m) (by rw [none]; exact Nat.lt_irrefl 0)
  | some e =>
    rw [found] at m
    have place : list (s.spotAt (some e)) d = e.holds st d := congrFun (own e) d
    rw [place] at m ⊢
    unfold Entry.holds at m ⊢
    cases both : (e.state == st && e.target == .station d) with
    | false =>
      rw [both] at m
      exact absurd m (Nat.lt_irrefl 0)
    | true => exact ⟨⟨e, rfl, by simpa using both⟩, rfl⟩

/-- The items of a pending list have their entries, and each stands in it once. -/
theorem Closed.pending (h : Closed a s) (m : tag ∈ (s.diverter d).pending) :
    (∃ e, s.entry tag = some e ∧ e.state = .pending ∧ e.target = .station d)
      ∧ (s.diverter d).pending.count tag = 1 :=
  h.listed Spot.pending rfl (fun _ => rfl) (List.count_pos_iff.mpr m)

/-- The items of a push list have their entries, and each stands in it once. -/
theorem Closed.pushing (h : Closed a s) (m : tag ∈ (s.diverter d).push) :
    (∃ e, s.entry tag = some e ∧ e.state = .pushing ∧ e.target = .station d) ∧ (s.diverter d).push.count tag = 1 :=
  h.listed Spot.push rfl (fun _ => rfl) (List.count_pos_iff.mpr m)

/-- The items of a confirm list have their entries, and each stands in it once. -/
theorem Closed.confirming (h : Closed a s) (m : tag ∈ (s.monitor d).confirm) :
    (∃ e, s.entry tag = some e ∧ e.state = .confirming ∧ e.target = .station d)
      ∧ (s.monitor d).confirm.count tag = 1 :=
  h.listed Spot.confirm rfl (fun _ => rfl) (List.count_pos_iff.mpr m)

theorem nodup_of_once {l : List Tag} (h : ∀ tag ∈ l, l.count tag = 1) : l.Nodup := by
  rw [List.nodup_iff_count_le_one]
  intro tag
  by_cases m : tag ∈ l
  · exact (h tag m).le
  · rw [List.count_eq_zero.mpr m]
    exact Nat.zero_le 1

/-- The entries of a grant become PUSHING (R69). -/
theorem Base.markPushing (h : Base a s) {held : List Tag}
    (pending : ∀ x ∈ held, ∀ e, s.entry x = some e → e.state = .pending) : Base a (markPushing held s) := by
  have entry (x : Tag) := entry_pushedWith s held x
  rw [markPushing_eq]
  have same : ∀ e : Entry, (e.pushedWith held).reservedWith = e.reservedWith
      ∧ (e.pushedWith held).confirmDeadline = e.confirmDeadline := by
    intro e
    unfold Entry.pushedWith
    split <;> exact ⟨rfl, rfl⟩
  refine h.work (markPushing_eq held s ▸ work_markPushing s held) rfl
    ⟨fun d => ?_, h.count.counted, h.count.uncounted⟩ ⟨fun d => (h.monitor.deadline d).trans ?_, h.monitor.chute⟩
    (fun x m => ?_) ⟨h.switches.off, h.switches.closed, h.switches.quiet⟩
    ⟨h.list.near, h.list.sorted, h.list.slotWatch, h.list.ahead⟩
  · refine (h.count.outstanding d).trans ?_
    unfold State.reservedAt
    dsimp only
    rw [List.countP_map]
    exact List.countP_congr (fun e _ => by simp [(same e).1])
  · show _ = ((s.monitor d).confirm.head?.bind _).bind _
    cases (s.monitor d).confirm.head? with
    | none => rfl
    | some x =>
      show (s.entry x).bind _ = (State.entry _ x).bind _
      rw [entry]
      cases s.entry x with
      | none => rfl
      | some e => exact (same e).2.symm
  · obtain ⟨e, member, rfl⟩ := List.mem_map.mp m
    have fits := h.fits e member
    unfold Entry.pushedWith
    split
    · rename_i held'
      have state := pending e.tag held' e (entry_of_mem h.tags member)
      exact ⟨.inr ⟨by simp, fits.working (by simp [state])⟩, fun _ _ => fits.lead (by simp [state]) (by simp [state]),
        fits.length⟩
    · exact fits

/-- The state of a grant before its RELEASE watches (R69): the diverter energised, its held items PUSHING. -/
def pushHeld (d : Station) (s : State) : State :=
  markPushing (s.diverter d).pending
    (setDiverter d (fun v => { v with push := v.push ++ (s.diverter d).pending, pending := [] })
      (energise d (setWaiting d false s)))

theorem grant_pushHeld (d : Station) (s : State) : grant d s
    = (s.diverter d).pending.foldl (fun t tag => placeRelease d tag (removeWatch tag t)) (pushHeld d s) := rfl

section

variable (h : Closed a s) (waits : s.waits d = true)

include h waits

/-- A waiting diverter is energised without moving an item. -/
theorem Closed.energised :
    Base a (energise d (setWaiting d false s)) ∧ SameItems s (energise d (setWaiting d false s)) := by
  have on : (s.diverter d).state ≠ .off := fun c => by
    rw [(h.base.switches.quiet d c).2] at waits
    cases waits
  obtain ⟨base, same⟩ := (h.base.setWaiting (d := d) (b := false) (fun c => by cases c)).energise (d := d) on
  exact ⟨base, (sameItems_setWaiting s d false).trans same⟩

theorem entry_pushHeld (x : Tag) :
    (pushHeld d s).entry x = (s.entry x).map (Entry.pushedWith (s.diverter d).pending) := by
  unfold pushHeld
  rw [markPushing_eq, entry_pushedWith]
  exact congrArg _ ((h.energised waits).2.entry x)

theorem spot_pushHeld (x : Tag) : (pushHeld d s).spot x = { s.spot x with
    pending := Function.update (s.spot x).pending d 0
    push := Function.update (s.spot x).push d ((s.diverter d).push.count x + (s.diverter d).pending.count x) } := by
  unfold pushHeld
  rw [markPushing_eq]
  have moved := spot_setDiverter (energise d (setWaiting d false s)) d
    (fun v => { v with push := v.push ++ (s.diverter d).pending, pending := [] }) x
  refine Eq.trans moved ?_
  rw [(h.energised waits).2.spot, diverter_energise]
  dsimp only
  rw [List.count_append]
  rfl

omit h waits in
theorem config_pushHeld (s : State) (d : Station) : (pushHeld d s).config = s.config := by
  unfold pushHeld
  rw [(work_markPushing _ _).config]
  rfl

omit h waits in
theorem slot_pushHeld (s : State) (d : Station) : (pushHeld d s).induction.slot = s.induction.slot := by
  unfold pushHeld
  rw [markPushing_eq]
  rfl

theorem Closed.pushHeld : Base a (pushHeld d s) := by
  obtain ⟨base, same⟩ := h.energised waits
  refine Base.markPushing (base.switchDiverter ?_ ?_ rfl) (fun x m e found => ?_)
  · rw [diverter_energise]
    simp
  · rw [diverter_energise]
    simp
  · obtain ⟨⟨e', found', state, -⟩, -⟩ := h.pending m
    have found : s.entry x = some e := (same.entry x).symm.trans found
    exact (Option.some.inj (found'.symm.trans found)) ▸ state

/-- PUSHING items ask for fewer deliveries than PENDING ones. -/
theorem weight_pushHeld (x : Tag) : (Machine.pushHeld d s).weightAt x ≤ s.weightAt x := by
  unfold State.weightAt
  rw [entry_pushHeld h waits]
  cases found : s.entry x with
  | none => exact le_refl 0
  | some e =>
    show (e.pushedWith (s.diverter d).pending).weight ≤ e.weight
    unfold Entry.pushedWith
    split
    · rename_i m
      rw [tag_of_entry found] at m
      obtain ⟨⟨e', found', state, -⟩, -⟩ := h.pending m
      obtain rfl := Option.some.inj (found'.symm.trans found)
      simp [Entry.weight, state]
    · exact le_refl _

/-- The items that the diverter did not hold are where they were. -/
theorem item_pushHeld {x : Tag} (out : x ∉ (s.diverter d).pending) : ItemLaw (Machine.pushHeld d s) x := by
  have none : (s.spot x).pending d = 0 := List.count_eq_zero.mpr out
  refine (h.items x).congr (config_pushHeld s d) ((entry_pushHeld h waits x).trans ?_)
    ((spot_pushHeld h waits x).trans ?_)
  · cases found : s.entry x with
    | none => rfl
    | some e =>
      have own : e.tag ∉ (s.diverter d).pending := tag_of_entry found ▸ out
      show some (e.pushedWith _) = some e
      rw [Entry.pushedWith, if_neg own]
  · rw [List.count_eq_zero.mpr out]
    ext1
    · rfl
    · dsimp only
      rw [← none, Function.update_eq_self]
    · exact Function.update_eq_self d (s.spot x).push
    · rfl

/-- The items that the diverter held are in its push list. -/
theorem pushed_pushHeld {x : Tag} (m : x ∈ (s.diverter d).pending) : Pushed (Machine.pushHeld d s) d x := by
  obtain ⟨⟨e, found, state, target⟩, one⟩ := h.pending m
  have law := (h.items x).entry e found
  have marked : e.pushedWith (s.diverter d).pending = { e with state := .pushing } :=
    if_pos (tag_of_entry found ▸ m)
  have place := (h.items x).spot
  rw [found] at place
  obtain ⟨-, pending, push, confirm⟩ := Spot.ext_iff.mp
    ((congrArg (fun p : Spot => { p with watches := [] }) place).trans (spotOf_pending s e state target))
  refine ⟨{ e with state := .pushing }, ?_, ?_, rfl, target, ?_⟩
  · rw [entry_pushHeld h waits, found, ← marked]
    rfl
  · obtain ⟨y, target', unit, installed⟩ := law.taken (.inl state)
    have pushing : EntryLaw s { e with state := .pushing } := ⟨fun c => (by cases c),
      fun _ => ⟨y, target', unit, installed⟩, by simp [law.no_deadline (by simp [state])]⟩
    exact pushing.congr (config_pushHeld s d)
  · rw [spotOf_pushing _ { e with state := .pushing } rfl target, spot_pushHeld h waits, one]
    have push : (s.spot x).push = fun _ => 0 := push
    ext1
    · rfl
    · exact update_zero _ pending
    · show Function.update (s.spot x).push d ((s.spot x).push d + 1) = _
      rw [push]
    · exact confirm

/-- A grant to a waiting diverter (R69). -/
theorem Closed.grant : Goes a s (grant d s) := by
  rw [grant_pushHeld]
  have released := puts_fold id (fun tag t => placeRelease d tag (removeWatch tag t)) (fun t x => Pushed t d x)
    (fun _ _ base p => p.place base) (fun _ _ _ _ p only ne => p.only only ne) (s.diverter d).pending
    (by simpa using nodup_of_once (fun _ m => (h.pending m).2)) (h.pushHeld waits)
    (fun x out => item_pushHeld h waits (by simpa using out)) (fun x m => pushed_pushHeld h waits m)
  exact ⟨released.closed, released.config.trans (config_pushHeld s d), released.slot.trans (slot_pushHeld s d),
    fun x => (released.weight x).trans (weight_pushHeld h waits x)⟩

end

theorem Closed.arbitrateRounds (n : Nat) (h : Closed a s) : Goes a s (arbitrateRounds n s) := by
  induction n generalizing s with
  | zero => exact h.goes
  | succ n ih =>
    unfold Machine.arbitrateRounds
    split
    · split
      · rename_i d chosen
        have first := h.grant (waits_of_chosen chosen)
        exact first.trans (ih first.closed)
      · exact h.goes
    · exact h.goes

/-- The arbiter's examination keeps the law (R65). -/
theorem Closed.arbitrate (h : Closed a s) : Goes a s (arbitrate s) := h.arbitrateRounds 16

theorem Closed.grantOne (h : Closed a s) : Goes a s (grantOne s) := by
  unfold Machine.grantOne
  split
  · split
    · rename_i d chosen
      exact h.grant (waits_of_chosen chosen)
    · exact h.goes
  · exact h.goes

end Sys2Proof.Machine
end

