-- ==== Sys2Proof/Proofs/Admission.lean ====
section
/-! PROOF. The measuring slot and the admission of items keep the law of the items. -/

namespace Sys2Proof.Machine

variable {s t u : State} {tag : Tag} {e : Entry} {d : Station} {a : Prop}

/-! ### A new entry (R27, R28) -/

/-- A new entry at the end of the table, and the next tag. -/
def appendEntry (e : Entry) (next : Tag) (s : State) : State :=
  { s with induction := { s.induction with nextTag := next }, table := s.table ++ [e] }

theorem entry_appendEntry (fresh : s.entry e.tag = none) (next x : Tag) :
    (appendEntry e next s).entry x = if x = e.tag then some e else s.entry x := by
  unfold State.entry appendEntry
  rw [List.find?_append, entry_cons]
  by_cases own : x = e.tag
  · subst own
    rw [show s.table.find? (fun x => x.tag == e.tag) = none from fresh]
    simp
  · have other : ¬ e.tag = x := fun c => own c.symm
    simp [own, other]

theorem only_appendEntry (fresh : s.entry e.tag = none) (next : Tag) : OnlyItem e.tag s (appendEntry e next s) :=
  ⟨rfl, rfl, fun x ne => by rw [entry_appendEntry fresh, if_neg ne], fun _ _ => rfl⟩

/-- A tag without an entry stands nowhere. -/
theorem Closed.nowhere (h : Closed a s) (none : s.entry tag = none) : s.spot tag = .nowhere := by
  rw [(h.items tag).spot, none]
  rfl

theorem Closed.appendEntry (h : Closed a s) {next : Tag} (fresh : s.entry e.tag = none)
    (tags : TagLaw (appendEntry e next s)) (none : e.reservedWith = none) (fits : EntryFits s e) :
    Base a (appendEntry e next s) := by
  have base := h.base
  refine ⟨tags, ⟨fun d => (base.count.outstanding d).trans ?_, base.count.counted, base.count.uncounted⟩,
    ⟨fun d => (base.monitor.deadline d).trans ?_, base.monitor.chute⟩,
    ⟨base.belt.excursion, base.belt.active, base.belt.written, base.belt.alternates, base.belt.slotLead,
      base.belt.slotWorks⟩, fun x m => ?_, ⟨base.switches.off, base.switches.closed, base.switches.quiet⟩,
    ⟨base.list.near, base.list.sorted, base.list.slotWatch, base.list.ahead⟩⟩
  · show _ = (s.table ++ [e]).countP _
    rw [List.countP_append, List.countP_singleton, none]
    rfl
  · show _ = ((s.monitor d).confirm.head?.bind _).bind _
    cases head : (s.monitor d).confirm.head? with
    | none => rfl
    | some x =>
      have ne : x ≠ e.tag := fun c =>
        notMem_confirm (congrArg Spot.confirm (h.nowhere fresh)) d (c ▸ List.mem_of_mem_head? head)
      show (s.entry x).bind _ = ((Machine.appendEntry e next s).entry x).bind _
      rw [entry_appendEntry fresh, if_neg ne]
  · rcases List.mem_append.mp m with m | m
    · have old := base.fits x m
      exact ⟨old.alive, old.lead, old.length⟩
    · obtain rfl := List.mem_singleton.mp m
      exact ⟨fits.alive, fits.lead, fits.length⟩

/-- The law goes on while at most one item is admitted, which may ask for one delivery. -/
structure Admits (a : Prop) (s t : State) : Prop where
  closed : Closed a t
  slot : t.induction.slot = s.induction.slot
  config : t.config = s.config
  weight : ∃ tag, t.weightAt tag ≤ s.weightAt tag + 1 ∧ ∀ x, x ≠ tag → t.weightAt x ≤ s.weightAt x

theorem Goes.admits (h : Goes a s t) : Admits a s t :=
  ⟨h.closed, h.slot, h.config, 0, (h.weight 0).trans (Nat.le_succ _), fun x _ => h.weight x⟩

theorem Admits.goes (h : Admits a s t) (k : Goes a t u) : Admits a s u := by
  obtain ⟨tag, own, others⟩ := h.weight
  exact ⟨k.closed, k.slot.trans h.slot, k.config.trans h.config, tag, (k.weight tag).trans own,
    fun x ne => (k.weight x).trans (others x ne)⟩

/-- The tags after an admission (R27). -/
theorem tags_admission (h : TagLaw s) (room : s.occupancy < Config.tableCapacity) (lead : Position) (length : Nat)
    (flags : EntryFlags) : s.entry s.allocatedTag = none
      ∧ TagLaw (appendEntry (newEntry s.allocatedTag lead length flags) (nextTagAfter s.allocatedTag) s) := by
  obtain ⟨-, distinct, nonzero, next⟩ := h
  obtain ⟨fresh, named⟩ : s.allocatedTag ∉ s.table.map (·.tag) ∧ s.allocatedTag ≠ 0 :=
    freeTagFrom_free Config.tableCapacity (by decide) s.induction.nextTag next s.table room
  refine ⟨find_none_of_notMem fresh, ?_, ?_, fun e m => ?_, nextTagAfter_ne_zero _⟩
  · show (s.table ++ [_]).length ≤ _
    rw [List.length_append]
    exact room
  · show ((s.table ++ [newEntry s.allocatedTag lead length flags]).map (·.tag)).Nodup
    rw [List.map_append]
    exact List.nodup_append_comm.mp (List.nodup_cons.mpr ⟨fresh, distinct⟩)
  · rcases List.mem_append.mp m with m | m
    · exact nonzero e m
    · obtain rfl := List.mem_singleton.mp m
      exact named

/-- An item is admitted (R27, R28). -/
theorem Closed.admitItem (h : Closed a s) {lead : Position} {length : Nat} (flags : EntryFlags)
    (room : s.occupancy < Config.tableCapacity) (working : s.line.state.working = true)
    (behind : Behind s.counter.highWater lead) (short : length ≤ 65535) :
    Admits a s (admitItem lead length flags s) := by
  obtain ⟨fresh, tags⟩ := tags_admission h.base.tags room lead length flags
  obtain ⟨e, he⟩ : ∃ e, e = newEntry s.allocatedTag lead length flags := ⟨_, rfl⟩
  have own : e.tag = s.allocatedTag := he ▸ rfl
  have state : e.state = .travelling := he ▸ rfl
  rw [← he] at tags
  rw [← own] at fresh tags
  have base := h.appendEntry fresh tags (he ▸ rfl)
    ⟨.inr ⟨by simp [state], working⟩, fun _ _ => he ▸ behind, he ▸ short⟩
  have found : (Machine.appendEntry e (nextTagAfter e.tag) s).entry e.tag = some e := by
    rw [entry_appendEntry fresh, if_pos rfl]
  have law : EntryLaw (Machine.appendEntry e (nextTagAfter e.tag) s) e := by
    subst he
    exact ⟨fun _ => ⟨rfl, fun d c => (by cases c)⟩, fun c => (by simp [newEntry] at c), by simp [newEntry]⟩
  have placed := (Puts.placeRunoff base (unwatched_travelling found law state (h.nowhere fresh)) state
    (he ▸ rfl)).after (only_appendEntry fresh _)
  have told := placed.then (placed.base.submit (.inducted e.tag length flags)) (sameItems_submit _ _)
  have final := told.then told.base.evaluateHold (sameItems rfl rfl rfl rfl rfl rfl)
  have none : s.weightAt e.tag = 0 := by
    unfold State.weightAt
    rw [fresh]
    rfl
  have run : Machine.admitItem lead length flags s = Machine.evaluateHold (Machine.submit (.inducted e.tag length flags)
      (Machine.placeRunoff e.tag (Machine.appendEntry e (nextTagAfter e.tag) s))) := by
    rw [own, he]
    rfl
  rw [run]
  exact ⟨final.closed (fun x _ => h.items x), final.only.slot, final.only.config, e.tag,
    by rw [none]; exact final.weight, fun x ne => (final.only.weight ne).le⟩

theorem Closed.submit (h : Closed a s) (b : NoticeBody) : Goes a s (submit b s) :=
  h.goesSame (h.base.submit b) (sameItems_submit s b)

/-- Work that touches no item and no register that the law speaks of. -/
theorem Closed.rest (h : Closed a s) (w : Work s t) (slot : t.induction.slot = s.induction.slot)
    (table : t.table = s.table) (watches : t.watches = s.watches) (diverters : t.diverters = s.diverters)
    (waiting : t.arbiter.waiting = s.arbiter.waiting) (monitors : t.monitors = s.monitors)
    (destinations : t.destinations = s.destinations) : Goes a s t :=
  h.goesSame (h.base.same w slot table watches diverters waiting monitors destinations)
    (sameItems w.config slot table watches diverters monitors)

/-- An interval is offered for admission (R25, R26, R29). -/
theorem Closed.offerInterval (h : Closed a s) {lead : Position} {length : Nat} (refused overlength : Bool)
    (working : s.line.state.working = true) (behind : Behind s.counter.highWater lead) (short : length ≤ 65535) :
    Admits a s (offerInterval lead length refused overlength s) := by
  unfold Machine.offerInterval
  dsimp only
  obtain ⟨v, hv, admits⟩ : ∃ v, v = (if refused then Machine.submit (.noTrack .draining length) s
      else if Config.tableCapacity ≤ s.occupancy then Machine.submit (.noTrack .tableFull length) s
      else Machine.admitItem lead length { gapShort := s.gapShort lead, overlength := overlength } s)
      ∧ Admits a s v := by
    refine ⟨_, rfl, ?_⟩
    split
    · exact (h.submit _).admits
    · split
      · exact (h.submit _).admits
      · exact h.admitItem _ (by omega) working behind short
  rw [← hv]
  exact admits.goes (admits.closed.rest (work_lastTrailing v _) rfl rfl rfl rfl rfl rfl rfl)

/-! ### The measuring slot (R20 to R24) -/

theorem Closed.setEntryEye (h : Closed a s) (level : EyeLevel) : Goes a s (setEntryEye level s) :=
  h.rest (work_setEntryEye s level) rfl rfl rfl rfl rfl rfl rfl

/-- The measurement ends: the slot is left, and its watch is not in the list that stays. -/
theorem Closed.leaveSlot (h : Closed a s) {slot : Slot} {l : List Watch} (sub : l.Sublist s.watches)
    (kept : ∀ tag, l.filter (Watch.serves (some tag)) = s.watches.filter (Watch.serves (some tag)))
    (gone : l.filter (Watch.serves none) = []) (closed : ∀ lead refused, slot ≠ .opened lead refused)
    (works : slot ≠ .empty → s.line.state.working = true) : Closed a (setSlot slot { s with watches := l }) := by
  have base := h.base
  have slotWatch : (setSlot slot { s with watches := l }).slotWatch = [] := by
    unfold State.slotWatch setSlot
    dsimp only
    cases slot with
    | opened lead refused => exact absurd rfl (closed lead refused)
    | closed => rfl
    | empty => rfl
  refine ⟨⟨base.tags, ⟨base.count.outstanding, base.count.counted, base.count.uncounted⟩,
    ⟨base.monitor.deadline, base.monitor.chute⟩, ⟨base.belt.excursion, base.belt.active, base.belt.written,
      base.belt.alternates, fun lead refused c => absurd c (closed lead refused), works⟩,
    fun x m => ⟨(base.fits x m).alive, (base.fits x m).lead, (base.fits x m).length⟩,
    ⟨base.switches.off, base.switches.closed, base.switches.quiet⟩,
    ⟨fun w m => base.list.near w (sub.subset m), base.list.sorted.sublist sub, gone.trans slotWatch.symm,
      fun all w m => base.list.ahead all w (sub.subset m)⟩⟩, fun tag => (h.items tag).congr rfl rfl ?_⟩
  ext1
  · exact kept tag
  all_goals rfl

theorem filter_removeLengthLimit (l : List Watch) (tag : Tag) :
    (l.filter (fun w => w.kind != .lengthLimit)).filter (Watch.serves (some tag))
      = l.filter (Watch.serves (some tag)) := by
  rw [List.filter_filter]
  refine List.filter_congr (fun w _ => ?_)
  cases kind : w.kind <;> simp [Watch.serves, WatchKind.tag?, kind]

theorem filter_removeLengthLimit_none (l : List Watch) :
    (l.filter (fun w => w.kind != .lengthLimit)).filter (Watch.serves none) = [] := by
  rw [List.filter_filter, List.filter_eq_nil_iff]
  intro w _
  cases kind : w.kind <;> simp [Watch.serves, WatchKind.tag?, kind]

theorem Closed.removeLengthLimit (h : Closed a s) : Closed a (setSlot .empty (removeLengthLimit s)) :=
  h.leaveSlot List.filter_sublist (filter_removeLengthLimit s.watches) (filter_removeLengthLimit_none s.watches)
    (fun _ _ c => (by cases c)) (fun c => absurd rfl c)

/-- The LENGTH_LIMIT watch of an OPEN slot is in the list. -/
theorem Base.mem_slotWatch (h : Base a s) {lead : Position} {refused : Bool}
    (slot : s.induction.slot = .opened lead refused) :
    (⟨lead + BitVec.ofNat 32 s.config.line.maxLength, .lengthLimit⟩ : Watch) ∈ s.watches := by
  have one := h.list.slotWatch
  refine List.mem_of_mem_filter (p := Watch.serves none) ?_
  rw [one]
  unfold State.slotWatch
  rw [slot]
  exact List.mem_singleton_self _

/-- The line is short of the length limit of an OPEN slot (R20). -/
theorem Base.before_lengthLimit (h : Base True s) {lead : Position} {refused : Bool}
    (slot : s.induction.slot = .opened lead refused) : ∃ x z, Near s.counter.highWater s.counter.position x
      ∧ Near s.counter.highWater lead z ∧ -4095 ≤ x ∧ x ≤ 0 ∧ -4194304 ≤ z ∧ z ≤ 0
      ∧ x < z + s.config.line.maxLength := by
  obtain ⟨z, at_z, low, high⟩ := near_of_behind (h.belt.slotLead lead refused slot)
  obtain ⟨x, at_x, far, near⟩ := h.belt.near_position (h.belt.slotWorks (by rw [slot]; simp))
  have ahead := h.list.ahead trivial _ (h.mem_slotWatch slot)
  have few := h.belt.active.maxLength.2
  rw [at_x.reached (at_z.add s.config.line.maxLength (by omega)), decide_eq_false_iff_not] at ahead
  exact ⟨x, z, at_x, at_z, far, near, low, high, by omega⟩

/-- A line at its high-water mark measures less than the maximum length in an OPEN slot. -/
theorem Base.measured (h : Base True s) {lead : Position} {refused : Bool}
    (slot : s.induction.slot = .opened lead refused) (front : behind s.counter = false) :
    (s.counter.position - lead).toNat ≤ 65535 := by
  have same : s.counter.highWater = s.counter.position := by
    unfold behind excursion at front
    simp only [decide_eq_false_iff_not] at front
    bv_omega
  obtain ⟨low, high⟩ := h.belt.slotLead lead refused slot
  have few := h.belt.active.maxLength.2
  have ahead := h.list.ahead trivial _ (h.mem_slotWatch slot)
  simp only [reached, decide_eq_false_iff_not] at ahead
  rw [same] at low high
  have small : (s.counter.position - lead).toNat ≤ 4194304 := by
    rw [BitVec.toInt_eq_toNat_cond] at low high
    split at low <;> omega
  by_contra long
  have beyond : (s.counter.position - (lead + BitVec.ofNat 32 s.config.line.maxLength)).toNat
      = (s.counter.position - lead).toNat - s.config.line.maxLength := by bv_omega
  rw [BitVec.toInt_eq_toNat_of_lt (by omega)] at ahead
  omega
/-- The measurement begins (R20). -/
theorem Closed.openSlot (h : Closed True s) (working : s.line.state.working = true) (slot : s.induction.slot = .empty)
    (front : behind s.counter = false) (refused : Bool) :
    Closed True (insertWatch (s.counter.position + ticks s.config.line.maxLength) .lengthLimit
      (setSlot (.opened s.counter.position refused) s)) := by
  have base := h.base
  have same : s.counter.highWater = s.counter.position := by
    unfold behind excursion at front
    simp only [decide_eq_false_iff_not] at front
    bv_omega
  obtain ⟨some, many⟩ := base.belt.active.maxLength
  obtain ⟨x, at_x, low, high⟩ := base.belt.near_position working
  have at_w := at_x.add s.config.line.maxLength (by omega)
  have none : s.watches.filter (Watch.serves none) = [] := by
    rw [base.list.slotWatch]
    unfold State.slotWatch
    rw [slot]
  refine ⟨⟨base.tags, ⟨base.count.outstanding, base.count.counted, base.count.uncounted⟩,
    ⟨base.monitor.deadline, base.monitor.chute⟩, ⟨base.belt.excursion, base.belt.active, base.belt.written,
      base.belt.alternates, fun lead refused c => ?_, fun _ => working⟩,
    fun x m => ⟨(base.fits x m).alive, (base.fits x m).lead, (base.fits x m).length⟩,
    ⟨base.switches.off, base.switches.closed, base.switches.quiet⟩,
    ⟨fun v m => ?_, insertSorted_pairwise base.list.near ⟨_, at_w⟩ base.list.sorted, ?_, fun _ v m => ?_⟩⟩,
    fun tag => (h.items tag).congr rfl rfl ?_⟩
  · obtain ⟨rfl, -⟩ := Slot.opened.inj c
    show Behind s.counter.highWater s.counter.position
    rw [same]
    simp [Behind]
  · rcases mem_insertSorted.mp m with rfl | m
    · exact ⟨_, at_w⟩
    · exact base.list.near v m
  · exact filter_insertSorted_only rfl none
  · rcases mem_insertSorted.mp m with rfl | m
    · exact (at_x.reached at_w).trans (decide_eq_false_iff_not.mpr (by omega))
    · exact base.list.ahead trivial v m
  · ext1
    · exact filter_insertSorted_not rfl s.watches
    all_goals rfl

/-- A leading edge of the entry eye (R19, R20). -/
theorem Closed.entryLeadingEdge (h : Closed True s) : Closed True (entryLeadingEdge s) := by
  have seen := (h.setEntryEye .blocked).closed
  unfold Machine.entryLeadingEdge
  split
  · exact h
  · dsimp only
    split
    · rename_i measures
      simp only [Bool.and_eq_true, beq_iff_eq, Bool.not_eq_true'] at measures
      obtain ⟨⟨working, slot⟩, front⟩ := measures
      exact seen.openSlot working slot front _
    · exact seen

/-- A trailing edge at the measuring slot (R21 to R23). -/
theorem Closed.closeMeasurement (h : Closed True s) (working : s.line.state.working = true) :
    Closed True (closeMeasurement s) := by
  unfold Machine.closeMeasurement
  split
  · rename_i lead refused slot
    split
    · exact h
    · rename_i front
      dsimp only
      split
      · exact h.removeLengthLimit
      · exact (h.removeLengthLimit.offerInterval refused false working (h.base.belt.slotLead lead refused slot)
          (h.base.measured slot (by simpa using front))).closed
  · rename_i slot
    refine h.leaveSlot (l := s.watches) (.refl _) (fun _ => rfl) ?_ (fun _ _ c => (by cases c))
      (fun c => absurd rfl c)
    rw [h.base.list.slotWatch]
    unfold State.slotWatch
    rw [slot]
  · exact h

/-- A trailing edge of the entry eye (R19, R21 to R23). -/
theorem Closed.entryTrailingEdge (h : Closed True s) : Closed True (entryTrailingEdge s) := by
  have seen := (h.setEntryEye .clear).closed
  unfold Machine.entryTrailingEdge
  split
  · exact h
  · dsimp only
    split
    · rename_i working
      exact seen.closeMeasurement working
    · exact seen

/-- A flag of an entry changes nothing that the law speaks of. -/
theorem Closed.setFlags (h : Closed a s) (found : s.entry tag = some e) (f : EntryFlags → EntryFlags)
    (via : (f e.flags).viaAlternate = e.flags.viaAlternate) :
    Goes a s (setEntry tag (fun e => { e with flags := f e.flags }) s) := by
  have fits := h.base.fits e (mem_of_entry found)
  have law := (h.items tag).entry e found
  have entry := (entry_setEntry s tag (fun e => { e with flags := f e.flags }) (fun _ => rfl)).trans
    (congrArg _ found)
  refine h.goesPut (tag := tag) (k := e.weight) ⟨h.base.setEntry found (fun _ => rfl)
    ⟨fits.alive, fits.lead, fits.length⟩ rfl (.inl rfl), only_setEntry s tag (fun _ => rfl), ⟨?_, fun x hx => ?_⟩,
    ?_⟩ ?_
  · rw [entry]
    refine (h.items tag).spot.trans ?_
    rw [found]
    rfl
  · obtain rfl := Option.some.inj (entry.symm.trans hx)
    exact ⟨law.travelling, law.taken, law.deadline⟩
  · unfold State.weightAt
    rw [entry]
    show Entry.weight _ ≤ _
    unfold Entry.weight
    dsimp only
    rw [via]
  · unfold State.weightAt
    rw [found]
    exact le_refl _

/-- A leading edge of the exit eye (R56, R57). -/
theorem Closed.exitLeadingEdge (h : Closed True s) : Closed True (exitLeadingEdge s) := by
  unfold Machine.exitLeadingEdge
  split
  · split
    · rename_i e seen
      exact (h.setFlags (entry_of_mem h.base.tags (List.mem_of_find?_eq_some seen))
        (fun f => { f with exitSeen := true }) rfl).closed
    · exact (h.submit _).closed
  · exact h

end Sys2Proof.Machine
end

