-- ==== Sys2Proof/Proofs/Runs.lean ====
section
/-! PROOF. A delivery keeps the law of the items and leaves less to deliver, and a delivery run ends with no watch
reached. -/

namespace Sys2Proof.Machine

variable {s t u : State} {tag : Tag} {e : Entry} {d : Station} {a : Prop} {w : Watch} {rest : List Watch}

/-! ### The first watch leaves the list (R12) -/

/-- A watch that serves an entry of the list is that entry's. -/
theorem Closed.owner (h : Closed a s) (m : w ∈ s.watches) (serves : w.kind.tag? = some tag) :
    ∃ e, s.entry tag = some e ∧ s.watchOf e = some w := by
  have place : s.watches.filter (Watch.serves (some tag)) = (s.spotAt (s.entry tag)).watches :=
    congrArg Spot.watches (h.items tag).spot
  have own : w ∈ (s.spotAt (s.entry tag)).watches :=
    place ▸ List.mem_filter.mpr ⟨m, by simp [Watch.serves, serves]⟩
  cases found : s.entry tag with
  | none =>
    rw [found] at own
    cases own
  | some e =>
    rw [found] at own
    exact ⟨e, rfl, Option.mem_toList.mp own⟩

theorem ListLaw.tail (h : ListLaw a s) (first : s.watches = w :: rest) (serves : w.kind.tag? = some tag) :
    ListLaw a { s with watches := rest } := by
  have sorted := h.sorted
  have slotWatch := h.slotWatch
  rw [first] at sorted slotWatch
  refine ⟨fun v m => h.near v (first ▸ List.mem_cons_of_mem _ m), (List.pairwise_cons.mp sorted).2, ?_,
    fun all v m => h.ahead all v (first ▸ List.mem_cons_of_mem _ m)⟩
  rwa [List.filter_cons, if_neg (by simp [Watch.serves, serves])] at slotWatch

/-- The item whose watch leaves the list is the only one that loses its place. -/
theorem Closed.pop (h : Closed a s) (first : s.watches = w :: rest) (serves : w.kind.tag? = some tag)
    (found : s.entry tag = some e) (held : s.watchOf e = some w) :
    Base a { s with watches := rest } ∧ OnlyItem tag s { s with watches := rest }
      ∧ Unwatched { s with watches := rest } tag e := by
  have base := h.base
  have place := (h.items tag).spot
  rw [found] at place
  have watches : (w :: rest).filter (Watch.serves (some tag)) = [w] := by
    rw [← first]
    exact (congrArg Spot.watches place).trans (congrArg Option.toList held)
  rw [List.filter_cons, if_pos (by simp [Watch.serves, serves])] at watches
  refine ⟨⟨base.tags, ⟨base.count.outstanding, base.count.counted, base.count.uncounted⟩,
    ⟨base.monitor.deadline, base.monitor.chute⟩, ⟨base.belt.excursion, base.belt.active, base.belt.written,
      base.belt.alternates, base.belt.slotLead, base.belt.slotWorks⟩,
    fun x m => ⟨(base.fits x m).alive, (base.fits x m).lead, (base.fits x m).length⟩,
    ⟨base.switches.off, base.switches.closed, base.switches.quiet⟩, base.list.tail first serves⟩,
    ⟨rfl, rfl, fun _ _ => rfl, fun x ne => ?_⟩, ⟨found, ((h.items tag).entry e found).congr rfl, ?_⟩⟩
  · have other : ¬ tag = x := fun c => ne c.symm
    ext1
    · show rest.filter (Watch.serves (some x)) = s.watches.filter (Watch.serves (some x))
      rw [first, List.filter_cons, if_neg (by simp [Watch.serves, serves, other])]
    all_goals rfl
  · obtain ⟨-, pending, push, confirm⟩ := Spot.ext_iff.mp place
    ext1
    · exact (List.cons.inj watches).2
    · exact pending
    · exact push
    · exact confirm

/-! ### The owners of the watches (R10) -/

/-- A delivery to an entry takes at least one delivery off what the entry may ask for. -/
theorem Closed.handle (h : Closed a s) (first : s.watches = w :: rest) (serves : w.kind.tag? = some tag)
    (found : s.entry tag = some e) (held : s.watchOf e = some w) :
    Puts a tag (e.weight - 1) s (handle w.kind { s with watches := rest }) ∧ 0 < e.weight := by
  obtain ⟨base, only, item⟩ := h.pop first serves found held
  have own := tag_of_entry found
  unfold State.watchOf at held
  split at held
  · rename_i state target
    obtain rfl := Option.some.inj held
    have one : e.weight = 1 := by simp [Entry.weight, state, target]
    rw [own, one]
    exact ⟨(Puts.deliverRunoff base item state).after only, Nat.one_pos⟩
  · rename_i d state target
    obtain rfl := Option.some.inj held
    have many : 0 < e.weight := by
      simp only [Entry.weight, state, target]
      split <;> omega
    refine ⟨?_, many⟩
    rw [own]
    unfold Machine.handle deliverFire
    dsimp only
    rw [item.found]
    dsimp only
    rw [target]
    exact (Puts.fireDecision base item state target).after only
  · rename_i d state target
    obtain rfl := Option.some.inj held
    have two : e.weight = 2 := by simp [Entry.weight, state]
    rw [own, two]
    exact ⟨(Puts.deliverLate base item state target).after only, by omega⟩
  · rename_i d state target
    obtain rfl := Option.some.inj held
    have one : e.weight = 1 := by simp [Entry.weight, state]
    rw [own, one]
    exact ⟨(Puts.deliverRelease base item state target).after only, Nat.one_pos⟩
  · cases held

/-- A LENGTH_LIMIT watch stands in the list for an OPEN slot alone (R20). -/
theorem Base.opened (h : Base a s) (m : w ∈ s.watches) (serves : w.kind.tag? = none) :
    ∃ lead refused, s.induction.slot = .opened lead refused := by
  have own : w ∈ s.slotWatch := by
    rw [← h.list.slotWatch]
    exact List.mem_filter.mpr ⟨m, by simp [Watch.serves, serves]⟩
  unfold State.slotWatch at own
  split at own
  · rename_i lead refused slot
    exact ⟨lead, refused, slot⟩
  · cases own

/-- The LENGTH_LIMIT watch is delivered (R24). -/
theorem Closed.deliverLengthLimit (h : Closed a s) (first : s.watches = w :: rest) (serves : w.kind.tag? = none) :
    ∃ v, Admits a v (deliverLengthLimit { s with watches := rest }) ∧ (∀ x, v.weightAt x = s.weightAt x)
      ∧ v.slotWatch = [] ∧ s.slotWatch.length = 1 := by
  obtain ⟨lead, refused, slot⟩ := h.base.opened (first ▸ List.mem_cons_self) serves
  have working := h.base.belt.slotWorks (by rw [slot]; simp)
  have one : s.slotWatch.length = 1 := by
    unfold State.slotWatch
    rw [slot]
    rfl
  obtain ⟨next, hn⟩ : ∃ x, x = if s.induction.eye = .blocked then Slot.closed else .empty := ⟨_, rfl⟩
  have closed : ∀ lead refused, next ≠ .opened lead refused := by
    intro lead refused c
    rw [hn] at c
    split at c <;> cases c
  have left : Closed a (setSlot next { s with watches := rest }) := by
    have all := h.base.list.slotWatch
    rw [first, List.filter_cons, if_pos (by simp [Watch.serves, serves])] at all
    refine h.leaveSlot (first ▸ List.sublist_cons_self w rest) (fun tag => ?_) ?_ closed (fun _ => working)
    · rw [first, List.filter_cons, if_neg (by simp [Watch.serves, serves])]
    · refine List.length_eq_zero_iff.mp ?_
      have := congrArg List.length all
      rw [List.length_cons, one] at this
      omega
  refine ⟨setSlot next { s with watches := rest }, ?_, fun _ => rfl, ?_, one⟩
  · unfold Machine.deliverLengthLimit
    dsimp only
    rw [slot]
    dsimp only
    rw [← hn]
    exact left.offerInterval refused true working (h.base.belt.slotLead lead refused slot)
      h.base.belt.active.maxLength.2
  · unfold State.slotWatch setSlot
    dsimp only
    cases hx : next with
    | opened lead refused => exact absurd hx (closed lead refused)
    | closed => rfl
    | empty => rfl

/-! ### What a run may still have to deliver (entry 18) -/

/-- The deliveries that a run may still have to make: those that the entries may ask for, and two for an OPEN slot,
whose item may be admitted with a RUNOFF watch. -/
def State.demand (s : State) : Nat := 2 * s.slotWatch.length + ∑ i : Fin (2 ^ 16), s.weightAt (BitVec.ofFin i)

theorem slotWatch_congr (config : t.config = s.config) (slot : t.induction.slot = s.induction.slot) :
    t.slotWatch = s.slotWatch := by
  unfold State.slotWatch
  rw [config, slot]

theorem Goes.demand (h : Goes a s t) : t.demand ≤ s.demand := by
  unfold State.demand
  rw [slotWatch_congr h.config h.slot]
  exact Nat.add_le_add_left (Finset.sum_le_sum (fun i _ => h.weight _)) _

/-- A sum over the tags with one term larger by a number. -/
theorem sum_le_add_one {f g : Tag → Nat} (n : Nat) (own : g tag ≤ f tag + n) (others : ∀ x, x ≠ tag → g x ≤ f x) :
    ∑ i : Fin (2 ^ 16), g (BitVec.ofFin i) ≤ ∑ i : Fin (2 ^ 16), f (BitVec.ofFin i) + n := by
  rw [← Finset.add_sum_erase _ _ (Finset.mem_univ tag.toFin), ← Finset.add_sum_erase _ (fun i => f (BitVec.ofFin i))
    (Finset.mem_univ tag.toFin)]
  have rest : ∑ i ∈ Finset.univ.erase tag.toFin, g (BitVec.ofFin i)
      ≤ ∑ i ∈ Finset.univ.erase tag.toFin, f (BitVec.ofFin i) :=
    Finset.sum_le_sum (fun i m => others _ (fun c => Finset.ne_of_mem_erase m (congrArg BitVec.toFin c)))
  have own : g (BitVec.ofFin tag.toFin) ≤ f (BitVec.ofFin tag.toFin) + n := own
  omega

theorem Admits.demand (h : Admits a s t) : t.demand ≤ s.demand + 1 := by
  obtain ⟨tag, own, others⟩ := h.weight
  unfold State.demand
  rw [slotWatch_congr h.config h.slot]
  have := sum_le_add_one 1 own others
  omega

/-- A delivery that the line has reached leaves less to deliver (R12). -/
theorem Closed.deliver (h : Closed a s) (first : s.watches = w :: rest) :
    Closed a (deliver w s) ∧ (deliver w s).demand < s.demand := by
  unfold Machine.deliver
  rw [first, List.tail_cons]
  cases serves : w.kind.tag? with
  | none =>
    have kind : w.kind = .lengthLimit := by
      cases k : w.kind <;> simp_all [WatchKind.tag?]
    obtain ⟨v, admits, weights, gone, one⟩ := h.deliverLengthLimit first serves
    have last := admits.closed.arbitrate
    rw [kind]
    refine ⟨last.closed, lt_of_le_of_lt (last.demand.trans admits.demand) ?_⟩
    unfold State.demand
    rw [gone, one, List.length_nil]
    simp only [weights]
    omega
  | some tag =>
    obtain ⟨e, found, held⟩ := h.owner (first ▸ List.mem_cons_self) serves
    obtain ⟨p, positive⟩ := h.handle first serves found held
    have last := (p.closed (fun x _ => h.items x)).arbitrate
    refine ⟨last.closed, lt_of_le_of_lt last.demand ?_⟩
    unfold State.demand
    rw [slotWatch_congr p.only.config p.only.slot]
    refine Nat.add_lt_add_left (Finset.sum_lt_sum (fun i _ => ?_) ⟨tag.toFin, Finset.mem_univ _, ?_⟩) _
    · by_cases own : BitVec.ofFin i = tag
      · rw [own]
        refine p.weight.trans ?_
        unfold State.weightAt
        rw [found]
        exact Nat.sub_le _ _
      · exact (p.only.weight own).le
    · refine lt_of_le_of_lt p.weight ?_
      unfold State.weightAt
      rw [show s.entry (BitVec.ofFin tag.toFin) = some e from found]
      exact Nat.sub_lt positive Nat.one_pos

/-! ### The run (R12) -/

theorem Closed.working_of_watch (h : Closed a s) (m : w ∈ s.watches) : s.line.state.working = true := by
  cases serves : w.kind.tag? with
  | none =>
    obtain ⟨lead, refused, slot⟩ := h.base.opened m serves
    exact h.base.belt.slotWorks (by rw [slot]; simp)
  | some tag =>
    obtain ⟨e, found, held⟩ := h.owner m serves
    exact (h.base.fits e (mem_of_entry found)).working (states_of_watchOf held).2

theorem Closed.still (h : Closed a s) (ahead : ∀ w ∈ s.watches, reached s.counter.position w.position = false) :
    Closed True s := by
  obtain ⟨⟨tags, count, monitor, belt, fits, switches, list⟩, items⟩ := h
  exact ⟨⟨tags, count, monitor, belt, fits, switches, ⟨list.near, list.sorted, list.slotWatch, fun _ => ahead⟩⟩, items⟩

/-- When the first watch is not due, none is (R12). -/
theorem Closed.idle (h : Closed a s) (none : s.dueWatch = none) : Closed True s := by
  refine h.still (fun v m => ?_)
  obtain ⟨x, at_x, -, -⟩ := h.base.belt.near_position (h.working_of_watch m)
  cases first : s.watches with
  | nil =>
    rw [first] at m
    cases m
  | cons w rest =>
    have later : reached s.counter.position w.position = false := by
      unfold State.dueWatch at none
      rw [first] at none
      simpa using none
    have sorted := h.base.list.sorted
    rw [first] at sorted m
    obtain rfl | m := List.mem_cons.mp m
    · exact later
    · have after := (List.pairwise_cons.mp sorted).1 v m
      obtain ⟨y, at_w⟩ := h.base.list.near w (first ▸ List.mem_cons_self)
      obtain ⟨z, at_v⟩ := h.base.list.near v (first ▸ List.mem_cons_of_mem _ m)
      rw [at_x.reached at_w, decide_eq_false_iff_not] at later
      rw [at_v.reached at_w, decide_eq_true_eq] at after
      rw [at_x.reached at_v, decide_eq_false_iff_not]
      omega

theorem dueWatch_first (due : s.dueWatch = some w) : ∃ rest, s.watches = w :: rest := by
  unfold State.dueWatch at due
  split at due
  · rename_i v rest first
    split at due
    · exact ⟨rest, (Option.some.inj due) ▸ first⟩
    · cases due
  · cases due

/-- A run with enough deliveries ends with no watch reached. -/
theorem Closed.deliveryRun (n : Nat) (h : Closed False s) (enough : s.demand ≤ n) : Closed True (deliveryRun n s) := by
  induction n generalizing s with
  | zero =>
    cases due : s.dueWatch with
    | none => exact h.idle due
    | some w =>
      obtain ⟨rest, first⟩ := dueWatch_first due
      have less := (h.deliver first).2
      omega
  | succ n ih =>
    unfold Machine.deliveryRun
    split
    · rename_i w due
      obtain ⟨rest, first⟩ := dueWatch_first due
      obtain ⟨next, less⟩ := h.deliver first
      exact ih next (by omega)
    · rename_i due
      exact h.idle due

/-- An entry asks for at most four deliveries, and for none without a watch. -/
theorem weight_le (law : EntryLaw s e) : e.weight ≤ 4 * (s.watchOf e).toList.length := by
  have taken := law.taken
  unfold Entry.weight State.watchOf
  cases state : e.state <;> cases target : e.target <;> simp_all
  split <;> omega

/-- The watches that serve each tag, and those that serve none, are all watches. -/
theorem sum_serves (l : List Watch) :
    ∑ i : Fin (2 ^ 16), (l.filter (Watch.serves (some (BitVec.ofFin i)))).length
      + (l.filter (Watch.serves none)).length = l.length := by
  induction l with
  | nil => simp
  | cons w l ih =>
    have one : ∑ i : Fin (2 ^ 16), (Watch.serves (some (BitVec.ofFin i)) w).toNat + (Watch.serves none w).toNat
        = 1 := by
      cases serves : w.kind.tag? with
      | none => simp [Watch.serves, serves]
      | some tag =>
        rw [Finset.sum_eq_single tag.toFin]
        · simp [Watch.serves, serves]
        · intro i _ ne
          have : ¬ tag = BitVec.ofFin i := fun c => ne (congrArg BitVec.toFin c).symm
          simp [Watch.serves, serves, this]
        · intro c
          exact absurd (Finset.mem_univ _) c
    have step (k : Option Tag) : ((w :: l).filter (Watch.serves k)).length
        = (l.filter (Watch.serves k)).length + (Watch.serves k w).toNat := by
      rw [List.filter_cons]
      cases Watch.serves k w <;> rfl
    simp only [step, Finset.sum_add_distrib, List.length_cons]
    omega

/-- The bound of a run is enough (entry 18). -/
theorem Closed.demand_le (h : Closed a s) : s.demand ≤ s.runBound := by
  have each (x : Tag) : s.weightAt x ≤ 4 * (s.watches.filter (Watch.serves (some x))).length := by
    rw [show s.watches.filter (Watch.serves (some x)) = (s.spotAt (s.entry x)).watches from
      congrArg Spot.watches (h.items x).spot]
    unfold State.weightAt
    cases found : s.entry x with
    | none => exact Nat.zero_le _
    | some e => exact weight_le ((h.items x).entry e found)
  have all := Finset.sum_le_sum (s := Finset.univ) (fun (i : Fin (2 ^ 16)) _ => each (BitVec.ofFin i))
  rw [← Finset.mul_sum] at all
  have total := sum_serves s.watches
  have slot := congrArg List.length h.base.list.slotWatch
  unfold State.demand State.runBound
  omega

theorem Closed.runDeliveries (h : Closed False s) : Closed True (runDeliveries s) := h.deliveryRun _ h.demand_le

/-- Between events no watch is due: a named delivery finds nothing to do. -/
theorem Closed.deliverNamed (h : Closed True s) (k : WatchKind) : Closed True (deliverNamed k s) := by
  unfold Machine.deliverNamed
  split
  · rename_i w due
    unfold State.dueWatch at due
    split at due
    · rename_i v rest first
      rw [h.base.list.ahead trivial v (first ▸ List.mem_cons_self)] at due
      cases due
    · cases due
  · exact h

end Sys2Proof.Machine
end

