-- ==== Sys2Proof/Proofs/Belt.lean ====
section
/-! PROOF. Ticks, halts, the drain test and the changes of the line state keep the law of the items. -/

namespace Sys2Proof.Machine

variable {s t u : State} {tag : Tag} {e : Entry} {d : Station} {a b : Prop} {w : Watch}

/-! ### The counter moves (R4, R5) -/

/-- The induction watch of an OPEN slot that began behind the high-water mark is near it. -/
theorem near_slotWatch (active : s.config.Bounded) {origin : Position}
    (lead : ∀ lead refused, s.induction.slot = .opened lead refused → Behind origin lead) (m : w ∈ s.slotWatch) :
    ∃ z, Near origin w.position z := by
  unfold State.slotWatch at m
  split at m
  · rename_i lead' refused slot
    obtain rfl := List.mem_singleton.mp m
    obtain ⟨z, near, low, high⟩ := near_of_behind (lead lead' refused slot)
    have few := active.maxLength.2
    exact ⟨_, near.add _ (by omega)⟩
  · cases m

/-- The counter moves, with what that needs of the distances. -/
theorem Closed.move (h : Closed a s) (k : PositionCounter)
    (excursion : s.line.state.working = true → (k.highWater - k.position).toNat ≤ s.config.line.reverseTolerance)
    (slot : ∀ lead refused, s.induction.slot = .opened lead refused → Behind k.highWater lead)
    (leads : ∀ e ∈ s.table, e.state ≠ .confirming → e.state ≠ .frozen → Behind k.highWater e.lead)
    (ahead : b → ∀ w ∈ s.watches, reached k.position w.position = false) : Closed b { s with counter := k } := by
  have base := h.base
  refine ⟨⟨base.tags, ⟨base.count.outstanding, base.count.counted, base.count.uncounted⟩,
    ⟨base.monitor.deadline, base.monitor.chute⟩, ⟨excursion, base.belt.active, base.belt.written,
      base.belt.alternates, slot, base.belt.slotWorks⟩,
    fun x m => ⟨(base.fits x m).alive, leads x m, (base.fits x m).length⟩,
    ⟨base.switches.off, base.switches.closed, base.switches.quiet⟩,
    ⟨fun w m => ?_, base.list.sorted, base.list.slotWatch, ahead⟩⟩, fun tag => (h.items tag).congr rfl rfl rfl⟩
  have m : w ∈ s.watches := m
  cases serves : w.kind.tag? with
  | none =>
    refine near_slotWatch (s := s) base.belt.active slot ?_
    rw [← base.list.slotWatch]
    exact List.mem_filter.mpr ⟨m, by simp [Watch.serves, serves]⟩
  | some tag =>
    obtain ⟨e, found, held⟩ := h.owner m serves
    have m := mem_of_entry found
    obtain ⟨confirming, frozen⟩ := states_of_watchOf held
    obtain ⟨z, near, low, high⟩ := near_of_behind (leads e m confirming frozen)
    obtain ⟨y, at_y, -⟩ := near_watchOf base.belt.active near low high (base.fits e m).length held
    exact ⟨y, at_y⟩

/-- The counter changes, but not the positions. -/
theorem Closed.recount (h : Closed a s) {k : PositionCounter} (position : k.position = s.counter.position)
    (highWater : k.highWater = s.counter.highWater) : Closed a { s with counter := k } := by
  refine h.move k ?_ ?_ (fun e m => ?_) ?_ <;> simp only [position, highWater]
  · exact h.base.belt.excursion
  · exact h.base.belt.slotLead
  · exact (h.base.fits e m).lead
  · exact h.base.list.ahead

theorem Closed.standstillTick (h : Closed a s) : Closed a (standstillTick s) := by
  unfold Machine.standstillTick
  split
  · exact h
  · have moved : Closed a { s with counter := { s.counter with
        belt := .moving, standstill := timerFor s.config.line.standstillTime s } } := h.recount rfl rfl
    dsimp only
    split
    · exact (moved.submit _).closed
    · exact moved

theorem Closed.standstillExpiry (h : Closed a s) : Closed a (standstillExpiry s) := by
  unfold Machine.standstillExpiry
  split
  · have stopped : Closed a { s with counter := { s.counter with belt := .stopped, standstill := none } } :=
      h.recount rfl rfl
    exact (stopped.submit _).closed
  · exact h

/-! ### Forward (R4, R5, R12) -/

theorem behind_of_near {o q : Position} {z : Int} (h : Near o q z) (low : -4194304 ≤ z) (high : z ≤ 0) :
    Behind o q := by
  obtain ⟨rfl, -, -⟩ := h
  have back : o - (o + BitVec.ofInt 32 z) = BitVec.ofInt 32 (-z) := by
    rw [BitVec.ofInt_neg]
    bv_omega
  unfold Behind
  rw [back, BitVec.toInt_ofInt, Int.bmod_eq_of_le (by omega) (by omega)]
  omega

theorem Near.next {o q : Position} {z : Int} (h : Near o q z) (room : -4194304 ≤ z) : Near (o + 1) q (z - 1) := by
  obtain ⟨rfl, low, high⟩ := h
  refine ⟨?_, by omega, by omega⟩
  rw [← ofInt_sub_ofInt]
  bv_omega

/-- What a forward tick does to the counter of a working line: on its high-water mark the line takes it along, and
else it catches up (R5). -/
theorem forward_cases {k : PositionCounter} {x : Int} (h : Near k.highWater k.position x) (behind : x ≤ 0) :
    x = 0 ∧ k.forward.position = k.highWater + 1 ∧ k.forward.highWater = k.highWater + 1
      ∨ x < 0 ∧ k.forward.highWater = k.highWater ∧ Near k.highWater k.forward.position (x + 1) := by
  obtain ⟨at_x, low, high⟩ := h
  have gained : k.position + 1 - k.highWater = BitVec.ofInt 32 (x + 1) := by
    rw [at_x, BitVec.ofInt_add]
    bv_omega
  have signed : (k.position + 1 - k.highWater).toInt = x + 1 := by
    rw [gained, BitVec.toInt_ofInt, Int.bmod_eq_of_le (by omega) (by omega)]
  unfold PositionCounter.forward
  dsimp only
  rw [signed]
  by_cases front : x = 0
  · subst front
    refine .inl ⟨rfl, ?_, ?_⟩
    · rw [at_x]
      simp
    · rw [if_pos (by omega), at_x]
      simp
  · refine .inr ⟨by omega, if_neg (by omega), ?_, by omega, by omega⟩
    rw [← gained]
    bv_omega

/-- The lead of an item with a watch ahead of the line is not far behind it. -/
theorem Closed.lead_near (h : Closed True s) (m : e ∈ s.table) (confirming : e.state ≠ .confirming)
    (frozen : e.state ≠ .frozen) : ∃ z, Near s.counter.highWater e.lead z ∧ -1183740 ≤ z ∧ z ≤ 0 := by
  have base := h.base
  have fits := base.fits e m
  have found := entry_of_mem base.tags m
  have law := (h.items e.tag).entry e found
  obtain ⟨w, held⟩ := Option.isSome_iff_exists.mp
    ((watchOf_isSome (s := s) (fun c => (law.taken c).imp (fun _ k => k.1))).mpr ⟨confirming, frozen⟩)
  have member : w ∈ s.watches := by
    refine List.mem_of_mem_filter (p := Watch.serves (some e.tag)) ?_
    rw [show s.watches.filter (Watch.serves (some e.tag)) = (s.spotAt (s.entry e.tag)).watches from
      congrArg Spot.watches (h.items e.tag).spot, found]
    exact Option.mem_toList.mpr held
  obtain ⟨z, near, low, high⟩ := near_of_behind (fits.lead confirming frozen)
  obtain ⟨y, at_y, within⟩ := near_watchOf base.belt.active near low high fits.length held
  obtain ⟨x, at_x, far, -⟩ := base.belt.near_position (fits.working frozen)
  have ahead := base.list.ahead trivial w member
  rw [at_x.reached at_y, decide_eq_false_iff_not] at ahead
  exact ⟨z, near, by omega, high⟩

/-- A forward tick moves the line; watches may now be due. -/
theorem Closed.forward (h : Closed True s) : Closed False { s with counter := s.counter.forward } := by
  have base := h.base
  by_cases working : s.line.state.working = true
  · obtain ⟨x, at_x, low, high⟩ := base.belt.near_position working
    have back {q : Position} {z : Int} (near : Near s.counter.highWater q z) (far : -4194303 ≤ z) (z0 : z ≤ 0) :
        Behind s.counter.forward.highWater q := by
      rcases forward_cases at_x high with ⟨-, -, hw⟩ | ⟨-, hw, -⟩ <;> rw [hw]
      · exact behind_of_near (near.next (by omega)) (by omega) (by omega)
      · exact behind_of_near near (by omega) z0
    refine h.move _ (fun _ => ?_) (fun lead refused slot => ?_) (fun e m confirming frozen => ?_) False.elim
    · have within := base.belt.excursion working
      rcases forward_cases at_x high with ⟨-, position, hw⟩ | ⟨less, hw, -⟩
      · rw [hw, position]
        simp
      · have ne : s.counter.position ≠ s.counter.highWater := by
          intro c
          have self : Near s.counter.highWater s.counter.position 0 := ⟨by rw [c]; simp, by omega, by omega⟩
          have := at_x.reached self
          rw [self.reached self] at this
          simp at this
          omega
        rw [hw]
        show (s.counter.highWater - (s.counter.position + 1)).toNat ≤ _
        bv_omega
    · obtain ⟨x', z, at_x', at_z, far, -, -, z0, before⟩ := base.before_lengthLimit slot
      have few := base.belt.active.maxLength.2
      exact back at_z (by omega) z0
    · obtain ⟨z, at_z, far, z0⟩ := h.lead_near m confirming frozen
      exact back at_z (by omega) z0
  · refine h.move _ (fun c => absurd c working) (fun lead refused slot => ?_) (fun e m _ frozen => ?_) False.elim
    · exact absurd (base.belt.slotWorks (by rw [slot]; simp)) working
    · exact absurd ((base.fits e m).working frozen) working

/-! ### An empty line -/

/-- No watch, no measurement, and nothing in a list of a diverter or monitor. -/
structure Resting (s : State) : Prop where
  watches : s.watches = []
  slot : s.induction.slot = .empty
  lists : ∀ d, (s.diverter d).pending = [] ∧ (s.diverter d).push = [] ∧ (s.monitor d).confirm = []

theorem Resting.spot (h : Resting s) (tag : Tag) : s.spot tag = .nowhere := by
  unfold State.spot
  ext1
  · dsimp only
    rw [h.watches]
    rfl
  · funext d
    dsimp only
    rw [(h.lists d).1]
    rfl
  · funext d
    dsimp only
    rw [(h.lists d).2.1]
    rfl
  · funext d
    dsimp only
    rw [(h.lists d).2.2]
    rfl

/-- When no item has a place, the lists are empty. -/
theorem lists_of_nowhere (h : ∀ tag, s.spot tag = .nowhere) (d : Station) :
    (s.diverter d).pending = [] ∧ (s.diverter d).push = [] ∧ (s.monitor d).confirm = [] := by
  refine ⟨?_, ?_, ?_⟩ <;> rw [List.eq_nil_iff_forall_not_mem] <;> intro tag <;> refine List.count_eq_zero.mp ?_
  · exact congrFun (congrArg Spot.pending (h tag)) d
  · exact congrFun (congrArg Spot.push (h tag)) d
  · exact congrFun (congrArg Spot.confirm (h tag)) d

theorem watches_of_nowhere (h : ∀ tag, s.spot tag = .nowhere) (none : s.watches.filter (Watch.serves none) = []) :
    s.watches = [] := by
  rw [List.eq_nil_iff_forall_not_mem]
  intro w m
  have own : w ∈ s.watches.filter (Watch.serves w.kind.tag?) := List.mem_filter.mpr ⟨m, by simp [Watch.serves]⟩
  cases serves : w.kind.tag? with
  | none =>
    rw [serves, none] at own
    cases own
  | some tag =>
    rw [serves, show s.watches.filter (Watch.serves (some tag)) = [] from congrArg Spot.watches (h tag)] at own
    cases own

/-- A FROZEN item has no place. -/
theorem spotOf_frozen (state : e.state = .frozen) : s.spotOf e = .nowhere := by
  ext1
  · unfold State.spotOf State.watchOf
    rw [state]
    rfl
  all_goals exact holds_other (by simp [state])

/-- A line that does not work is at rest. -/
theorem Closed.resting (h : Closed a s) (off : s.line.state.working = false) : Resting s := by
  have slot : s.induction.slot = .empty := by
    by_contra c
    rw [h.base.belt.slotWorks c] at off
    cases off
  have spots (tag : Tag) : s.spot tag = .nowhere := by
    rw [(h.items tag).spot]
    cases found : s.entry tag with
    | none => rfl
    | some e =>
      have frozen : e.state = .frozen := by
        rcases (h.base.fits e (mem_of_entry found)).alive with ⟨frozen, -⟩ | ⟨-, working⟩
        · exact frozen
        · rw [off] at working
          cases working
      exact spotOf_frozen frozen
  refine ⟨watches_of_nowhere spots ?_, slot, lists_of_nowhere spots⟩
  rw [h.base.list.slotWatch]
  unfold State.slotWatch
  rw [slot]

/-- A line in IDLE or READY holds no entry. -/
theorem Base.table_nil (h : Base a s) (off : s.line.state.working = false) (line : s.line.state ≠ .halted) :
    s.table = [] := by
  rw [List.eq_nil_iff_forall_not_mem]
  intro e m
  rcases (h.fits e m).alive with ⟨-, halted⟩ | ⟨-, working⟩
  · exact line halted
  · rw [off] at working
    cases working

/-- The law of an empty line. -/
theorem Resting.closed (h : Resting s) (table : s.table = []) (tags : TagLaw s) (count : CountLaw s)
    (monitor : MonitorLaw s) (belt : BeltLaw s) (switches : SwitchLaw s) : Closed True s := by
  have gone (tag : Tag) : s.entry tag = none := by
    unfold State.entry
    rw [table]
    rfl
  refine ⟨⟨tags, count, monitor, belt, by simp [table], switches, ⟨by simp [h.watches], by simp [h.watches], ?_,
    by simp [h.watches]⟩⟩, fun tag => ⟨?_, fun e found => ?_⟩⟩
  · unfold State.slotWatch
    rw [h.watches, h.slot]
    rfl
  · rw [h.spot, gone]
    rfl
  · rw [gone] at found
    cases found

/-- An empty line takes another line state or counter. -/
theorem Closed.restart (h : Closed a s) (rest : Resting s) (table : s.table = []) (l : LineController)
    (k : PositionCounter) (excursion : l.state.working = true →
      (k.highWater - k.position).toNat ≤ s.config.line.reverseTolerance) :
    Closed True { s with line := l, counter := k } := by
  obtain ⟨tags, count, monitor, belt, -, switches, -⟩ := h.base
  refine Resting.closed ⟨rest.watches, rest.slot, rest.lists⟩ table tags
    ⟨count.outstanding, count.counted, count.uncounted⟩ ⟨monitor.deadline, monitor.chute⟩
    ⟨excursion, belt.active, belt.written, belt.alternates, fun lead refused c => ?_, fun c => absurd rest.slot c⟩
    ⟨switches.off, switches.closed, switches.quiet⟩
  exact absurd (rest.slot.symm.trans c) (by simp)

/-! ### Drain completion (R123) -/

theorem Closed.evaluateHold (h : Closed a s) : Goes a s (evaluateHold s) :=
  h.rest (work_evaluateHold s) rfl rfl rfl rfl rfl rfl rfl

/-- The drain test keeps the law. -/
theorem Closed.drainTest (h : Closed True s) : Closed True (drainTest s) := by
  by_cases drained : s.isDrained
  · rw [drainTest_drained drained]
    obtain ⟨-, table, -⟩ := drained
    obtain ⟨tags, count, monitor, belt, -, switches, -⟩ := h.base
    have spots (tag : Tag) : s.spot tag = .nowhere := by
      rw [(h.items tag).spot]
      unfold State.entry
      rw [table]
      rfl
    have watches : s.watches.filter (fun w => w.kind != .lengthLimit) = [] := by
      rw [List.filter_eq_nil_iff]
      intro w m
      cases serves : w.kind.tag? with
      | none => cases kind : w.kind <;> simp_all [WatchKind.tag?]
      | some tag =>
        have own : w ∈ (s.spot tag).watches := List.mem_filter.mpr ⟨m, by simp [Watch.serves, serves]⟩
        rw [spots] at own
        cases own
    refine (Closed.submit ?_ _).closed
    exact Resting.closed ⟨watches, rfl, lists_of_nowhere (s := s) spots⟩ table tags
      ⟨count.outstanding, count.counted, count.uncounted⟩ ⟨monitor.deadline, monitor.chute⟩
      ⟨fun c => (by cases c), belt.active, belt.written, belt.alternates, fun lead refused c => (by cases c),
        fun c => absurd rfl c⟩ ⟨switches.off, switches.closed, switches.quiet⟩
  · rw [drainTest_not drained]
    exact h

theorem Closed.settle (h : Closed True s) : Closed True (settle s) := h.arbitrate.closed.drainTest

/-- A forward tick (R4, R12). -/
theorem Closed.forwardTick (h : Closed True s) : Closed True (forwardTick s) :=
  h.forward.standstillTick.runDeliveries.drainTest

/-! ### Halts (R125) -/

section

variable (c : HaltCause) (s : State)

theorem diverter_freeze (d : Station) : (freeze c s).diverter d = (s.diverter d).atHalt := by
  simp [freeze, State.diverter, Machine.evaluateHold, setSlot, setLine]

theorem monitor_freeze (d : Station) : (freeze c s).monitor d = (s.monitor d).atHalt := by
  simp [freeze, State.monitor, Machine.evaluateHold, setSlot, setLine]

theorem waits_freeze (d : Station) : (freeze c s).waits d = false := by
  simp [freeze, State.waits, Machine.evaluateHold, setSlot, setLine]

theorem entry_freeze (x : Tag) : (freeze c s).entry x = (s.entry x).map Entry.atHalt := by
  unfold State.entry
  rw [show (freeze c s).table = s.table.map Entry.atHalt from rfl, List.find?_map]
  rfl

theorem resting_freeze : Resting (freeze c s) := by
  refine ⟨rfl, rfl, fun d => ?_⟩
  rw [diverter_freeze, monitor_freeze]
  exact ⟨rfl, rfl, rfl⟩

theorem tags_freeze (h : TagLaw s) : TagLaw (freeze c s) := by
  obtain ⟨few, distinct, nonzero, next⟩ := h
  have table : (freeze c s).table = s.table.map Entry.atHalt := rfl
  refine ⟨by simpa [table] using few, ?_, fun x m => ?_, next⟩
  · simpa [table, List.map_map, Function.comp_def, Entry.atHalt] using distinct
  · rw [table] at m
    obtain ⟨e, member, rfl⟩ := List.mem_map.mp m
    exact nonzero e member

theorem count_freeze (h : CountLaw s) : CountLaw (freeze c s) := by
  refine ⟨fun d => (h.outstanding d).trans ?_, h.counted, h.uncounted⟩
  unfold State.reservedAt
  rw [show (freeze c s).table = s.table.map Entry.atHalt from rfl, List.countP_map]
  rfl

theorem switches_freeze (h : SwitchLaw s) : SwitchLaw (freeze c s) := by
  refine ⟨fun d => ?_, fun d => ?_, fun d _ => ⟨((resting_freeze c s).lists d).2.1, waits_freeze c s d⟩⟩
  · rw [diverter_freeze]
    refine Iff.trans ?_ (h.off d)
    show (if (s.diverter d).state = .off then DiverterState.off else .idle) = .off ↔ _
    split
    · simp [*]
    · simp [*]
  · rw [diverter_freeze]
    exact h.closed d

end

/-- A frozen line keeps the law, whatever its counter shows. -/
theorem Closed.freeze (h : Closed a s) (c : HaltCause) (k : PositionCounter) (l : LinkUnit) (q : ReportQueue) :
    Closed True (freeze c { s with counter := k, link := l, queue := q }) := by
  obtain ⟨tags, count, monitor, belt, fits, switches, -⟩ := h.base
  obtain ⟨v, hv⟩ : ∃ v, v = { s with counter := k, link := l, queue := q } := ⟨_, rfl⟩
  have rest := resting_freeze c v
  have entry (x : Tag) : (Machine.freeze c v).entry x = (s.entry x).map Entry.atHalt := by
    rw [entry_freeze, hv]
    rfl
  rw [← hv]
  refine ⟨⟨tags_freeze c v (by rw [hv]; exact tags),
    count_freeze c v (by rw [hv]; exact ⟨count.outstanding, count.counted, count.uncounted⟩),
    ⟨fun d => ?_, fun d => ?_⟩, ⟨fun w => (by cases w), by rw [hv]; exact belt.active, by rw [hv]; exact belt.written,
      by rw [hv]; exact belt.alternates, fun lead refused c => (by cases c), fun c => absurd rfl c⟩, fun x m => ?_,
    switches_freeze c v (by rw [hv]; exact ⟨switches.off, switches.closed, switches.quiet⟩),
    ⟨by simp [rest.watches], by simp [rest.watches], rfl, by simp [rest.watches]⟩⟩,
    fun tag => ⟨?_, fun x found => ?_⟩⟩
  · rw [monitor_freeze]
    rfl
  · rw [monitor_freeze, hv]
    exact monitor.chute d
  · rw [show (Machine.freeze c v).table = s.table.map Entry.atHalt by rw [hv]; rfl] at m
    obtain ⟨e, member, rfl⟩ := List.mem_map.mp m
    exact ⟨.inl ⟨rfl, rfl⟩, fun _ c => absurd rfl c, (fits e member).length⟩
  · rw [rest.spot, entry]
    cases s.entry tag with
    | none => rfl
    | some e => exact (spotOf_frozen rfl).symm
  · rw [entry] at found
    obtain ⟨e, -, rfl⟩ := Option.map_eq_some_iff.mp found
    exact ⟨fun c => (by cases c), fun c => (by simp [Entry.atHalt] at c), by simp [Entry.atHalt]⟩

theorem Closed.haltLine (h : Closed a s) (c : HaltCause) (k : PositionCounter) (l : LinkUnit) (q : ReportQueue) :
    Closed True (haltLine c { s with counter := k, link := l, queue := q }) :=
  ((h.freeze c k l q).submit _).closed

theorem Closed.requestHalt (h : Closed True s) (c : HaltCause) : Closed True (requestHalt c s) := by
  unfold Machine.requestHalt
  split
  · exact h.haltLine c s.counter s.link s.queue
  · exact h

/-! ### Reverse (R4, R6) -/

theorem standstillTick_spec (s : State) : ∃ k l q, standstillTick s = { s with counter := k, link := l, queue := q }
    ∧ k.position = s.counter.position ∧ k.highWater = s.counter.highWater := by
  unfold standstillTick
  split
  · exact ⟨s.counter, s.link, s.queue, rfl, rfl, rfl⟩
  · dsimp only
    split
    · unfold submit
      rcases startNext_cases { s with
        counter := { s.counter with belt := .moving, standstill := timerFor s.config.line.standstillTime s },
        queue := s.queue.offer (.belt .moving) s.timeStamp s.counter.position } with c | ⟨_, _, _, c⟩ | ⟨_, _, _, _, c⟩
      all_goals exact ⟨_, _, _, c, rfl, rfl⟩
    · exact ⟨_, s.link, s.queue, rfl, rfl, rfl⟩

/-- A reverse tick within the tolerance leaves every watch ahead. -/
theorem Closed.backward (h : Closed True s)
    (within : s.line.state.working = true → excursion s.counter.backward ≤ s.config.line.reverseTolerance) :
    Closed True { s with counter := s.counter.backward } := by
  refine h.move _ within h.base.belt.slotLead (fun e m => (h.base.fits e m).lead) (fun _ w m => ?_)
  obtain ⟨x, at_x, low, -⟩ := h.base.belt.near_position (h.working_of_watch m)
  obtain ⟨z, at_w⟩ := h.base.list.near w m
  have ahead := h.base.list.ahead trivial w m
  have back := at_x.sub 1 (by omega)
  rw [at_x.reached at_w, decide_eq_false_iff_not] at ahead
  exact (back.reached at_w).trans (decide_eq_false_iff_not.mpr (by omega))

/-- A reverse tick (R4, R6). -/
theorem Closed.reverseTick (h : Closed True s) : Closed True (reverseTick s) := by
  obtain ⟨k, l, q, run, position, highWater⟩ := standstillTick_spec { s with counter := s.counter.backward }
  have same : excursion k = excursion s.counter.backward := by
    unfold excursion
    rw [position, highWater]
  by_cases halts : s.line.state.working = true ∧ s.config.line.reverseTolerance < excursion k
  · unfold Machine.reverseTick reverseTest Machine.requestHalt
    rw [run, if_pos halts.2, if_pos halts.1]
    exact h.haltLine .reverse k l q
  · have moved := (h.backward (fun working => by
      rw [← same]
      exact Nat.not_lt.mp (fun c => halts ⟨working, c⟩))).standstillTick
    have stays : Machine.reverseTick s = Machine.standstillTick { s with counter := s.counter.backward } := by
      unfold Machine.reverseTick reverseTest Machine.requestHalt
      rw [run]
      split
      · rename_i beyond
        exact if_neg (fun working => halts ⟨working, beyond⟩)
      · rfl
    rw [stays]
    exact moved

/-! ### Other events of the belt -/

/-- An illegal transition (R7). -/
theorem Closed.illegalTransition (h : Closed True s) : Closed True (illegalTransition s) := by
  have moved : Closed True { s with counter := s.counter.illegal } := h.recount rfl rfl
  unfold Machine.illegalTransition
  dsimp only
  split
  · exact moved
  · exact moved.requestHalt .encoder

/-- The line controller changes, but not the line state. -/
theorem Closed.relabel (h : Closed a s) {l : LineController} (state : l.state = s.line.state) :
    Closed a { s with line := l } := by
  obtain ⟨tags, count, monitor, belt, fits, switches, list⟩ := h.base
  refine ⟨⟨tags, ⟨count.outstanding, count.counted, count.uncounted⟩, ⟨monitor.deadline, monitor.chute⟩,
    ⟨fun w => belt.excursion (state ▸ w), belt.active, belt.written, belt.alternates, belt.slotLead,
      fun c => state.symm ▸ belt.slotWorks c⟩, fun x m => ⟨?_, (fits x m).lead, (fits x m).length⟩,
    ⟨switches.off, switches.closed, switches.quiet⟩, ⟨list.near, list.sorted, list.slotWatch, list.ahead⟩⟩,
    fun tag => (h.items tag).congr rfl rfl rfl⟩
  show _ ∧ l.state = _ ∨ _ ∧ l.state.working = true
  rw [state]
  exact (fits x m).alive

/-- A change of the line stop level (R118). -/
theorem Closed.lineStopChange (h : Closed True s) (level : StopLevel) : Closed True (lineStopChange level s) := by
  have moved : Closed True { s with line := { s.line with lineStop := level } } := h.relabel rfl
  unfold Machine.lineStopChange
  split
  · exact h
  · dsimp only
    split
    · exact moved.requestHalt .lineStop
    · exact moved

end Sys2Proof.Machine
end

