-- ==== Sys2Proof/Proofs/LineOrders.lean ====
section
/-! PROOF. The orders and resets that act on a line without items, and the change from RUNNING to DRAINING, keep the
law of the items. -/

namespace Sys2Proof.Machine

variable {s t u : State} {tag : Tag} {e : Entry} {d : Station} {a : Prop}

/-! ### STRT and STOP (R121, R122) -/

/-- STRT starts an empty line (R121). -/
theorem Closed.startLine (h : Closed True s) (may : s.mayStart = true) : Closed True (startLine s) := by
  unfold State.mayStart at may
  simp only [Bool.and_eq_true, beq_iff_eq] at may
  obtain ⟨⟨⟨ready, -⟩, -⟩, -⟩ := may
  have off : s.line.state.working = false := by rw [ready]; rfl
  have rest := h.resting off
  have table := h.base.table_nil off (by simp [ready])
  have started : Closed True { s with
      line := { s.line with state := .running, haltCause := s.line.haltCause, runPermit := true }
      counter := { s.counter with highWater := s.counter.position } } :=
    h.restart rest table _ _ (fun _ => by simp)
  exact (((started.rest (work_lastTrailing _ none) rfl rfl rfl rfl rfl rfl rfl).closed.evaluateHold).closed.submit
    _).closed

/-- A running line drains (R122). -/
theorem Closed.beginDrain (h : Closed True s) (running : s.line.state = .running) : Closed True (beginDrain s) := by
  obtain ⟨tags, count, monitor, belt, fits, switches, list⟩ := h.base
  have working : s.line.state.working = true := by rw [running]; rfl
  have draining : Closed True (setLine .draining s.line.haltCause s.line.runPermit s) := by
    refine ⟨⟨tags, ⟨count.outstanding, count.counted, count.uncounted⟩, ⟨monitor.deadline, monitor.chute⟩,
      ⟨fun _ => belt.excursion working, belt.active, belt.written, belt.alternates, belt.slotLead, fun _ => rfl⟩,
      fun x m => ⟨?_, (fits x m).lead, (fits x m).length⟩, ⟨switches.off, switches.closed, switches.quiet⟩,
      ⟨list.near, list.sorted, list.slotWatch, list.ahead⟩⟩, fun tag => (h.items tag).congr rfl rfl rfl⟩
    rcases (fits x m).alive with ⟨-, halted⟩ | ⟨alive, -⟩
    · rw [running] at halted
      cases halted
    · exact .inr ⟨alive, rfl⟩
  exact (draining.evaluateHold.closed.submit _).closed

/-! ### CLR (R61, R127) -/

theorem Closed.no_deadline (h : Closed a s) (rest : Resting s) (d : Station) : (s.monitor d).deadlineTimer = none := by
  rw [h.base.monitor.deadline, (rest.lists d).2.2]
  rfl

/-- The return of the units of many tags moves no item. -/
theorem returned_spec (l : List Tag) (h : Base a s) :
    Base a (l.foldl (fun t tag => returnUnit tag t) s)
      ∧ (∀ x, (l.foldl (fun t tag => returnUnit tag t) s).spot x = s.spot x)
      ∧ (l.foldl (fun t tag => returnUnit tag t) s).induction.slot = s.induction.slot
      ∧ ∀ x, (l.foldl (fun t tag => returnUnit tag t) s).entry x
        = (s.entry x).map (fun e => if x ∈ l then { e with reservedWith := none } else e) := by
  induction l generalizing s with
  | nil => exact ⟨h, fun _ => rfl, rfl, fun x => by simp⟩
  | cons tag rest ih =>
    rw [List.foldl_cons]
    cases found : s.entry tag with
    | none =>
      have idle : returnUnit tag s = s := by
        unfold returnUnit
        rw [found]
        rfl
      rw [idle]
      obtain ⟨base, spot, slot, entry⟩ := ih h
      refine ⟨base, spot, slot, fun x => (entry x).trans ?_⟩
      by_cases own : x = tag
      · rw [own, found]
        rfl
      · simp [own]
    | some e =>
      obtain ⟨base, only, own, place⟩ := returnUnit_spec h found
      obtain ⟨base, spot, slot, entry⟩ := ih base
      refine ⟨base, fun x => (spot x).trans ?_, slot.trans only.slot, fun x => (entry x).trans ?_⟩
      · by_cases self : x = tag
        · rw [self, place]
        · exact only.spot x self
      · by_cases self : x = tag
        · rw [self, own, found]
          simp
        · rw [only.entry x self]
          simp [self]

/-- When every entry has returned its unit, no unit is outstanding. -/
theorem Base.reserved_none (h : Base a s) (none : ∀ x e, s.entry x = some e → e.reservedWith = none) (d : Station) :
    (s.destination d).outstanding = 0 := by
  refine (h.count.outstanding d).trans ?_
  unfold State.reservedAt
  rw [List.countP_eq_zero]
  intro e m
  simp [none e.tag e (entry_of_mem h.tags m)]

/-- The work of a line that does not work is discarded (R61, R127). -/
theorem Closed.clearWork (h : Closed True s) (off : s.line.state.working = false) :
    Closed True (clearWork s) ∧ Resting (clearWork s) := by
  obtain ⟨v, hv⟩ : ∃ v, v = (s.table.map (·.tag)).foldl (fun t tag => returnUnit tag t) s := ⟨_, rfl⟩
  obtain ⟨base, spot, slot, entry⟩ := returned_spec (s.table.map (·.tag)) h.base
  rw [← hv] at base spot slot entry
  have rest := h.resting off
  have work : Work s v := hv ▸ Work.foldl _ (fun t tag => work_returnUnit t tag) _ _
  have lists := lists_of_nowhere (s := v) (fun x => (spot x).trans (rest.spot x))
  have none : ∀ x e, v.entry x = some e → e.reservedWith = none := by
    intro x e found
    rw [entry] at found
    obtain ⟨y, held, rfl⟩ := Option.map_eq_some_iff.mp found
    have member : x ∈ s.table.map (·.tag) := List.mem_map.mpr ⟨y, mem_of_entry held, tag_of_entry held⟩
    rw [if_pos member]
  have run : Machine.clearWork s = { setSlot .empty (forgetTrailing (markHighWater (clearLatch { v with table := [] })))
      with watches := [] } := by
    rw [hv]
    rfl
  have returned := base.reserved_none none
  obtain ⟨tags, count, monitor, belt, -, switches, -⟩ := base
  have quiet : Resting (Machine.clearWork s) := by
    rw [run]
    exact ⟨rfl, rfl, lists⟩
  refine ⟨quiet.closed (by rw [run]; rfl) ((keeps_clearWork s off).tags h.base.tags) ?_ ?_ ?_ ?_, quiet⟩ <;> rw [run]
  · exact ⟨returned, count.counted, count.uncounted⟩
  · refine ⟨fun d => ?_, monitor.chute⟩
    show (v.monitor d).deadlineTimer = ((v.monitor d).confirm.head?.bind _).bind _
    rw [monitor.deadline, (lists d).2.2]
    rfl
  · refine ⟨fun _ => by simp [setSlot, forgetTrailing, markHighWater], belt.active, belt.written, belt.alternates,
      fun lead refused c => (by cases c), fun c => absurd rfl c⟩
  · exact ⟨switches.off, switches.closed, switches.quiet⟩

/-- CLR on a ready line (R127). -/
theorem Closed.clearReady (h : Closed True s) (ready : s.line.state = .ready) : Closed True (clearReady s) :=
  (((h.clearWork (by rw [ready]; rfl)).1.submit _).closed.evaluateHold).closed

/-- CLR on a halted line (R127). -/
theorem Closed.clearHalted (h : Closed True s) (halted : s.line.state = .halted) : Closed True (clearHalted s) := by
  obtain ⟨cleared, quiet⟩ := h.clearWork (by rw [halted]; rfl)
  have told := (cleared.submit (.cleared s.occupancy)).closed
  have ready : Closed True (setLine .ready .none s.line.runPermit
      (Machine.submit (.cleared s.occupancy) (Machine.clearWork s))) := by
    refine told.restart ⟨?_, ?_, fun d => ?_⟩ ?_ _ (Machine.submit (.cleared s.occupancy) (Machine.clearWork s)).counter
      (fun c => by cases c)
    · simpa using quiet.watches
    · simpa using quiet.slot
    · simpa [State.diverter, State.monitor] using quiet.lists d
    · simp [Machine.clearWork, discardEntries, setSlot, forgetTrailing, markHighWater, clearLatch]
  exact (ready.evaluateHold.closed.submit _).closed

/-! ### The configuration (R133, R134, R137, R139) -/

theorem LineRecord.bounds {r : LineRecord} (h : r.inRange = true) : (1 ≤ r.maxLength ∧ r.maxLength ≤ 65535)
    ∧ r.runoffOffset ≤ 1048575 ∧ r.exitTolerance ≤ 4095 ∧ r.reverseTolerance ≤ 4095 := by
  have limit : Config.offsetLimit = 1048575 := rfl
  simp only [LineRecord.inRange, Machine.inRange, Bool.and_eq_true, decide_eq_true_eq] at h
  omega

theorem DiverterRecord.bounds {r : DiverterRecord} (h : r.inRange = true) : r.offset ≤ 1048575 ∧ r.advance ≤ 1048575
    ∧ r.lateMargin ≤ 65535 ∧ r.releaseMargin ≤ 65535 := by
  have limit : Config.offsetLimit = 1048575 := rfl
  unfold DiverterRecord.inRange at h
  split at h <;> simp only [Machine.inRange, Bool.and_eq_true, decide_eq_true_eq] at h <;> omega

/-- The written copy of the configuration changes within the ranges. -/
theorem Closed.write (h : Closed a s) {c : Configuration} (bounded : c.Bounded) :
    Closed a { s with pendingConfig := c } := by
  obtain ⟨tags, count, monitor, belt, fits, switches, list⟩ := h.base
  exact ⟨⟨tags, ⟨count.outstanding, count.counted, count.uncounted⟩, ⟨monitor.deadline, monitor.chute⟩,
    ⟨belt.excursion, belt.active, bounded, belt.alternates, belt.slotLead, belt.slotWorks⟩,
    fun x m => ⟨(fits x m).alive, (fits x m).lead, (fits x m).length⟩,
    ⟨switches.off, switches.closed, switches.quiet⟩, ⟨list.near, list.sorted, list.slotWatch, list.ahead⟩⟩,
    fun tag => (h.items tag).congr rfl rfl rfl⟩

theorem Configuration.Bounded.setLine {c : Configuration} (h : c.Bounded) {r : LineRecord} (range : r.inRange = true) :
    ({ c with line := r } : Configuration).Bounded := by
  obtain ⟨length, runoff, tolerances⟩ := LineRecord.bounds range
  exact ⟨length, runoff, tolerances, h.stations⟩

theorem Configuration.Bounded.setDiverter {c : Configuration} (h : c.Bounded) (d : Station) {r : DiverterRecord}
    (range : r.inRange = true) : ({ c with diverters := c.diverters.set d r } : Configuration).Bounded := by
  refine ⟨h.maxLength, h.runoff, h.tolerances, fun x => ?_⟩
  show (c.diverters.set d r)[x.val].offset ≤ _ ∧ _
  by_cases own : x = d
  · subst own
    simpa using DiverterRecord.bounds range
  · have other : d.val ≠ x.val := fun c => own (Fin.ext c.symm)
    simpa [Vector.getElem_set_ne, other] using h.stations x

/-- In a configuration without a failure the alternates of installed diverters are installed (R137). -/
theorem alternates_of_valid {c : Configuration} (valid : c.failure = none) {d x : Station}
    (installed : c.diverters[d].installed = true) (alternate : c.diverters[d].alternate = stationNumber x) :
    c.diverters[x].installed = true := by
  unfold Configuration.failure at valid
  dsimp only at valid
  split at valid
  · cases valid
  · split at valid
    · cases valid
    · split at valid
      · cases valid
      · split at valid
        · cases valid
        · split at valid
          · cases valid
          · rename_i usable
            have mine := List.find?_eq_none.mp usable d (by simpa [Configuration.installedList] using installed)
            simp only [Configuration.alternateUsable, alternate, stationOf_stationNumber, Bool.not_eq_true',
              Bool.not_eq_false, Bool.and_eq_true] at mine
            exact mine.1

/-- DEST is submitted for some stations. -/
theorem Closed.submitDests (h : Closed a s) (l : List Station) (p : Station → Bool) :
    Closed a (l.foldl (fun t d => if p d then submitDest d t else t) s) := by
  induction l generalizing s with
  | nil => exact h
  | cons d rest ih =>
    rw [List.foldl_cons]
    refine ih ?_
    split
    · exact (h.submit _).closed
    · exact h

/-- The state of a commit before its notices and its line state (R139). -/
def committed (s : State) : State :=
  { commitChutes (commitDiverters { s with config := s.pendingConfig }) with
    destinations := Vector.replicate 16 DestRecord.atReset
    runOff := { s.runOff with filled := 0, serial := 0 } }

section

variable (s : State) (d : Station)

theorem diverter_committed : (committed s).diverter d = Diverter.afterCommit ((committed s).record d) := by
  simp [committed, commitChutes, commitDiverters, State.diverter, State.record]

theorem monitor_committed :
    (committed s).monitor d = (s.monitor d).afterCommit ((committed s).record d) s.timeStamp := by
  simp [committed, commitChutes, commitDiverters, State.monitor, State.record]

theorem destination_committed : (committed s).destination d = DestRecord.atReset := by
  simp [committed, State.destination]

theorem waits_committed : (committed s).waits d = false := by
  simp [committed, commitChutes, commitDiverters, State.waits]

theorem confirm_afterCommit (r : DiverterRecord) (z : TimeStamp) (m : Monitor) :
    (m.afterCommit r z).confirm = m.confirm ∧ (m.afterCommit r z).deadlineTimer = m.deadlineTimer := by
  unfold Monitor.afterCommit
  split <;> exact ⟨rfl, rfl⟩

theorem chute_afterCommit (r : DiverterRecord) (z : TimeStamp) (m : Monitor) :
    (m.afterCommit r z).chuteTimer.isSome = true
      ↔ (m.afterCommit r z).chute = .filling ∨ (m.afterCommit r z).chute = .emptying := by
  unfold Monitor.afterCommit
  split <;> simp

end

/-- The law of destinations at their commit values, on a line without items. -/
theorem count_atReset (table : s.table = []) (destination : ∀ d, s.destination d = DestRecord.atReset) :
    CountLaw s := by
  refine ⟨fun d => ?_, fun d base => ?_, fun d _ => ?_⟩
  · rw [destination]
    unfold State.reservedAt
    rw [table]
    rfl
  · rw [destination] at base
    exact absurd base (Nat.lt_irrefl 0)
  · rw [destination]
    rfl

theorem Closed.committed (h : Closed True s) (off : s.line.state.working = false) (table : s.table = [])
    (valid : s.pendingConfig.failure = none) : Closed True (committed s) := by
  have rest := h.resting off
  have quiet : Resting (Machine.committed s) := by
    refine ⟨rest.watches, rest.slot, fun d => ?_⟩
    rw [diverter_committed, monitor_committed, (confirm_afterCommit _ _ _).1]
    exact ⟨rfl, rfl, (rest.lists d).2.2⟩
  refine quiet.closed table h.base.tags (count_atReset table (destination_committed s)) ⟨fun d => ?_, fun d => ?_⟩
    ⟨fun c => ?_, h.base.belt.written, h.base.belt.written, fun d x => alternates_of_valid valid,
      fun lead refused c => ?_, fun c => absurd quiet.slot c⟩
    ⟨fun d => ?_, fun d dis => ?_, fun d _ => ⟨(quiet.lists d).2.1, waits_committed s d⟩⟩
  · rw [(quiet.lists d).2.2, monitor_committed, (confirm_afterCommit _ _ _).2]
    exact h.no_deadline rest d
  · rw [monitor_committed]
    exact chute_afterCommit _ _ _
  · exact absurd (off.symm.trans c) (by simp)
  · exact absurd (quiet.slot.symm.trans c) (by simp)
  · rw [diverter_committed]
    unfold Diverter.afterCommit State.installed
    cases ((Machine.committed s).record d).installed <;> simp [Diverter.atReset]
  · rw [diverter_committed] at dis
    cases dis

/-- CMIT without items on the line (R139). -/
theorem Closed.commit (h : Closed True s) (line : s.line.state = .idle ∨ s.line.state = .ready)
    (valid : s.pendingConfig.failure = none) : Closed True (commit s) := by
  have off : s.line.state.working = false := by rcases line with line | line <;> rw [line] <;> rfl
  have table := h.base.table_nil off (by rcases line with line | line <;> simp [line])
  obtain ⟨v, hv⟩ : ∃ v, v = commitChutes (commitDiverters { s with config := s.pendingConfig }) := ⟨_, rfl⟩
  have told := (h.committed off table valid).submitDests (List.finRange 16)
    (fun d => v.installed d && (v.destination d).causes != { host := true })
  obtain ⟨w, hw⟩ : ∃ w, w = (List.finRange 16).foldl (fun t d =>
    if v.installed d && (v.destination d).causes != { host := true } then submitDest d t else t)
    (Machine.committed s) := ⟨_, rfl⟩
  have run : Machine.commit s = commitLine w := by
    rw [hw, hv]
    rfl
  rw [← hw] at told
  rw [run]
  unfold commitLine
  split
  · rename_i idle
    have off : w.line.state.working = false := by rw [idle]; rfl
    refine (Closed.submit ?_ _).closed
    exact told.restart (told.resting off) (told.base.table_nil off (by simp [idle])) _ _ (fun c => by cases c)
  · exact told

/-! ### Resets (R131) -/

theorem bounded_default : Configuration.default.Bounded := by
  refine ⟨by decide, by decide, by decide, by decide⟩

/-- A reset state keeps the law. -/
theorem closed_resetState (c : ResetCause) (levels : Levels) (s : State) : Closed True (resetState c levels s) := by
  obtain ⟨f, hf⟩ : ∃ f, f = resetState c levels s := ⟨_, rfl⟩
  have diverter (d : Station) : f.diverter d = Diverter.atReset := by
    simp [hf, resetState, State.reset, State.diverter]
  have destination (d : Station) : f.destination d = DestRecord.atReset := by
    simp [hf, resetState, State.reset, State.destination]
  have monitor (d : Station) : f.monitor d = (⟨[], none, levels.confirmEyes[d], .clear, none⟩ : Monitor) := by
    simp [hf, resetState, State.monitor]
  have installed (d : Station) : f.installed d = false := by
    simp [hf, resetState, State.reset, State.installed, State.record, Configuration.default, DiverterRecord.default]
  have rest : Resting f := by
    refine ⟨hf ▸ rfl, hf ▸ rfl, fun d => ?_⟩
    rw [diverter, monitor]
    exact ⟨rfl, rfl, rfl⟩
  rw [← hf]
  refine rest.closed (hf ▸ rfl) (hf ▸ (laws_resetState c levels s).2.2.1) (count_atReset (hf ▸ rfl) destination)
    ⟨fun d => ?_, fun d => ?_⟩ ⟨fun w => ?_, hf ▸ bounded_default,
      hf ▸ bounded_default, fun d x c => ?_, fun lead refused c => ?_, fun c => absurd rest.slot c⟩
    ⟨fun d => ?_, fun d dis => ?_, fun d _ => ⟨(rest.lists d).2.1, ?_⟩⟩
  · rw [monitor]
    rfl
  · rw [monitor]
    simp
  · rw [hf] at w
    cases w
  · rw [installed] at c
    cases c
  · exact absurd (rest.slot.symm.trans c) (by simp)
  · rw [diverter, installed]
    simp [Diverter.atReset]
  · rw [diverter] at dis
    cases dis
  · simp [hf, resetState, State.reset, State.waits]

end Sys2Proof.Machine
end

