-- ==== Sys2Proof/Proofs/ItemOrders.lean ====
section
/-! PROOF. The orders on items and destinations, the loss action on items, and the disable of a diverter keep the law
of the items. -/

namespace Sys2Proof.Machine

variable {s t u : State} {tag : Tag} {e : Entry} {d : Station} {a : Prop}

/-! ### Items on the belt (R41 to R45) -/

theorem Closed.fits (h : Closed a s) (found : s.entry tag = some e) : EntryFits s e :=
  h.base.fits e (mem_of_entry found)

theorem Closed.law (h : Closed a s) (found : s.entry tag = some e) : EntryLaw s e := (h.items tag).entry e found

theorem Closed.place (h : Closed a s) (found : s.entry tag = some e) : s.spot tag = s.spotOf e := by
  rw [(h.items tag).spot, found]
  rfl

/-- An item put in its place from anywhere. -/
theorem Closed.put {k : Nat} (h : Closed a s) (p : Puts a tag k s t) : Closed a t := p.closed (fun x _ => h.items x)

theorem Closed.looseTravelling (h : Closed a s) (found : s.entry tag = some e) (state : e.state = .travelling) :
    Loose s tag e := by
  refine ⟨found, by simp [state], by simp [state], (h.law found).no_deadline (by simp [state]), ?_⟩
  rw [h.place found]
  exact spotOf_travelling s e state

/-- A TRAVELLING item is sent to the run-off (R45, R167). -/
theorem Closed.sentToRunoff (h : Closed a s) (found : s.entry tag = some e) (state : e.state = .travelling)
    (r : Reason) : Puts a tag 1 s (sendToRunoff tag r s) :=
  Puts.sendToRunoff h.base (h.looseTravelling found state) ((h.law found).travelling state).1 r

/-- A PENDING item leaves its diverter and is given back to the belt (R45, R167). -/
theorem givenBackPending (h : Base a s) (item : ItemLaw s tag) (found : s.entry tag = some e)
    (state : e.state = .pending) (target : e.target = .station d) (r : Reason) :
    Puts a tag 1 s (giveBackToBelt tag r (leavePending d tag s)) := by
  obtain ⟨base, only, -, -⟩ := leavePending_spec h d tag
  refine (Puts.giveBackToBelt base (loose_leavePending h found (item.entry e found) state target ?_) r).after only
  rw [item.spot, found]
  rfl

/-- DROP on a TRAVELLING item (R45). -/
theorem Closed.dropTravelling (h : Closed a s) (found : s.entry e.tag = some e) (state : e.state = .travelling) :
    Closed a (sendToRunoff e.tag .dropped s) :=
  h.put (h.sentToRunoff found state .dropped)

/-- DROP on a PENDING item (R45). -/
theorem Closed.dropPending (h : Closed a s) (found : s.entry e.tag = some e) (state : e.state = .pending) :
    Closed a (dropPending e s) := by
  obtain ⟨d, target, -, -⟩ := (h.law found).taken (.inl state)
  unfold Machine.dropPending
  rw [target]
  exact h.put (givenBackPending h.base (h.items e.tag) found state target .dropped)

/-- Row 7 of the ASGN checks (R42). -/
theorem Closed.markLate (h : Closed a s) (found : s.entry e.tag = some e) : Closed a (markLate e s) := by
  unfold Machine.markLate
  split
  · exact (h.setFlags found (fun f => { f with lateSeen := true }) rfl).closed
  · exact h

/-- ASGN answered DONE (R43). -/
theorem Closed.assignEntry (h : Closed a s) (x : Dest) (installed : s.destInstalled x = true)
    (found : s.entry e.tag = some e) (state : e.state = .travelling)
    (ahead : reached s.counter.position (s.destPoint x e) = false) : Closed a (assignEntry x e s) := by
  have fits := h.fits found
  have law := h.law found
  have keeps (y : Entry) : (Entry.assignedTo x y).tag = y.tag := rfl
  have entry := (entry_setEntry s e.tag (Entry.assignedTo x) keeps).trans (congrArg _ found)
  have changed := h.base.setEntry found keeps ⟨fits.alive, fits.lead, fits.length⟩ rfl (.inl rfl)
  have law' : EntryLaw s (Entry.assignedTo x e) := by
    refine ⟨fun _ => ⟨(law.travelling state).1, fun d target => ?_⟩, fun c => ?_, law.deadline⟩
    · have target : x = .station d := target
      rw [target] at installed
      exact installed
    · simp [Entry.assignedTo, state] at c
  have item : Unwatched (removeWatch e.tag (setEntry e.tag (Entry.assignedTo x) s)) e.tag (Entry.assignedTo x e) := by
    refine unwatched_travelling entry (law'.congr rfl) state ?_
    rw [spot_removeWatch]
    exact (h.looseTravelling found state).lists
  have placed (k : WatchKind) (held : (removeWatch e.tag (setEntry e.tag (Entry.assignedTo x) s)).watchOf
      (Entry.assignedTo x e) = some ⟨s.destPoint x e, k⟩) : Closed a
      (insertWatch (s.destPoint x e) k (removeWatch e.tag (setEntry e.tag (Entry.assignedTo x) s))) :=
    h.put ((Puts.insert (changed.removeWatch e.tag) item held (fun _ => ahead)).after
      ((only_setEntry s e.tag keeps).trans (only_removeWatch _ e.tag)))
  have travelling : (Entry.assignedTo x e).state = .travelling := state
  unfold Machine.assignEntry
  cases x with
  | runOff =>
    refine placed (.runoff e.tag) ?_
    unfold State.watchOf
    rw [travelling]
    rfl
  | station d =>
    refine placed (.fire e.tag) ?_
    unfold State.watchOf
    rw [travelling]
    rfl

/-- RUNOFF_ALL at one entry (R167). -/
theorem putsRunoffEntry (h : Base a s) (item : ItemLaw s e.tag) (found : s.entry e.tag = some e) :
    Puts a e.tag (s.weightAt e.tag) s (runoffEntry e s) := by
  have weight : s.weightAt e.tag = e.weight := by
    unfold State.weightAt
    rw [found]
    rfl
  have law := item.entry e found
  unfold runoffEntry
  split
  · rename_i d state target
    have loose : Loose s e.tag e := by
      refine ⟨found, by simp [state], by simp [state], law.no_deadline (by simp [state]), ?_⟩
      rw [item.spot, found]
      exact spotOf_travelling s e state
    refine (Puts.sendToRunoff h loose (law.travelling state).1 .linkLost).le ?_
    rw [weight]
    simp only [Entry.weight, state, target]
    split <;> omega
  · rename_i d state target
    refine (givenBackPending h item found state target .linkLost).le ?_
    rw [weight]
    simp [Entry.weight, state]
  · exact ⟨h, .refl _ s, item, le_refl _⟩

/-- RUNOFF_ALL (R167). -/
theorem Closed.runoffAll (h : Closed a s) : Closed a (runoffAll s) := by
  refine (puts_fold (·.tag) runoffEntry (fun t e => t.entry e.tag = some e ∧ ItemLaw t e.tag)
    (fun t e base p => putsRunoffEntry base p.2 p.1) (fun t u e x p only ne => ?_) s.table h.base.tags.2.1 h.base
    (fun tag _ => h.items tag) (fun e m => ⟨entry_of_mem h.base.tags m, h.items e.tag⟩)).closed
  exact ⟨(only.entry e.tag ne).trans p.1, p.2.only only ne⟩

/-! ### Destinations (R109 to R112) -/

theorem Closed.setDestination (h : Closed a s) {f : DestRecord → DestRecord}
    (balanced : (f (s.destination d)).Balanced)
    (outstanding : (f (s.destination d)).outstanding = (s.destination d).outstanding)
    (disabled : (f (s.destination d)).causes.disabled = (s.destination d).causes.disabled) :
    Closed a (setDestination d f s) :=
  (h.goesSame (h.base.setDestination balanced outstanding
    (fun dis => disabled.trans (h.base.switches.closed d dis))) (sameItems_setDestination s d f)).closed

theorem Closed.changeCauses (h : Closed a s) {f : Causes → Causes}
    (disabled : (s.diverter d).disabled = true → (f (s.destination d).causes).disabled = true) :
    Closed a (changeCauses d f s) := by
  obtain ⟨base, same⟩ := h.base.changeCauses disabled
  exact h.same base same

/-- OPND (R110). -/
theorem Closed.opened (h : Closed a s) (n : Nat) (reload : Bool) (none : (s.destination d).outstanding = 0) :
    Closed a (Machine.setDestination d (DestRecord.openedBy n reload) s) := by
  refine h.setDestination ⟨fun _ => ?_, fun base => base⟩ rfl rfl
  show n + (s.destination d).outstanding + 0 = n
  omega

/-- CLSD (R111). -/
theorem Closed.closeOrder (h : Closed a s) (d : Station) :
    Closed a (Machine.changeCauses d (fun c => { c with host := true }) s) :=
  h.changeCauses (h.base.switches.closed d)

/-- ADJD (R112). -/
theorem Closed.adjusted (h : Closed a s) (n : Nat) (counted : (s.destination d).counted = true)
    (room : (s.destination d).outstanding + n ≤ (s.destination d).base) :
    Closed a (terminalCount d (Machine.setDestination d (DestRecord.adjustedTo n) s)) := by
  unfold DestRecord.counted at counted
  simp only [decide_eq_true_eq] at counted
  have adjusted : Closed a (Machine.setDestination d (DestRecord.adjustedTo n) s) := by
    refine h.setDestination ⟨fun _ => ?_, fun base => ?_⟩ rfl rfl
    · show n + (s.destination d).outstanding + ((s.destination d).base - (s.destination d).outstanding - n)
        = (s.destination d).base
      omega
    · have base : (s.destination d).base = 0 := base
      omega
  obtain ⟨base, same⟩ := adjusted.base.terminalCount d
  exact adjusted.same base same

/-! ### DENA (R80) -/

theorem Closed.enabled (h : Closed a s) (installed : s.installed d = true) :
    Closed a (Machine.changeCauses d (fun c => { c with disabled := false })
      (setDiverter d (fun v => { v with disabled := false, state := .idle }) s)) := by
  obtain ⟨tags, count, monitor, belt, fits, switches, list⟩ := h.base
  have base : Base a (setDiverter d (fun v => { v with disabled := false, state := .idle }) s) := by
    refine h.base.work (work_setDiverter s d _) rfl ⟨count.outstanding, count.counted, count.uncounted⟩
      ⟨monitor.deadline, monitor.chute⟩ fits ⟨fun x => ?_, fun x => ?_, fun x => ?_⟩
      ⟨list.near, list.sorted, list.slotWatch, list.ahead⟩ <;> by_cases own : x = d
    · subst own
      rw [diverter_setDiverter]
      simpa [State.installed, State.record] using installed
    · rw [diverter_setDiverter_ne s own]
      exact switches.off x
    · subst own
      rw [diverter_setDiverter]
      exact fun c => (by cases c)
    · rw [diverter_setDiverter_ne s own]
      exact switches.closed x
    · subst own
      rw [diverter_setDiverter]
      exact fun c => (by cases c)
    · rw [diverter_setDiverter_ne s own]
      exact switches.quiet x
  refine (h.same base (sameItems_setDiverter s d rfl rfl)).changeCauses (fun dis => ?_)
  rw [diverter_setDiverter] at dis
  cases dis

/-! ### The lists of a diverter are emptied (R74, R79) -/

/-- A PUSHING item that is out of its push list. -/
structure Unpushed (s : State) (d : Station) (tag : Tag) : Prop where
  item : ∃ e, Loose s tag e ∧ e.target = .station d ∧ e.reservedWith = some d
  installed : s.installed d = true

theorem Loose.only {x : Tag} (h : Loose s x e) (k : OnlyItem tag s t) (ne : x ≠ tag) : Loose t x e := by
  refine ⟨(k.entry x ne).trans h.found, h.confirming, h.frozen, h.deadline, ?_⟩
  rw [k.spot x ne]
  exact h.lists

theorem installed_congr (h : t.config = s.config) (d : Station) : t.installed d = s.installed d := by
  unfold State.installed State.record
  rw [h]

/-- The push list of a diverter that is not OFF is emptied, and its items join the confirm list (R74, R79). -/
theorem Closed.endPush (h : Closed a s) (d : Station) : Closed a (endPush d s) := by
  obtain ⟨l, hl⟩ : ∃ l, l = (s.diverter d).push := ⟨_, rfl⟩
  obtain ⟨v, hv⟩ : ∃ v, v = setDiverter d (fun v => { v with push := [] }) s := ⟨_, rfl⟩
  have base : Base a v := hv ▸ h.base.setDiverter Iff.rfl rfl (fun _ => rfl)
  have spot (x : Tag) : v.spot x = { s.spot x with push := Function.update (s.spot x).push d 0 } := by
    rw [hv, spot_setDiverter]
    ext1
    · rfl
    · exact Function.update_eq_self d (s.spot x).pending
    · rfl
    · rfl
  have distinct : l.Nodup := hl ▸ nodup_of_once (fun _ m => (h.pushing m).2)
  have run : Machine.endPush d s = l.foldl (fun t tag => truncatePush d tag t) v := by
    rw [hl, hv]
    rfl
  rw [run]
  refine (puts_fold id (truncatePush d) (fun t x => Unpushed t d x) (fun t x base p => ?_)
    (fun t w x y p only ne => ?_) l (by rwa [List.map_id]) base (fun x out => ?_) (fun x m => ?_)).closed
  · obtain ⟨⟨e, loose, target, unit⟩, installed⟩ := p
    exact (Puts.truncatePush base loose target unit installed).le (Nat.zero_le _)
  · obtain ⟨⟨e, loose, target, unit⟩, installed⟩ := p
    exact ⟨⟨e, loose.only only ne, target, unit⟩, (installed_congr only.config d).trans installed⟩
  · rw [List.map_id] at out
    have none : (s.spot x).push d = 0 := List.count_eq_zero.mpr (hl ▸ out)
    refine (h.items x).congr (by rw [hv]; rfl) (by rw [hv]; rfl) ?_
    rw [spot, ← none, Function.update_eq_self]
  · obtain ⟨⟨e, found, state, target⟩, -⟩ := h.pushing (hl ▸ m)
    obtain ⟨y, target', unit, installed⟩ := (h.law found).taken (.inr (.inl state))
    obtain rfl : d = y := Dest.station.inj (target.symm.trans target')
    refine ⟨⟨e, ⟨by rw [hv]; exact found, by simp [state], by simp [state],
      (h.law found).no_deadline (by simp [state]), ?_⟩, target, unit⟩, by rw [hv]; exact installed⟩
    obtain ⟨-, pending, push, confirm⟩ := Spot.ext_iff.mp
      ((congrArg (fun p : Spot => { p with watches := [] }) (h.place found)).trans (spotOf_pushing s e state target))
    rw [spot]
    ext1
    · rfl
    · exact pending
    · exact update_zero _ push
    · exact confirm

/-- A PENDING item that is out of its pending list. -/
def Unheld (s : State) (tag : Tag) : Prop := ∃ e, Loose s tag e ∧ e.state = .pending

/-- The pending list of a diverter is emptied, and its items are given back to the belt (R79). -/
theorem Closed.emptyPending (h : Closed a s) (d : Station) : Closed a (emptyPending d s) := by
  obtain ⟨l, hl⟩ : ∃ l, l = (s.diverter d).pending := ⟨_, rfl⟩
  obtain ⟨v, hv⟩ : ∃ v, v = setDiverter d (fun v => { v with pending := [] }) s := ⟨_, rfl⟩
  have base : Base a v := hv ▸ h.base.setDiverter Iff.rfl rfl (fun off => (h.base.switches.quiet d off).1)
  have spot (x : Tag) : v.spot x = { s.spot x with pending := Function.update (s.spot x).pending d 0 } := by
    rw [hv, spot_setDiverter]
    ext1
    · rfl
    · rfl
    · exact Function.update_eq_self d (s.spot x).push
    · rfl
  have distinct : l.Nodup := hl ▸ nodup_of_once (fun _ m => (h.pending m).2)
  have run : Machine.emptyPending d s = l.foldl (fun t tag => giveBackToBelt tag .disabled t) v := by
    rw [hl, hv]
    rfl
  rw [run]
  refine (puts_fold id (fun tag t => giveBackToBelt tag .disabled t) Unheld (fun t x base p => ?_)
    (fun t w x y p only ne => ?_) l (by rwa [List.map_id]) base (fun x out => ?_) (fun x m => ?_)).closed
  · obtain ⟨e, loose, state⟩ := p
    refine (Puts.giveBackToBelt base loose .disabled).le ?_
    unfold State.weightAt
    rw [show t.entry (id x) = some e from loose.found]
    simp [Entry.weight, state]
  · obtain ⟨e, loose, state⟩ := p
    exact ⟨e, loose.only only ne, state⟩
  · rw [List.map_id] at out
    have none : (s.spot x).pending d = 0 := List.count_eq_zero.mpr (hl ▸ out)
    refine (h.items x).congr (by rw [hv]; rfl) (by rw [hv]; rfl) ?_
    rw [spot, ← none, Function.update_eq_self]
  · obtain ⟨⟨e, found, state, target⟩, -⟩ := h.pending (hl ▸ m)
    refine ⟨e, ⟨by rw [hv]; exact found, by simp [state], by simp [state],
      (h.law found).no_deadline (by simp [state]), ?_⟩, state⟩
    obtain ⟨-, pending, push, confirm⟩ := Spot.ext_iff.mp
      ((congrArg (fun p : Spot => { p with watches := [] }) (h.place found)).trans (spotOf_pending s e state target))
    rw [spot]
    ext1
    · rfl
    · exact update_zero _ pending
    · exact push
    · exact confirm

/-! ### DDIS (R79) -/

/-- A diverter is switched off once the causes of its destination say so. -/
theorem Closed.switchOff (h : Closed a s) (push : (s.diverter d).push = [])
    (cause : (s.destination d).causes.disabled = true) : Closed a (switchOff d s) := by
  obtain ⟨v, hv, base, same, drives⟩ : ∃ v, v = (if (s.diverter d).state = .energised then freeSlot s else s)
      ∧ Base a v ∧ SameItems s v ∧ v.diverters = s.diverters := by
    refine ⟨_, rfl, ?_⟩
    split
    · exact ⟨h.base.freeSlot, sameItems_freeSlot s, rfl⟩
    · exact ⟨h.base, sameItems rfl rfl rfl rfl rfl rfl, rfl⟩
  have destinations : v.destinations = s.destinations := by
    rw [hv]
    split <;> rfl
  have diverter (x : Station) : v.diverter x = s.diverter x := by
    unfold State.diverter
    rw [drives]
  have quiet := base.setWaiting (d := d) (b := false) (fun c => by cases c)
  have moved : SameItems s (setWaiting d false v) := same.trans (sameItems_setWaiting v d false)
  have off : Base a (setDiverter d Diverter.disable (setWaiting d false v)) := by
    obtain ⟨tags, count, monitor, belt, fits, switches, list⟩ := quiet
    refine Base.work ⟨tags, count, monitor, belt, fits, switches, list⟩ (work_setDiverter _ d _) rfl
      ⟨count.outstanding, count.counted, count.uncounted⟩ ⟨monitor.deadline, monitor.chute⟩ fits
      ⟨fun x => ?_, fun x => ?_, fun x => ?_⟩
      ⟨list.near, list.sorted, list.slotWatch, list.ahead⟩ <;> by_cases own : x = d
    · subst own
      rw [diverter_setDiverter]
      simp [Diverter.disable]
    · rw [diverter_setDiverter_ne _ own]
      exact switches.off x
    · subst own
      intro _
      show (v.destination x).causes.disabled = true
      unfold State.destination
      rw [destinations]
      exact cause
    · rw [diverter_setDiverter_ne _ own]
      exact switches.closed x
    · subst own
      rw [diverter_setDiverter, waits_setDiverter, waits_setWaiting]
      exact fun _ => ⟨((congrArg Diverter.push (diverter x)).trans push : (v.diverter x).push = []), rfl⟩
    · rw [diverter_setDiverter_ne _ own, waits_setDiverter]
      exact switches.quiet x
  unfold Machine.switchOff
  rw [← hv]
  exact h.same off (moved.trans (sameItems_setDiverter _ d rfl rfl))

/-- Switching a diverter off reads nothing beside the diverters and the arbiter. -/
theorem switchOff_withDrives (s t : State) (d : Station) :
    switchOff d (withDrives s.diverters s.arbiter s.monitors t)
      = withDrives (switchOff d s).diverters (switchOff d s).arbiter (switchOff d s).monitors t := by
  unfold switchOff
  by_cases energised : (s.diverter d).state = .energised
  · have same : ((withDrives s.diverters s.arbiter s.monitors t).diverter d).state = .energised := energised
    rw [if_pos energised, if_pos same]
    rfl
  · have same : ¬ ((withDrives s.diverters s.arbiter s.monitors t).diverter d).state = .energised := energised
    rw [if_neg energised, if_neg same]
    rfl

/-- The causes of a destination may change before the diverter is switched off as well as after. -/
theorem changeCauses_switchOff (s : State) (d : Station) (f : Causes → Causes) :
    Machine.changeCauses d f (switchOff d s) = switchOff d (Machine.changeCauses d f s) :=
  calc Machine.changeCauses d f (switchOff d s)
      = Machine.changeCauses d f
          (withDrives (switchOff d s).diverters (switchOff d s).arbiter (switchOff d s).monitors s) :=
        congrArg (Machine.changeCauses d f) (switchOff_withDrives s s d)
    _ = withDrives (switchOff d s).diverters (switchOff d s).arbiter (switchOff d s).monitors
        (Machine.changeCauses d f s) := blind_changeCauses d f _ _ _ s
    _ = switchOff d (withDrives s.diverters s.arbiter s.monitors (Machine.changeCauses d f s)) :=
        (switchOff_withDrives s _ d).symm
    _ = switchOff d (Machine.changeCauses d f s) :=
        congrArg (switchOff d) (blind_changeCauses d f s.diverters s.arbiter s.monitors s).symm

/-- A disable (R79). -/
theorem Closed.disabled (h : Closed True s) (d : Station) : Closed True (disableDiverter d s) := by
  have emptied := (h.endPush d).emptyPending d
  have push : ((Machine.emptyPending d (Machine.endPush d s)).diverter d).push = [] := by
    have pushed := same_truncations d (s.diverter d).push (setDiverter d (fun v => { v with push := [] }) s)
    have held := same_givenBack .disabled ((Machine.endPush d s).diverter d).pending
      (setDiverter d (fun v => { v with pending := [] }) (Machine.endPush d s))
    refine (congrArg Diverter.push (held.diverter d)).trans ?_
    rw [diverter_setDiverter]
    refine (congrArg Diverter.push (pushed.diverter d)).trans ?_
    rw [diverter_setDiverter]
  unfold disableDiverter
  rw [changeCauses_switchOff]
  have told := emptied.changeCauses (d := d) (f := fun c => { c with disabled := true }) (fun _ => rfl)
  refine (told.switchOff ?_ ?_).settle
  · rw [(same_changeCauses _ d _).diverter]
    exact push
  · unfold Machine.changeCauses submitDest
    split
    · rename_i same
      exact (congrArg Causes.disabled same).symm
    · refine (congrArg (fun v : Vector DestRecord 16 => v[d].causes.disabled) (submit_destinations _ _)).trans ?_
      show ((Machine.setDestination d _ _).destination d).causes.disabled = true
      rw [destination_setDestination]

end Sys2Proof.Machine
end

