-- ==== Sys2Proof/Proofs/Tracking.lean ====
section
/-! PROOF. The timers and the confirm eyes keep the law of the items, and so does every step (O4). -/

namespace Sys2Proof.Machine

variable {s t u : State} {tag : Tag} {e : Entry} {d : Station} {a : Prop}

/-! ### The diverters' timers (R74, R76, R82, R83) -/

theorem Closed.endRecovery (h : Closed a s) (on : (s.diverter d).state ≠ .off) : Closed a (endRecovery d s) := by
  obtain ⟨base, same⟩ := h.base.endRecovery on
  exact h.same base same

theorem Closed.releaseDiverter (h : Closed a s) (on : (s.diverter d).state ≠ .off) :
    Closed a (releaseDiverter d s) := by
  obtain ⟨base, same⟩ := h.base.releaseDiverter on
  exact h.same base same

theorem Closed.recoveryEvent (h : Closed True s) (d : Station) : Closed True (recoveryEvent d s) := by
  unfold Machine.recoveryEvent
  split
  · rename_i due
    exact (h.endRecovery (by simp [due.1])).settle
  · exact h

theorem Closed.pulseEvent (h : Closed True s) (d : Station) : Closed True (pulseEvent d s) := by
  unfold Machine.pulseEvent
  split
  · rename_i due
    exact (h.releaseDiverter (by simp [due.1])).settle
  · exact h

theorem Closed.maxOnEvent (h : Closed True s) (d : Station) : Closed True (maxOnEvent d s) := by
  unfold Machine.maxOnEvent
  split
  · rename_i due
    have drives := same_truncations d (s.diverter d).push (setDiverter d (fun v => { v with push := [] }) s)
    have on : ((Machine.endPush d s).diverter d).state ≠ .off := by
      refine (congrArg Diverter.state (drives.diverter d)).trans_ne ?_
      rw [diverter_setDiverter]
      simp [due.1]
    exact ((h.endPush d).releaseDiverter on).settle
  · exact h

/-- TFIR on a ready line (R82). -/
theorem Closed.pulsed (h : Closed True s) (timer : Timer) (ready : s.line.state = .ready)
    (idle : (s.diverter d).state = .idle) : Closed True (takeSlot (setDiverter d (fun v => { v with
      state := .energised, testPulse := true, push := [], output := true, pulseTimer := timer }) s)) := by
  have push : (s.diverter d).push = [] := ((h.resting (by rw [ready]; rfl)).lists d).2.1
  exact h.same (h.base.switchDiverter (by simp [idle]) (by simp) rfl).takeSlot
    ((sameItems_setDiverter s d rfl push.symm).trans (sameItems_takeSlot _))

/-! ### Confirmations and deadlines (R55, R89 to R91) -/

/-- An item of a confirm list is completed; the others stay in it. -/
theorem Closed.completeEntry (h : Closed a s) (m : tag ∈ (s.monitor d).confirm) (r : OutcomeResult) :
    Closed a (completeEntry d tag r s)
      ∧ ∀ x, x ≠ tag → x ∈ (s.monitor d).confirm → x ∈ ((completeEntry d tag r s).monitor d).confirm := by
  obtain ⟨⟨e, found, state, target⟩, -⟩ := h.confirming m
  have p := Puts.completeEntry h.base found (h.law found) state target (h.place found) r
  refine ⟨h.put p, fun x ne held => List.count_pos_iff.mp ?_⟩
  have same : ((Machine.completeEntry d tag r s).spot x).confirm d = (s.spot x).confirm d := by rw [p.only.spot x ne]
  exact lt_of_lt_of_eq (List.count_pos_iff.mpr held) same.symm

/-- The items of a confirm list whose deadlines have been reached are completed in turn (R89). -/
theorem Closed.completeDue (l : List Tag) (distinct : l.Nodup) (h : Closed a s)
    (held : ∀ x ∈ l, x ∈ (s.monitor d).confirm) : Closed a (completeDue d l s) := by
  induction l generalizing s with
  | nil => exact h
  | cons tag rest ih =>
    obtain ⟨fresh, distinct⟩ := List.nodup_cons.mp distinct
    unfold Machine.completeDue
    split
    · obtain ⟨next, stays⟩ := h.completeEntry (held tag List.mem_cons_self) .unconfirmed
      exact ih distinct next (fun x m => stays x (fun c => fresh (c ▸ m)) (held x (List.mem_cons_of_mem _ m)))
    · exact h

theorem Closed.deadlineEvent (h : Closed True s) (d : Station) : Closed True (deadlineEvent d s) := by
  unfold Machine.deadlineEvent deadlineExpiry
  split
  · split
    · rename_i tag rest list
      have distinct : (tag :: rest).Nodup := list ▸ nodup_of_once (fun _ m => (h.confirming m).2)
      obtain ⟨fresh, distinct⟩ := List.nodup_cons.mp distinct
      obtain ⟨next, stays⟩ := h.completeEntry (list ▸ List.mem_cons_self) .unconfirmed
      exact (next.completeDue rest distinct (fun x m => stays x (fun c => fresh (c ▸ m))
        (list ▸ List.mem_cons_of_mem _ m))).drainTest
    · exact h.drainTest
  · exact h

/-- A leading edge at the confirm list (R90, R91). -/
theorem Closed.matchEdge (h : Closed a s) (d : Station) : Closed a (matchEdge d s) := by
  unfold Machine.matchEdge
  split
  · split
    · rename_i tag rest list
      exact (h.completeEntry (list ▸ List.mem_cons_self) .sorted).1
    · exact (h.submit _).closed
  · split
    · split
      · exact (h.submit _).closed
      · exact h
    · exact h

/-! ### Chutes (R95, R96) -/

theorem Closed.setChute (h : Closed a s) {f : Monitor → Monitor}
    (confirm : (f (s.monitor d)).confirm = (s.monitor d).confirm)
    (deadline : (f (s.monitor d)).deadlineTimer = (s.monitor d).deadlineTimer)
    (chute : (f (s.monitor d)).chuteTimer.isSome = true
      ↔ (f (s.monitor d)).chute = .filling ∨ (f (s.monitor d)).chute = .emptying) : Closed a (setMonitor d f s) :=
  h.same (h.base.setChute d confirm deadline chute) (sameItems_setMonitor s d confirm)

theorem Closed.setEye (h : Closed a s) (d : Station) (level : EyeLevel) :
    Closed a (setMonitor d (fun m => { m with eye := level }) s) :=
  h.setChute rfl rfl (h.base.monitor.chute d)

theorem Closed.chuteBlocked (h : Closed a s) (d : Station) : Closed a (chuteBlocked d s) := by
  unfold Machine.chuteBlocked
  split
  · exact h
  · split
    · exact h.setChute rfl rfl (by simp [timerFor])
    · exact h.setChute rfl rfl (by simp)
    · exact h
    · exact h

theorem Closed.chuteCleared (h : Closed a s) (d : Station) : Closed a (chuteCleared d s) := by
  unfold Machine.chuteCleared
  split
  · exact h
  · split
    · exact h.setChute rfl rfl (by simp)
    · exact h.setChute rfl rfl (by simp [timerFor])
    · exact h
    · exact h

theorem Closed.confirmLeading (h : Closed True s) (d : Station) : Closed True (confirmLeading d s) := by
  unfold Machine.confirmLeading
  split
  · exact h
  · dsimp only
    split
    · exact (((h.setEye d .blocked).matchEdge d).chuteBlocked d).drainTest
    · exact h.setEye d .blocked

theorem Closed.confirmTrailing (h : Closed True s) (d : Station) : Closed True (confirmTrailing d s) := by
  unfold Machine.confirmTrailing
  split
  · exact h
  · dsimp only
    split
    · exact (h.setEye d .clear).chuteCleared d
    · exact h.setEye d .clear

theorem Closed.chuteEvent (h : Closed a s) (d : Station) : Closed a (chuteEvent d s) := by
  have turned (full : Bool) (c : ChuteState) (rests : ¬ (c = .filling ∨ c = .emptying)) : Closed a
      (Machine.changeCauses d (fun c => { c with chute := full }) (Machine.submit (.chute d full)
        (setMonitor d (fun m => { m with chute := c, chuteTimer := none }) s))) := by
    have told := (h.setChute (d := d) (f := fun m => { m with chute := c, chuteTimer := none }) rfl rfl
      (by simpa using rests)).submit (.chute d full)
    exact told.closed.changeCauses (told.closed.base.switches.closed d)
  unfold Machine.chuteEvent chuteExpiry
  split
  · split
    · exact turned true .full (by simp)
    · exact turned false .clear (by simp)
    · exact h
    · exact h
  · exact h

/-! ### Steps -/

/-- What the law of the items does not speak of. -/
theorem Closed.traffic (h : Closed a s) (z : TimeStamp) (l : LinkUnit) (q : ReportQueue) (v : Supervisor)
    (c : Option ResetCause) (p : List Instr) : Closed a { s with
      timeStamp := z, link := l, queue := q, supervisor := v, held := c, pending := p } := by
  obtain ⟨tags, count, monitor, belt, fits, switches, list⟩ := h.base
  exact ⟨⟨tags, ⟨count.outstanding, count.counted, count.uncounted⟩, ⟨monitor.deadline, monitor.chute⟩,
    ⟨belt.excursion, belt.active, belt.written, belt.alternates, belt.slotLead, belt.slotWorks⟩,
    fun x m => ⟨(fits x m).alive, (fits x m).lead, (fits x m).length⟩,
    ⟨switches.off, switches.closed, switches.quiet⟩, ⟨list.near, list.sorted, list.slotWatch, list.ahead⟩⟩,
    fun tag => (h.items tag).congr rfl rfl rfl⟩

/-- Each effect of an order or an event keeps the law of the items. -/
theorem closedKept : EventEffects (fun s t => Closed True s → Closed True t) where
  refl _ h := h
  trans f g h := g (f h)
  traffic s l q v h := h.traffic s.timeStamp l q v s.held s.pending
  lineRecord _ _ range h := h.write (h.base.belt.written.setLine range)
  diverterRecord _ d _ range h := h.write (h.base.belt.written.setDiverter d range)
  commit _ line valid h := h.commit line valid
  start _ may h := h.startLine may
  drain _ running h := (h.beginDrain running).drainTest
  halt _ c h := h.requestHalt c
  clearHalted _ halted h := h.clearHalted halted
  clearReady _ ready h := h.clearReady ready
  markLate _ _ found h := h.markLate found
  assign _ x _ _ installed found state ahead h := h.assignEntry x installed found state ahead
  dropTravelling _ _ found state h := h.dropTravelling found state
  dropPending _ _ found state h := h.dropPending found state
  opened _ _ n reload none h := h.opened n reload none
  closed _ d h := h.closeOrder d
  adjusted _ _ n counted room h := h.adjusted n counted room
  enabled _ _ installed _ h := h.enabled installed
  disabled _ d h := h.disabled d
  pulsed _ _ timer ready idle h := h.pulsed timer ready idle
  forwardTick _ h := h.forwardTick
  reverseTick _ h := h.reverseTick
  illegalTransition _ h := h.illegalTransition
  standstillExpiry _ h := h.standstillExpiry
  deliverNamed _ k h := h.deliverNamed k
  entryLeadingEdge _ h := h.entryLeadingEdge
  entryTrailingEdge _ h := h.entryTrailingEdge
  exitLeadingEdge _ h := h.exitLeadingEdge
  grantOne _ h := h.grantOne.closed
  drainTest _ h := h.drainTest
  maxOnEvent _ d h := h.maxOnEvent d
  recoveryEvent _ d h := h.recoveryEvent d
  pulseEvent _ d h := h.pulseEvent d
  deadlineEvent _ d h := h.deadlineEvent d
  confirmLeading _ d h := h.confirmLeading d
  confirmTrailing _ d h := h.confirmTrailing d
  chuteEvent _ d h := h.chuteEvent d
  lineStopChange _ level h := h.lineStopChange level
  runoffAll _ h := h.runoffAll
  reset s cause levels _ := closed_resetState cause levels s
  resetHeld s cause levels _ := (closed_resetState cause levels s).traffic _ _ _ _ _ _

/-- A millisecond keeps the law of the items (entry 2). -/
theorem Closed.millisecond (h : Closed True s) : Closed True (millisecond s) := by
  unfold Machine.millisecond
  split
  · exact h
  · exact (closedKept.startNext s h).traffic _ _ _ _ _ _

/-- Every step keeps the law of the items. -/
theorem Closed.step (h : Closed True s) (run : step s = .next t) : Closed True t := by
  unfold Machine.step at run
  split at run
  · exact closedKept.exec run (h.traffic _ _ _ _ _ _)
  · exact Host.Outcome.next.inj run ▸ h.millisecond

/-- Settles O4, tag by tag: `Closed True` says of every tag that it stands where its entry has to, each effect of an
order or an event keeps it (`closedKept`), and a delivery run ends because each delivery takes one off the run's
demand. -/
theorem trackingLawKept : Obligations.TrackingLawKept := by
  unfold Obligations.TrackingLawKept
  intro s t _ tags drives _ law run
  refine (closed_of_laws tags (fun d off => ⟨?_, ?_⟩) law |>.step run).tracking
  · by_contra pushes
    have energised := ((drives.1 d).pushing pushes).1
    rw [off] at energised
    cases energised
  · by_contra waits
    have waiting := (drives.1 d).waiting.mp (by simpa using waits)
    rw [off] at waiting
    cases waiting

end Sys2Proof.Machine
end

