-- ==== Sys2Proof/Proofs/LawsKept.lean ====
section
/-! PROOF. The laws of the line, the report queue, the tags and the link unit at every command and step: O57. -/

namespace Sys2Proof.Machine

variable {s t u : State}

/-! ### Commands and steps -/

/-- What a step keeps of the laws of the line, the report queue, the tags and the link unit. -/
structure KeepsLaws (s t : State) : Prop where
  line : LineLaw s → LineLaw t
  queue : QueueLaw s.queue → QueueLaw t.queue
  tags : TagLaw s → TagLaw t
  link : LinkLaw s.link → LinkLaw t.link

theorem KeepsLaws.refl (s : State) : KeepsLaws s s := ⟨id, id, id, id⟩

theorem Keeps.laws (h : Keeps s t) : KeepsLaws s t :=
  ⟨h.line, h.queue, h.tags, fun law => (h.link true true (law.upTo _ _)).whole⟩

theorem KeepsLaws.of_parts (h : (LineLaw s → LineLaw t) ∧ (QueueLaw s.queue → QueueLaw t.queue) ∧ (TagLaw s → TagLaw t)
    ∧ (LinkLaw s.link → LinkLaw t.link)) : KeepsLaws s t :=
  ⟨h.1, h.2.1, h.2.2.1, h.2.2.2⟩

/-- A command that is an event of the part keeps the laws when the event does. -/
theorem KeepsLaws.event {f : State → State} (h : KeepsLaws s (f s)) (run : event f s = .next t) : KeepsLaws s t := by
  unfold Machine.event at run
  obtain rfl := Host.Outcome.next.inj run
  split
  · exact .refl s
  · exact h

theorem KeepsLaws.stationEvent {n : Nat} {f : Station → State → State} (h : ∀ d, Keeps s (f d s))
    (run : stationEvent n f s = .next t) : KeepsLaws s t := by
  unfold Machine.stationEvent at run
  split at run
  · exact .event (h _).laws run
  · cases run

theorem KeepsLaws.order (k : OrderKind) {n : Half} {p : List Byte} (run : exec (k.command n p) s = .next t) :
    KeepsLaws s t :=
  .event (keeps_orderKind k n k.code p s).laws (exec_command k n p s ▸ run)

theorem KeepsLaws.unknownKind {n : Half} {k : Byte} {p : List Byte} (run : execUnknownKind n k p s = .next t) :
    KeepsLaws s t := by
  unfold execUnknownKind at run
  split at run
  · cases run
  · exact .event (keeps_takeOrder (keeps_answerOrder ruleKeeps_unknown n k p s)).laws run

/-- A reset leaves the laws true, whatever was before it (R131). -/
theorem keepsLaws_resetPart (cause : ResetCause) (levels : Levels) (s : State) :
    KeepsLaws s (resetPart cause levels s) := by
  obtain ⟨line, queue, tags, link⟩ := laws_resetPart cause levels s
  exact ⟨fun _ => line, fun _ => queue, fun _ => tags, fun _ => link⟩

theorem KeepsLaws.rstrReset {levels : Levels} (run : execRstrReset levels s = .next t) : KeepsLaws s t := by
  unfold execRstrReset at run
  obtain rfl := Host.Outcome.next.inj run
  split
  · exact keepsLaws_resetPart _ _ s
  · exact .refl s

theorem keepsLaws_receive (b : Byte) (s : State) : KeepsLaws s (receive b s) := .of_parts (laws_receive b s)

theorem keepsLaws_goodOrderByte (b : Byte) (s : State) : KeepsLaws s (goodOrderByte b s) := by
  unfold goodOrderByte
  split
  · exact keepsLaws_receive b s
  all_goals exact .refl s

theorem keepsLaws_discardByte (b : Byte) (s : State) : KeepsLaws s (discardByte b s) := by
  unfold discardByte
  split
  · exact keepsLaws_receive b s
  · exact keepsLaws_receive b s
  all_goals exact .refl s

theorem keepsLaws_gapExpiry (s : State) : KeepsLaws s (gapExpiry s) := by
  unfold gapExpiry
  split
  · exact .of_parts (laws_dropFrame s)
  · exact .refl s

/-- Every command that runs keeps the laws. -/
theorem KeepsLaws.exec {c : Instr} (run : exec c s = .next t) : KeepsLaws s t := by
  cases c
  case cfgl => exact .order .cfgl run
  case cfgd => exact .order .cfgd run
  case cmit => exact .order .cmit run
  case rdcf => exact .order .rdcf run
  case strt => exact .order .strt run
  case stop => exact .order .stop run
  case halt => exact .order .halt run
  case clr => exact .order .clr run
  case rstr => exact .order .rstr run
  case asgn => exact .order .asgn run
  case drop => exact .order .drop run
  case qitm => exact .order .qitm run
  case list => exact .order .list run
  case opnd => exact .order .opnd run
  case clsd => exact .order .clsd run
  case adjd => exact .order .adjd run
  case qdst => exact .order .qdst run
  case dena => exact .order .dena run
  case ddis => exact .order .ddis run
  case tfir => exact .order .tfir run
  case link => exact .order .link run
  case wind => exact .order .wind run
  case ack => exact .order .ack run
  case rsum => exact .order .rsum run
  case stat => exact .order .stat run
  case unknownKind => exact .unknownKind run
  case orderReplay => exact .event (keeps_replayOrder _ _ s).laws run
  case forwardTick => exact .event (keeps_forwardTick s).laws run
  case reverseTick => exact .event (keeps_reverseTick s).laws run
  case illegalTransition => exact .event (keeps_illegalTransition s).laws run
  case standstillTimerExpiry => exact .event (keeps_standstillExpiry s).laws run
  case fireWatch => exact .event (keeps_deliverNamed s _).laws run
  case runoffWatch => exact .event (keeps_deliverNamed s _).laws run
  case lateWatch => exact .stationEvent (fun _ => keeps_deliverNamed s _) run
  case releaseWatch => exact .stationEvent (fun _ => keeps_deliverNamed s _) run
  case lengthLimitWatch => exact .event (keeps_deliverNamed s _).laws run
  case entryEyeLeadingEdge => exact .event (work_entryLeadingEdge s).keeps.laws run
  case entryEyeTrailingEdge => exact .event (work_entryTrailingEdge s).keeps.laws run
  case exitEyeLeadingEdge => exact .event (work_exitLeadingEdge s).keeps.laws run
  case slotGrant =>
    exact .event (f := fun t => drainTest (grantOne t)) ((work_grantOne s).keeps.trans (keeps_drainTest _)).laws run
  case maxOnExpiry => exact .stationEvent (keeps_maxOnEvent s) run
  case recoveryTimerExpiry => exact .stationEvent (keeps_recoveryEvent s) run
  case pulseTimerExpiry => exact .stationEvent (keeps_pulseEvent s) run
  case deadlineTimerExpiry => exact .stationEvent (keeps_deadlineEvent s) run
  case confirmEyeLeadingEdge => exact .stationEvent (keeps_confirmLeading s) run
  case confirmEyeTrailingEdge => exact .stationEvent (keeps_confirmTrailing s) run
  case chuteTimerExpiry => exact .stationEvent (keeps_chuteEvent s) run
  case lineStopChange => exact .event (keeps_lineStopChange s _).laws run
  case drainComplete => exact .event (keeps_drainTest s).laws run
  case powerOn => exact Host.Outcome.next.inj run ▸ keepsLaws_resetPart _ _ s
  case pinReset => exact Host.Outcome.next.inj run ▸ keepsLaws_resetPart _ _ s
  case rstrReset => exact .rstrReset run
  case goodOrderFrame => exact .event (keepsLaws_goodOrderByte _ s) run
  case frameDiscard => exact .event (keepsLaws_discardByte _ s) run
  case characterFault => exact .event (.of_parts (laws_dropFrame s)) run
  case gapTimerExpiry => exact .event (keepsLaws_gapExpiry s) run
  case transmitComplete => exact .event (.of_parts (laws_transmitComplete s)) run
  case retryTimerExpiry => exact .event (keeps_retryExpiry s).laws run
  case supervisionTimerExpiry => exact .event (keeps_supervisionExpiry s).laws run
  case characterReceived => exact .event (keepsLaws_receive _ s) run

/-- Every step keeps the laws: the command at the front of the queue, or a millisecond (entry 2). -/
theorem KeepsLaws.step (run : step s = .next t) : KeepsLaws s t := by
  unfold Machine.step at run
  split at run
  · have kept := KeepsLaws.exec run
    exact ⟨kept.line, kept.queue, kept.tags, kept.link⟩
  · exact Host.Outcome.next.inj run ▸ .of_parts (laws_millisecond s)

end Sys2Proof.Machine

open Sys2Proof.Machine in
/-- Settles O57: each command and each millisecond keeps both laws (`KeepsLaws.step`). -/
theorem lineAndTagLawsKept : Obligations.LineAndTagLawsKept :=
  ⟨fun _ _ law run => (KeepsLaws.step run).line law, fun _ _ law run => (KeepsLaws.step run).tags law⟩
end

