-- ==== Sys2Proof/Proofs/LawsAtReset.lean ====
section
/-! PROOF. The laws right after power-on: O56. -/

namespace Sys2Proof.Machine

/-- The state after power-on is the reset state at the levels that it names (entry 1). -/
theorem resetState_reset : resetState .power Config.resetLevels State.reset = State.reset := by
  simp [resetState, State.reset, Config.resetLevels, rateOf]

theorem noSlotWasted_reset : NoSlotWasted State.reset := fun _ d => Vector.getElem_replicate d.isLt

end Sys2Proof.Machine

open Sys2Proof Sys2Proof.Machine in
/-- Settles O56: what every reset establishes, at the levels of `State.reset`. -/
theorem lawsAtReset : Obligations.LawsAtReset := by
  unfold Obligations.LawsAtReset
  obtain ⟨line, queue, tags, link⟩ := laws_resetState .power Config.resetLevels State.reset
  have closed := closed_resetState .power Config.resetLevels State.reset
  rw [resetState_reset] at line queue tags link closed
  exact ⟨line, tags, queue, link, drive_reset, noSlotWasted_reset, closed.tracking⟩
end

