-- ==== Sys2Proof/Proofs/LineStart.lean ====
section
/-! PROOF. Events and executed orders with their notices, and STRT: O16. -/

namespace Sys2Proof.Machine

variable {s t u : State} {number : Half} {payload : List Byte}

/-! ### Events and orders -/

theorem event_free (free : s.held = none) (f : State → State) : event f s = .next (f s) := by
  simp [event, free]

theorem stationEvent_free (free : s.held = none) (d : Station) (f : Station → State → State) :
    stationEvent (stationNumber d) f s = .next (f d s) := by
  unfold stationEvent
  rw [stationOf_stationNumber]
  exact event_free free (f d)

/-- What an executed order leaves, with its answer and its notices: an answer waits for a transmitter that is not free
(R149 to R152). -/
theorem exec_order_notices {k : OrderKind} {r : Reply} {l : List NoticeBody} (h : s.takes number k.code)
    (hr : k.rule payload s = (u, r)) (notices : Submitted l s u) :
    ∃ t, exec (k.command number payload) s = .next t ∧ Answered t number k.code r.bytes ∧ UnchangedBut answerParts u t
      ∧ Submitted l s t := by
  obtain ⟨t, run, answered, frame⟩ := exec_order h hr
  refine ⟨t, run, answered, frame, notices.answered frame fun busy => ?_⟩
  rw [exec_command, event_takes h] at run
  obtain rfl := Host.Outcome.next.inj run
  unfold answerOrder placeAnswer
  rw [startNext_busy]
  · rw [hr]
    rfl
  · rw [hr]
    exact busy

/-- A refused order changes nothing (R153). -/
theorem exec_refused {k : OrderKind} {r : Result} (h : s.takes number k.code) (hr : k.rule payload s = refuse r s) :
    ∃ t, exec (k.command number payload) s = .next t ∧ Answered t number k.code [r.code]
      ∧ UnchangedBut answerParts s t :=
  exec_order h hr

/-! ### STRT (R121) -/

/-- The conditions of STRT, rows 2 to 5 (R121). -/
theorem mayStart_iff : s.mayStart = true ↔
    s.line.state = .ready ∧ s.line.lineStop = .inactive ∧ s.counter.faultLatch = false ∧ ∃ d, s.installed d = true := by
  have any : s.config.diverters.any (·.installed) = true ↔ ∃ d, s.installed d = true := by
    rw [Vector.any_eq_true]
    exact ⟨fun ⟨i, hi, h⟩ => ⟨⟨i, hi⟩, h⟩, fun ⟨d, h⟩ => ⟨d, d.isLt, h⟩⟩
  simp only [State.mayStart, Bool.and_eq_true, beq_iff_eq, Bool.not_eq_true', any, and_assoc]

/-- What STRT answered DONE leaves, less its notice (R5, R29, R32, R121). -/
theorem startLine_eq (s : State) : startLine s = submitLine .ready .running .start { s with
    line := { s.line with state := .running, runPermit := true }
    counter := { s.counter with highWater := s.counter.position }
    induction := { s.induction with
      lastTrailing := none, hold := decide (s.config.line.holdThreshold ≤ s.table.length) } } := by
  unfold startLine
  rw [evaluateHold_eq]
  simp [State.holdAt, setLine, forgetTrailing, markHighWater]

theorem strt_rule (up : s.supervisor.state = .up) :
    OrderKind.strt.rule [] s = if s.mayStart then done (startLine s) else refuse .state s := by
  show strt [] s = _
  unfold strt
  rw [formChecked_formed ⟨rfl, by decide⟩, linkChecked_up up]

end Sys2Proof.Machine

open Sys2Proof Sys2Proof.Machine

/-- Settles O16: `mayStart_iff` gives the two cases, `startLine_eq` the state of a started line. -/
theorem strtStarts : Obligations.StrtStarts := by
  unfold Obligations.StrtStarts
  intro number s takes up
  have rule := strt_rule up
  rw [← mayStart_iff]
  refine ⟨fun may => ?_, fun may => ?_⟩
  · rw [if_pos may, startLine_eq] at rule
    obtain ⟨t, run, answered, frame, notices⟩ :=
      exec_order_notices takes rule (.of_queue (submitted_submit _ _) rfl rfl)
    refine ⟨t, run, answered, (frame .line (by decide)).trans (submit_line _ _),
      (frame .counter (by decide)).trans (submit_counter _ _),
      (frame .induction (by decide)).trans (submit_induction _ _), notices, ?_⟩
    refine UnchangedBut.mono (UnchangedBut.trans (UnchangedBut.trans (a := [.line, .counter, .induction]) ?_
      (frame_submit _ _)) frame) (by decide)
    intro p hp
    cases p <;> simp_all [Part.same]
  · rw [if_neg may] at rule
    exact exec_refused takes rule
end

