-- ==== Sys2Proof/Proofs/Halts.lean ====
section
/-! PROOF. A halt of the line and what asks for one: O19. -/

namespace Sys2Proof.Machine

variable {s t u : State} {c : HaltCause}

/-! ### A halt (R124, R125) -/

/-- Everything a halt does but its notice (R59, R84, R94, R125). -/
theorem haltsTo_freeze (c : HaltCause) (s : State) : HaltsTo c s (freeze c s) where
  line := rfl
  watches := rfl
  diverters d := diverter_freeze c s d
  slots := rfl
  monitors d := monitor_freeze c s d
  table := rfl
  induction := by
    unfold freeze
    rw [evaluateHold_eq]
    simp [State.holdAt, setLine, setSlot]

/-- A halt is told by the parts it reads and the parts it writes. -/
theorem HaltsTo.congr {s' t' : State} (h : HaltsTo c s t)
    (before : UnchangedBut [.counter, .supervisor, .queue, .transmitter] s' s)
    (after : UnchangedBut [.queue, .transmitter] t t') : HaltsTo c s' t' := by
  have line : s.line = s'.line := before .line (by decide)
  have diverters : s.diverters = s'.diverters := before .diverters (by decide)
  have arbiter : s.arbiter = s'.arbiter := before .arbiter (by decide)
  have monitors : s.monitors = s'.monitors := before .monitors (by decide)
  have table : s.table = s'.table := before .table (by decide)
  have induction : s.induction = s'.induction := before .induction (by decide)
  exact {
    line := (after .line (by decide)).trans (h.line.trans (by rw [line]))
    watches := (after .watches (by decide)).trans h.watches
    diverters := fun d => (congrArg (fun v : Vector Diverter 16 => v[d]) (after .diverters (by decide))).trans
      ((h.diverters d).trans (by unfold State.diverter; rw [diverters]))
    slots := (after .arbiter (by decide)).trans (h.slots.trans (by rw [arbiter]))
    monitors := fun d => (congrArg (fun v : Vector Monitor 16 => v[d]) (after .monitors (by decide))).trans
      ((h.monitors d).trans (by unfold State.monitor; rw [monitors]))
    table := (after .table (by decide)).trans (h.table.trans (by rw [table]))
    induction := (after .induction (by decide)).trans (h.induction.trans (by rw [induction])) }

theorem frame_freeze (c : HaltCause) (s : State) :
    UnchangedBut [.line, .watches, .diverters, .arbiter, .monitors, .table, .induction] s (freeze c s) := by
  intro p hp
  cases p <;> simp_all [Part.same, freeze, setLine, setSlot]

/-- A halt of a line, from a state that differs from `s` outside the halted parts alone. -/
theorem haltLine_spec (c : HaltCause) (s : State) : HaltsTo c s (haltLine c s)
    ∧ Submitted [.lineState s.line.state .halted (.halt c)] s (haltLine c s)
    ∧ UnchangedBut haltParts s (haltLine c s) :=
  ⟨(haltsTo_freeze c s).congr (unchanged_refl _ s) (frame_submit _ _), .of_queue (submitted_submit _ _) rfl rfl,
    ((frame_freeze c s).trans (frame_submit _ _)).mono (by decide)⟩

theorem requestHalt_working (working : s.line.state.working = true) : requestHalt c s = haltLine c s := if_pos working

theorem requestHalt_off (off : s.line.state.working = false) : requestHalt c s = s := by
  simp [requestHalt, off]

/-! ### The line stop input (R118) -/

theorem lineStopChange_released (stopped : s.line.lineStop = .active) :
    lineStopChange .inactive s = { s with line := { s.line with lineStop := .inactive } } := by
  simp [lineStopChange, stopped]

theorem lineStopChange_stopped (released : s.line.lineStop = .inactive) :
    lineStopChange .active s = requestHalt .lineStop { s with line := { s.line with lineStop := .active } } := by
  simp [lineStopChange, released]

end Sys2Proof.Machine

open Sys2Proof Sys2Proof.Machine

/-- Settles O19: both events record their level or their latch first and then ask for a halt (`haltLine_spec`). -/
theorem fieldHalts : Obligations.FieldHalts := by
  unfold Obligations.FieldHalts
  refine ⟨fun s free => ⟨fun level same => ?_, fun stopped => ?_, fun released off => ?_, fun released working => ?_⟩,
    fun s free => ⟨_, event_free free _, ?_⟩⟩
  · refine (event_free free (lineStopChange level)).trans ?_
    rw [lineStopChange, if_pos same]
  · refine ⟨_, event_free free (lineStopChange .inactive), ?_⟩
    rw [lineStopChange_released stopped]
    exact ⟨rfl, fun p hp => by cases p <;> simp_all [Part.same]⟩
  · refine ⟨_, event_free free (lineStopChange .active), ?_⟩
    rw [(lineStopChange_stopped released).trans (requestHalt_off off)]
    exact ⟨rfl, fun p hp => by cases p <;> simp_all [Part.same]⟩
  · refine ⟨_, event_free free (lineStopChange .active), ?_⟩
    rw [(lineStopChange_stopped released).trans (requestHalt_working working)]
    obtain ⟨halts, notices, frame⟩ := haltLine_spec .lineStop { s with line := { s.line with lineStop := .active } }
    refine ⟨halts, notices.of_queue rfl rfl, fun p hp => ?_⟩
    have same := frame p hp
    cases p <;> simp_all [Part.same, haltParts]
  · have frame : UnchangedBut [.counter] s { s with counter := s.counter.illegal } := fun p hp => by
      cases p <;> simp_all [Part.same]
    obtain ⟨halts, notices, halted⟩ := haltLine_spec .encoder { s with counter := s.counter.illegal }
    cases latch : s.counter.faultLatch
    · cases working : s.line.state.working
      · have run : illegalTransition s = { s with counter := s.counter.illegal } := by
          rw [illegalTransition, latch]
          exact requestHalt_off working
        rw [run]
        exact ⟨rfl, fun c => absurd c (by simp), fun _ => frame⟩
      · have run : illegalTransition s = haltLine .encoder { s with counter := s.counter.illegal } := by
          rw [illegalTransition, latch]
          exact requestHalt_working working
        rw [run]
        exact ⟨halted .counter (by decide),
          fun _ _ => ⟨halts.congr (frame.mono (by decide)) (unchanged_refl _ _), notices.of_queue rfl rfl,
            (frame.trans halted).mono (by decide)⟩, fun c => absurd c (by simp)⟩
    · have run : illegalTransition s = { s with counter := s.counter.illegal } := by
        rw [illegalTransition, latch]
        rfl
      rw [run]
      exact ⟨rfl, fun _ c => absurd c (by simp), fun _ => frame⟩
end

