-- ==== Sys2Proof/Proofs/Redirections.lean ====
section
/-! PROOF. Entries that take another way: the entry, its watch and its unit, and the rules of ASGN and DROP. -/

namespace Sys2Proof.Machine

variable {s t u : State} {tag : Tag} {e e' : Entry} {d : Station} {number : Half} {payload : List Byte}
  {p : Position} {k : WatchKind}

/-! ### An entry takes another way (R14, R37, R43) -/

/-- The entry with a tag became `e'`, its watch was replaced by one of kind `k` at `p`, and no other entry changed. -/
structure Redirected (tag : Tag) (e' : Entry) (p : Position) (k : WatchKind) (s t : State) : Prop where
  entry : t.entry tag = some e'
  others : ∀ tag', tag' ≠ tag → t.entry tag' = s.entry tag'
  watches : t.watches = insertSorted ⟨p, k⟩ (s.watches.filter (fun w => w.kind.tag? != some tag))

theorem entry_congr (h : t.table = s.table) : t.entry = s.entry := by
  funext x
  exact congrArg (List.find? fun e => e.tag == x) h

/-- What surrounds the redirection of an entry and keeps the table and the watches does not matter to it. -/
theorem Redirected.congr {s' t' : State} (h : Redirected tag e' p k s t) (table : s.table = s'.table)
    (watches : s.watches = s'.watches) (table' : t'.table = t.table) (watches' : t'.watches = t.watches) :
    Redirected tag e' p k s' t' where
  entry := (congrFun (entry_congr table') tag).trans h.entry
  others x ne := (congrFun (entry_congr table') x).trans ((h.others x ne).trans (congrFun (entry_congr table) x))
  watches := watches'.trans (h.watches.trans (by rw [watches]))

theorem redirected_setEntry (found : s.entry tag = some e) {f : Entry → Entry} (keeps : ∀ x, (f x).tag = x.tag) :
    Redirected tag (f e) p k s (insertWatch p k (removeWatch tag (setEntry tag f s))) where
  entry := (entry_setEntry s tag f keeps).trans (by rw [found]; rfl)
  others _ ne := entry_setEntry_ne s ne f keeps
  watches := rfl

theorem frame_redirected (f : Entry → Entry) (s : State) :
    UnchangedBut [.table, .watches] s (insertWatch p k (removeWatch tag (setEntry tag f s))) := by
  intro x hx
  cases x <;> simp_all [Part.same]

/-- An item sent to the run-off ahead of its run-off point (R14, R37). -/
theorem redirected_sendToRunoff (found : s.entry tag = some e)
    (ahead : reached s.counter.position (runoffPoint s.config.line e) = false) (r : Reason) :
    Redirected tag { e with state := .travelling, target := .runOff, reason := r } (runoffPoint s.config.line e)
        (.runoff tag) s (sendToRunoff tag r s)
      ∧ UnchangedBut [.table, .watches] s (sendToRunoff tag r s) := by
  rw [sendToRunoff_ahead found ahead]
  exact ⟨redirected_setEntry (f := fun e => { e with state := .travelling, target := .runOff, reason := r }) found
    (fun _ => rfl), frame_redirected _ s⟩

/-- The model's record of a returned unit is the one R105 gives. -/
theorem giveBack_eq (r : DestRecord) : r.giveBack = r.minusOne := by
  simp [DestRecord.giveBack, DestRecord.minusOne, DestRecord.counted]

/-- An item that holds a unit, given back to the belt ahead of its run-off point (R37, R105). -/
theorem redirected_giveBackToBelt (found : s.entry tag = some e) (unit : e.reservedWith = some d)
    (ahead : reached s.counter.position (runoffPoint s.config.line e) = false) (r : Reason) :
    Redirected tag { e with state := .travelling, target := .runOff, reason := r, reservedWith := none }
        (runoffPoint s.config.line e) (.runoff tag) s (giveBackToBelt tag r s)
      ∧ (giveBackToBelt tag r s).destination d = (s.destination d).minusOne
      ∧ (∀ d', d' ≠ d → (giveBackToBelt tag r s).destination d' = s.destination d')
      ∧ UnchangedBut [.table, .watches, .destinations] s (giveBackToBelt tag r s) := by
  have returned : (setEntry tag (fun e => { e with reservedWith := none })
      (setDestination d DestRecord.giveBack s)).entry
      tag = some { e with reservedWith := none } :=
    (entry_setEntry _ tag (fun e => { e with reservedWith := none }) (fun _ => rfl)).trans (by
      rw [entry_congr (setDestination_table d _ s), found]
      rfl)
  obtain ⟨moved, frame⟩ := redirected_sendToRunoff returned ahead r
  have split : giveBackToBelt tag r s = sendToRunoff tag r
      (setEntry tag (fun e => { e with reservedWith := none }) (setDestination d DestRecord.giveBack s)) := by
    rw [giveBackToBelt, returnUnit, found, Option.bind_some, unit]
  have destination (x : Station) : (giveBackToBelt tag r s).destination x
      = (setDestination d DestRecord.giveBack s).destination x := by
    rw [split]
    exact congrArg (fun v : Vector DestRecord 16 => v[x]) (frame .destinations (by decide))
  refine ⟨⟨?_, fun x ne => ?_, ?_⟩, ?_, fun x ne => ?_, ?_⟩
  · rw [split]
    exact moved.entry
  · rw [split, moved.others x ne]
    exact entry_setEntry_ne (setDestination d DestRecord.giveBack s) ne _ (fun _ => rfl)
  · rw [split]
    exact moved.watches
  · rw [destination, destination_setDestination, giveBack_eq]
  · rw [destination, destination_setDestination_ne s ne]
  · rw [split]
    refine UnchangedBut.mono (UnchangedBut.trans (a := [.table, .destinations]) ?_ frame) (by decide)
    intro x hx
    cases x <;> simp_all [Part.same]

/-! ### The checks of an item order (R40, R150) -/

theorem ofNumber_number (x : Dest) : Dest.ofNumber x.number = some x := by
  cases x with
  | runOff => rfl
  | station d =>
    rw [Dest.ofNumber, Dest.number, stationOf_stationNumber, if_neg (by simp [stationNumber])]
    rfl

theorem lineChecked_working (up : s.supervisor.state = .up) (working : s.line.state.working = true) (own : OrderRule) :
    lineChecked own payload s = own payload s := by
  unfold lineChecked
  rw [linkChecked_up up, if_pos working]

theorem lineChecked_off (up : s.supervisor.state = .up) (off : s.line.state.working = false) (own : OrderRule) :
    lineChecked own payload s = refuse .state s := by
  unfold lineChecked
  rw [linkChecked_up up, off]
  rfl

theorem working_iff (l : LineState) : l.working = true ↔ l = .running ∨ l = .draining := by
  cases l <;> decide

/-! ### ASGN (R41 to R43) -/

/-- ASGN of an entry that its checks let through (R41, R42). -/
theorem asgn_rule (up : s.supervisor.state = .up) (working : s.line.state.working = true)
    (formed : OrderKind.asgn.formed payload) {x : Dest} (names : number1 payload 2 = x.number)
    (installed : s.destInstalled x = true) (found : s.entry (halfAt payload 0) = some e) (own : e.reason.forced = false)
    (state : e.state = .travelling) (ahead : reached s.counter.position (s.destPoint x e) = false) :
    OrderKind.asgn.rule payload s = done (assignEntry x e s) := by
  show asgn payload s = _
  unfold asgn
  rw [formChecked_formed formed, lineChecked_working up working, names, ofNumber_number]
  simp [installed, found, own, state, ahead]

/-! ### DROP (R45) -/

/-- DROP in a working line (R40, R45). -/
theorem drop_rule (up : s.supervisor.state = .up) (working : s.line.state.working = true)
    (formed : OrderKind.drop.formed payload) :
    OrderKind.drop.rule payload s = match s.entry (halfAt payload 0) with
      | none => refuse .noSuchTag s
      | some e =>
        match e.state with
        | .travelling => done (sendToRunoff e.tag .dropped s)
        | .pending => done (dropPending e s)
        | _ => refuse .late s := by
  show drop payload s = _
  unfold drop
  rw [formChecked_formed formed, lineChecked_working up working]
  cases s.entry (halfAt payload 0) with
  | none => rfl
  | some e =>
    dsimp only
    cases e.state <;> rfl

/-- A WAITING diverter gives up its last item: it is IDLE and out of the waiting set (R45, R70). -/
theorem leavePending_last (waiting : (s.diverter d).state = .waiting)
    (last : (s.diverter d).pending.filter (fun x => x != tag) = []) :
    leavePending d tag s = setWaiting d false (setDiverter d (fun v => { v with state := .idle })
      (setDiverter d (fun v => { v with pending := v.pending.filter (fun x => x != tag) }) s)) := by
  unfold leavePending
  rw [if_pos]
  rw [diverter_setDiverter]
  exact ⟨waiting, last⟩

/-- A diverter that is not WAITING, or that holds more items, stays as it is but for its pending list (R45, R70). -/
theorem leavePending_more (more : (s.diverter d).state ≠ .waiting ∨
      (s.diverter d).pending.filter (fun x => x != tag) ≠ []) :
    leavePending d tag s = setDiverter d (fun v => { v with pending := v.pending.filter (fun x => x != tag) }) s := by
  unfold leavePending
  rw [if_neg]
  rw [diverter_setDiverter]
  exact fun c => more.elim (fun h => h c.1) (fun h => h c.2)

theorem frame_leavePending (d : Station) (tag : Tag) (s : State) :
    UnchangedBut [.diverters, .arbiter] s (leavePending d tag s) := by
  intro x hx
  unfold leavePending
  dsimp only
  split <;> cases x <;> simp_all [Part.same]

theorem leavePending_others {x : Station} (ne : x ≠ d) :
    (leavePending d tag s).diverter x = s.diverter x ∧ (leavePending d tag s).waits x = s.waits x := by
  unfold leavePending
  dsimp only
  split
  · exact ⟨by rw [diverter_setWaiting, diverter_setDiverter_ne _ ne, diverter_setDiverter_ne _ ne],
      by rw [waits_setWaiting_ne _ ne, waits_setDiverter, waits_setDiverter]⟩
  · exact ⟨diverter_setDiverter_ne s ne _, waits_setDiverter s _ _ _⟩

end Sys2Proof.Machine
end

