-- ==== Sys2Proof/Proofs/ItemWays.lean ====
section
/-! PROOF. ASGN and DROP: O22 and O24. -/

namespace Sys2Proof.Machine

variable {s : State} {tag : Tag} {e : Entry}

theorem tags_setEntry (s : State) (tag : Tag) {f : Entry → Entry} (keeps : ∀ x, (f x).tag = x.tag) :
    (setEntry tag f s).table.map (·.tag) = s.table.map (·.tag) := by
  unfold setEntry
  rw [List.map_map]
  refine List.map_congr_left fun x _ => ?_
  dsimp only [Function.comp_apply]
  split
  · exact keeps x
  · rfl

/-- The effect of an ASGN answered DONE (R14, R43). -/
theorem redirected_assignEntry (found : s.entry tag = some e) (x : Dest) :
    Redirected tag (e.assignedTo x) (s.destPoint x e)
      (match x with | .runOff => .runoff tag | .station _ => .fire tag) s
        (assignEntry x e s)
      ∧ (assignEntry x e s).table.map (·.tag) = s.table.map (·.tag)
      ∧ UnchangedBut [.table, .watches] s (assignEntry x e s) := by
  obtain rfl := tag_of_entry found
  refine ⟨?_, tags_setEntry s e.tag (f := Entry.assignedTo x) (fun _ => rfl), frame_redirected _ s⟩
  cases x <;> exact redirected_setEntry (f := Entry.assignedTo _) found (fun _ => rfl)

end Sys2Proof.Machine

open Sys2Proof Sys2Proof.Machine

/-- Settles O22: the checks let the order through (`asgn_rule`), and `assignEntry` redirects the entry. -/
theorem asgnAssigns : Obligations.AsgnAssigns := by
  unfold Obligations.AsgnAssigns
  intro number p x e s takes up line formed names installed found own state ahead
  obtain ⟨t, run, answered, frame⟩ := exec_order takes
    (asgn_rule up ((working_iff _).mpr line) formed names installed found own state ahead)
  obtain ⟨moved, tags, changed⟩ := redirected_assignEntry found x
  have table := frame .table (by decide)
  have sent := moved.congr rfl rfl table (frame .watches (by decide))
  refine ⟨t, run, answered, sent.entry.trans ?_, sent.others, (congrArg (List.map (·.tag)) table).trans tags, ?_, ?_,
    (changed.trans frame).mono (by decide)⟩
  · cases x <;> simp [Entry.assignedTo]
  · cases x <;> exact sent.watches
  · cases x <;> rfl

/-- Settles O24: the branches of DROP (`drop_rule`), with what an entry does that is sent or given back to the
run-off. -/
theorem dropSends : Obligations.DropSends := by
  unfold Obligations.DropSends
  intro number p s takes up formed
  refine ⟨fun off => ?_, fun working absent => ?_, fun e working found pushed => ?_,
    fun e working found state ahead => ?_, fun e d working found state target unit ahead => ?_⟩
  · refine exec_refused (r := .state) (payload := p) takes ?_
    show drop p s = _
    unfold drop
    rw [formChecked_formed formed, lineChecked_off up off]
  · refine exec_refused (r := .noSuchTag) takes ((drop_rule up working formed).trans ?_)
    rw [absent]
  · refine exec_refused (r := .late) takes ((drop_rule up working formed).trans ?_)
    rw [found]
    rcases pushed with state | state <;> simp only [state]
  · have rule := drop_rule up working formed
    rw [found] at rule
    simp only [state, tag_of_entry found] at rule
    obtain ⟨moved, changed⟩ := redirected_sendToRunoff found ahead .dropped
    obtain ⟨t, run, answered, frame⟩ := exec_order takes rule
    have sent := moved.congr rfl rfl (frame .table (by decide)) (frame .watches (by decide))
    exact ⟨t, run, answered, by rw [sent.entry, ← state], sent.others, sent.watches,
      (changed.trans frame).mono (by decide)⟩
  · have rule := drop_rule up working formed
    rw [found] at rule
    simp only [state, dropPending, target, tag_of_entry found] at rule
    obtain ⟨t, run, answered, frame⟩ := exec_order takes rule
    have left := frame_leavePending d (halfAt p 0) s
    have config := left .config (by decide)
    have counter := left .counter (by decide)
    have table := left .table (by decide)
    obtain ⟨moved, returned, others, changed⟩ := redirected_giveBackToBelt (r := .dropped)
      ((congrFun (entry_congr table) _).trans found) unit (by rw [config, counter]; exact ahead)
    have diverter (x : Station) : t.diverter x = (leavePending d (halfAt p 0) s).diverter x :=
      congrArg (fun v : Vector Diverter 16 => v[x])
        ((frame .diverters (by decide)).trans (changed .diverters (by decide)))
    have arbiter : t.arbiter = (leavePending d (halfAt p 0) s).arbiter :=
      (frame .arbiter (by decide)).trans (changed .arbiter (by decide))
    have destination (x : Station) : t.destination x
        = (giveBackToBelt (halfAt p 0) .dropped (leavePending d (halfAt p 0) s)).destination x :=
      congrArg (fun v : Vector DestRecord 16 => v[x]) (frame .destinations (by decide))
    have before (x : Station) : (leavePending d (halfAt p 0) s).destination x = s.destination x :=
      congrArg (fun v : Vector DestRecord 16 => v[x]) (left .destinations (by decide))
    have sent := moved.congr table (left .watches (by decide)) (frame .table (by decide)) (frame .watches (by decide))
    rw [config] at sent
    refine ⟨t, run, answered, sent.entry, sent.others, sent.watches,
      fun waiting last => ?_, fun more => ?_, fun x ne => ?_,
      ?_, ((left.trans changed).trans frame).mono (by decide)⟩
    · rw [diverter, arbiter, leavePending_last waiting last]
      exact ⟨by simp [last], by simp [setWaiting]⟩
    · rw [diverter, arbiter, leavePending_more more]
      exact ⟨by simp, rfl⟩
    · rw [destination, others x ne, before, diverter, (leavePending_others ne).1]
      refine ⟨rfl, ?_, rfl⟩
      exact (congrArg (fun a : Arbiter => a.waiting[x]) arbiter).trans (leavePending_others ne).2
    · rw [destination, returned, before]
      rfl
end

