-- ==== Sys2Proof/Proofs/Movement.lean ====
section
/-! PROOF. Quadrature decoding, movement and standstill: O40. -/

namespace Sys2Proof.Machine

variable {s t : State} {c k : PositionCounter} {w : Watch} {rest : List Watch}

/-! ### Quadrature decoding (R3) -/

theorem forward_of_classify {reference new : Sample} (h : classify reference new = .forward) :
    new = nextSample reference := by
  unfold classify at h
  split_ifs at h with _ next
  exact next

theorem reverse_of_classify {reference new : Sample} (h : classify reference new = .reverse) :
    new = prevSample reference := by
  unfold classify at h
  split_ifs at h with _ _ prev
  exact prev

/-! ### Movement (R8) -/

/-- The counter after a tick in standstill detection (R8): it counts as movement outside IDLE. -/
def State.movedBy (s : State) (k : PositionCounter) : PositionCounter :=
  { k with
    belt := if s.line.state = .idle then k.belt else .moving
    standstill :=
      if s.line.state = .idle then k.standstill
      else some (s.timeStamp + BitVec.ofNat 32 s.config.line.standstillTime) }

/-- A tick in standstill detection, with BELT(MOVING) when the belt flag was STOPPED outside IDLE (R8). -/
theorem standstillTick_counter (s : State) (k : PositionCounter) : standstillTick { s with counter := k } =
    if s.line.state ≠ .idle ∧ k.belt = .stopped then submit (.belt .moving) { s with counter := s.movedBy k }
    else { s with counter := s.movedBy k } := by
  unfold standstillTick State.movedBy
  by_cases idle : s.line.state = .idle
  · simp [idle]
  · simp [idle, timerFor, ticks]

/-- What a tick leaves before its deliveries or its test: the counter, and the notice of movement (R8). -/
theorem standstillTick_moves (s : State) (k : PositionCounter) :
    (standstillTick { s with counter := k }).counter = s.movedBy k
      ∧ Submitted (if s.line.state ≠ .idle ∧ k.belt = .stopped then [.belt .moving] else []) s
          (standstillTick { s with counter := k })
      ∧ UnchangedBut [.counter, .queue, .transmitter] s (standstillTick { s with counter := k }) := by
  have moved : UnchangedBut [.counter] s { s with counter := s.movedBy k } := fun p hp => by
    cases p <;> simp_all [Part.same]
  rw [standstillTick_counter]
  split
  · exact ⟨submit_counter _ _, .of_queue (submitted_submit _ _) rfl rfl,
      (moved.trans (frame_submit _ _)).mono (by decide)⟩
  · exact ⟨rfl, submitted_nil rfl (fun _ => rfl), moved.mono (by decide)⟩

/-- The standstill timer's expiry outside IDLE (R8). -/
theorem standstillExpiry_expired (line : s.line.state ≠ .idle) (due : expired s.counter.standstill s = true) :
    standstillExpiry s
      = submit (.belt .stopped) { s with counter := { s.counter with belt := .stopped, standstill := none } } :=
  if_pos ⟨line, due⟩

/-! ### Forward and reverse (R4 to R6) -/

/-- The counter of a forward tick is told by its fields (R3 to R5, R8). -/
theorem movedBy_forward (position : c.position = s.counter.position + 1)
    (reference : classify s.counter.reference c.reference = .forward)
    (highWater : c.highWater = if 0 < (s.counter.position + 1 - s.counter.highWater).toInt then s.counter.position + 1
      else s.counter.highWater) (latch : c.faultLatch = s.counter.faultLatch)
    (belt : c.belt = if s.line.state = .idle then s.counter.belt else .moving)
    (standstill : c.standstill = if s.line.state = .idle then s.counter.standstill
      else some (s.timeStamp + BitVec.ofNat 32 s.config.line.standstillTime)) :
    s.movedBy s.counter.forward = c := by
  have sample := forward_of_classify reference
  cases c
  simp_all [State.movedBy, PositionCounter.forward]

/-- The counter of a reverse tick is told by its fields (R3 to R5, R8). -/
theorem movedBy_backward (position : c.position = s.counter.position - 1)
    (reference : classify s.counter.reference c.reference = .reverse) (highWater : c.highWater = s.counter.highWater)
    (latch : c.faultLatch = s.counter.faultLatch)
    (belt : c.belt = if s.line.state = .idle then s.counter.belt else .moving)
    (standstill : c.standstill = if s.line.state = .idle then s.counter.standstill
      else some (s.timeStamp + BitVec.ofNat 32 s.config.line.standstillTime)) :
    s.movedBy s.counter.backward = c := by
  have sample := reverse_of_classify reference
  cases c
  simp_all [State.movedBy, PositionCounter.backward]

end Sys2Proof.Machine

open Sys2Proof Sys2Proof.Machine

/-- Settles O40: the tick moves the counter (`standstillTick_moves`), and an excursion above the tolerance asks for a
halt. -/
theorem reverseTickAndStandstill : Obligations.ReverseTickAndStandstill := by
  unfold Obligations.ReverseTickAndStandstill
  refine ⟨fun c s free position reference highWater latch belt standstill => ⟨_, event_free free reverseTick, ?_⟩,
    fun s free => ⟨fun line due => ⟨_, event_free free standstillExpiry, ?_⟩, fun still => ?_⟩⟩
  · obtain ⟨counter, notices, frame⟩ := standstillTick_moves s s.counter.backward
    rw [movedBy_backward position reference highWater latch belt standstill] at counter
    unfold reverseTick reverseTest
    generalize standstillTick { s with counter := s.counter.backward } = u at counter notices frame ⊢
    have line : u.line = s.line := frame .line (by decide)
    have config : u.config = s.config := frame .config (by decide)
    rw [config, counter]
    by_cases far : s.config.line.reverseTolerance < excursion c
    · rw [if_pos far]
      cases working : s.line.state.working
      · rw [requestHalt_off (by rw [line]; exact working)]
        exact ⟨counter, fun c => absurd c (by simp), fun _ => ⟨notices, frame⟩⟩
      · have busy : s.line.state ≠ .idle := fun idle => absurd working (by rw [idle]; decide)
        rw [requestHalt_working (by rw [line]; exact working)]
        obtain ⟨halts, notice, halted⟩ := haltLine_spec .reverse u
        refine ⟨(halted .counter (by decide)).trans counter, fun _ _ => ⟨halts.congr (frame.mono (by decide))
          (unchanged_refl _ _), ?_, (frame.trans halted).mono (by decide)⟩, fun near => ?_⟩
        · rw [← line]
          refine Submitted.trans ?_ notice (halted .timeStamp (by decide))
            (congrArg PositionCounter.position (halted .counter (by decide)))
          simpa [busy, PositionCounter.backward] using notices
        · exact absurd near (by simpa [excursion] using far)
    · rw [if_neg far]
      exact ⟨counter, fun _ beyond => absurd beyond far, fun _ => ⟨notices, frame⟩⟩
  · rw [standstillExpiry_expired line due]
    exact ⟨submit_counter _ _, .of_queue (submitted_submit _ _) rfl rfl,
      fun p hp => by cases p <;> simp_all [Part.same]⟩
  · refine (event_free free standstillExpiry).trans ?_
    rw [standstillExpiry, if_neg]
    rintro ⟨line, due⟩
    exact still.elim line (by simp [due])
end

