-- ==== Sys2Proof/Proofs/ForwardRuns.lean ====
section
/-! PROOF. Delivery runs and the delivery commands: O39. -/

namespace Sys2Proof.Machine

variable {s t : State} {w : Watch} {rest : List Watch}

/-! ### Delivery runs (R12) -/

theorem dueWatch_reached (first : s.watches = w :: rest) (due : reached s.counter.position w.position = true) :
    s.dueWatch = some w := by
  simp [State.dueWatch, first, due]

theorem dueWatch_ahead (ahead : ∀ w ∈ s.watches.head?, reached s.counter.position w.position = false) :
    s.dueWatch = none := by
  unfold State.dueWatch
  cases first : s.watches with
  | nil => rfl
  | cons w rest => simp [ahead w (by simp [first])]

theorem deliveryRun_none (m : Nat) (none : s.dueWatch = none) : deliveryRun m s = s := by
  cases m with
  | zero => rfl
  | succ m =>
    unfold deliveryRun
    rw [none]

/-- A run delivers the first watch again and again, until none is reached (R12). -/
theorem deliveryRun_steps (n : Nat) (v : Nat → State) (each : ∀ i < n, ∃ w rest, (v i).watches = w :: rest
      ∧ reached (v i).counter.position w.position = true ∧ v (i + 1) = deliver w (v i))
    (last : ∀ w ∈ (v n).watches.head?, reached (v n).counter.position w.position = false) (m : Nat) (enough : n ≤ m) :
    deliveryRun m (v 0) = v n := by
  induction n generalizing v m with
  | zero => exact deliveryRun_none m (dueWatch_ahead last)
  | succ n ih =>
    obtain ⟨m, rfl⟩ : ∃ k, m = k + 1 := ⟨m - 1, by omega⟩
    obtain ⟨w, rest, first, due, next⟩ := each 0 (Nat.succ_pos n)
    have one : deliveryRun (m + 1) (v 0) = deliveryRun m (deliver w (v 0)) := by
      rw [deliveryRun, dueWatch_reached first due]
    rw [one, ← next]
    exact ih (fun i => v (i + 1)) (fun i hi => each (i + 1) (by omega)) last m (by omega)

/-- The command of a watch is one delivery (entry 12). -/
theorem exec_watch (free : s.held = none) (k : WatchKind) : exec k.command s = .next (deliverNamed k s) := by
  cases k with
  | fire tag => exact event_free free _
  | runoff tag => exact event_free free _
  | late d tag => exact stationEvent_free free d fun d => deliverNamed (.late d tag)
  | release d tag => exact stationEvent_free free d fun d => deliverNamed (.release d tag)
  | lengthLimit => exact event_free free _

/-! ### The counter and the drain test -/

theorem drainTest_keeps (s : State) : (drainTest s).counter = s.counter ∧ (drainTest s).timeStamp = s.timeStamp
    ∧ (drainTest s).config = s.config := by
  obtain ⟨-, -, drained, not⟩ := drainTest_spec s
  by_cases h : s.isDrained
  · exact ⟨drained h .counter (by decide), drained h .timeStamp (by decide), drained h .config (by decide)⟩
  · rw [not h]
    exact ⟨rfl, rfl, rfl⟩

/-- An OFF diverter pushes nothing and waits for nothing (R63). -/
theorem DriveLaw.off_quiet (law : DriveLaw s) (d : Station) (off : (s.diverter d).state = .off) :
    (s.diverter d).push = [] ∧ s.waits d = false := by
  constructor
  · by_contra pushes
    exact absurd (off.symm.trans ((law.1 d).pushing pushes).1) (by decide)
  · by_contra waits
    exact absurd (off.symm.trans ((law.1 d).waiting.mp (by simpa using waits))) (by decide)

theorem isDrained_congr (line : t.line = s.line) (table : t.table = s.table) (diverters : t.diverters = s.diverters) :
    t.isDrained ↔ s.isDrained := by
  unfold State.isDrained State.diverter
  rw [line, table, diverters]

end Sys2Proof.Machine

open Sys2Proof Sys2Proof.Machine

/-- Settles O39: the tick moves the counter (`standstillTick_moves`), the run is `deliveryRun_steps`, and under the
laws it leaves no watch reached (`Closed.forwardTick`). -/
theorem forwardTickCounts : Obligations.ForwardTickCounts := by
  unfold Obligations.ForwardTickCounts
  refine ⟨?_, fun c s free position reference highWater latch belt standstill => ?_, fun w rest s free first due => ?_⟩
  · rintro ⟨a, b⟩ ⟨c, d⟩
    revert a b c d
    decide
  · have moved := movedBy_forward position reference highWater latch belt standstill
    obtain ⟨counter, notices, frame⟩ := standstillTick_moves s s.counter.forward
    have tick := standstillTick_counter s s.counter.forward
    have run : forwardTick s = drainTest (runDeliveries (standstillTick { s with counter := s.counter.forward })) := rfl
    rw [moved] at counter tick
    generalize standstillTick { s with counter := s.counter.forward } = u at counter notices frame tick run
    have watches : u.watches = s.watches := frame .watches (by decide)
    refine ⟨⟨_, event_free free forwardTick, ?_⟩, fun ahead busy => ⟨_, event_free free forwardTick, ?_⟩,
      fun n v start each last few => (event_free free forwardTick).trans ?_,
      fun _ tags drives _ law => ⟨_, event_free free forwardTick, ?_⟩⟩
    · obtain ⟨a, b, e⟩ := drainTest_keeps (runDeliveries u)
      have delivered := work_deliveryRun u u.runBound
      rw [run]
      exact ⟨a.trans (delivered.counter.trans counter),
        b.trans (delivered.timeStamp.trans (frame .timeStamp (by decide))),
        e.trans (delivered.config.trans (frame .config (by decide)))⟩
    · have still : u.dueWatch = none := by
        refine dueWatch_ahead fun w first => ?_
        rw [watches] at first
        rw [counter]
        rcases ahead with none | ⟨x, rest, front, ahead⟩
        · simp [none] at first
        · rw [front] at first
          exact Option.some.inj first ▸ ahead
      have same := isDrained_congr (frame .line (by decide)) (frame .table (by decide)) (frame .diverters (by decide))
      rw [run, runDeliveries, deliveryRun_none _ still, drainTest_not (mt same.mp busy)]
      exact ⟨notices, frame⟩
    · rw [run, runDeliveries, State.runBound, watches, tick.trans start.symm, deliveryRun_steps n v each last _ few]
    · exact (closed_of_laws tags drives.off_quiet law).forwardTick.base.list.ahead trivial
  · rw [exec_watch free]
    unfold deliverNamed
    rw [dueWatch_reached first due]
    simp
end

