-- ==== Sys2Proof/Proofs/Losses.lean ====
section
/-! PROOF. RUNOFF_ALL at one entry and at all of them in table order. -/

namespace Sys2Proof.Machine

variable {s t u : State} {tag : Tag} {e : Entry} {d : Station}

/-! ### RUNOFF_ALL, entry by entry (R105, R167) -/

/-- RUNOFF_ALL sends this entry: TRAVELLING or PENDING toward a station (R167). -/
def Entry.sentOff (e : Entry) : Bool := e.target != .runOff && (e.state == .travelling || e.state == .pending)

/-- The entry holds a place in the pending list of station `d` (R36). -/
def Entry.pendingAt (d : Station) (e : Entry) : Bool := e.state == .pending && e.target == .station d

/-- An entry after RUNOFF_ALL (R37, R105, R167). -/
def Entry.lost (e : Entry) : Entry :=
  if e.target ≠ .runOff ∧ (e.state = .travelling ∨ e.state = .pending) then
    { e with
      state := .travelling, target := .runOff, reason := .linkLost
      reservedWith := if e.state = .pending then none else e.reservedWith }
  else e

@[simp] theorem lost_tag (e : Entry) : e.lost.tag = e.tag := by
  unfold Entry.lost
  split <;> rfl

/-- What the loss of the link may do to a diverter and to the waiting set: items leave the pending list, and a WAITING
diverter may become IDLE (R167). -/
structure HeldLess (s t : State) : Prop where
  diverter : ∀ d, t.diverter d
    = { s.diverter d with pending := (t.diverter d).pending, state := (t.diverter d).state }
  state : ∀ d, (t.diverter d).state = (s.diverter d).state
    ∨ (s.diverter d).state = .waiting ∧ (t.diverter d).state = .idle
  arbiter : t.arbiter = { s.arbiter with waiting := t.arbiter.waiting }

theorem HeldLess.trans (h : HeldLess s t) (k : HeldLess t u) : HeldLess s u where
  diverter d := by rw [k.diverter d, h.diverter d]
  state d := by
    rcases k.state d with same | ⟨waiting, idle⟩
    · rw [same]
      exact h.state d
    · rcases h.state d with same | ⟨_, other⟩
      · exact .inr ⟨same ▸ waiting, idle⟩
      · exact absurd (other.symm.trans waiting) (by decide)
  arbiter := by rw [k.arbiter, h.arbiter]

theorem SameDrives.heldLess (h : SameDrives s t) : HeldLess s t where
  diverter d := by rw [h.diverter d]
  state d := .inl (by rw [h.diverter d])
  arbiter := by rw [h.arbiter]

theorem heldLess_leavePending (d : Station) (tag : Tag) (s : State) : HeldLess s (leavePending d tag s)
    ∧ ((leavePending d tag s).diverter d).pending = (s.diverter d).pending.filter (fun x => x != tag) := by
  by_cases last : (s.diverter d).state = .waiting ∧ (s.diverter d).pending.filter (fun x => x != tag) = []
  · rw [leavePending_last last.1 last.2]
    refine ⟨⟨fun x => ?_, fun x => ?_, rfl⟩, by simp⟩
    · by_cases own : x = d
      · subst own
        simp
      · simp only [diverter_setWaiting, diverter_setDiverter_ne _ own]
    · by_cases own : x = d
      · subst own
        exact .inr ⟨last.1, by simp⟩
      · exact .inl (by simp only [diverter_setWaiting, diverter_setDiverter_ne _ own])
  · rw [leavePending_more (not_and_or.mp last)]
    refine ⟨⟨fun x => ?_, fun x => .inl ?_, rfl⟩, by simp⟩
    · by_cases own : x = d
      · subst own
        simp
      · simp only [diverter_setDiverter_ne _ own]
    · by_cases own : x = d
      · subst own
        simp
      · simp only [diverter_setDiverter_ne _ own]

theorem setEntry_setEntry (s : State) (tag : Tag) (f g : Entry → Entry) (keeps : ∀ x, (g x).tag = x.tag) :
    setEntry tag f (setEntry tag g s) = setEntry tag (fun x => f (g x)) s := by
  unfold setEntry
  simp only [List.map_map]
  congr 1
  refine List.map_congr_left fun x _ => ?_
  simp only [Function.comp_apply]
  by_cases own : x.tag == tag
  · simp [own, keeps]
  · simp [own]

theorem entry_of_nodup (distinct : (s.table.map (·.tag)).Nodup) (m : e ∈ s.table) : s.entry e.tag = some e := by
  obtain ⟨x, found⟩ := (entry_iff_mem s e.tag).mpr (List.mem_map_of_mem m)
  rw [found, List.inj_on_of_nodup_map distinct (mem_of_entry found) m (tag_of_entry found)]

/-- RUNOFF_ALL has acted on the entries of a list, in its order (R105, R167). -/
structure LosesItems (l : List Entry) (s t : State) : Prop where
  table : ∀ a c, s.table = a ++ l ++ c → (s.table.map (·.tag)).Nodup → t.table = a ++ l.map Entry.lost ++ c
  watches : t.watches = runoffWatches s.config.line (l.filter Entry.sentOff) s.watches
  pending : ∀ d x, x ∈ (t.diverter d).pending →
    x ∈ (s.diverter d).pending ∧ ∀ e ∈ l, e.pendingAt d = true → e.tag ≠ x
  drives : HeldLess s t
  destination : ∀ d, t.destination d = DestRecord.minusOne^[l.countP (Entry.pendingAt d)] (s.destination d)
  frame : UnchangedBut [.table, .watches, .diverters, .arbiter, .destinations] s t

theorem LosesItems.nil (s : State) : LosesItems [] s s where
  table a c h _ := by simpa using h
  watches := rfl
  pending _ _ m := ⟨m, by simp⟩
  drives := (SameDrives.refl s).heldLess
  destination _ := rfl
  frame := unchanged_refl _ s

theorem LosesItems.cons {l : List Entry} (h : LosesItems [e] s t) (k : LosesItems l t u) : LosesItems (e :: l) s u where
  table a c table distinct := by
    have first := h.table a (l ++ c) (by simpa using table) distinct
    have rest := k.table (a ++ [e.lost]) c (by simpa using first) (by
      rw [first]
      rw [table] at distinct
      simpa using distinct)
    simpa using rest
  watches := by
    rw [k.watches, h.watches, (h.frame .config (by decide) : t.config = s.config), ← runoffWatches_append,
      ← List.filter_append]
    rfl
  pending d x m := by
    obtain ⟨held, rest⟩ := k.pending d x m
    obtain ⟨held, first⟩ := h.pending d x held
    exact ⟨held, List.forall_mem_cons.mpr ⟨first e (by simp), rest⟩⟩
  drives := h.drives.trans k.drives
  destination d := by
    rw [k.destination, h.destination, ← Function.iterate_add_apply, ← List.countP_append]
    exact congrArg (fun n => DestRecord.minusOne^[n] _) (List.Perm.countP_eq _ List.perm_append_comm)
  frame := (h.frame.trans k.frame).mono (by decide)

theorem table_redirected {a c : List Entry} {f : Entry → Entry} (found : s.entry e.tag = some e)
    (table : s.table = a ++ [e] ++ c) (distinct : (s.table.map (·.tag)).Nodup) :
    (setEntry e.tag f s).table = a ++ [f e] ++ c := by
  have split : s.table = a ++ e :: c := by simpa using table
  rw [split] at distinct
  simp only [List.map_append, List.map_cons, List.nodup_append, List.nodup_cons,
    List.mem_cons, List.mem_map] at distinct
  obtain ⟨_, ⟨after, _⟩, apart⟩ := distinct
  rw [table_setEntry found split (fun x m => apart _ ⟨x, m, rfl⟩ _ (.inl rfl)) (fun x m same => after ⟨x, m, same⟩) f]
  simp

theorem losesItems_travelling (found : s.entry e.tag = some e) (state : e.state = .travelling)
    (target : e.target = .station d) (ahead : reached s.counter.position (runoffPoint s.config.line e) = false) :
    LosesItems [e] s (sendToRunoff e.tag .linkLost s) := by
  have sent : e.sentOff = true := by simp [Entry.sentOff, state, target]
  have stays (x : Station) : e.pendingAt x = false := by simp [Entry.pendingAt, state]
  have drives := same_sendToRunoff s e.tag .linkLost
  obtain ⟨moved, frame⟩ := redirected_sendToRunoff found ahead .linkLost
  refine ⟨fun a c table distinct => ?_, ?_, fun x y m => ?_, drives.heldLess, fun x => ?_, frame.mono (by decide)⟩
  · rw [sendToRunoff_ahead found ahead]
    refine (table_redirected found table distinct).trans ?_
    simp [Entry.lost, state, target]
  · rw [moved.watches]
    simp [sent, runoffWatches, replacedWatches]
  · rw [drives.diverter] at m
    exact ⟨m, by simp [stays]⟩
  · simp only [List.countP_singleton, stays]
    exact congrArg (fun v : Vector DestRecord 16 => v[x]) (frame .destinations (by decide))

theorem losesItems_pending (found : s.entry e.tag = some e) (state : e.state = .pending)
    (target : e.target = .station d)
    (unit : e.reservedWith = some d) (ahead : reached s.counter.position (runoffPoint s.config.line e) = false) :
    LosesItems [e] s (giveBackToBelt e.tag .linkLost (leavePending d e.tag s)) := by
  have sent : e.sentOff = true := by simp [Entry.sentOff, state, target]
  have own (x : Station) : e.pendingAt x = decide (d = x) := by
    rw [Bool.eq_iff_iff]
    simp [Entry.pendingAt, state, target]
  obtain ⟨held, pending⟩ := heldLess_leavePending d e.tag s
  have left := frame_leavePending d e.tag s
  have table' : (leavePending d e.tag s).table = s.table := left .table (by decide)
  have config : (leavePending d e.tag s).config = s.config := left .config (by decide)
  have position : (leavePending d e.tag s).counter = s.counter := left .counter (by decide)
  have found' : (leavePending d e.tag s).entry e.tag = some e := (congrFun (entry_congr table') e.tag).trans found
  have ahead' : reached (leavePending d e.tag s).counter.position (runoffPoint (leavePending d e.tag s).config.line e)
      = false := by rw [position, config]; exact ahead
  have drives := same_giveBackToBelt (leavePending d e.tag s) e.tag .linkLost
  obtain ⟨moved, returned, others, frame⟩ := redirected_giveBackToBelt found' unit ahead' .linkLost
  have before (x : Station) : (leavePending d e.tag s).destination x = s.destination x :=
    congrArg (fun v : Vector DestRecord 16 => v[x]) (left .destinations (by decide))
  refine ⟨fun a c table distinct => ?_, ?_, fun x y m => ?_, held.trans drives.heldLess, fun x => ?_,
    (left.trans frame).mono (by decide)⟩
  · rw [giveBackToBelt_ahead found' unit ahead']
    show (setEntry e.tag _ (setEntry e.tag _ (setDestination d DestRecord.giveBack (leavePending d e.tag s)))).table = _
    rw [setEntry_setEntry]
    · refine (table_redirected found' (table'.trans table) (table'.symm ▸ distinct)).trans ?_
      simp [Entry.lost, state, target]
    · exact fun _ => rfl
  · rw [moved.watches, (left .watches (by decide) : (leavePending d e.tag s).watches = s.watches), config]
    simp [sent, runoffWatches, replacedWatches]
  · rw [drives.diverter] at m
    by_cases same : x = d
    · subst same
      rw [pending, List.mem_filter] at m
      exact ⟨m.1, fun z hz _ same => bne_iff_ne.mp m.2 (List.mem_singleton.mp hz ▸ same.symm)⟩
    · rw [(leavePending_others same).1] at m
      exact ⟨m, by simp [own, Ne.symm same]⟩
  · by_cases same : x = d
    · subst same
      rw [returned, before]
      simp [own]
    · rw [others x same, before]
      simp [own, Ne.symm same]

/-- RUNOFF_ALL at one entry (R167): sent, given back, or left where it is. -/
theorem losesItems_runoffEntry (found : s.entry e.tag = some e)
    (ahead : e.sentOff = true → reached s.counter.position (runoffPoint s.config.line e) = false)
    (unit : ∀ d, e.state = .pending → e.target = .station d → e.reservedWith = some d) :
    LosesItems [e] s (runoffEntry e s) := by
  have left (own : e.sentOff = false) (same : runoffEntry e s = s) : LosesItems [e] s (runoffEntry e s) := by
    have kept : e.lost = e := by
      unfold Entry.lost
      rw [if_neg]
      simpa [Entry.sentOff] using own
    have stays (x : Station) : e.pendingAt x = false := by
      unfold Entry.pendingAt Entry.sentOff at *
      cases h : e.target <;> simp_all
    rw [same]
    exact ⟨fun a c table _ => by simpa [kept] using table, by simp [own, runoffWatches, replacedWatches],
      fun x y m => ⟨m, by simp [stays]⟩, (SameDrives.refl s).heldLess, fun x => by simp [stays], unchanged_refl _ s⟩
  cases target : e.target with
  | runOff =>
    refine left (by simp [Entry.sentOff, target]) ?_
    unfold runoffEntry
    cases e.state <;> simp [target]
  | station d =>
    cases state : e.state with
    | travelling =>
      have sent := losesItems_travelling found state target (ahead (by simp [Entry.sentOff, state, target]))
      simpa only [runoffEntry, state, target] using sent
    | pending =>
      have given := losesItems_pending found state target (unit d state target)
        (ahead (by simp [Entry.sentOff, state, target]))
      simpa only [runoffEntry, state, target] using given
    | pushing => exact left (by simp [Entry.sentOff, state]) (by simp only [runoffEntry, state])
    | confirming => exact left (by simp [Entry.sentOff, state]) (by simp only [runoffEntry, state])
    | frozen => exact left (by simp [Entry.sentOff, state]) (by simp only [runoffEntry, state])

/-- RUNOFF_ALL, from any entry of the table on (R167). -/
theorem losesItems_foldl (a l : List Entry) (s : State) (table : s.table = a ++ l)
    (distinct : (s.table.map (·.tag)).Nodup)
    (ahead : ∀ e ∈ l, e.sentOff = true → reached s.counter.position (runoffPoint s.config.line e) = false)
    (unit : ∀ e ∈ l, ∀ d, e.state = .pending → e.target = .station d → e.reservedWith = some d) :
    LosesItems l s (l.foldl (fun t e => runoffEntry e t) s) := by
  induction l generalizing a s with
  | nil => exact .nil s
  | cons e l ih =>
    have first := losesItems_runoffEntry (entry_of_nodup distinct (by rw [table]; simp)) (ahead e (by simp))
      (unit e (by simp))
    have next := first.table a l (by simpa using table) distinct
    refine first.cons (ih (a ++ [e.lost]) _ (by simpa using next) ?_ ?_ fun x m => unit x (by simp [m]))
    · rw [next]
      rw [table] at distinct
      simpa using distinct
    · rw [(first.frame .config (by decide) : (runoffEntry e s).config = s.config),
        (first.frame .counter (by decide) : (runoffEntry e s).counter = s.counter)]
      exact fun x m => ahead x (by simp [m])

end Sys2Proof.Machine
end

