-- ==== Sys2Proof/Proofs/LinkLoss.lean ====
section
/-! PROOF. The loss of the link with its loss actions, and RSUM: O38. -/

namespace Sys2Proof.Machine

variable {s t u : State} {d : Station}

/-! ### What RUNOFF_ALL leaves (R105, R167) -/

theorem minusOne_iterate (n : Nat) (r : DestRecord) : DestRecord.minusOne^[n] r = { r with
    outstanding := r.outstanding - n, remaining := if 0 < r.base then r.remaining + n else r.remaining } := by
  induction n with
  | zero => simp
  | succ n ih =>
    rw [Function.iterate_succ_apply', ih, DestRecord.minusOne]
    by_cases counted : 0 < r.base <;> simp [counted] <;> omega

/-- The items that a station holds are the entries pending there (R36, R86). -/
theorem length_pending (lists : (s.diverter d).pending.Perm (s.tagsAt .pending d)) :
    (s.diverter d).pending.length = s.table.countP (Entry.pendingAt d) := by
  rw [lists.length_eq, State.tagsAt, List.length_map, ← List.countP_eq_length_filter]
  rfl

/-- Every pending list is empty after RUNOFF_ALL (R167). -/
theorem LosesItems.pending_nil (h : LosesItems s.table s t)
    (lists : (s.diverter d).pending.Perm (s.tagsAt .pending d)) : (t.diverter d).pending = [] := by
  refine List.eq_nil_iff_forall_not_mem.mpr fun x m => ?_
  obtain ⟨held, gone⟩ := h.pending d x m
  obtain ⟨e, member, own⟩ := List.mem_map.mp (lists.mem_iff.mp held)
  obtain ⟨member, pending⟩ := List.mem_filter.mp member
  exact gone e member pending own

/-- A diverter after RUNOFF_ALL: it holds nothing, and one that was WAITING is IDLE (R167). -/
theorem LosesItems.diverter (h : LosesItems s.table s t) (law : DriveLaw t)
    (lists : (s.diverter d).pending.Perm (s.tagsAt .pending d)) : t.diverter d = { s.diverter d with
      pending := [], state := if (s.diverter d).state = .waiting then .idle else (s.diverter d).state } := by
  have none := h.pending_nil lists
  have state : (t.diverter d).state = if (s.diverter d).state = .waiting then .idle else (s.diverter d).state := by
    rcases h.drives.state d with same | ⟨waiting, idle⟩
    · rw [if_neg, same]
      exact fun waiting => (law.1 d).holding (same.trans waiting) none
    · rw [if_pos waiting, idle]
  rw [h.drives.diverter d, none, state]

/-- The waiting set is empty after RUNOFF_ALL (R167). -/
theorem LosesItems.arbiter (h : LosesItems s.table s t) (law : DriveLaw t)
    (lists : ∀ d, (s.diverter d).pending.Perm (s.tagsAt .pending d)) :
    t.arbiter = { s.arbiter with waiting := Vector.replicate 16 false } := by
  have waiting : t.arbiter.waiting = Vector.replicate 16 false := by
    refine Vector.ext fun i hi => ?_
    rw [Vector.getElem_replicate, Bool.eq_false_iff]
    intro waits
    have state := (law.1 ⟨i, hi⟩).waiting.mp waits
    exact (law.1 ⟨i, hi⟩).holding state (h.pending_nil (lists ⟨i, hi⟩))
  rw [h.drives.arbiter, waiting]

/-! ### The loss of the link (R166) -/

/-- The state in which the loss action is carried out: the link is lost, the timer restarted, the notice submitted
(R164, R166). -/
def linkLost (timer : Timer) (s : State) : State :=
  submit (.link false) { s with supervisor := { s.supervisor with state := .lost, timer := timer } }

theorem frame_supervisor (v : Supervisor) (s : State) : UnchangedBut [.supervisor] s { s with supervisor := v } := by
  intro p hp
  cases p <;> simp_all [Part.same]

theorem linkLost_spec (timer : Timer) (s : State) :
    (linkLost timer s).supervisor = { s.supervisor with state := .lost, timer := timer }
      ∧ Submitted [.link false] s (linkLost timer s)
      ∧ UnchangedBut [.supervisor, .queue, .transmitter] s (linkLost timer s) :=
  ⟨submit_supervisor _ _, .of_queue (submitted_submit _ _) rfl rfl,
    ((frame_supervisor _ s).trans (frame_submit _ _)).mono (by decide)⟩

/-- The supervision timer's restart (R164). -/
def State.supervisionTimer (s : State) : Timer :=
  if s.supervisor.time = 0 then none else some (s.timeStamp + BitVec.ofNat 32 s.supervisor.time)

theorem supervisionExpiry_up (due : expired s.supervisor.timer s = true) (up : s.supervisor.state = .up) :
    supervisionExpiry s = lossAction (linkLost s.supervisionTimer s) := by
  unfold supervisionExpiry
  rw [if_pos due, if_pos up]
  rfl

theorem supervisionExpiry_lost (due : expired s.supervisor.timer s = true) (lost : s.supervisor.state = .lost) :
    supervisionExpiry s = { s with supervisor := { s.supervisor with timer := s.supervisionTimer } } := by
  unfold supervisionExpiry
  rw [if_pos due, if_neg (by simp [lost])]
  rfl

theorem lossAction_none (quiet : s.line.state.working = false ∨ s.supervisor.action = .continueOn) :
    lossAction s = s := by
  unfold lossAction
  rcases quiet with off | goes
  · simp [off]
  · simp [goes]

theorem lossAction_halt (working : s.line.state.working = true) (action : s.supervisor.action = .halt) :
    lossAction s = haltLine .link s := by
  simp [lossAction, working, action]

theorem lossAction_runoffAll (working : s.line.state.working = true) (action : s.supervisor.action = .runoffAll) :
    lossAction s = drainTest (runoffAll s) := by
  simp [lossAction, working, action]

/-- RUNOFF_ALL on a table with entries: no drain follows (R123, R167). -/
theorem losesItems_lossAction (working : s.line.state.working = true) (action : s.supervisor.action = .runoffAll)
    (some : s.table ≠ []) (distinct : (s.table.map (·.tag)).Nodup)
    (ahead : ∀ e ∈ s.table, e.sentOff = true → reached s.counter.position (runoffPoint s.config.line e) = false)
    (unit : ∀ e ∈ s.table, ∀ d, e.state = .pending → e.target = .station d → e.reservedWith = .some d) :
    LosesItems s.table s (lossAction s) ∧ (lossAction s).table = s.table.map Entry.lost
      ∧ (DriveLaw s → DriveLaw (lossAction s)) := by
  have items : LosesItems s.table s (runoffAll s) := losesItems_foldl [] s.table s rfl distinct ahead unit
  have table : (runoffAll s).table = s.table.map Entry.lost := by
    simpa using items.table [] [] (by simp) distinct
  rw [lossAction_runoffAll working action, drainTest_table (by simpa [table] using some)]
  exact ⟨items, table, drive_runoffAll⟩

/-! ### RSUM (R169) -/

theorem rsum_rule (s : State) : OrderKind.rsum.rule [] s =
    if s.supervisor.state = .lost then
      done (submit (.link true)
        { s with supervisor := { s.supervisor with state := .up, timer := s.supervisionTimer } })
    else done s := by
  show rsum [] s = _
  unfold rsum
  rw [formChecked_formed ⟨rfl, by decide⟩]
  rfl

end Sys2Proof.Machine

open Sys2Proof Sys2Proof.Machine

/-- Settles O38: the notice of the loss first (`linkLost_spec`), then each loss action; RUNOFF_ALL entry by entry in
table order (`losesItems_foldl`). -/
theorem linkLostAndRestored : Obligations.LinkLostAndRestored := by
  unfold Obligations.LinkLostAndRestored
  refine ⟨fun s free => ⟨fun waits => ?_, ?_⟩, fun number s takes => ⟨fun up => ?_, fun lost => ?_⟩⟩
  · refine (event_free free supervisionExpiry).trans ?_
    simp [supervisionExpiry, waits]
  · rintro timer due rfl
    have run (t : State) (h : supervisionExpiry s = t) : exec .supervisionTimerExpiry s = .next t :=
      (event_free free supervisionExpiry).trans (congrArg _ h)
    obtain ⟨supervisor, notices, frame⟩ := linkLost_spec s.supervisionTimer s
    have expiry := supervisionExpiry_up due
    generalize linkLost s.supervisionTimer s = u at supervisor notices frame expiry
    have line : u.line = s.line := frame .line (by decide)
    have table : u.table = s.table := frame .table (by decide)
    have config : u.config = s.config := frame .config (by decide)
    have counter : u.counter = s.counter := frame .counter (by decide)
    have watches : u.watches = s.watches := frame .watches (by decide)
    have diverters : u.diverters = s.diverters := frame .diverters (by decide)
    have arbiter : u.arbiter = s.arbiter := frame .arbiter (by decide)
    have destinations : u.destinations = s.destinations := frame .destinations (by decide)
    have sends (working : s.line.state.working = true) (action : s.supervisor.action = .runoffAll) (some : s.table ≠ [])
        (distinct : (s.table.map (·.tag)).Nodup)
        (ahead : ∀ e ∈ s.table, e.sentOff = true → reached s.counter.position (runoffPoint s.config.line e) = false)
        (unit : ∀ e ∈ s.table, ∀ d, e.state = .pending → e.target = .station d → e.reservedWith = .some d) :=
      losesItems_lossAction (s := u) (by rw [line]; exact working) (by rw [supervisor]; exact action)
        (by rw [table]; exact some) (by rw [table]; exact distinct) (by rw [table, counter, config]; exact ahead)
        (by rw [table]; exact unit)
    refine ⟨fun lost => ?_, fun up quiet => ?_, fun up working action => ?_,
      fun up working action some distinct ahead unit => ?_, fun up working action none => ?_,
      fun sent up working action some tags drives place hsent ahead => ?_⟩
    · exact ⟨_, run _ (supervisionExpiry_lost due lost), rfl, frame_supervisor _ s⟩
    · refine ⟨u, run u ((expiry up).trans (lossAction_none ?_)), supervisor, notices, frame⟩
      rw [line, supervisor]
      exact quiet
    · obtain ⟨halts, notice, halted⟩ := haltLine_spec .link u
      refine ⟨_, run _ ((expiry up).trans (lossAction_halt (by rw [line]; exact working)
        (by rw [supervisor]; exact action))),
        (halted .supervisor (by decide)).trans supervisor,
        halts.congr (frame.mono (by decide)) (unchanged_refl _ _), ?_, (frame.trans halted).mono (by decide)⟩
      rw [← line]
      exact notices.trans notice (halted .timeStamp (by decide))
        (congrArg PositionCounter.position (halted .counter (by decide)))
    · obtain ⟨items, lost, -⟩ := sends working action some distinct
        (fun e m own => by
          simp only [Entry.sentOff, Bool.and_eq_true, bne_iff_ne, Bool.or_eq_true, beq_iff_eq] at own
          exact ahead e m own.1 own.2)
        (fun e m d pending target => unit e m d pending target)
      refine ⟨_, run _ (expiry up), (items.frame .supervisor (by decide)).trans supervisor, ?_, ?_,
        (frame.trans items.frame).mono (by decide)⟩
      · rw [lost, table]
        rfl
      · exact notices.congr (items.frame .queue (by decide)) (items.frame .timeStamp (by decide))
          (congrArg PositionCounter.position (items.frame .counter (by decide))) (items.frame .transmitter (by decide))
    · have empty : runoffAll u = u := by
        unfold runoffAll
        rw [table, none]
        rfl
      have drained := isDrained_congr line table diverters
      obtain ⟨notice, drains, changed, same⟩ := drainTest_spec u
      have acted : lossAction u = drainTest u := by
        rw [lossAction_runoffAll (by rw [line]; exact working) (by rw [supervisor]; exact action), empty]
      refine ⟨_, run _ ((expiry up).trans acted), ?_, fun not => ?_, fun is => ?_⟩
      · by_cases is : u.isDrained
        · exact (changed is .supervisor (by decide)).trans supervisor
        · rw [same is]
          exact supervisor
      · rw [same (mt drained.mp not)]
        exact ⟨notices, frame⟩
      · have is' := drained.mpr is
        rw [if_pos is'] at notice
        obtain ⟨toReady, slot, kept⟩ := drains is'
        have moved := changed is'
        refine ⟨notices.trans notice (moved .timeStamp (by decide))
          (congrArg PositionCounter.position (moved .counter (by decide))), ⟨?_, ?_, ?_⟩,
          (frame.trans moved).mono (by decide)⟩
        · rw [toReady, line]
        · rw [slot, config, (frame .induction (by decide) : u.induction = s.induction)]
        · rw [kept, watches]
    · have whole : ∀ e ∈ s.table, ∀ d, e.state = .pending → e.target = .station d → e.reservedWith = .some d := by
        intro e m d pending target
        obtain ⟨x, own, unit, -⟩ := place.taken e m (.inl pending)
        rw [target] at own
        exact Dest.station.inj own ▸ unit
      obtain ⟨items, lost, lawful⟩ := sends working action some tags.2.1
        (fun e m own => ahead e (hsent ▸ List.mem_filter.mpr ⟨m, own⟩)) whole
      have law := lawful (drives.same ⟨diverters, arbiter, config⟩)
      have lists (d : Station) : (u.diverter d).pending.Perm (u.tagsAt .pending d) := by
        unfold State.diverter State.tagsAt
        rw [diverters, table]
        exact (place.lists d).1
      refine ⟨_, run _ (expiry up), ?_, fun d => ?_, ?_, fun d => ?_⟩
      · rw [items.watches, watches, config, table, hsent]
        rfl
      · rw [items.diverter law (lists d)]
        unfold State.diverter
        rw [diverters]
      · rw [items.arbiter law lists, arbiter]
      · rw [items.destination, minusOne_iterate, ← length_pending (lists d)]
        unfold State.destination State.diverter
        rw [destinations, diverters]
  · have rule := rsum_rule s
    rw [if_neg (by simp [up])] at rule
    exact exec_order takes rule
  · have rule := rsum_rule s
    rw [if_pos lost] at rule
    obtain ⟨t, run, answered, frame, notices⟩ :=
      exec_order_notices takes rule (.of_queue (submitted_submit _ _) rfl rfl)
    refine ⟨t, run, answered, (frame .supervisor (by decide)).trans (submit_supervisor _ _), notices, ?_⟩
    exact (((frame_supervisor _ s).trans (frame_submit _ _)).trans frame).mono (by decide)
end

