-- ==== Sys2Proof/Proofs/SlotGrants.lean ====
section
/-! PROOF. One grant of the arbiter: O47. -/

namespace Sys2Proof.Machine

variable {s t u : State} {tag : Tag} {e : Entry} {d : Station} {tags : List Tag} {cut : Bool}

/-! ### The arbiter's choice (R66) -/

theorem firstInSearch_unique {c : Station} (h : s.firstInSearch d) (k : s.firstInSearch c) : d = c := by
  obtain ⟨waits, before⟩ := h
  obtain ⟨waits', before'⟩ := k
  cases mode : s.config.line.priority <;> rw [mode] at before before'
  case fixed => exact le_antisymm (before c waits') (before' d waits)
  case rotating => exact sub_left_injective (le_antisymm (before c waits') (before' d waits))

theorem chosen_of_firstInSearch (h : s.firstInSearch d) : s.chosen = some d := by
  cases found : s.chosen with
  | none => exact absurd h.1 (by simp [waits_of_chosen_none found d])
  | some c => rw [firstInSearch_unique h (firstInSearch_of_chosen found)]

theorem grantOne_first (free : s.slotFree = true) (first : s.firstInSearch d) : grantOne s = grant d s := by
  unfold grantOne
  rw [if_pos free, chosen_of_firstInSearch first]

theorem grantOne_idle (idle : s.slotFree = false ∨ ∀ d, s.waits d = false) : grantOne s = s := by
  unfold grantOne
  split
  · rename_i free
    have none := idle.resolve_left (by simp [free])
    split
    · rename_i d chosen
      exact absurd (waits_of_chosen chosen) (by simp [none d])
    · rfl
  · rfl

/-! ### Entries that move to a confirm list (R72, R88) -/

/-- An entry CONFIRMING with a deadline, TRUNCATED when its push was cut short (R72, R74). -/
def Entry.confirmedBy (deadline : TimeStamp) (cut : Bool) (e : Entry) : Entry :=
  { e with
    flags := { e.flags with truncated := e.flags.truncated || cut }
    state := .confirming
    confirmDeadline := some deadline }

theorem confirmedBy_uncut (deadline : TimeStamp) (e : Entry) :
    e.confirmedBy deadline false = { e with state := .confirming, confirmDeadline := some deadline } := by
  simp [Entry.confirmedBy]

theorem confirmedBy_cut (deadline : TimeStamp) (e : Entry) : e.confirmedBy deadline true =
    { e with flags := { e.flags with truncated := true }, state := .confirming, confirmDeadline := some deadline } := by
  simp [Entry.confirmedBy]

/-- The deadline of an item that joins the confirm list of station `d` now (R88). -/
def State.deadlineAt (s : State) (d : Station) : TimeStamp := s.timeStamp + BitVec.ofNat 32 (s.record d).confirmTime

theorem entry_of_confirmingTable (table : t.table = s.confirmingTable d tags cut) (found : s.entry tag = some e) :
    t.entry tag = some (if tag ∈ tags then e.confirmedBy (s.deadlineAt d) cut else e) := by
  obtain rfl := tag_of_entry found
  have each : s.confirmingTable d tags cut
      = s.table.map fun e => if e.tag ∈ tags then e.confirmedBy (s.deadlineAt d) cut else e := rfl
  have keeps : (fun x : Entry => (if x.tag ∈ tags then x.confirmedBy (s.deadlineAt d) cut else x).tag == e.tag)
      = fun x => x.tag == e.tag := by
    funext x
    split <;> rfl
  unfold State.entry at found ⊢
  rw [table, each, List.find?_map]
  show Option.map _ (List.find? (fun x : Entry =>
    (if x.tag ∈ tags then x.confirmedBy (s.deadlineAt d) cut else x).tag == e.tag) s.table) = _
  rw [keeps, found]
  rfl

theorem entry_none_of_confirmingTable (table : t.table = s.confirmingTable d tags cut) (other : tag ∉ tags) :
    t.entry tag = s.entry tag := by
  cases found : s.entry tag with
  | some e => rw [entry_of_confirmingTable table found, if_neg other]
  | none =>
    have absent : tag ∉ s.table.map (·.tag) := fun m => by
      obtain ⟨e, h⟩ := (entry_iff_mem s tag).mpr m
      rw [found] at h
      cases h
    have tags' : t.table.map (·.tag) = s.table.map (·.tag) := by
      rw [table, State.confirmingTable, List.map_map]
      refine List.map_congr_left fun x _ => ?_
      show (if _ then _ else _ : Entry).tag = _
      split <;> rfl
    rw [← tags', ← entry_iff_mem] at absent
    exact Option.eq_none_iff_forall_ne_some.mpr fun e h => absent ⟨e, h⟩

/-! ### A grant (R69) -/

/-- An entry after a grant (R69, R72): released at once, or PUSHING, or not the diverter's. -/
theorem GrantTo.entry (h : GrantTo d s t) (found : s.entry tag = some e) : t.entry tag = some
    (if tag ∈ s.passedAt d then (e.pushedWith (s.diverter d).pending).confirmedBy (s.deadlineAt d) false
      else e.pushedWith (s.diverter d).pending) :=
  entry_of_confirmingTable (s := { s with table := s.table.map (Entry.pushedWith (s.diverter d).pending) }) h.table
    ((entry_pushedWith s _ tag).trans (by rw [found]; rfl))

theorem GrantTo.entry_pushed (h : GrantTo d s t) (pushed : tag ∈ s.pushedAt d) (found : s.entry tag = some e) :
    t.entry tag = some { e with state := .pushing } := by
  obtain ⟨held, ahead⟩ := List.mem_filter.mp pushed
  rw [h.entry found, if_neg (by simpa using ahead), Entry.pushedWith, tag_of_entry found, if_pos held]

theorem GrantTo.entry_passed (h : GrantTo d s t) (passed : tag ∈ s.passedAt d) (found : s.entry tag = some e) :
    t.entry tag = some { e with state := .confirming, confirmDeadline := some (s.deadlineAt d) } := by
  rw [h.entry found, if_pos passed, confirmedBy_uncut]
  unfold Entry.pushedWith
  split <;> rfl

theorem passedAt_ahead (ahead : s.releasesAhead d) : s.passedAt d = [] := congrArg Prod.fst (grantReleases_ahead ahead)

theorem pushedAt_ahead (ahead : s.releasesAhead d) : s.pushedAt d = (s.diverter d).pending := by
  simp [State.pushedAt, passedAt_ahead ahead]

theorem GrantTo.monitors (h : GrantTo d s t) (none : s.passedAt d = []) : t.monitors = s.monitors := by
  refine Vector.ext fun i hi => ?_
  by_cases own : ⟨i, hi⟩ = d
  · subst own
    exact h.monitor.trans (if_pos none)
  · exact (h.others ⟨i, hi⟩ own).2

theorem grantFrame_ahead (ahead : s.releasesAhead d) : GrantFrame s (grant d s) := by
  rw [grant_ahead ahead]
  exact ((grantFrame_energise s).trans (grantFrame_setDiverter _ _)).trans ⟨_, _, _, _, _, rfl⟩

/-- What a grant to a waiting diverter asks of the items it holds: every release point ahead, or one entry for each. -/
abbrev State.grantable (s : State) (d : Station) : Prop := s.releasesAhead d ∨ HoldsItems s d

/-- Everything a grant to a waiting diverter does (R69). -/
theorem grant_spec (law : DriveLaw s) (waits : s.waits d = true) (items : s.grantable d) :
    GrantTo d s (grant d s) ∧ UnchangedBut grantParts s (grant d s) ∧ (grant d s).table ≠ []
      ∧ (s.releasesAhead d → s.passedAt d = [] ∧ (grant d s).arbiter.slotsInUse = s.arbiter.slotsInUse + 1
        ∧ UnchangedBut [.watches, .table, .diverters, .arbiter] s (grant d s)) := by
  obtain ⟨holding, push, -⟩ := waiting_diverter law waits
  have found : ∀ tag ∈ (s.diverter d).pending, ∃ e, s.entry tag = some e := by
    rcases items with ahead | holds
    · exact fun tag m => (ahead tag m).imp fun e h => h.1
    · exact holds.found
  have one : GrantTo d s (grant d s) := by
    rcases items with ahead | holds
    · exact grantTo_ahead law waits ahead
    · exact grantTo_grant law waits holds
  have frame : UnchangedBut grantParts s (grant d s) := by
    rcases items with ahead | holds
    · exact (grantFrame_ahead ahead).unchanged
    · exact unchanged_grant holds push holding
  refine ⟨one, frame, fun empty => ?_, fun ahead => ⟨passedAt_ahead ahead, ?_, fun p other => ?_⟩⟩
  · obtain ⟨tag, m⟩ := List.exists_mem_of_ne_nil _ holding
    obtain ⟨e, h⟩ := found tag m
    have tags := one.tags
    rw [empty, List.map_nil, eq_comm, List.map_eq_nil_iff] at tags
    exact table_ne_nil_of_entry h tags
  · rw [one.arbiter, pushedAt_ahead ahead]
    exact if_neg holding
  · by_cases monitors : p = .monitors
    · subst monitors
      exact one.monitors (passedAt_ahead ahead)
    · exact frame p (by simpa [grantParts, monitors] using other)

end Sys2Proof.Machine

open Sys2Proof Sys2Proof.Machine

/-- Settles O47: the arbiter's choice is the first of the search (`chosen_of_firstInSearch`), and `grant_spec` says
what its grant does; the table is not empty after it, so that no drain follows. -/
theorem slotGrantChooses : Obligations.SlotGrantChooses := by
  unfold Obligations.SlotGrantChooses
  intro s free law
  refine ⟨fun d slot first items => ⟨_, event_free free fun t => drainTest (grantOne t), ?_⟩,
    fun d tags tracking => passedAt_of_laws tags tracking d, fun idle busy => ?_⟩
  · obtain ⟨one, frame, some, ahead⟩ :=
      grant_spec law first.1 (items.imp_right fun laws => holdsItems_of_laws laws.1 laws.2 d)
    rw [grantOne_first slot first, drainTest_table some]
    exact ⟨one, by rw [one.arbiter], fun tag e pushed found => one.entry_pushed pushed found,
      fun tag e passed found => one.entry_passed passed found, ahead, frame⟩
  · refine (event_free free fun t => drainTest (grantOne t)).trans ?_
    rw [grantOne_idle idle, drainTest_not busy]
end

