-- ==== Sys2Proof/Proofs/Confirmations.lean ====
section
/-! PROOF. Items that leave a push list for the confirm list, and a release as one explicit state. -/

namespace Sys2Proof.Machine

variable {s t u : State} {tag : Tag} {e : Entry} {d : Station} {tags : List Tag} {cut : Bool}

/-! ### Items that leave a push list for the confirm list (R72, R74) -/

theorem monitor_confirming (s : State) (d : Station) (tags : List Tag) (cut : Bool) :
    (s.confirming d tags cut).monitor d = s.monitorWith (s.confirming d tags cut) d tags :=
  monitor_setMonitor { s with table := s.confirmingTable d tags cut } d _

theorem monitor_confirming_ne (s : State) {x : Station} (other : x ≠ d) (tags : List Tag) (cut : Bool) :
    (s.confirming d tags cut).monitor x = s.monitor x :=
  monitor_setMonitor_ne { s with table := s.confirmingTable d tags cut } other _

/-- The monitors of a state are told by its table, the monitor of the station, and the others. -/
theorem monitors_confirming (table : t.table = s.confirmingTable d tags cut)
    (own : t.monitor d = s.monitorWith t d tags) (others : ∀ x, x ≠ d → t.monitor x = s.monitor x) :
    t.monitors = (s.confirming d tags cut).monitors := by
  have entry : t.entry = State.entry { s with table := s.confirmingTable d tags cut } := entry_congr table
  refine Vector.ext fun i hi => ?_
  by_cases here : d = ⟨i, hi⟩
  · subst here
    refine own.trans (Eq.trans ?_ (monitor_confirming s _ tags cut).symm)
    rw [State.monitorWith, entry]
    rfl
  · exact (others _ (Ne.symm here)).trans (monitor_confirming_ne s (Ne.symm here) tags cut).symm

/-- Items moved to the tail of a confirm list are CONFIRMING there (R72). -/
theorem joins_confirming (some : tags ≠ []) (s : State) : s.joins d tags = s.confirming d tags false := by
  have monitors := monitors_confirming (d := d) (joins_table tags s) (joins_monitor tags some s)
    (fun _ other => joins_monitor_ne other tags s)
  rw [joins_eq, joins_table, monitors]
  rfl

/-- A push list whose items end their push early, one after another (R74). -/
def State.truncations (s : State) (d : Station) (tags : List Tag) : State :=
  tags.foldl (fun t tag => truncatePush d tag t) s

/-- The watches that are left when those of some entries are taken out (R14). -/
def watchesWithout (tags : List Tag) (l : List Watch) : List Watch :=
  l.filter fun w => tags.all fun tag => w.kind.tag? != some tag

theorem truncations_eq (tags : List Tag) (s : State) : s.truncations d tags = { s with
    table := (s.truncations d tags).table
    monitors := (s.truncations d tags).monitors
    watches := watchesWithout tags s.watches } := by
  induction tags generalizing s with
  | nil => simp [State.truncations, watchesWithout]
  | cons tag rest ih =>
    refine (ih (truncatePush d tag s)).trans ?_
    have watches : watchesWithout rest (truncatePush d tag s).watches = watchesWithout (tag :: rest) s.watches := by
      show watchesWithout rest (s.watches.filter _) = _
      unfold watchesWithout
      rw [List.filter_filter]
      simp only [List.all_cons, Bool.and_comm]
    rw [watches]
    rfl

theorem truncations_table (tags : List Tag) (s : State) :
    (s.truncations d tags).table = s.confirmingTable d tags true := by
  induction tags generalizing s with
  | nil => simp [State.truncations, State.confirmingTable]
  | cons tag rest ih =>
    refine (ih (truncatePush d tag s)).trans ?_
    show List.map _ (List.map _ (List.map _ s.table)) = _
    rw [List.map_map, List.map_map]
    apply List.map_congr_left
    intro e _
    have record : (truncatePush d tag s).record d = s.record d := rfl
    have record' (f : Entry → Entry) : (setEntry tag f (removeWatch tag s)).record d = s.record d := rfl
    have time : (truncatePush d tag s).timeStamp = s.timeStamp := rfl
    by_cases own : e.tag = tag <;> by_cases other : e.tag ∈ rest <;> simp_all [ticks]

theorem truncations_monitor (some : tags ≠ []) (s : State) :
    (s.truncations d tags).monitor d = s.monitorWith (s.truncations d tags) d tags := by
  induction tags using List.reverseRecOn with
  | nil => exact absurd rfl some
  | append_singleton before tag ih =>
    have split (u : State) : u.truncations d (before ++ [tag]) = (u.truncations d before).truncations d [tag] :=
      List.foldl_append
    have one (u : State) : (u.truncations d [tag]).monitor d = u.monitorWith (u.truncations d [tag]) d [tag] := by
      unfold State.truncations State.monitorWith truncatePush joinConfirmList aimDeadlineTimer
      simp only [List.foldl_cons, List.foldl_nil, monitor_setMonitor]
      rfl
    rw [split, one]
    by_cases empty : before = []
    · subst empty
      rfl
    · have m := ih empty
      unfold State.monitorWith at m ⊢
      rw [m]
      simp only [List.append_assoc]

theorem truncations_monitor_ne {x : Station} (other : x ≠ d) (tags : List Tag) (s : State) :
    (s.truncations d tags).monitor x = s.monitor x := by
  induction tags generalizing s with
  | nil => rfl
  | cons tag rest ih =>
    refine (ih (truncatePush d tag s)).trans ?_
    unfold truncatePush joinConfirmList aimDeadlineTimer
    rw [monitor_setMonitor_ne _ other, monitor_setMonitor_ne _ other]
    rfl

/-- Items whose push is cut short are CONFIRMING and TRUNCATED, without their watches (R74). -/
theorem truncations_confirming (some : tags ≠ []) (s : State) :
    s.truncations d tags = { s.confirming d tags true with watches := watchesWithout tags s.watches } := by
  have monitors := monitors_confirming (d := d) (truncations_table tags s) (truncations_monitor some s)
    (fun _ other => truncations_monitor_ne other tags s)
  rw [truncations_eq, truncations_table, monitors]
  rfl

/-! ### The release (R73, R76) -/

theorem setDiverter_setDiverter (d : Station) (f g : Diverter → Diverter) (s : State) :
    setDiverter d g (setDiverter d f s) = setDiverter d (fun v => g (f v)) s := by
  unfold setDiverter
  simp only [Vector.set_set, Fin.getElem_fin, Vector.getElem_set_self]

theorem setDiverter_congr {f g : Diverter → Diverter} (h : f (s.diverter d) = g (s.diverter d)) :
    setDiverter d f s = setDiverter d g s := by
  show ({ s with diverters := s.diverters.set d (f (s.diverter d)) } : State) = _
  rw [h]
  rfl

theorem setWaiting_same {b : Bool} (h : s.waits d = b) : setWaiting d b s = s := by
  have same : s.arbiter.waiting.set d b = s.arbiter.waiting := by
    rw [← h]
    exact Vector.set_getElem_self _
  unfold setWaiting
  rw [same]

/-- The release of a diverter that pushes nothing any more and does not wait (R73, R76): the diverter R73 and R76
give, and its slot given back. -/
theorem releaseDiverter_eq (push : (s.diverter d).push = []) (waits : s.waits d = false) :
    releaseDiverter d s = freeSlot (s.withDiverter d (s.released d)) := by
  have through (f : Diverter → Diverter) (t : State) :
      setDiverter d f (freeSlot t) = freeSlot (setDiverter d f t) := rfl
  have out (f : Diverter → Diverter) : setWaiting d false (setDiverter d f s) = setDiverter d f s :=
    setWaiting_same (by rw [waits_setDiverter]; exact waits)
  unfold releaseDiverter endRecovery State.withDiverter
  dsimp only
  by_cases none : (s.record d).recovery = 0
  · rw [if_pos none, diverter_freeSlot, diverter_setDiverter]
    by_cases empty : (s.diverter d).pending = []
    · have idle : decide ((s.released d).state = .waiting) = false := by simp [State.released, none, empty]
      rw [if_pos empty, through, setDiverter_setDiverter, idle, out]
      exact congrArg freeSlot (setDiverter_congr (by simp [State.released, none, empty, push]))
    · have held : decide ((s.released d).state = .waiting) = true := by simp [State.released, none, empty]
      rw [if_neg empty, through, setDiverter_setDiverter, held]
      refine congrArg (fun t => setWaiting d true (freeSlot t)) (setDiverter_congr ?_)
      simp [State.released, none, empty, push]
  · have some : 0 < (s.record d).recovery := Nat.pos_of_ne_zero none
    have busy : decide ((s.released d).state = .waiting) = false := by simp [State.released, some]
    rw [if_neg none, through, setDiverter_setDiverter, busy, out]
    exact congrArg freeSlot (setDiverter_congr (by simp [State.released, some, push, timerFor, ticks]))

end Sys2Proof.Machine
end

