-- ==== Sys2Proof/Proofs/FreedSlots.lean ====
section
/-! PROOF. The grants one after another, the end of an event, and the slot that an event frees. -/

namespace Sys2Proof.Machine

variable {s t u v left : State} {tag : Tag} {e : Entry} {c d : Station}

/-! ### What a grant leaves to the next one (R65, R69) -/

theorem mem_placedReleases {position : Position} {watch : Entry → Watch} {l : List Entry} {ws : List Watch}
    (m : tag ∈ (placedReleases position watch l ws).1) : ∃ e ∈ l, e.tag = tag := by
  induction l generalizing ws with
  | nil => exact absurd m List.not_mem_nil
  | cons e rest ih =>
    rw [placedReleases_cons] at m
    dsimp only at m
    split at m
    · rcases List.mem_cons.mp m with rfl | later
      · exact ⟨e, by simp, rfl⟩
      · obtain ⟨x, member, own⟩ := ih later
        exact ⟨x, by simp [member], own⟩
    · obtain ⟨x, member, own⟩ := ih m
      exact ⟨x, by simp [member], own⟩

theorem pending_of_passedAt (m : tag ∈ s.passedAt d) : tag ∈ (s.diverter d).pending := by
  obtain ⟨e, member, rfl⟩ := mem_placedReleases m
  obtain ⟨x, held, found⟩ := List.mem_filterMap.mp member
  exact tag_of_entry found ▸ held

/-- A grant leaves the entry of every item that the diverter does not hold (R69). -/
theorem GrantTo.entry_other (h : GrantTo d s t) (other : tag ∉ (s.diverter d).pending) : t.entry tag = s.entry tag := by
  refine (entry_none_of_confirmingTable
    (s := { s with table := s.table.map (Entry.pushedWith (s.diverter d).pending) }) h.table
    (fun m => other (pending_of_passedAt m))).trans ((entry_pushedWith s _ tag).trans ?_)
  cases found : s.entry tag with
  | none => rfl
  | some e => rw [Option.map_some, Entry.pushedWith, if_neg (by rwa [tag_of_entry found])]

theorem GrantTo.pending (h : GrantTo d s t) (c : Station) :
    (t.diverter c).pending = if c = d then [] else (s.diverter c).pending := by
  split
  · rename_i own
    rw [own, h.diverter, State.grantedDiverter]
    split <;> rfl
  · rename_i other
    rw [(h.others c other).1]

theorem GrantTo.waits (h : GrantTo d s t) (c : Station) : t.waits c = (decide (c ≠ d) && s.waits c) := by
  have set : t.arbiter.waiting = (setWaiting d false s).arbiter.waiting := by
    rw [h.arbiter]
    rfl
  have same : t.waits c = (setWaiting d false s).waits c := congrArg (fun w : Vector Bool 16 => w[c]) set
  rw [same]
  by_cases own : c = d
  · subst own
    simp
  · simp [waits_setWaiting_ne s own, own]

/-- An item that no diverter holds keeps its entry through the grants (R65, R69). -/
theorem Grants.entry (h : Grants s u) (free : ∀ c, tag ∉ (s.diverter c).pending) : u.entry tag = s.entry tag := by
  induction h with
  | stay => rfl
  | next _ _ one _ _ ih =>
    refine (ih fun c => ?_).trans (one.entry_other (free _))
    rw [one.pending]
    split
    · exact List.not_mem_nil
    · exact free c

theorem Grants.tags (h : Grants s u) : u.table.map (·.tag) = s.table.map (·.tag) := by
  induction h with
  | stay => rfl
  | next _ _ one _ _ ih => exact ih.trans one.tags

theorem Grants.unchanged (h : Grants s u) : UnchangedBut grantParts s u := by
  induction h with
  | stay => exact unchanged_refl _ _
  | next _ _ _ frame _ ih => exact (frame.trans ih).mono (by decide)

theorem Grants.budget (h : Grants s u) : u.arbiter.budget = s.arbiter.budget := by
  induction h with
  | stay => rfl
  | next _ _ one _ _ ih => exact ih.trans (by rw [one.arbiter])

/-- The deadline timer of a monitor stays at the deadline of the first entry of its list, when no diverter holds that
entry: a grant only adds to the tail (R72, R86). -/
theorem Grants.deadline (h : Grants s u) (first : (s.monitor d).confirm.head? = some tag)
    (free : ∀ c, tag ∉ (s.diverter c).pending)
    (aimed : (s.monitor d).deadlineTimer = (s.entry tag).bind (·.confirmDeadline)) :
    (u.monitor d).deadlineTimer = (s.monitor d).deadlineTimer := by
  induction h with
  | stay => rfl
  | @next s t _ c _ _ one _ _ ih =>
    have entry : t.entry tag = s.entry tag := one.entry_other (free c)
    have same : (t.monitor d).confirm.head? = some tag ∧ (t.monitor d).deadlineTimer = (s.monitor d).deadlineTimer := by
      by_cases own : d = c
      · subst own
        rw [one.monitor]
        split
        · exact ⟨first, rfl⟩
        · have head : ((s.monitor d).confirm ++ s.passedAt d).head? = some tag := by
            rw [List.head?_append, first]
            rfl
          refine ⟨head, ?_⟩
          show (Option.bind (Option.bind _ t.entry) _) = _
          rw [head, Option.bind_some, entry, aimed]
      · rw [(one.others d own).2]
        exact ⟨first, rfl⟩
    refine (ih same.1 (fun x => ?_) (same.2.trans (aimed.trans (by rw [entry])))).trans same.2
    rw [one.pending]
    split
    · exact List.not_mem_nil
    · exact free x

/-- A grant with every release point ahead leaves those of the other waiting diverters ahead (R69). -/
theorem GrantTo.releasesAhead (h : GrantTo d s t) (frame : UnchangedBut grantParts s t) (none : s.passedAt d = [])
    (other : c ≠ d) (ahead : s.releasesAhead c) : t.releasesAhead c := by
  intro tag m
  rw [(h.others c other).1] at m
  obtain ⟨e, found, far⟩ := ahead tag m
  refine ⟨e.pushedWith (s.diverter d).pending, (h.entry found).trans (by simp [none]), ?_⟩
  have counter : t.counter = s.counter := frame .counter (by decide)
  have config : t.config = s.config := frame .config (by decide)
  rw [counter, State.record, config, releasePoint_pushedWith]
  exact far

/-- Grants with every release point ahead leave the monitors alone (R69). -/
theorem Grants.monitors (h : Grants s u) (ahead : ∀ c, s.waits c = true → s.releasesAhead c) :
    u.monitors = s.monitors := by
  induction h with
  | stay => rfl
  | @next s t _ c _ first one frame _ ih =>
    have none := passedAt_ahead (ahead c first.1)
    refine (ih fun x waits => ?_).trans (one.monitors none)
    rw [one.waits, Bool.and_eq_true, decide_eq_true_eq] at waits
    exact one.releasesAhead frame none waits.1 (ahead x waits.2)

/-! ### The arbiter's examination and the drain test (R65, R123) -/

theorem arbitrateRounds_idle (n : Nat) (idle : s.slotFree = false ∨ ∀ c, s.waits c = false) :
    arbitrateRounds n s = s := by
  cases n with
  | zero => rfl
  | succ n =>
    unfold arbitrateRounds
    split
    · rename_i free
      have none := idle.resolve_left (by simp [free])
      split
      · rename_i c chosen
        exact absurd (waits_of_chosen chosen) (by simp [none c])
      · rfl
    · rfl

theorem arbitrateRounds_first (n : Nat) (free : s.slotFree = true) (first : s.firstInSearch d) :
    arbitrateRounds (n + 1) s = arbitrateRounds n (grant d s) := by
  rw [arbitrateRounds, if_pos free, chosen_of_firstInSearch first]

theorem arbitrate_first (free : s.slotFree = true) (first : s.firstInSearch d) :
    arbitrate s = arbitrateRounds 15 (grant d s) :=
  arbitrateRounds_first 15 free first

/-- A waiting diverter holds an item, so that with an empty table none waits (R62, R63). -/
theorem no_waits_of_empty (law : DriveLaw s) (holds : ∀ c, HoldsItems s c) (empty : s.table = []) (c : Station) :
    s.waits c = false := by
  by_contra waits
  obtain ⟨tag, m⟩ := List.exists_mem_of_ne_nil _ (waiting_diverter law (by simpa using waits)).1
  obtain ⟨e, found⟩ := (holds c).found tag m
  exact table_ne_nil_of_entry found empty

/-- The grants neither drain a line nor keep one from being drained (R65, R123). -/
theorem isDrained_arbitrate (law : DriveLaw s) (holds : ∀ c, HoldsItems s c) :
    (arbitrate s).isDrained ↔ s.isDrained := by
  by_cases empty : s.table = []
  · rw [arbitrate_idle fun _ => no_waits_of_empty law holds empty]
  · have some : (arbitrate s).table ≠ [] := fun none => by
      have tags := (grants_arbitrate law holds).tags
      rw [none, List.map_nil, eq_comm, List.map_eq_nil_iff] at tags
      exact empty tags
    exact ⟨fun drained => absurd drained.2.1 some, fun drained => absurd drained.2.1 empty⟩

/-- The end of an event that does not drain the line: its grants alone (R65, R123). -/
theorem settle_busy (law : DriveLaw s) (holds : ∀ c, HoldsItems s c) (busy : ¬ s.isDrained) : settle s = arbitrate s :=
  drainTest_not (mt (isDrained_arbitrate law holds).mp busy)

/-- The end of an event with nothing to grant (R65, R123). -/
theorem settle_idle (idle : s.slotFree = false ∨ ∀ c, s.waits c = false) : settle s = drainTest s :=
  congrArg drainTest (arbitrateRounds_idle 16 idle)

theorem settle_drained (law : DriveLaw s) (holds : ∀ c, HoldsItems s c) (drained : s.isDrained) :
    settle s = drainTest s :=
  settle_idle (.inr (no_waits_of_empty law holds drained.2.1))

theorem unchanged_drainTest (s : State) :
    UnchangedBut [.line, .induction, .watches, .queue, .transmitter] s (drainTest s) := by
  obtain ⟨-, -, drained, not⟩ := drainTest_spec s
  by_cases h : s.isDrained
  · exact drained h
  · rw [not h]
    exact unchanged_refl _ s

theorem isDrained_freeSlot (s : State) : (freeSlot s).isDrained ↔ s.isDrained := isDrained_congr rfl rfl rfl

/-- The slot that an event frees (R65, R66): `left` is what the event leaves before the grants, with the slot still
counted. Where a slot is free in `left` already, one diverter at most waits. -/
theorem freesSlot_settle (law : DriveLaw (freeSlot left)) (holds : ∀ c, HoldsItems (freeSlot left) c)
    (free : (freeSlot left).slotFree = true) (used : 0 < left.arbiter.slotsInUse)
    (scarce : left.slotFree = true → ∀ c c', left.waits c = true → left.waits c' = true → c = c') :
    FreesSlot left (settle (freeSlot left)) := by
  have all := grants_arbitrate law holds
  have frame := unchanged_drainTest (arbitrate (freeSlot left))
  refine ⟨fun none => ?_, fun c first some => ?_,
    ⟨arbitrate (freeSlot left), all, frame .diverters (by decide), frame .arbiter (by decide), frame .table (by decide),
      frame .monitors (by decide), fun busy => ?_⟩, ?_⟩
  · rw [settle_idle (s := freeSlot left) (.inr none)]
    have kept := unchanged_drainTest (freeSlot left)
    exact ⟨fun c => congrArg (fun w : Vector Diverter 16 => w[c]) (kept .diverters (by decide)),
      kept .arbiter (by decide), kept .table (by decide)⟩
  · have first' : (freeSlot left).firstInSearch c := first
    obtain ⟨one, -, full, -⟩ := grant_spec law first'.1 (.inr (holds c))
    have slots : (grant c (freeSlot left)).slotFree = left.slotFree := by
      unfold State.slotFree
      rw [one.arbiter]
      show decide ((if left.pushedAt c = [] then left.arbiter.slotsInUse - 1 else left.arbiter.slotsInUse - 1 + 1)
        < left.arbiter.budget) = _
      rw [if_neg some, Nat.sub_add_cancel used]
    have idle : (grant c (freeSlot left)).slotFree = false ∨ ∀ x, (grant c (freeSlot left)).waits x = false := by
      rw [slots]
      by_cases more : left.slotFree = true
      · refine .inr fun x => ?_
        rw [one.waits, Bool.and_eq_false_iff, decide_eq_false_iff_not, not_not, Bool.eq_false_iff, or_iff_not_imp_right,
          not_not]
        exact fun waits => scarce more x c waits first.1
      · exact .inl (by simpa using more)
    rw [settle, arbitrate_first free first', arbitrateRounds_idle 15 idle, drainTest_table full]
    exact one
  · rw [settle_busy law holds (mt (isDrained_freeSlot left).mp busy)]
  · exact (congrArg Arbiter.budget (frame .arbiter (by decide))).trans all.budget

end Sys2Proof.Machine
end

