-- ==== Sys2Proof/Proofs/ReleasedItems.lean ====
section
/-! PROOF. A released diverter with its last items CONFIRMING, and the slot it frees. -/

namespace Sys2Proof.Machine

variable {s t u left : State} {tag : Tag} {e : Entry} {c d : Station} {tags : List Tag} {cut : Bool} {ws : List Watch}

/-! ### A diverter replaced -/

theorem diverter_withDiverter (s : State) (d : Station) (v : Diverter) : (s.withDiverter d v).diverter d = v :=
  diverter_setDiverter s d fun _ => v

theorem diverter_withDiverter_ne (s : State) (other : c ≠ d) (v : Diverter) :
    (s.withDiverter d v).diverter c = s.diverter c :=
  diverter_setDiverter_ne s other fun _ => v

theorem waits_withDiverter (s : State) (d : Station) (v : Diverter) :
    (s.withDiverter d v).waits d = decide (v.state = .waiting) := by
  unfold State.withDiverter
  simp

theorem waits_withDiverter_ne (s : State) (other : c ≠ d) (v : Diverter) :
    (s.withDiverter d v).waits c = s.waits c := by
  unfold State.withDiverter
  rw [waits_setWaiting_ne _ other, waits_setDiverter]

/-- A diverter that a law keeps out of the waiting set is replaced alone by one that does not wait. -/
theorem withDiverter_eq (waits : s.waits d = false) {v : Diverter} (idle : v.state ≠ .waiting) :
    s.withDiverter d v = setDiverter d (fun _ => v) s := by
  unfold State.withDiverter
  rw [decide_eq_false idle, setWaiting_same (by rwa [waits_setDiverter])]

theorem unchanged_setDiverter (d : Station) (f : Diverter → Diverter) (s : State) :
    UnchangedBut [.diverters] s (setDiverter d f s) := by
  intro p other
  cases p <;> simp_all [Part.same]

theorem unchanged_withDiverter (d : Station) (v : Diverter) (s : State) :
    UnchangedBut [.diverters, .arbiter] s (s.withDiverter d v) := by
  intro p other
  cases p <;> simp_all [Part.same, State.withDiverter]

theorem unchanged_freeSlot (s : State) : UnchangedBut [.arbiter] s (freeSlot s) := by
  intro p other
  cases p <;> simp_all [Part.same, freeSlot]

theorem pending_released (s : State) (d c : Station) :
    ((s.withDiverter d (s.released d)).diverter c).pending = (s.diverter c).pending := by
  by_cases own : c = d
  · rw [own, diverter_withDiverter]
    rfl
  · rw [diverter_withDiverter_ne s own]

theorem released_waiting (s : State) (d : Station) :
    (s.released d).state = .waiting ↔ (s.record d).recovery = 0 ∧ (s.diverter d).pending ≠ [] := by
  unfold State.released
  by_cases none : (s.record d).recovery = 0 <;> by_cases empty : (s.diverter d).pending = [] <;>
    simp [none, empty, Nat.pos_iff_ne_zero]

theorem waits_released (none : ∀ c, s.waits c = false) (idle : (s.record d).recovery ≠ 0 ∨ (s.diverter d).pending = [])
    (c : Station) : (s.withDiverter d (s.released d)).waits c = false := by
  by_cases own : c = d
  · rw [own, waits_withDiverter, decide_eq_false_iff_not, released_waiting]
    tauto
  · rw [waits_withDiverter_ne s own, none]

theorem arbiter_released (waits : s.waits d = false) (idle : (s.record d).recovery ≠ 0 ∨ (s.diverter d).pending = []) :
    (s.withDiverter d (s.released d)).arbiter = s.arbiter := by
  have out : (s.released d).state ≠ .waiting := by
    rw [Ne, released_waiting]
    tauto
  rw [withDiverter_eq waits out]
  rfl

/-- What the law of a diverter says of one that pushes items (R62, R63). -/
theorem DiverterLaw.pushes {v : Diverter} {waits : Bool} (law : DiverterLaw v waits) (pushing : v.push ≠ []) :
    v.state = .energised ∧ v.testPulse = false ∧ v.pulseTimer = none ∧ v.recoveryTimer = none := by
  obtain ⟨en, still⟩ := law.pushing pushing
  have pulse := law.pulseTimer
  have recovery := law.recovery
  rw [still] at pulse
  rw [en] at recovery
  exact ⟨en, still, by simpa using pulse, by simpa using recovery⟩

theorem diverter_confirming (s : State) (d c : Station) (tags : List Tag) (cut : Bool) :
    (s.confirming d tags cut).diverter c = s.diverter c := rfl

theorem released_recovery (busy : 0 < (s.record d).recovery) : s.released d = { s.diverter d with
    state := .recovery, output := false, testPulse := false, push := [], maxOnTimer := none, pulseTimer := none
    recoveryTimer := some (s.timeStamp + BitVec.ofNat 32 (s.record d).recovery) } := by
  simp [State.released, busy]

theorem released_idle (zero : (s.record d).recovery = 0) (empty : (s.diverter d).pending = []) :
    s.released d = { s.diverter d with
      state := .idle, output := false, testPulse := false, push := [], maxOnTimer := none, pulseTimer := none
      recoveryTimer := none } := by
  simp [State.released, zero, empty]

/-! ### A released diverter whose items go to the confirm list (R72 to R74, R76) -/

/-- What a release leaves, with its slot still counted: the diverter released and its last items CONFIRMING. -/
def State.releasedWith (s : State) (d : Station) (watches : List Watch) (tags : List Tag) (cut : Bool) : State :=
  State.confirming { s.withDiverter d (s.released d) with watches := watches } d tags cut

theorem releasedWith_monitor :
    (s.releasedWith d ws tags cut).monitor d = s.monitorWith (s.releasedWith d ws tags cut) d tags :=
  monitor_confirming _ d tags cut

theorem releasedWith_monitor_ne (other : c ≠ d) : (s.releasedWith d ws tags cut).monitor c = s.monitor c :=
  monitor_confirming_ne _ other tags cut

theorem releasedWith_table : (s.releasedWith d ws tags cut).table = s.confirmingTable d tags cut := rfl

theorem released_monitor : (freeSlot (s.releasedWith d ws tags cut)).monitor d
    = s.monitorWith (freeSlot (s.releasedWith d ws tags cut)) d tags :=
  releasedWith_monitor (s := s) (d := d) (ws := ws) (tags := tags) (cut := cut)

theorem released_monitor_ne (other : c ≠ d) : (freeSlot (s.releasedWith d ws tags cut)).monitor c = s.monitor c :=
  releasedWith_monitor_ne (s := s) (d := d) (ws := ws) (tags := tags) (cut := cut) other

theorem released_table : (freeSlot (s.releasedWith d ws tags cut)).table = s.confirmingTable d tags cut := rfl

theorem released_watches : (freeSlot (s.releasedWith d ws tags cut)).watches = ws := rfl

/-- With its slot given back, the state that a release leaves changes no other part (R73). -/
theorem freeSlot_unchanged : UnchangedBut grantParts s (freeSlot (s.releasedWith d ws tags cut)) :=
  GrantFrame.unchanged ⟨_, _, _, _, _, rfl⟩

theorem releasedWith_diverter : (s.releasedWith d ws tags cut).diverter d = s.released d :=
  diverter_withDiverter s d _

theorem releasedWith_diverter_ne (other : c ≠ d) : (s.releasedWith d ws tags cut).diverter c = s.diverter c :=
  diverter_withDiverter_ne s other _

theorem released_diverter : (freeSlot (s.releasedWith d ws tags cut)).diverter d = s.released d :=
  releasedWith_diverter (s := s) (d := d) (ws := ws) (tags := tags) (cut := cut)

theorem released_diverter_ne (other : c ≠ d) : (freeSlot (s.releasedWith d ws tags cut)).diverter c = s.diverter c :=
  releasedWith_diverter_ne (s := s) (d := d) (ws := ws) (tags := tags) (cut := cut) other

theorem releasedWith_pending (c : Station) :
    ((s.releasedWith d ws tags cut).diverter c).pending = (s.diverter c).pending :=
  pending_released s d c

/-! ### The slot of an energised diverter (R64, R65) -/

theorem slotsInUse_pos (law : DriveLaw s) (en : (s.diverter d).state = .energised) : 0 < s.arbiter.slotsInUse := by
  have one := slotsHeld_le_energisedCount s d
  rw [slotsHeld, if_pos en] at one
  rw [law.2.1]
  exact one

/-- A diverter that is released gives its slot to the first that waits: where a slot was free, no other diverter waits
(R65, R66, R73). -/
theorem freesSlot_released (law : DriveLaw s) (wasted : NoSlotWasted s) (en : (s.diverter d).state = .energised)
    (drive : DriveLaw (freeSlot left)) (holds : ∀ c, HoldsItems left c)
    (arbiter : left.arbiter = (s.withDiverter d (s.released d)).arbiter) :
    FreesSlot left (settle (freeSlot left)) := by
  have used := slotsInUse_pos law en
  have slots : left.arbiter.slotsInUse = s.arbiter.slotsInUse := by rw [arbiter]; rfl
  have budget : left.arbiter.budget = s.arbiter.budget := by rw [arbiter]; rfl
  have waits (c : Station) : left.waits c = (s.withDiverter d (s.released d)).waits c := by
    unfold State.waits
    rw [arbiter]
  have within := law.2.2
  refine freesSlot_settle drive (fun c => ⟨(holds c).distinct, (holds c).found⟩) ?_ (slots ▸ used) fun free => ?_
  · show decide (left.arbiter.slotsInUse - 1 < left.arbiter.budget) = true
    rw [slots, budget, decide_eq_true_eq]
    omega
  · have none := wasted (by simpa [State.slotFree, slots, budget] using free)
    have only (c : Station) (h : left.waits c = true) : c = d := by
      by_contra other
      rw [waits, waits_withDiverter_ne s other, none] at h
      cases h
    exact fun c c' h h' => (only c h).trans (only c' h').symm

/-! ### Items of the lists of a lawful state (R36, R62, R86) -/

theorem entry_of_tagsAt (laws : TagLaw s) {st : EntryState} (m : tag ∈ s.tagsAt st d) :
    ∃ e, s.entry tag = some e ∧ e.state = st := by
  simp only [State.tagsAt, List.mem_map, List.mem_filter, Bool.and_eq_true, beq_iff_eq] at m
  obtain ⟨e, ⟨member, state, -⟩, rfl⟩ := m
  exact ⟨e, entry_of_mem laws member, state⟩

theorem push_entry (laws : TagLaw s) (place : PlaceLaw s) (m : tag ∈ (s.diverter d).push) :
    ∃ e, s.entry tag = some e ∧ e.state = .pushing :=
  entry_of_tagsAt laws ((place.lists d).2.1.mem_iff.mp m)

theorem confirm_entry (laws : TagLaw s) (place : PlaceLaw s) (m : tag ∈ (s.monitor d).confirm) :
    ∃ e, s.entry tag = some e ∧ e.state = .confirming :=
  entry_of_tagsAt laws ((place.lists d).2.2.mem_iff.mp m)

theorem not_pending_of_entry (laws : TagLaw s) (place : PlaceLaw s) (found : s.entry tag = some e)
    (other : e.state ≠ .pending) (c : Station) : tag ∉ (s.diverter c).pending := by
  intro m
  obtain ⟨x, found', -, state, -⟩ := pending_entry laws place m
  rw [found] at found'
  obtain rfl := Option.some.inj found'
  exact other state

/-- The first entry of a confirm list with more items of a push list at its tail is in no pending list, and its
deadline is the one its monitor runs toward, or the new one (R72, R88). -/
theorem confirm_head (laws : TagLaw s) (place : PlaceLaw s) (monitor : MonitorLaw s) (joined : tags ≠ [])
    (pushed : ∀ tag ∈ tags, tag ∈ (s.diverter d).push) (table : t.table = s.confirmingTable d tags cut) :
    ∃ first, ((s.monitor d).confirm ++ tags).head? = some first ∧ (∀ c, first ∉ (s.diverter c).pending)
      ∧ (t.entry first).bind (·.confirmDeadline)
        = if (s.monitor d).confirm = [] then some (s.deadlineAt d) else (s.monitor d).deadlineTimer := by
  cases confirm : (s.monitor d).confirm with
  | nil =>
    obtain ⟨first, rest, rfl⟩ := List.exists_cons_of_ne_nil joined
    obtain ⟨e, found, state⟩ := push_entry laws place (pushed first List.mem_cons_self)
    refine ⟨first, rfl, not_pending_of_entry laws place found (by simp [state]), ?_⟩
    rw [entry_of_confirmingTable table found, if_pos List.mem_cons_self, if_pos rfl]
    rfl
  | cons first rest =>
    obtain ⟨e, found, state⟩ := confirm_entry laws place (d := d) (confirm ▸ List.mem_cons_self)
    have apart : first ∉ tags := fun m => by
      obtain ⟨x, found', state'⟩ := push_entry laws place (pushed first m)
      rw [found] at found'
      obtain rfl := Option.some.inj found'
      rw [state] at state'
      cases state'
    refine ⟨first, rfl, not_pending_of_entry laws place found (by simp [state]), ?_⟩
    rw [entry_none_of_confirmingTable table apart, if_neg (List.cons_ne_nil _ _), monitor.deadline, confirm]
    rfl

theorem deadlineTimer_of_monitorWith (laws : TagLaw s) (place : PlaceLaw s) (monitor : MonitorLaw s)
    (joined : tags ≠ []) (pushed : ∀ tag ∈ tags, tag ∈ (s.diverter d).push)
    (table : t.table = s.confirmingTable d tags cut) (own : t.monitor d = s.monitorWith t d tags) :
    (t.monitor d).deadlineTimer
      = if (s.monitor d).confirm = [] then some (s.deadlineAt d) else (s.monitor d).deadlineTimer := by
  obtain ⟨first, head, -, deadline⟩ := confirm_head laws place monitor joined pushed table
  rw [own, ← deadline]
  show Option.bind (Option.bind _ _) _ = _
  rw [head]
  rfl

/-! ### The end of a release (R65, R72 to R74) -/

theorem holdsItems_releasedWith (laws : TagLaw s) (place : PlaceLaw s) (c : Station) :
    HoldsItems (s.releasedWith d ws tags cut) c := by
  have holds := holdsItems_of_laws laws place c
  refine ⟨?_, fun tag m => ?_⟩
  · rw [releasedWith_pending]
    exact holds.distinct
  · rw [releasedWith_pending] at m
    obtain ⟨e, found⟩ := holds.found tag m
    exact ⟨_, entry_of_confirmingTable releasedWith_table found⟩

/-- What the release of a diverter leaves, with the slot it frees: its last items CONFIRMING in their order, which no
grant of that slot changes (R65, R72 to R74). -/
structure SettlesRelease (d : Station) (ws : List Watch) (tags : List Tag) (cut : Bool) (s t : State) : Prop where
  slot : FreesSlot (s.releasedWith d ws tags cut) t
  entries : ∀ tag ∈ tags, ∀ e ∈ s.entry tag, t.entry tag = some (e.confirmedBy (s.deadlineAt d) cut)
  deadline : (t.monitor d).deadlineTimer
    = if (s.monitor d).confirm = [] then some (s.deadlineAt d) else (s.monitor d).deadlineTimer
  monitors : (∀ c, (s.releasedWith d ws tags cut).waits c = true → s.releasesAhead c) →
    t.monitor d = s.monitorWith t d tags ∧ ∀ d', d' ≠ d → t.monitor d' = s.monitor d'
  watches : (∀ c, (s.releasedWith d ws tags cut).waits c = false) → t.watches = ws
  unchanged : UnchangedBut grantParts s t

theorem settle_releasedWith (drive : DriveLaw s) (wasted : NoSlotWasted s) (laws : TagLaw s) (place : PlaceLaw s)
    (monitor : MonitorLaw s) (en : (s.diverter d).state = .energised) (joined : tags ≠ [])
    (pushed : ∀ tag ∈ tags, tag ∈ (s.diverter d).push) (after : DriveLaw (freeSlot (s.releasedWith d ws tags cut))) :
    SettlesRelease d ws tags cut s (settle (freeSlot (s.releasedWith d ws tags cut))) := by
  obtain ⟨r, hr⟩ : ∃ r, r = s.releasedWith d ws tags cut := ⟨_, rfl⟩
  have table : r.table = s.confirmingTable d tags cut := by rw [hr]; rfl
  have pending (c : Station) : (r.diverter c).pending = (s.diverter c).pending := by rw [hr, releasedWith_pending]
  have holds (c : Station) : HoldsItems r c := hr ▸ holdsItems_releasedWith laws place c
  have own : r.monitor d = s.monitorWith r d tags := by rw [hr]; exact releasedWith_monitor
  have frame : UnchangedBut grantParts s (freeSlot r) := by rw [hr]; exact freeSlot_unchanged
  have busy : ¬ r.isDrained := fun drained => by
    obtain ⟨tag, m⟩ := List.exists_mem_of_ne_nil _ joined
    obtain ⟨e, found, -⟩ := push_entry laws place (pushed tag m)
    exact table_ne_nil_of_entry (entry_of_confirmingTable table found) drained.2.1
  have free : ∀ c, HoldsItems (freeSlot r) c := fun c => ⟨(holds c).distinct, (holds c).found⟩
  have slot : FreesSlot r (settle (freeSlot r)) :=
    freesSlot_released drive wasted en (hr ▸ after) holds (by rw [hr]; rfl)
  have others (x : Station) (ne : x ≠ d) : r.monitor x = s.monitor x := by rw [hr, releasedWith_monitor_ne ne]
  have record (c : Station) : r.record c = s.record c := by rw [hr]; rfl
  have position : r.counter.position = s.counter.position := by rw [hr]; rfl
  have watches : r.watches = ws := by rw [hr]; rfl
  rw [← hr] at after ⊢
  rw [settle_busy after free (mt (isDrained_freeSlot r).mp busy)] at slot ⊢
  have grants := grants_arbitrate after free
  obtain ⟨first, head, apart, -⟩ := confirm_head laws place monitor joined pushed table
  have entryOf (tag : Tag) (apart : ∀ c, tag ∉ (s.diverter c).pending) :
      (arbitrate (freeSlot r)).entry tag = r.entry tag := grants.entry fun c => (pending c) ▸ apart c
  constructor
  case slot => rwa [← hr]
  case entries =>
    intro tag m e found
    obtain ⟨x, found', state⟩ := push_entry laws place (pushed tag m)
    rw [entryOf tag (not_pending_of_entry laws place found' (by simp [state])), entry_of_confirmingTable table found,
      if_pos m]
  case deadline =>
    rw [← deadlineTimer_of_monitorWith laws place monitor joined pushed table own]
    refine grants.deadline (tag := first) ?_ (fun c => (pending c) ▸ apart c) ?_
    · show (r.monitor d).confirm.head? = _
      rw [own]
      exact head
    · show (r.monitor d).deadlineTimer = (r.entry first).bind _
      rw [own]
      show Option.bind (Option.bind _ _) _ = _
      rw [head]
      rfl
  case monitors =>
    intro ahead
    have same : (arbitrate (freeSlot r)).monitors = r.monitors := by
      refine grants.monitors fun c waits tag m => ?_
      obtain ⟨e, found, far⟩ := ahead c (hr ▸ waits) tag ((pending c) ▸ m)
      refine ⟨_, entry_of_confirmingTable table found, ?_⟩
      rw [show (freeSlot r).counter.position = _ from position, show (freeSlot r).record c = _ from record c, ← far]
      split <;> rfl
    have monitorOf (x : Station) : (arbitrate (freeSlot r)).monitor x = r.monitor x :=
      congrArg (fun v : Vector Monitor 16 => v[x]) same
    refine ⟨?_, fun x ne => (monitorOf x).trans (others x ne)⟩
    rw [monitorOf, own]
    unfold State.monitorWith
    rw [head, Option.bind_some, Option.bind_some, entryOf first apart]
  case watches =>
    intro none
    rw [arbitrate_idle fun _ => hr ▸ none]
    exact watches
  case unchanged => exact (frame.trans grants.unchanged).mono (by decide)

/-- The end of a release that leaves no diverter waiting: the slot stays free (R65, R73). -/
theorem settle_released (arbiter : left.arbiter = (s.withDiverter d (s.released d)).arbiter)
    (none : ∀ c, s.waits c = false) (idle : (s.record d).recovery ≠ 0 ∨ (s.diverter d).pending = []) :
    settle (freeSlot left) = drainTest (freeSlot left)
      ∧ (freeSlot left).arbiter = { s.arbiter with slotsInUse := s.arbiter.slotsInUse - 1 } := by
  have same : left.arbiter = s.arbiter := arbiter.trans (arbiter_released (none d) idle)
  refine ⟨settle_idle (.inr fun c => ?_), by rw [← same]; rfl⟩
  show left.waits c = false
  rw [← waits_released none idle c, State.waits, arbiter]
  rfl

/-! ### A command that delivers a watch (R12, entry 12) -/

theorem exec_delivers {k : WatchKind} {rest : List Watch} (h : s.delivers k rest) :
    exec k.command s = .next (settle (handle k { s with watches := rest })) := by
  rw [exec_watch h.1, ← event_free h.1, deliverNamed_delivers h]
  rfl

/-! ### The releases as explicit states (R72 to R74) -/

theorem confirming_withDiverter (f : Diverter → Diverter) (v : Diverter) :
    (State.confirming (setDiverter d f s) d tags cut).withDiverter d v
      = (s.withDiverter d v).confirming d tags cut := by
  have set : (s.diverters.set d (f (s.diverter d))).set d v = s.diverters.set d v := Vector.set_set ..
  exact congrArg (fun vs => { (s.withDiverter d v).confirming d tags cut with diverters := vs }) set

/-- A diverter whose last items leave the push list is released (R72 to R74). -/
theorem releaseDiverter_confirming {f : Diverter → Diverter} (waits : s.waits d = false)
    (push : (f (s.diverter d)).push = []) (pending : (f (s.diverter d)).pending = (s.diverter d).pending)
    (disabled : (f (s.diverter d)).disabled = (s.diverter d).disabled) :
    releaseDiverter d (State.confirming (setDiverter d f s) d tags cut)
      = freeSlot (s.releasedWith d s.watches tags cut) := by
  have own : (State.confirming (setDiverter d f s) d tags cut).diverter d = f (s.diverter d) :=
    diverter_setDiverter s d f
  have released : (State.confirming (setDiverter d f s) d tags cut).released d = s.released d := by
    unfold State.released
    rw [own, pending, disabled]
    rfl
  rw [releaseDiverter_eq (s := State.confirming (setDiverter d f s) d tags cut) (by rw [own, push]) waits, released,
    confirming_withDiverter]
  rfl

/-- The max-on expiry moves the whole push list to the confirm list, cut short (R74). -/
theorem maxOnExpiry_eq (waits : s.waits d = false) (pushing : (s.diverter d).push ≠ []) : maxOnExpiry d s
    = freeSlot (s.releasedWith d (watchesWithout (s.diverter d).push s.watches) (s.diverter d).push true) := by
  obtain ⟨tags, list⟩ : ∃ tags, tags = (s.diverter d).push := ⟨_, rfl⟩
  rw [← list] at pushing ⊢
  have cut : maxOnExpiry d s =
      releaseDiverter d (State.truncations (setDiverter d (fun v => { v with push := [] }) s) d tags) := by
    rw [list]
    rfl
  rw [cut, truncations_confirming pushing]
  exact releaseDiverter_confirming (s := { s with watches := watchesWithout tags s.watches })
    (f := fun v => { v with push := [] }) (tags := tags) (cut := true) waits rfl rfl rfl

end Sys2Proof.Machine
end

