-- ==== Sys2Proof/Proofs/ReleaseWatches.lean ====
section
/-! PROOF. The delivery of a RELEASE watch: O44. -/

namespace Sys2Proof.Machine

variable {s t u left : State} {tag : Tag} {e : Entry} {c d : Station} {ws : List Watch}

/-- A RELEASE watch moves its item to the confirm list; a push list that is empty then releases the diverter (R72). -/
theorem deliverRelease_confirming (held : tag ∈ (s.diverter d).push) (push : List Tag)
    (left : (s.diverter d).push.filter (fun x => x != tag) = push) : deliverRelease d tag s =
      if push = [] then
        releaseDiverter d (State.confirming (setDiverter d (fun v => { v with push := push }) s) d [tag] false)
      else State.confirming (setDiverter d (fun v => { v with push := push }) s) d [tag] false := by
  have filtered : setDiverter d (fun v => { v with push := v.push.filter (fun x => x != tag) }) s
      = setDiverter d (fun v => { v with push := push }) s := setDiverter_congr (by rw [← left])
  have joins : joinConfirmList d tag (setDiverter d (fun v => { v with push := push }) s)
      = State.confirming (setDiverter d (fun v => { v with push := push }) s) d [tag] false :=
    joins_confirming (List.cons_ne_nil tag []) _
  have pushOf : ((State.confirming (setDiverter d (fun v => { v with push := push }) s) d [tag] false).diverter d).push
      = push := congrArg Diverter.push (diverter_setDiverter s d fun v => { v with push := push })
  unfold deliverRelease
  rw [if_pos held]
  dsimp only
  rw [filtered, joins, pushOf]

theorem deliverRelease_last (held : tag ∈ (s.diverter d).push) (waits : s.waits d = false)
    (last : (s.diverter d).push.filter (fun x => x != tag) = []) :
    deliverRelease d tag s = freeSlot (s.releasedWith d s.watches [tag] false) := by
  rw [deliverRelease_confirming held [] last, if_pos rfl, releaseDiverter_confirming waits rfl rfl rfl]


/-! ### The delivery of a RELEASE watch (R72) -/

/-- One item of a push list released, with no grant: the item CONFIRMING at the tail of the confirm list (R72). -/
structure ItemReleased (d : Station) (tag : Tag) (e : Entry) (s t : State) : Prop where
  entry : t.entry tag = some { e with state := .confirming, confirmDeadline := some (s.deadlineAt d) }
  monitor : t.monitor d = s.monitorWith t d [tag]
  watches : t.watches = s.watches
  others : ∀ d', d' ≠ d → t.diverter d' = s.diverter d' ∧ t.monitor d' = s.monitor d'
  entries : ∀ tag', tag' ≠ tag → t.entry tag' = s.entry tag'
  unchanged : UnchangedBut grantParts s t

theorem itemReleased (found : s.entry tag = some e) (table : t.table = s.confirmingTable d [tag] false)
    (monitor : t.monitor d = s.monitorWith t d [tag]) (watches : t.watches = s.watches)
    (others : ∀ d', d' ≠ d → t.diverter d' = s.diverter d' ∧ t.monitor d' = s.monitor d')
    (unchanged : UnchangedBut grantParts s t) : ItemReleased d tag e s t where
  entry := by rw [entry_of_confirmingTable table found, if_pos (List.mem_singleton_self tag), confirmedBy_uncut]
  monitor := monitor
  watches := watches
  others := others
  entries _ other := entry_none_of_confirmingTable table (by simpa using other)
  unchanged := unchanged

section

variable (wasted : NoSlotWasted s) (held : tag ∈ (s.diverter d).push) (found : s.entry tag = some e)
include wasted held found

/-- An item that is not the last of the push list leaves the diverter ENERGISED with the others (R72). -/
theorem settle_deliverRelease_more (more : (s.diverter d).push.filter (fun x => x != tag) ≠ []) :
    settle (deliverRelease d tag s) = State.confirming
      (setDiverter d (fun v => { v with push := (s.diverter d).push.filter (fun x => x != tag) }) s) d [tag] false := by
  rw [deliverRelease_confirming held _ rfl, if_neg more]
  obtain ⟨r, hr⟩ : ∃ r, r = State.confirming
    (setDiverter d (fun v => { v with push := (s.diverter d).push.filter (fun x => x != tag) }) s) d [tag] false :=
    ⟨_, rfl⟩
  have table : r.table = s.confirmingTable d [tag] false := by rw [hr]; rfl
  have slots : NoSlotWasted r := by rw [hr]; exact wasted
  rw [← hr, settle, arbitrate_idle slots,
    drainTest_table (table_ne_nil_of_entry (entry_of_confirmingTable table found))]

theorem itemReleased_more (more : (s.diverter d).push.filter (fun x => x != tag) ≠ []) :
    ItemReleased d tag e s (settle (deliverRelease d tag s)) := by
  rw [settle_deliverRelease_more wasted held found more]
  refine itemReleased found rfl (monitor_confirming _ d [tag] false) rfl (fun c other => ⟨?_, ?_⟩)
    (GrantFrame.unchanged ⟨_, _, _, _, _, rfl⟩)
  · rw [diverter_confirming, diverter_setDiverter_ne s other]
  · exact monitor_confirming_ne _ other [tag] false

omit wasted in
/-- The last item of the push list releases the diverter; with no diverter waiting nothing is granted (R72, R73). -/
theorem settle_deliverRelease_last (last : (s.diverter d).push.filter (fun x => x != tag) = [])
    (none : ∀ c, s.waits c = false) (idle : (s.record d).recovery ≠ 0 ∨ (s.diverter d).pending = []) :
    settle (deliverRelease d tag s) = freeSlot (s.releasedWith d s.watches [tag] false)
      ∧ (settle (deliverRelease d tag s)).arbiter = { s.arbiter with slotsInUse := s.arbiter.slotsInUse - 1 } := by
  obtain ⟨ends, arbiter⟩ := settle_released (left := s.releasedWith d s.watches [tag] false) rfl none idle
  have some : (freeSlot (s.releasedWith d s.watches [tag] false)).table ≠ [] :=
    table_ne_nil_of_entry (entry_of_confirmingTable (s := s) (cut := false) (d := d) (tags := [tag]) rfl found)
  rw [deliverRelease_last held (none d) last, ends, drainTest_table some]
  exact ⟨rfl, arbiter⟩

omit wasted in
theorem itemReleased_last (last : (s.diverter d).push.filter (fun x => x != tag) = [])
    (none : ∀ c, s.waits c = false) (idle : (s.record d).recovery ≠ 0 ∨ (s.diverter d).pending = []) :
    ItemReleased d tag e s (settle (deliverRelease d tag s)) := by
  rw [(settle_deliverRelease_last held found last none idle).1]
  exact itemReleased found released_table released_monitor released_watches
    (fun c other => ⟨released_diverter_ne other, released_monitor_ne other⟩) freeSlot_unchanged

end

end Sys2Proof.Machine

open Sys2Proof Sys2Proof.Machine

/-- Settles O44: the item joins the confirm list (`deliverRelease_confirming`); the last one releases the diverter,
whose slot the arbiter passes on (`settle_releasedWith`). -/
theorem releaseWatchReleases : Obligations.ReleaseWatchReleases := by
  unfold Obligations.ReleaseWatchReleases
  intro d tag rest e s delivers drive slots pushed entry
  obtain ⟨v, hv⟩ : ∃ v, v = { s with watches := rest } := ⟨_, rfl⟩
  have law : DriveLaw v := hv ▸ drive
  have wasted : NoSlotWasted v := hv ▸ slots
  have held : tag ∈ (v.diverter d).push := hv ▸ pushed
  have found : v.entry tag = some e := hv ▸ entry
  have frame {t : State} (h : UnchangedBut grantParts v t) : UnchangedBut grantParts s t := by
    refine ((grantFrame_watches rest s).unchanged.trans (hv ▸ h)).mono (by decide)
  have pushes := (drive.1 d).pushes (List.ne_nil_of_mem pushed)
  refine ⟨settle (deliverRelease d tag v), hv ▸ exec_delivers delivers, drive_settle (drive_deliverRelease law d tag),
    (noSlotWasted_arbitrate _).same (same_drainTest _), fun alone idle => ?_, fun more => ?_, fun last none => ?_,
    fun left tags place monitor is => ?_⟩
  · have item : ItemReleased d tag e v (settle (deliverRelease d tag v)) := by
      by_cases more : (v.diverter d).push.filter (fun x => x != tag) = []
      · subst hv
        exact itemReleased_last held found more (alone.resolve_right (not_not.mpr more)) (by tauto)
      · exact itemReleased_more wasted held found more
    subst hv
    exact ⟨item.entry, item.monitor, item.watches, item.others, item.entries, frame item.unchanged⟩
  · subst hv
    rw [settle_deliverRelease_more wasted held found more]
    exact ⟨by rw [diverter_confirming, diverter_setDiverter]; rfl, rfl⟩
  · subst hv
    obtain ⟨-, still, pulse, recovery⟩ := pushes
    refine ⟨fun some => ?_, fun zero empty => ?_⟩
    · obtain ⟨ends, arbiter⟩ := settle_deliverRelease_last held found last none (.inl (Nat.pos_iff_ne_zero.mp some))
      refine ⟨?_, arbiter⟩
      rw [ends, released_diverter]
      refine (released_recovery (s := s) some).trans ?_
      simp [still, pulse]
    · obtain ⟨ends, arbiter⟩ := settle_deliverRelease_last held found last none (.inr empty)
      refine ⟨?_, arbiter⟩
      rw [ends, released_diverter]
      refine (released_idle (s := s) zero empty).trans ?_
      simp [still, pulse, recovery]
  · subst is
    have joins : [tag] ≠ [] := List.cons_ne_nil tag []
    have member : ∀ x ∈ [tag], x ∈ (s.diverter d).push := fun x m => List.mem_singleton.mp m ▸ pushed
    by_cases last : (s.diverter d).push.filter (fun x => x != tag) = []
    · have ends : deliverRelease d tag v = freeSlot (s.releasedWith d rest [tag] false) := by
        subst hv
        exact deliverRelease_last held (drive.energised pushes.1).2.1 last
      have after := drive_deliverRelease law d tag
      rw [ends] at after ⊢
      have done := settle_releasedWith drive slots tags place monitor pushes.1 joins member after
      refine ⟨?_, done.deadline, done.monitors, fun _ => ⟨done.slot, done.watches⟩, done.unchanged⟩
      rw [done.entries tag (List.mem_singleton_self tag) e entry, confirmedBy_uncut]
      rfl
    · have item := itemReleased_more wasted held found (hv ▸ last)
      have only := settle_deliverRelease_more wasted held found (hv ▸ last)
      subst hv
      refine ⟨item.entry, ?_, fun _ => ⟨item.monitor, fun c other => (item.others c other).2⟩, fun h => absurd h last,
        frame item.unchanged⟩
      exact deadlineTimer_of_monitorWith tags place monitor joins member (by rw [only]; rfl) item.monitor
end

