-- ==== Sys2Proof/Proofs/DiverterTimers.lean ====
section
/-! PROOF. The diverters' timers: O48. -/

namespace Sys2Proof.Machine

variable {s t u left : State} {tag : Tag} {e : Entry} {c d : Station}

/-! ### The expiries (R74, R76, R83) -/

theorem exec_maxOn (free : s.held = none) (en : (s.diverter d).state = .energised)
    (due : expired (s.diverter d).maxOnTimer s = true) :
    exec (.maxOnExpiry (stationNumber d)) s = .next (settle (maxOnExpiry d s)) := by
  refine (stationEvent_free free d maxOnEvent).trans ?_
  rw [maxOnEvent, if_pos ⟨en, due⟩]

theorem exec_recovery (free : s.held = none) (rec : (s.diverter d).state = .recovery)
    (due : expired (s.diverter d).recoveryTimer s = true) :
    exec (.recoveryTimerExpiry (stationNumber d)) s = .next (settle (endRecovery d s)) := by
  refine (stationEvent_free free d recoveryEvent).trans ?_
  rw [recoveryEvent, if_pos ⟨rec, due⟩]

theorem exec_pulse (free : s.held = none) (en : (s.diverter d).state = .energised)
    (due : expired (s.diverter d).pulseTimer s = true) :
    exec (.pulseTimerExpiry (stationNumber d)) s = .next (settle (releaseDiverter d s)) := by
  refine (stationEvent_free free d pulseEvent).trans ?_
  rw [pulseEvent, if_pos ⟨en, due⟩]

theorem running_of_expired {timer : Timer} (due : expired timer s = true) : timer.isSome = true := by
  cases timer with
  | none => cases due
  | some _ => rfl

/-! ### Max-on time and test pulse (R74, R83) -/

/-- The max-on timer runs for a diverter that pushes (R63, R67). -/
theorem DriveLaw.pushing_of_maxOn (law : DriveLaw s) (due : expired (s.diverter d).maxOnTimer s = true) :
    (s.diverter d).push ≠ [] := by
  obtain ⟨en, still⟩ := (law.1 d).maxOn.mp (running_of_expired due)
  exact (law.1 d).energised en still

/-- A diverter in a test pulse pushes nothing, and no other timer of it runs (R63, R82). -/
theorem DriveLaw.pulsing (law : DriveLaw s) (due : expired (s.diverter d).pulseTimer s = true) :
    (s.diverter d).push = [] := by
  have pulse := (law.1 d).pulseTimer.mp (running_of_expired due)
  by_contra pushing
  rw [((law.1 d).pushing pushing).2] at pulse
  cases pulse

/-- A diverter in RECOVERY keeps the line from being drained (R123). -/
theorem not_drained_of_recovery (rec : (s.diverter d).state = .recovery) : ¬ s.isDrained := fun drained =>
  (drained.2.2 d).2 rec

theorem settle_maxOn (law : DriveLaw s) (due : expired (s.diverter d).maxOnTimer s = true)
    (alone : ∀ c, s.waits c = false) (busy : 0 < (s.record d).recovery) :
    settle (maxOnExpiry d s)
        = freeSlot (s.releasedWith d (watchesWithout (s.diverter d).push s.watches) (s.diverter d).push true)
      ∧ (settle (maxOnExpiry d s)).arbiter = { s.arbiter with slotsInUse := s.arbiter.slotsInUse - 1 } := by
  obtain ⟨ends, arbiter⟩ := settle_released
    (left := s.releasedWith d (watchesWithout (s.diverter d).push s.watches) (s.diverter d).push true) rfl alone
    (.inl (Nat.pos_iff_ne_zero.mp busy))
  rw [maxOnExpiry_eq (alone d) (law.pushing_of_maxOn due), ends, drainTest_not]
  · exact ⟨rfl, arbiter⟩
  · refine not_drained_of_recovery (d := d) ?_
    rw [released_diverter, released_recovery busy]

theorem settle_pulse (law : DriveLaw s) (due : expired (s.diverter d).pulseTimer s = true)
    (alone : ∀ c, s.waits c = false) (busy : 0 < (s.record d).recovery) :
    settle (releaseDiverter d s) = freeSlot (s.withDiverter d (s.released d))
      ∧ (settle (releaseDiverter d s)).arbiter = { s.arbiter with slotsInUse := s.arbiter.slotsInUse - 1 } := by
  obtain ⟨ends, arbiter⟩ := settle_released (left := s.withDiverter d (s.released d)) rfl alone
    (.inl (Nat.pos_iff_ne_zero.mp busy))
  rw [releaseDiverter_eq (law.pulsing due) (alone d), ends, drainTest_not]
  · exact ⟨rfl, arbiter⟩
  · refine not_drained_of_recovery (d := d) ?_
    show ((s.withDiverter d (s.released d)).diverter d).state = .recovery
    rw [diverter_withDiverter, released_recovery busy]

/-! ### The end of recovery (R76) -/

theorem DriveLaw.recovering (law : DriveLaw s) (rec : (s.diverter d).state = .recovery) : s.waits d = false := by
  have waiting := (law.1 d).waiting
  rw [rec] at waiting
  simpa using waiting

/-- The end of recovery replaces the diverter: IDLE, or WAITING with the items it holds (R76). -/
theorem endRecovery_eq (law : DriveLaw s) (rec : (s.diverter d).state = .recovery) :
    endRecovery d s = s.withDiverter d { s.diverter d with
      state := if (s.diverter d).pending = [] then .idle else .waiting
      recoveryTimer := none } := by
  have out := law.recovering rec
  unfold endRecovery
  by_cases empty : (s.diverter d).pending = []
  · rw [if_pos empty, withDiverter_eq out (by simp [empty])]
    exact setDiverter_congr (by simp [empty])
  · rw [if_neg empty, State.withDiverter, if_neg empty]
    exact congrArg (setWaiting d true) (setDiverter_congr (by simp))

/-- A grant reads of its own diverter only what it holds and whether it is disabled (R69). -/
theorem GrantTo.of_withDiverter {v : Diverter} (h : GrantTo d (s.withDiverter d v) t)
    (pending : v.pending = (s.diverter d).pending) (disabled : v.disabled = (s.diverter d).disabled) :
    GrantTo d s t := by
  have own : ((s.withDiverter d v).diverter d) = v := diverter_withDiverter s d v
  have releases : (s.withDiverter d v).grantReleases d = s.grantReleases d := by
    unfold State.grantReleases
    rw [own, pending]
    rfl
  have pushed : (s.withDiverter d v).pushedAt d = s.pushedAt d := by
    unfold State.pushedAt State.passedAt
    rw [own, pending, releases]
  have released : (s.withDiverter d v).released d = s.released d := by
    unfold State.released
    rw [own, pending, disabled]
    rfl
  have waiting : (s.withDiverter d v).arbiter.waiting.set d false = s.arbiter.waiting.set d false := Vector.set_set ..
  refine ⟨h.diverter.trans ?_, h.arbiter.trans ?_, h.table.trans ?_, h.watches.trans ?_, h.monitor.trans ?_,
    fun c other => ?_⟩
  · unfold State.grantedDiverter
    rw [pushed, released, own, disabled]
    rfl
  · rw [pushed, waiting]
    rfl
  · rw [State.passedAt, releases, own, pending]
    rfl
  · rw [releases]
  · rw [State.passedAt, releases]
    rfl
  · rw [← diverter_withDiverter_ne s other v]
    exact h.others c other

/-- A diverter that joins the waiting set with a free slot is granted it, as no other waits (R65, R76). -/
theorem settle_alone (free : s.slotFree = true) (law : DriveLaw s) (waits : s.waits d = true)
    (alone : ∀ c, c ≠ d → s.waits c = false) (items : s.grantable d) : settle s = grant d s := by
  have only (c : Station) (h : s.waits c = true) : c = d := by
    by_contra other
    rw [alone c other] at h
    cases h
  have first : s.firstInSearch d := by
    refine ⟨waits, ?_⟩
    split
    · exact fun c h => (only c h).ge
    · exact fun c h => only c h ▸ le_rfl
  obtain ⟨one, -, some, -⟩ := grant_spec law waits items
  have idle : ∀ c, (grant d s).waits c = false := fun c => by
    rw [one.waits, Bool.and_eq_false_iff, decide_eq_false_iff_not, not_not]
    exact (em (c = d)).imp_right (alone c)
  rw [settle, arbitrate_first free first, arbitrateRounds_idle 15 (.inr idle), drainTest_table some]

/-- The end of recovery with no item held (R76, R123). -/
theorem recovery_idles (law : DriveLaw s) (wasted : NoSlotWasted s) (rec : (s.diverter d).state = .recovery)
    (empty : (s.diverter d).pending = [])
    (is : left = s.withDiverter d { s.diverter d with state := .idle, recoveryTimer := none }) :
    settle (endRecovery d s) = drainTest left ∧ UnchangedBut [.diverters] s left := by
  have same : endRecovery d s = left := by rw [endRecovery_eq law rec, if_pos empty, is]
  have set : left = setDiverter d (fun _ => { s.diverter d with state := .idle, recoveryTimer := none }) s :=
    is.trans (withDiverter_eq (law.recovering rec) DiverterState.noConfusion)
  have slots : NoSlotWasted left := set ▸ wasted
  rw [same, settle, arbitrate_idle slots]
  exact ⟨rfl, set ▸ unchanged_setDiverter d _ s⟩

/-- The end of recovery with items held and no free slot (R76). -/
theorem recovery_waits (law : DriveLaw s) (rec : (s.diverter d).state = .recovery)
    (holding : (s.diverter d).pending ≠ [])
    (full : s.slotFree = false) (busy : s.table ≠ []) :
    settle (endRecovery d s) = s.withDiverter d { s.diverter d with state := .waiting, recoveryTimer := none } := by
  rw [endRecovery_eq law rec, if_neg holding]
  exact (settle_idle (s := s.withDiverter d _) (.inl full)).trans (drainTest_table (s := s.withDiverter d _) busy)

/-- The end of recovery with items held and a free slot: a grant (R69, R76). -/
theorem recovery_grants (law : DriveLaw s) (wasted : NoSlotWasted s) (rec : (s.diverter d).state = .recovery)
    (holding : (s.diverter d).pending ≠ []) (free : s.slotFree = true) (items : s.grantable d) :
    GrantTo d s (settle (endRecovery d s)) ∧ UnchangedBut grantParts s (settle (endRecovery d s))
      ∧ (s.releasesAhead d → (settle (endRecovery d s)).arbiter.slotsInUse = s.arbiter.slotsInUse + 1
        ∧ UnchangedBut [.watches, .table, .diverters, .arbiter] s (settle (endRecovery d s))) := by
  have drive := drive_endRecovery law rec
  obtain ⟨v, hv⟩ : ∃ v, v = { s.diverter d with state := .waiting, recoveryTimer := none } := ⟨_, rfl⟩
  have pending : v.pending = (s.diverter d).pending := by rw [hv]
  have own : (s.withDiverter d v).diverter d = v := diverter_withDiverter s d v
  have waits : (s.withDiverter d v).waits d = true := by
    rw [waits_withDiverter, hv]
    rfl
  have frame := unchanged_withDiverter d v s
  rw [endRecovery_eq law rec, if_neg holding, ← hv] at drive ⊢
  have items' : (s.withDiverter d v).grantable d := by
    refine items.imp (fun ahead => ?_) fun holds => ⟨?_, ?_⟩
    · rw [State.releasesAhead, own, pending]
      exact ahead
    · rw [own, pending]
      exact holds.distinct
    · rw [own, pending]
      exact holds.found
  have ahead' (ahead : s.releasesAhead d) : (s.withDiverter d v).releasesAhead d := by
    rw [State.releasesAhead, own, pending]
    exact ahead
  rw [settle_alone (s := s.withDiverter d v) free drive waits
    (fun c other => (waits_withDiverter_ne s other v).trans (wasted free c)) items']
  obtain ⟨one, unchanged, -, more⟩ := grant_spec drive waits items'
  refine ⟨one.of_withDiverter pending (by rw [hv]), (frame.trans unchanged).mono (by decide), fun ahead => ?_⟩
  obtain ⟨-, slots, rest⟩ := more (ahead' ahead)
  exact ⟨slots, (frame.trans rest).mono (by decide)⟩

/-! ### What the drain test leaves of an event (R123) -/

theorem DrainsTo.of_unchanged {r : State} {parts : List Part} (h : DrainsTo s t) (frame : UnchangedBut parts r s)
    (line : .line ∉ parts) (induction : .induction ∉ parts) (watches : .watches ∉ parts) (config : .config ∉ parts) :
    DrainsTo r t := by
  have line' : s.line = r.line := frame .line line
  have induction' : s.induction = r.induction := frame .induction induction
  have watches' : s.watches = r.watches := frame .watches watches
  have config' : s.config = r.config := frame .config config
  obtain ⟨a, b, c⟩ := h
  rw [line'] at a
  rw [induction', config'] at b
  rw [watches'] at c
  exact ⟨a, b, c⟩

/-- What an event ends with that changed only its drives, and left nothing to grant (R123). -/
theorem drainTest_of_drives (frame : UnchangedBut [.diverters, .arbiter] s left) :
    Submitted (if left.isDrained then [.lineState .draining .ready .drained] else []) s (drainTest left)
      ∧ (left.isDrained → DrainsTo s (drainTest left)) := by
  obtain ⟨notices, drained, -⟩ := drainTest_spec left
  have transmitter : left.link.transmitter = s.link.transmitter := frame .transmitter (by decide)
  exact ⟨notices.of_queue (frame .queue (by decide)) transmitter,
    fun h => (drained h).of_unchanged frame (by decide) (by decide) (by decide) (by decide)⟩

/-- What the end of a test pulse leaves: a slot to pass on, or a line that drains (R65, R83, R123). -/
theorem settle_pulse_laws (law : DriveLaw s) (wasted : NoSlotWasted s) (en : (s.diverter d).state = .energised)
    (due : expired (s.diverter d).pulseTimer s = true) (tags : TagLaw s) (place : PlaceLaw s)
    (is : left = s.withDiverter d (s.released d)) :
    FreesSlot left (settle (releaseDiverter d s))
      ∧ Submitted (if left.isDrained then [.lineState .draining .ready .drained] else []) s
          (settle (releaseDiverter d s))
      ∧ (left.isDrained → DrainsTo s (settle (releaseDiverter d s))
        ∧ UnchangedBut [.diverters, .arbiter, .line, .induction, .watches, .queue, .transmitter] s
            (settle (releaseDiverter d s)))
      ∧ (¬ left.isDrained → ((∀ c, left.waits c = false) →
          UnchangedBut [.diverters, .arbiter] s (settle (releaseDiverter d s)))
        ∧ UnchangedBut grantParts s (settle (releaseDiverter d s))) := by
  have holds (c : Station) : HoldsItems left c := by
    have items := holdsItems_of_laws tags place c
    have pending : (left.diverter c).pending = (s.diverter c).pending := is ▸ pending_released s d c
    refine ⟨?_, fun tag m => ?_⟩
    · rw [pending]
      exact items.distinct
    · rw [pending] at m
      exact is ▸ items.found tag m
  have holds' (c : Station) : HoldsItems (freeSlot left) c := ⟨(holds c).distinct, (holds c).found⟩
  have drive := drive_endPulse law en (running_of_expired due)
  have frame : UnchangedBut [.diverters, .arbiter] s (freeSlot left) := by
    rw [is]
    exact ((unchanged_withDiverter d _ s).trans (unchanged_freeSlot _)).mono (by decide)
  rw [releaseDiverter_eq (law.pulsing due) (law.energised en).2.1, ← is] at drive ⊢
  refine ⟨freesSlot_released law wasted en drive holds (by rw [is]), ?_⟩
  by_cases drained : left.isDrained
  · have ends := settle_drained drive holds' ((isDrained_freeSlot left).mpr drained)
    obtain ⟨notices, drains⟩ := drainTest_of_drives frame
    rw [ends]
    exact ⟨notices, fun h => ⟨drains h, (frame.trans (unchanged_drainTest _)).mono (by decide)⟩,
      fun h => absurd drained h⟩
  · have grants := grants_arbitrate drive holds'
    have all := (frame.trans grants.unchanged).mono (b := grantParts) (by decide)
    rw [settle_busy drive holds' (mt (isDrained_freeSlot left).mp drained), if_neg drained]
    refine ⟨submitted_nil (all .queue (by decide)) fun _ => all .transmitter (by decide),
      fun h => absurd h drained, fun _ => ⟨fun alone => ?_, all⟩⟩
    rw [arbitrate_idle (s := freeSlot left) fun _ => alone]
    exact frame

end Sys2Proof.Machine

open Sys2Proof Sys2Proof.Machine

/-- Settles O48: the releases as explicit states (`maxOnExpiry_eq`, `releaseDiverter_eq`) with the slot they free
(`settle_releasedWith`, `freesSlot_released`), and the end of recovery with its one grant (`recovery_grants`). -/
theorem diverterTimersExpire : Obligations.DiverterTimersExpire := by
  unfold Obligations.DiverterTimersExpire
  intro d s free law wasted
  refine ⟨fun en due alone busy => ⟨_, exec_maxOn free en due, ?_⟩, fun rec due => ⟨?_, ?_, ?_⟩,
    fun en due alone busy => ⟨_, exec_pulse free en due, ?_⟩,
    fun left en due tags place monitor is => ⟨_, exec_maxOn free en due, ?_⟩,
    fun left drained en due tags place is notices => ⟨_, exec_pulse free en due, ?_⟩, fun other => ?_, fun other => ?_,
    fun other => ?_⟩
  · obtain ⟨ends, arbiter⟩ := settle_maxOn law due alone busy
    refine ⟨?_, arbiter, ?_⟩
    · rw [ends, released_diverter, released_recovery busy]
    · rw [ends]
      refine ⟨released_monitor, fun c other => ⟨released_diverter_ne other, released_monitor_ne other⟩,
        fun tag e m found => ?_, fun tag => entry_none_of_confirmingTable released_table, released_watches,
        freeSlot_unchanged⟩
      rw [entry_of_confirmingTable released_table found, if_pos m, confirmedBy_cut]
      rfl
  · intro left drained empty is notices
    obtain ⟨ends, frame⟩ := recovery_idles law wasted rec empty is
    obtain ⟨submits, drains⟩ := drainTest_of_drives (frame.mono (by decide))
    have kept (c : Station) : (drainTest left).diverter c = left.diverter c := (same_drainTest left).diverter c
    refine ⟨_, exec_recovery free rec due, ?_⟩
    rw [ends, notices]
    refine ⟨by rw [kept, is, diverter_withDiverter], fun c other => by rw [kept, is, diverter_withDiverter_ne s other],
      submits, fun h => ⟨drains h, (frame.trans (unchanged_drainTest left)).mono (by decide)⟩, fun h => ?_⟩
    rw [drainTest_not h]
    exact frame
  · intro holding full some
    refine ⟨_, exec_recovery free rec due, ?_⟩
    rw [recovery_waits law rec holding full some]
    exact ⟨diverter_withDiverter .., rfl, fun c other => diverter_withDiverter_ne s other _,
      unchanged_withDiverter d _ s⟩
  · intro holding slot items
    obtain ⟨one, frame, ahead⟩ := recovery_grants law wasted rec holding slot
      (items.imp_right fun laws => holdsItems_of_laws laws.1 laws.2 d)
    exact ⟨_, exec_recovery free rec due, one, ahead, frame⟩
  · obtain ⟨ends, arbiter⟩ := settle_pulse law due alone busy
    have own : (freeSlot (s.withDiverter d (s.released d))).diverter d = s.released d := diverter_withDiverter s d _
    refine ⟨?_, arbiter, ?_⟩
    · rw [ends, own, released_recovery busy, ← law.pulsing due]
    · rw [ends]
      exact ⟨fun c other => diverter_withDiverter_ne s other _,
        ((unchanged_withDiverter d _ s).trans (unchanged_freeSlot _)).mono (by decide)⟩
  · have pushing := law.pushing_of_maxOn due
    have after := drive_maxOnExpiry law en
    have ends := maxOnExpiry_eq (law.energised en).2.1 pushing
    rw [ends] at after ⊢
    have done := settle_releasedWith law wasted tags place monitor en pushing (fun _ m => m) after
    subst is
    refine ⟨done.slot, fun tag m e found => ?_, done.deadline, done.monitors, done.watches, done.unchanged⟩
    rw [done.entries tag m e found, confirmedBy_cut]
    rfl
  · exact notices ▸ settle_pulse_laws law wasted en due tags place is
  · refine (stationEvent_free free d maxOnEvent).trans ?_
    rw [maxOnEvent, if_neg (by simpa [or_iff_not_imp_left] using other)]
  · refine (stationEvent_free free d recoveryEvent).trans ?_
    rw [recoveryEvent, if_neg (by simpa [or_iff_not_imp_left] using other)]
  · refine (stationEvent_free free d pulseEvent).trans ?_
    rw [pulseEvent, if_neg (by simpa [or_iff_not_imp_left] using other)]
end

