-- ==== Sys2Proof/Proofs/FireDecisions.lean ====
section
/-! PROOF. The fire decision, the reservation, and the hand-over to each state of a diverter. -/

namespace Sys2Proof.Machine

variable {s t u v w : State} {tag : Tag} {e x : Entry} {d : Station} {p : Position} {k : WatchKind}

/-! ### What a change of one part leaves -/

theorem unchanged_setEntry (tag : Tag) (f : Entry → Entry) (s : State) :
    UnchangedBut [.table] s (setEntry tag f s) := by
  intro q other
  cases q <;> simp_all [Part.same]

theorem unchanged_setDestination (d : Station) (f : DestRecord → DestRecord) (s : State) :
    UnchangedBut [.destinations] s (setDestination d f s) := by
  intro q other
  cases q <;> simp_all [Part.same]

theorem unchanged_insertWatch (p : Position) (k : WatchKind) (s : State) :
    UnchangedBut [.watches] s (insertWatch p k s) := by
  intro q other
  cases q <;> simp_all [Part.same]

theorem unchanged_energise (d : Station) (s : State) : UnchangedBut [.diverters, .arbiter] s (energise d s) := by
  intro q other
  cases q <;> simp_all [Part.same, energise, takeSlot]

theorem arbiter_energise (s : State) (d : Station) : (energise d s).arbiter
    = { s.arbiter with slotsInUse := s.arbiter.slotsInUse + 1, lastGranted := d } := rfl

theorem diverter_energise_ne {d' : Station} (other : d' ≠ d) (s : State) : (energise d s).diverter d' = s.diverter d' :=
  diverter_setDiverter_ne s other
    fun v => { v with state := .energised, output := true, maxOnTimer := timerFor (s.record d).maxOn s }

/-- A part that an event puts back as it was is unchanged by it. -/
theorem UnchangedBut.restore {q : Part} {l : List Part} (h : UnchangedBut (q :: l) s t) (same : q.same s t) :
    UnchangedBut l s t := by
  intro r other
  by_cases own : r = q
  · exact own ▸ same
  · exact h r (by simp [own, other])

/-! ### The fire decision (R49 to R51, R103, R104) -/

theorem admits_iff (r : DestRecord) : r.admits = true ↔ r.open := by
  have empty : r.causes.isEmpty = true ↔
      r.causes = { host := false, batchEnd := false, chute := false, disabled := false } := by
    obtain ⟨host, batchEnd, chute, disabled⟩ := r.causes
    simp [Causes.isEmpty, and_assoc]
  have counted : (!r.counted || decide (0 < r.remaining)) = true ↔ r.base = 0 ∨ 0 < r.remaining := by
    simp [DestRecord.counted, Nat.pos_iff_ne_zero]
  rw [DestRecord.admits, Bool.and_eq_true, empty, counted]

theorem reserve_eq (r : DestRecord) : r.reserve = r.plusOne := by
  simp [DestRecord.reserve, DestRecord.plusOne, DestRecord.counted]

/-- A unit reserved and then returned leaves the record of an open destination as it was (R104, R105). -/
theorem minusOne_plusOne {r : DestRecord} (h : r.open) : r.plusOne.minusOne = r := by
  obtain ⟨-, room⟩ := h
  obtain ⟨base, reload, remaining, outstanding, filled, serial, causes⟩ := r
  rcases room with none | some
  · simp_all [DestRecord.plusOne, DestRecord.minusOne]
  · have left : remaining - 1 + 1 = remaining := Nat.sub_add_cancel some
    by_cases counted : 0 < base <;> simp [DestRecord.plusOne, DestRecord.minusOne, counted, left]

theorem exec_fire {rest : List Watch} (delivers : s.delivers (.fire tag) rest) (found : s.entry tag = some e)
    (target : e.target = .station d) :
    exec (.fireWatch tag) s = .next (settle (fireDecision d e { s with watches := rest })) := by
  have decided : handle (.fire tag) { s with watches := rest } = fireDecision d e { s with watches := rest } := by
    show deliverFire tag { s with watches := rest } = _
    unfold deliverFire
    rw [show State.entry { s with watches := rest } tag = some e from found]
    dsimp only
    rw [target]
  rw [← decided]
  exact exec_delivers delivers

/-- The state that the reservation of a unit leaves to the hand-over (R49, R104). -/
def State.reserved (s : State) (d : Station) (tag : Tag) : State :=
  setEntry tag (fun e => { e with reservedWith := some d }) (setDestination d DestRecord.reserve s)

theorem fireDecision_open (admits : (s.destination d).open) (own : e.tag = tag) :
    fireDecision d e s = handOver d tag (s.reserved d tag) := by
  rw [fireDecision, if_pos ((admits_iff _).mpr admits), own]
  rfl

theorem fireDecision_closed (closed : ¬ (s.destination d).open)
    (last : e.flags.viaAlternate = true ∨ (s.record d).alternate = 0) (own : e.tag = tag) :
    fireDecision d e s = closeToItem tag s := by
  rw [fireDecision, if_neg (mt (admits_iff _).mp closed), own]
  split
  · rfl
  · rename_i first
    rw [last.resolve_left first]
    rfl

theorem fireDecision_alternate {a : Station} (closed : ¬ (s.destination d).open) (first : e.flags.viaAlternate = false)
    (alternate : (s.record d).alternate = stationNumber a) : fireDecision d e s = sendToAlternate a e s := by
  rw [fireDecision, if_neg (mt (admits_iff _).mp closed), first, alternate, stationOf_stationNumber]
  rfl

/-! ### The reservation (R49, R104) -/

theorem entry_setEntry_found {f : Entry → Entry} (found : s.entry tag = some e) (keeps : ∀ x, (f x).tag = x.tag) :
    (setEntry tag f s).entry tag = some (f e) := by
  rw [entry_setEntry s tag f keeps, found]
  rfl

theorem entry_reserved (found : s.entry tag = some e) (d : Station) :
    (s.reserved d tag).entry tag = some { e with reservedWith := some d } :=
  entry_setEntry_found (s := setDestination d DestRecord.reserve s) (f := fun e => { e with reservedWith := some d })
    found fun _ => rfl

theorem entry_reserved_ne {tag' : Tag} (other : tag' ≠ tag) (s : State) (d : Station) :
    (s.reserved d tag).entry tag' = s.entry tag' :=
  entry_setEntry_ne (setDestination d DestRecord.reserve s) other _ fun _ => rfl

theorem destination_reserved (s : State) (d : Station) (tag : Tag) :
    (s.reserved d tag).destination d = (s.destination d).plusOne :=
  (destination_setDestination s d _).trans (reserve_eq _)

theorem destination_reserved_ne {d' : Station} (other : d' ≠ d) (s : State) (tag : Tag) :
    (s.reserved d tag).destination d' = s.destination d' :=
  destination_setDestination_ne s other _

theorem unchanged_reserved (s : State) (d : Station) (tag : Tag) :
    UnchangedBut [.table, .destinations] s (s.reserved d tag) :=
  ((unchanged_setDestination d _ s).trans (unchanged_setEntry tag _ _)).mono (by decide)

/-- The end of an event that leaves no grant to make and the item in the table (R65, R123). -/
theorem settle_quiet (slots : NoSlotWasted t) (found : t.entry tag = some x) : settle t = t := by
  rw [settle, arbitrate_idle slots, drainTest_table (table_ne_nil_of_entry found)]

/-- A fired item with a unit of its destination: its entry, its new watch, and the record of the unit. -/
structure Takes (d : Station) (tag : Tag) (x : Entry) (w : Watch) (s t : State) : Prop where
  entry : t.entry tag = some x
  watches : t.watches = insertSorted w s.watches
  destination : t.destination d = (s.destination d).plusOne
  destinations : ∀ d', d' ≠ d → t.destination d' = s.destination d'
  others : ∀ tag', tag' ≠ tag → t.entry tag' = s.entry tag'

/-- A fired item placed with a watch: what happened to the drives before does not matter to it. -/
theorem takes_insertWatch (found : s.entry tag = some e) (table : u.table = (s.reserved d tag).table)
    (watches : u.watches = s.watches) (destinations : u.destinations = (s.reserved d tag).destinations)
    (st : EntryState) :
    Takes d tag { e with state := st, reservedWith := some d } ⟨p, k⟩ s
      (insertWatch p k (setEntry tag (fun e => { e with state := st }) u)) where
  entry := by
    exact entry_setEntry_found (s := u) (f := fun e => { e with state := st })
      ((congrFun (entry_congr table) tag).trans (entry_reserved found d)) fun _ => rfl
  watches := congrArg (insertSorted ⟨p, k⟩) watches
  destination := (congrArg (fun v : Vector DestRecord 16 => v[d]) destinations).trans (destination_reserved s d tag)
  destinations d' other :=
    (congrArg (fun v : Vector DestRecord 16 => v[d']) destinations).trans (destination_reserved_ne other s tag)
  others x other := by
    refine (entry_setEntry_ne u other (fun e => { e with state := st }) fun _ => rfl).trans ?_
    rw [entry_congr table, entry_reserved_ne other]

/-! ### The hand-over (R67, R68) -/

/-- The lists of a diverter take no more of an item: it is held, or goes back to the belt (R67). -/
abbrev Diverter.holds (v : Diverter) : Prop :=
  v.state = .waiting ∨ v.state = .recovery ∨ (v.state = .energised ∧ (v.testPulse = true ∨ 4 ≤ v.push.length))

theorem handOver_idle (idle : (s.diverter d).state = .idle) (free : s.slotFree = true) :
    handOver d tag s = joinPush d tag (energise d s) := by
  unfold handOver
  rw [idle]
  exact if_pos free

theorem handOver_waits (idle : (s.diverter d).state = .idle) (full : s.slotFree = false) : handOver d tag s
    = joinPending d tag (setWaiting d true (setDiverter d (fun v => { v with state := .waiting }) s)) := by
  unfold handOver
  rw [idle]
  exact if_neg (by simp [full])

theorem handOver_pushes (en : (s.diverter d).state = .energised) (still : (s.diverter d).testPulse = false)
    (room : (s.diverter d).push.length < 4) : handOver d tag s = joinPush d tag s := by
  unfold handOver
  rw [en]
  exact if_pos (by simp [still, room, Config.listCapacity])

theorem handOver_holds (holds : (s.diverter d).holds) : handOver d tag s = holdOrOverflow d tag s := by
  unfold handOver
  rcases holds with waiting | recovery | ⟨en, full⟩
  · rw [waiting]
  · rw [recovery]
  · rw [en]
    refine if_neg ?_
    rcases full with pulse | full
    · simp [pulse]
    · simp [Config.listCapacity, Nat.not_lt.mpr full]

theorem handOver_held (holds : (s.diverter d).holds) (room : (s.diverter d).pending.length < 4) :
    handOver d tag s = joinPending d tag s := by
  rw [handOver_holds holds]
  exact if_pos room

theorem handOver_overflow (holds : (s.diverter d).holds) (full : (s.diverter d).pending.length = 4) :
    handOver d tag s = giveBackToBelt tag .limit s := by
  rw [handOver_holds holds]
  exact if_neg (by rw [full]; decide)

/-- The state with an item at the tail of a push list, before its watch is placed (R67). -/
def State.withPushed (s : State) (d : Station) (tag : Tag) : State :=
  setEntry tag (fun e => { e with state := .pushing }) (setDiverter d (fun v => { v with push := v.push ++ [tag] }) s)

/-- The state with an item at the tail of a pending list, before its watch is placed (R67). -/
def State.withHeld (s : State) (d : Station) (tag : Tag) : State :=
  setEntry tag (fun e => { e with state := .pending })
    (setDiverter d (fun v => { v with pending := v.pending ++ [tag] }) s)

theorem entry_withPushed (found : v.entry tag = some x) (d : Station) :
    (v.withPushed d tag).entry tag = some { x with state := .pushing } :=
  entry_setEntry_found (s := setDiverter d (fun v => { v with push := v.push ++ [tag] }) v)
    (f := fun e => { e with state := .pushing }) found fun _ => rfl

theorem entry_withHeld (found : v.entry tag = some x) (d : Station) :
    (v.withHeld d tag).entry tag = some { x with state := .pending } :=
  entry_setEntry_found (s := setDiverter d (fun v => { v with pending := v.pending ++ [tag] }) v)
    (f := fun e => { e with state := .pending }) found fun _ => rfl

theorem diverter_withPushed (v : State) (d : Station) (tag : Tag) :
    (v.withPushed d tag).diverter d = { v.diverter d with push := (v.diverter d).push ++ [tag] } :=
  diverter_setDiverter v d fun v => { v with push := v.push ++ [tag] }

theorem diverter_withPushed_ne {d' : Station} (other : d' ≠ d) (v : State) (tag : Tag) :
    (v.withPushed d tag).diverter d' = v.diverter d' :=
  diverter_setDiverter_ne v other fun v => { v with push := v.push ++ [tag] }

theorem diverter_withHeld (v : State) (d : Station) (tag : Tag) :
    (v.withHeld d tag).diverter d = { v.diverter d with pending := (v.diverter d).pending ++ [tag] } :=
  diverter_setDiverter v d fun v => { v with pending := v.pending ++ [tag] }

theorem diverter_withHeld_ne {d' : Station} (other : d' ≠ d) (v : State) (tag : Tag) :
    (v.withHeld d tag).diverter d' = v.diverter d' :=
  diverter_setDiverter_ne v other fun v => { v with pending := v.pending ++ [tag] }

theorem unchanged_withPushed (v : State) (d : Station) (tag : Tag) :
    UnchangedBut [.diverters, .table] v (v.withPushed d tag) :=
  (unchanged_setDiverter d _ v).trans (unchanged_setEntry tag _ _)

theorem unchanged_withHeld (v : State) (d : Station) (tag : Tag) :
    UnchangedBut [.diverters, .table] v (v.withHeld d tag) :=
  (unchanged_setDiverter d _ v).trans (unchanged_setEntry tag _ _)

theorem joinPush_ahead (found : v.entry tag = some x)
    (ahead : reached v.counter.position (releasePoint (v.record d) x) = false) :
    joinPush d tag v = insertWatch (releasePoint (v.record d) x) (.release d tag) (v.withPushed d tag) :=
  placeRelease_ahead (entry_withPushed found d) (e := { x with state := .pushing }) ahead

theorem joinPending_ahead (found : v.entry tag = some x)
    (ahead : reached v.counter.position (latePoint (v.record d) x) = false) :
    joinPending d tag v = insertWatch (latePoint (v.record d) x) (.late d tag) (v.withHeld d tag) :=
  placeLate_ahead (entry_withHeld found d) (e := { x with state := .pending }) ahead

end Sys2Proof.Machine
end

