-- ==== Sys2Proof/Proofs/FiredAhead.lean ====
section
/-! PROOF. A fired item whose next watch is ahead of the line. -/

namespace Sys2Proof.Machine

variable {s t u v w : State} {tag : Tag} {e x : Entry} {d : Station} {p : Position} {k : WatchKind}

/-! ### A fired item whose next watch is ahead (R49, R67, R68) -/

theorem takes_withPushed (found : s.entry tag = some e) (table : v.table = (s.reserved d tag).table)
    (watches : v.watches = s.watches) (destinations : v.destinations = (s.reserved d tag).destinations) :
    Takes d tag { e with state := .pushing, reservedWith := some d } ⟨p, k⟩ s (insertWatch p k (v.withPushed d tag)) :=
  takes_insertWatch (u := setDiverter d (fun v => { v with push := v.push ++ [tag] }) v) found table watches
    destinations
    .pushing

theorem takes_withHeld (found : s.entry tag = some e) (table : v.table = (s.reserved d tag).table)
    (watches : v.watches = s.watches) (destinations : v.destinations = (s.reserved d tag).destinations) :
    Takes d tag { e with state := .pending, reservedWith := some d } ⟨p, k⟩ s (insertWatch p k (v.withHeld d tag)) :=
  takes_insertWatch (u := setDiverter d (fun v => { v with pending := v.pending ++ [tag] }) v) found table watches
    destinations .pending

theorem DiverterLaw.idles {v : Diverter} {waits : Bool} (law : DiverterLaw v waits) (idle : v.state = .idle) :
    v.push = [] ∧ v.pending = [] ∧ waits = false := by
  refine ⟨?_, law.idle (.inr idle), ?_⟩
  · by_contra pushing
    have en := (law.pushing pushing).1
    rw [idle] at en
    cases en
  · have waiting := law.waiting
    rw [idle] at waiting
    simpa using waiting

section

variable (found : s.entry tag = some e) (frame : UnchangedBut [.diverters, .arbiter] (s.reserved d tag) u)
  (slots : NoSlotWasted u)
include found frame slots

theorem settle_joinPush_ahead (ahead : reached s.counter.position (releasePoint (s.record d) e) = false)
    (ht : t = settle (joinPush d tag u)) :
    Takes d tag { e with state := .pushing, reservedWith := some d } ⟨releasePoint (s.record d) e, .release d tag⟩ s t
      ∧ t.diverter d = { u.diverter d with push := (u.diverter d).push ++ [tag] }
      ∧ t.arbiter = u.arbiter
      ∧ (∀ d', d' ≠ d → t.diverter d' = u.diverter d')
      ∧ UnchangedBut [.diverters, .table, .watches] u t := by
  have table : u.table = (s.reserved d tag).table := frame .table (by decide)
  have config : u.config = s.config := frame .config (by decide)
  have counter : u.counter = s.counter := frame .counter (by decide)
  have record : u.record d = s.record d := by rw [State.record, config]; rfl
  have entry : u.entry tag = some { e with reservedWith := some d } := by rw [entry_congr table, entry_reserved found]
  have joined := joinPush_ahead (v := u) (d := d) entry (by rw [counter, record]; exact ahead)
  have takes := takes_withPushed (p := releasePoint (s.record d) e) (k := .release d tag) found table
    (frame .watches (by decide)) (frame .destinations (by decide))
  rw [joined, record] at ht
  rw [show t = _ from ht.trans
    (settle_quiet (t := insertWatch _ (.release d tag) (u.withPushed d tag)) slots takes.entry)]
  exact ⟨takes, diverter_withPushed u d tag, rfl, fun d' other => diverter_withPushed_ne other u tag,
    ((unchanged_withPushed u d tag).trans (unchanged_insertWatch _ _ _)).mono (by decide)⟩

theorem settle_joinPending_ahead (ahead : reached s.counter.position (latePoint (s.record d) e) = false)
    (ht : t = settle (joinPending d tag u)) :
    Takes d tag { e with state := .pending, reservedWith := some d } ⟨latePoint (s.record d) e, .late d tag⟩ s t
      ∧ t.diverter d = { u.diverter d with pending := (u.diverter d).pending ++ [tag] }
      ∧ t.arbiter = u.arbiter
      ∧ (∀ d', d' ≠ d → t.diverter d' = u.diverter d')
      ∧ UnchangedBut [.diverters, .table, .watches] u t := by
  have table : u.table = (s.reserved d tag).table := frame .table (by decide)
  have config : u.config = s.config := frame .config (by decide)
  have counter : u.counter = s.counter := frame .counter (by decide)
  have record : u.record d = s.record d := by rw [State.record, config]; rfl
  have entry : u.entry tag = some { e with reservedWith := some d } := by rw [entry_congr table, entry_reserved found]
  have joined := joinPending_ahead (v := u) (d := d) entry (by rw [counter, record]; exact ahead)
  have takes := takes_withHeld (p := latePoint (s.record d) e) (k := .late d tag) found table
    (frame .watches (by decide)) (frame .destinations (by decide))
  rw [joined, record] at ht
  rw [show t = _ from ht.trans (settle_quiet (t := insertWatch _ (.late d tag) (u.withHeld d tag)) slots takes.entry)]
  exact ⟨takes, diverter_withHeld u d tag, rfl, fun d' other => diverter_withHeld_ne other u tag,
    ((unchanged_withHeld u d tag).trans (unchanged_insertWatch _ _ _)).mono (by decide)⟩

end

/-! ### A fired item on its way to the run-off or the alternate (R37, R50, R51, R68) -/

theorem noSlotWasted_arbiter (wasted : NoSlotWasted s) (arbiter : t.arbiter = s.arbiter) : NoSlotWasted t := by
  unfold NoSlotWasted State.slotFree State.waits
  rw [arbiter]
  exact wasted

/-- The watch of a fired item has left the list, so that none is taken out (R12, R14). -/
theorem removeWatch_clear (clear : s.watches.filter (fun w => w.kind.tag? != some tag) = s.watches) :
    removeWatch tag s = s := by
  unfold removeWatch
  rw [clear]

theorem settle_redirected (wasted : NoSlotWasted s) (found : s.entry tag = some e)
    (clear : s.watches.filter (fun w => w.kind.tag? != some tag) = s.watches) {f : Entry → Entry}
    (keeps : ∀ x, (f x).tag = x.tag) :
    Redirected tag (f e) p k s (settle (insertWatch p k (setEntry tag f s)))
      ∧ UnchangedBut [.table, .watches] s (settle (insertWatch p k (setEntry tag f s))) := by
  have same : insertWatch p k (setEntry tag f s) = insertWatch p k (removeWatch tag (setEntry tag f s)) := by
    rw [removeWatch_clear (s := setEntry tag f s) clear]
  have moved := redirected_setEntry (p := p) (k := k) found keeps
  rw [← same] at moved
  rw [settle_quiet (t := insertWatch p k (setEntry tag f s)) wasted moved.entry]
  exact ⟨moved, same ▸ frame_redirected f s⟩

/-- No destination takes the item: it goes to the run-off (R51). -/
theorem settle_closeToItem (wasted : NoSlotWasted s) (found : s.entry tag = some e)
    (clear : s.watches.filter (fun w => w.kind.tag? != some tag) = s.watches)
    (ahead : reached s.counter.position (runoffPoint s.config.line e) = false) :
    Redirected tag { e with target := .runOff, reason := .destClosed } (runoffPoint s.config.line e) (.runoff tag) s
        (settle (closeToItem tag s))
      ∧ UnchangedBut [.table, .watches] s (settle (closeToItem tag s)) := by
  have entry := entry_setEntry_found (s := s) (f := fun e => { e with target := .runOff, reason := .destClosed }) found
    fun _ => rfl
  have placed : closeToItem tag s = insertWatch (runoffPoint s.config.line e) (.runoff tag)
      (setEntry tag (fun e => { e with target := .runOff, reason := .destClosed }) s) :=
    placeRunoff_ahead (e := { e with target := .runOff, reason := .destClosed }) entry ahead
  rw [placed]
  exact settle_redirected (f := fun e => { e with target := .runOff, reason := .destClosed }) wasted found clear
    fun _ => rfl

/-- The item travels on to the alternate (R50). -/
theorem settle_sendToAlternate (wasted : NoSlotWasted s) (found : s.entry tag = some e)
    (clear : s.watches.filter (fun w => w.kind.tag? != some tag) = s.watches) {a : Station}
    (ahead : reached s.counter.position (firePoint (s.record a) e) = false) :
    Redirected tag { e with target := .station a, flags := { e.flags with viaAlternate := true } }
        (firePoint (s.record a) e) (.fire tag) s (settle (sendToAlternate a e s))
      ∧ UnchangedBut [.table, .watches] s (settle (sendToAlternate a e s)) := by
  obtain rfl := tag_of_entry found
  have placed : sendToAlternate a e s = insertWatch (firePoint (s.record a) e) (.fire e.tag) (setEntry e.tag
      (fun e => { e with target := .station a, flags := { e.flags with viaAlternate := true } }) s) := by
    unfold sendToAlternate
    dsimp only
    exact if_neg (by rw [dueAtOnce_ahead (s := setEntry e.tag _ s) ahead]; decide)
  rw [placed]
  exact settle_redirected (f := fun e =>
    { e with target := .station a, flags := { e.flags with viaAlternate := true } })
    wasted found clear fun _ => rfl

/-- A unit reserved for an item and returned leaves the destinations as they were (R68, R70, R104, R105). -/
theorem destinations_returned (admits : (s.destination d).open)
    (own : t.destination d = ((s.reserved d tag).destination d).minusOne)
    (others : ∀ d', d' ≠ d → t.destination d' = (s.reserved d tag).destination d') :
    t.destinations = s.destinations := by
  refine Vector.ext fun i hi => ?_
  by_cases same : ⟨i, hi⟩ = d
  · subst same
    refine own.trans ?_
    rw [destination_reserved, minusOne_plusOne admits]
    rfl
  · exact (others ⟨i, hi⟩ same).trans (destination_reserved_ne same s tag)

/-- An item with a reserved unit given back to the belt: the unit is returned (R68, R70). -/
theorem redirected_returned {st : EntryState} (admits : (s.destination d).open)
    (entry : v.entry tag = some { e with state := st, reservedWith := some d })
    (others : ∀ tag', tag' ≠ tag → v.entry tag' = s.entry tag')
    (destinations : v.destinations = (s.reserved d tag).destinations)
    (frame : UnchangedBut [.table, .destinations, .diverters, .arbiter] s v)
    (ahead : reached s.counter.position (runoffPoint s.config.line e) = false) (r : Reason) :
    Redirected tag { e with state := .travelling, target := .runOff, reason := r, reservedWith := none }
        (runoffPoint s.config.line e) (.runoff tag) s (giveBackToBelt tag r v)
      ∧ UnchangedBut [.table, .watches, .diverters, .arbiter] s (giveBackToBelt tag r v) := by
  have config : v.config = s.config := frame .config (by decide)
  have counter : v.counter = s.counter := frame .counter (by decide)
  have watches : v.watches = s.watches := frame .watches (by decide)
  have before (x : Station) : v.destination x = (s.reserved d tag).destination x :=
    congrArg (fun v : Vector DestRecord 16 => v[x]) destinations
  obtain ⟨moved, own, rest, unchanged⟩ := redirected_giveBackToBelt entry rfl
    (by rw [counter, config]; exact ahead) r
  have back : (giveBackToBelt tag r v).destinations = s.destinations :=
    destinations_returned admits (by rw [own, before]) fun x other => by rw [rest x other, before]
  refine ⟨⟨moved.entry, fun x other => (moved.others x other).trans (others x other), ?_⟩, ?_⟩
  · rw [moved.watches, watches, config]
    rfl
  · refine UnchangedBut.restore (q := .destinations) ?_ back
    exact (frame.trans unchanged).mono (by decide)

/-- A full pending list gives the item back to the belt (R67, R68). -/
theorem settle_handOver_overflow (wasted : NoSlotWasted s) (found : s.entry tag = some e)
    (admits : (s.destination d).open) (holds : (s.diverter d).holds) (full : (s.diverter d).pending.length = 4)
    (ahead : reached s.counter.position (runoffPoint s.config.line e) = false)
    (ht : t = settle (handOver d tag (s.reserved d tag))) :
    Redirected tag { e with state := .travelling, target := .runOff, reason := .limit, reservedWith := none }
        (runoffPoint s.config.line e) (.runoff tag) s t
      ∧ UnchangedBut [.table, .watches] s t := by
  obtain ⟨moved, frame⟩ := redirected_returned (st := e.state) admits (entry_reserved found d)
    (fun x other => entry_reserved_ne other s d) rfl ((unchanged_reserved s d tag).mono (by decide)) ahead .limit
  have drives := same_giveBackToBelt (s.reserved d tag) tag .limit
  have slots : NoSlotWasted (giveBackToBelt tag .limit (s.reserved d tag)) := noSlotWasted_arbiter wasted drives.arbiter
  rw [handOver_overflow (s := s.reserved d tag) holds full, settle_quiet slots moved.entry] at ht
  rw [ht]
  refine ⟨moved, .restore (q := .diverters) (.restore (q := .arbiter) (frame.mono (by decide)) drives.arbiter)
    drives.diverters⟩

end Sys2Proof.Machine
end

