-- ==== Sys2Proof/Proofs/FiredAtOnce.lean ====
section
/-! PROOF. A fired item past its release point or its late point. -/

namespace Sys2Proof.Machine

variable {s t u v w : State} {tag : Tag} {e x : Entry} {d : Station} {p : Position} {k : WatchKind}

/-! ### Watches due at once (R13, entry 11) -/

theorem placeRelease_first (found : v.entry tag = some x)
    (first : v.reachedFirst (releasePoint (v.record d) x) v.watches) :
    placeRelease d tag v = deliverRelease d tag v := by
  unfold placeRelease
  rw [found]
  exact if_pos ((dueAtOnce_iff _ v).mpr first)

theorem placeLate_first (found : v.entry tag = some x) (first : v.reachedFirst (latePoint (v.record d) x) v.watches) :
    placeLate d tag v = deliverLate d tag v := by
  unfold placeLate
  rw [found]
  exact if_pos ((dueAtOnce_iff _ v).mpr first)

theorem placeRunoff_first (found : v.entry tag = some x)
    (first : v.reachedFirst (runoffPoint v.config.line x) v.watches) : placeRunoff tag v = runoffRemoval x v := by
  unfold placeRunoff
  rw [found]
  refine (if_pos ((dueAtOnce_iff _ v).mpr first)).trans ?_
  unfold deliverRunoff
  rw [found]

/-! ### A fired item past its release point (R13, R67, R72) -/

section

variable (found : s.entry tag = some e) (frame : UnchangedBut [.diverters, .arbiter] (s.reserved d tag) u)
include frame

/-- What an item pushed and released at once leaves: the item CONFIRMING with its unit (R49, R67, R72). -/
theorem released_at_once
    (item : ItemReleased d tag { e with state := .pushing, reservedWith := some d } (u.withPushed d tag) t) :
    t.entry tag = some { e with state := .confirming, reservedWith := some d, confirmDeadline := some (s.deadlineAt d) }
      ∧ t.monitor d = s.monitorWith t d [tag]
      ∧ t.watches = s.watches
      ∧ t.destination d = (s.destination d).plusOne
      ∧ (∀ d', d' ≠ d → t.diverter d' = u.diverter d' ∧ t.monitor d' = s.monitor d'
          ∧ t.destination d' = s.destination d')
      ∧ (∀ tag', tag' ≠ tag → t.entry tag' = s.entry tag')
      ∧ UnchangedBut [.watches, .table, .diverters, .arbiter, .monitors, .destinations] s t := by
  have reserved := (unchanged_reserved s d tag).trans frame
  have before := reserved.trans (unchanged_withPushed u d tag)
  have monitors : (u.withPushed d tag).monitors = s.monitors := before .monitors (by decide)
  have monitor (x : Station) : (u.withPushed d tag).monitor x = s.monitor x :=
    congrArg (fun v : Vector Monitor 16 => v[x]) monitors
  have deadline : (u.withPushed d tag).deadlineAt d = s.deadlineAt d := by
    have time : (u.withPushed d tag).timeStamp = s.timeStamp := before .timeStamp (by decide)
    have config : (u.withPushed d tag).config = s.config := before .config (by decide)
    rw [State.deadlineAt, State.record, time, config]
    rfl
  have destinations : t.destinations = (s.reserved d tag).destinations :=
    (item.unchanged .destinations (by decide)).trans
      ((frame.trans (unchanged_withPushed u d tag)) .destinations (by decide))
  have destination (x : Station) : t.destination x = (s.reserved d tag).destination x :=
    congrArg (fun v : Vector DestRecord 16 => v[x]) destinations
  have watches : u.watches = s.watches := reserved .watches (by decide)
  refine ⟨by rw [item.entry, deadline], ?_, item.watches.trans watches,
    (destination d).trans (destination_reserved s d tag),
    fun c other => ⟨?_, ?_, ?_⟩, fun x other => ?_, (before.trans item.unchanged).mono (by decide)⟩
  · rw [item.monitor, State.monitorWith, State.monitorWith, monitor]
  · rw [(item.others c other).1, diverter_withPushed_ne other]
  · rw [(item.others c other).2, monitor]
  · rw [destination, destination_reserved_ne other]
  · have table : u.table = (s.reserved d tag).table := frame .table (by decide)
    rw [item.entries x other]
    refine (entry_setEntry_ne (setDiverter d _ u) other (fun e => { e with state := .pushing }) fun _ => rfl).trans ?_
    exact (congrFun (entry_congr table) x).trans (entry_reserved_ne other s d)

include found in
/-- An item joins the push list past its release point: it is released at once (R13, R67). -/
theorem joinPush_first (first : s.reachedFirst (releasePoint (s.record d) e) s.watches) :
    joinPush d tag u = deliverRelease d tag (u.withPushed d tag)
      ∧ (u.withPushed d tag).entry tag = some { e with state := .pushing, reservedWith := some d } := by
  have table : u.table = (s.reserved d tag).table := frame .table (by decide)
  have config : u.config = s.config := frame .config (by decide)
  have counter : u.counter = s.counter := frame .counter (by decide)
  have watches : u.watches = s.watches := frame .watches (by decide)
  have entry : u.entry tag = some { e with reservedWith := some d } := by rw [entry_congr table, entry_reserved found]
  have pushed := entry_withPushed entry d
  refine ⟨placeRelease_first pushed ?_, pushed⟩
  show (u.withPushed d tag).reachedFirst (releasePoint (u.config.diverters[d]) e) u.watches
  rw [State.reachedFirst, show (u.withPushed d tag).counter = s.counter from counter, watches, config]
  exact first

end

/-- An IDLE diverter energises for an item past its release point, and is released at once (R13, R67, R72, R73). -/
theorem settle_handOver_idle_first (law : DriveLaw s) (wasted : NoSlotWasted s) (found : s.entry tag = some e)
    (first : s.reachedFirst (releasePoint (s.record d) e) s.watches) (idle : (s.diverter d).state = .idle)
    (free : s.slotFree = true) (hu : u = energise d (s.reserved d tag))
    (ht : t = settle (handOver d tag (s.reserved d tag))) :
    ItemReleased d tag { e with state := .pushing, reservedWith := some d } (u.withPushed d tag) t
      ∧ t.diverter d = s.released d ∧ t.arbiter = { s.arbiter with lastGranted := d } := by
  have frame : UnchangedBut [.diverters, .arbiter] (s.reserved d tag) u := hu ▸ unchanged_energise d _
  obtain ⟨push, pending, -⟩ := (law.1 d).idles idle
  obtain ⟨joined, entry⟩ := joinPush_first found frame first
  have own : (u.withPushed d tag).diverter d = { s.diverter d with
      state := .energised, output := true, push := [tag]
      maxOnTimer := some (s.timeStamp + BitVec.ofNat 32 (s.record d).maxOn) } := by
    rw [diverter_withPushed, hu, diverter_energise]
    exact congrArg (fun l : List Tag => ({ s.diverter d with
      state := .energised, output := true, push := l ++ [tag]
      maxOnTimer := some (s.timeStamp + BitVec.ofNat 32 (s.record d).maxOn) } : Diverter)) push
  have last : ((u.withPushed d tag).diverter d).push.filter (fun x => x != tag) = [] := by simp [own]
  have held : tag ∈ ((u.withPushed d tag).diverter d).push := by simp [own]
  have none : ∀ c, (u.withPushed d tag).waits c = false := by
    rw [hu]
    exact wasted free
  have empty : ((u.withPushed d tag).diverter d).pending = [] := by rw [own]; exact pending
  have before := ((unchanged_reserved s d tag).trans frame).trans (unchanged_withPushed u d tag)
  have config : (u.withPushed d tag).config = s.config := before .config (by decide)
  have time : (u.withPushed d tag).timeStamp = s.timeStamp := before .timeStamp (by decide)
  have taken : (u.withPushed d tag).arbiter
      = { s.arbiter with slotsInUse := s.arbiter.slotsInUse + 1, lastGranted := d } := by
    rw [hu]
    exact arbiter_energise (s.reserved d tag) d
  obtain ⟨ends, arbiter⟩ := settle_deliverRelease_last held entry last none (.inr empty)
  have item := itemReleased_last held entry last none (.inr empty)
  rw [handOver_idle (s := s.reserved d tag) idle free, ← hu, joined] at ht
  rw [← ht] at ends arbiter item
  refine ⟨item, ?_, ?_⟩
  · rw [ends, released_diverter]
    have record : (u.withPushed d tag).record d = s.record d := by rw [State.record, config]; rfl
    simp only [State.released, own, record, time]
  · rw [arbiter, taken]
    rfl

/-- The diverters are told one by one: that of the item, and the others. -/
theorem diverters_ext (own : t.diverter d = s.diverter d) (others : ∀ d', d' ≠ d → t.diverter d' = s.diverter d') :
    t.diverters = s.diverters := by
  refine Vector.ext fun i hi => ?_
  by_cases same : ⟨i, hi⟩ = d
  · subst same
    exact own
  · exact others ⟨i, hi⟩ same

theorem filter_appended {l : List Tag} (absent : tag ∉ l) : (l ++ [tag]).filter (fun x => x != tag) = l := by
  rw [List.filter_append, List.filter_eq_self.mpr fun x m => by simpa using fun same : x = tag => absent (same ▸ m)]
  simp

/-- An ENERGISED diverter releases an item past its release point at once, and pushes on (R13, R67, R72). -/
theorem settle_handOver_pushes_first (law : DriveLaw s) (wasted : NoSlotWasted s) (found : s.entry tag = some e)
    (first : s.reachedFirst (releasePoint (s.record d) e) s.watches) (en : (s.diverter d).state = .energised)
    (still : (s.diverter d).testPulse = false) (room : (s.diverter d).push.length < 4)
    (absent : tag ∉ (s.diverter d).push) (ht : t = settle (handOver d tag (s.reserved d tag))) :
    ItemReleased d tag { e with state := .pushing, reservedWith := some d } ((s.reserved d tag).withPushed d tag) t
      ∧ t.diverters = s.diverters ∧ t.arbiter = s.arbiter := by
  obtain ⟨joined, entry⟩ := joinPush_first found (unchanged_refl _ _) first
  rw [handOver_pushes (s := s.reserved d tag) en still room, joined] at ht
  obtain ⟨w, hw⟩ : ∃ w, w = (s.reserved d tag).withPushed d tag := ⟨_, rfl⟩
  have own : w.diverter d = { s.diverter d with push := (s.diverter d).push ++ [tag] } := hw ▸ diverter_withPushed ..
  have rest : (w.diverter d).push.filter (fun x => x != tag) = (s.diverter d).push := by
    rw [own]
    exact filter_appended absent
  have more : (w.diverter d).push.filter (fun x => x != tag) ≠ [] := rest ▸ (law.1 d).energised en still
  have held : tag ∈ (w.diverter d).push := by simp [own]
  have slots : NoSlotWasted w := hw ▸ wasted
  rw [← hw] at ht entry ⊢
  have item := itemReleased_more slots held entry more
  have ends := settle_deliverRelease_more slots held entry more
  rw [← ht] at item ends
  refine ⟨item, diverters_ext (d := d) ?_ fun c other => ?_, ?_⟩
  · rw [ends, diverter_confirming, diverter_setDiverter, rest, own]
  · rw [(item.others c other).1, hw, diverter_withPushed_ne other]
    rfl
  · rw [ends, hw]
    rfl

/-! ### A fired item past its late point (R13, R67, R70) -/

/-- The reason of an item that is held past its late point (R70). -/
def State.lateReason (s : State) (d : Station) : Reason :=
  if (s.diverter d).state = .idle ∨ (s.diverter d).state = .waiting then .noSlot else .recovery

/-- An item joins the pending list past its late point: it leaves it at once (R13, R67, R70). -/
theorem joinPending_first (found : s.entry tag = some e)
    (frame : UnchangedBut [.diverters, .arbiter] (s.reserved d tag) u)
    (first : s.reachedFirst (latePoint (s.record d) e) s.watches) :
    joinPending d tag u = giveBackToBelt tag (if (u.diverter d).state = .waiting then .noSlot else .recovery)
        (leavePending d tag (u.withHeld d tag))
      ∧ (leavePending d tag (u.withHeld d tag)).entry tag =
          some { e with state := .pending, reservedWith := some d } := by
  have table : u.table = (s.reserved d tag).table := frame .table (by decide)
  have config : u.config = s.config := frame .config (by decide)
  have counter : u.counter = s.counter := frame .counter (by decide)
  have watches : u.watches = s.watches := frame .watches (by decide)
  have entry : u.entry tag = some { e with reservedWith := some d } := by rw [entry_congr table, entry_reserved found]
  have held := entry_withHeld entry d
  have reached' : (u.withHeld d tag).reachedFirst (latePoint ((u.withHeld d tag).record d)
      { e with state := .pending, reservedWith := some d }) (u.withHeld d tag).watches := by
    show (u.withHeld d tag).reachedFirst (latePoint (u.config.diverters[d]) e) u.watches
    rw [State.reachedFirst, show (u.withHeld d tag).counter = s.counter from counter, watches, config]
    exact first
  have member : tag ∈ ((u.withHeld d tag).diverter d).pending := by simp [diverter_withHeld]
  have state : ((u.withHeld d tag).diverter d).state = (u.diverter d).state := by rw [diverter_withHeld]
  have kept : (leavePending d tag (u.withHeld d tag)).table = (u.withHeld d tag).table :=
    frame_leavePending d tag _ .table (by decide)
  refine ⟨(placeLate_first held reached').trans ?_, by rw [entry_congr kept]; exact held⟩
  unfold deliverLate
  rw [if_pos member, state]

/-- An item held and given back at once leaves no trace in the drives, the unit and the reservation (R37, R70). -/
theorem settle_joinPending_first (wasted : NoSlotWasted s) (found : s.entry tag = some e)
    (frame : UnchangedBut [.diverters, .arbiter] (s.reserved d tag) u) (admits : (s.destination d).open)
    (first : s.reachedFirst (latePoint (s.record d) e) s.watches)
    (ahead : reached s.counter.position (runoffPoint s.config.line e) = false)
    (diverters : (leavePending d tag (u.withHeld d tag)).diverters = s.diverters)
    (arbiter : (leavePending d tag (u.withHeld d tag)).arbiter = s.arbiter) {r : Reason}
    (reason : (if (u.diverter d).state = .waiting then .noSlot else .recovery) = r)
    (ht : t = settle (joinPending d tag u)) :
    Redirected tag { e with state := .travelling, target := .runOff, reason := r, reservedWith := none }
        (runoffPoint s.config.line e) (.runoff tag) s t
      ∧ UnchangedBut [.table, .watches] s t := by
  obtain ⟨joined, entry⟩ := joinPending_first found frame first
  rw [joined, reason] at ht
  have after := (frame.trans (unchanged_withHeld u d tag)).trans (frame_leavePending d tag (u.withHeld d tag))
  have others (x : Tag) (other : x ≠ tag) : (leavePending d tag (u.withHeld d tag)).entry x = s.entry x := by
    have kept : (leavePending d tag (u.withHeld d tag)).table = (u.withHeld d tag).table :=
      frame_leavePending d tag _ .table (by decide)
    have table : u.table = (s.reserved d tag).table := frame .table (by decide)
    rw [entry_congr kept]
    refine (entry_setEntry_ne (setDiverter d _ u) other (fun e => { e with state := .pending }) fun _ => rfl).trans ?_
    exact (congrFun (entry_congr table) x).trans (entry_reserved_ne other s d)
  obtain ⟨moved, unchanged⟩ := redirected_returned admits entry others (after .destinations (by decide))
    (((unchanged_reserved s d tag).trans after).mono (by decide)) ahead r
  have drives := same_giveBackToBelt (leavePending d tag (u.withHeld d tag)) tag r
  have slots : NoSlotWasted (giveBackToBelt tag r (leavePending d tag (u.withHeld d tag))) :=
    noSlotWasted_arbiter wasted (drives.arbiter.trans arbiter)
  rw [settle_quiet slots moved.entry] at ht
  rw [ht]
  exact ⟨moved, .restore (q := .diverters) (.restore (q := .arbiter) (unchanged.mono (by decide))
    (drives.arbiter.trans arbiter)) (drives.diverters.trans diverters)⟩

/-- A diverter that holds items gives back one past its late point at once (R67, R70). -/
theorem settle_handOver_held_first (law : DriveLaw s) (wasted : NoSlotWasted s) (found : s.entry tag = some e)
    (admits : (s.destination d).open) (first : s.reachedFirst (latePoint (s.record d) e) s.watches)
    (ahead : reached s.counter.position (runoffPoint s.config.line e) = false) (holds : (s.diverter d).holds)
    (room : (s.diverter d).pending.length < 4) (absent : tag ∉ (s.diverter d).pending)
    (ht : t = settle (handOver d tag (s.reserved d tag))) :
    Redirected tag { e with state := .travelling, target := .runOff, reason := s.lateReason d, reservedWith := none }
        (runoffPoint s.config.line e) (.runoff tag) s t
      ∧ UnchangedBut [.table, .watches] s t := by
  rw [handOver_held (s := s.reserved d tag) holds room] at ht
  obtain ⟨w, hw⟩ : ∃ w, w = (s.reserved d tag).withHeld d tag := ⟨_, rfl⟩
  have own : w.diverter d = { s.diverter d with pending := (s.diverter d).pending ++ [tag] } :=
    hw ▸ diverter_withHeld ..
  have rest : (w.diverter d).pending.filter (fun x => x != tag) = (s.diverter d).pending := by
    rw [own]
    exact filter_appended absent
  have more : (w.diverter d).state ≠ .waiting ∨ (w.diverter d).pending.filter (fun x => x != tag) ≠ [] := by
    rw [rest, own]
    exact (em _).symm.imp_right (law.1 d).holding
  have left := leavePending_more more
  have busy : (s.diverter d).state ≠ .idle := by
    rcases holds with state | state | ⟨state, -⟩ <;> rw [state] <;> decide
  refine settle_joinPending_first wasted found (unchanged_refl _ _) admits first ahead ?_ ?_ ?_ ht
  · rw [← hw]
    refine diverters_ext (d := d) ?_ fun c other => ?_
    · rw [left, diverter_setDiverter, rest, own]
    · rw [(leavePending_others other).1, hw, diverter_withHeld_ne other]
      rfl
  · rw [← hw, left, hw]
    rfl
  · show (if (s.diverter d).state = .waiting then _ else _) = _
    simp [State.lateReason, busy]

/-- An IDLE diverter with no free slot gives back an item past its late point at once (R67, R70). -/
theorem settle_handOver_waits_first (law : DriveLaw s) (wasted : NoSlotWasted s) (found : s.entry tag = some e)
    (admits : (s.destination d).open) (first : s.reachedFirst (latePoint (s.record d) e) s.watches)
    (ahead : reached s.counter.position (runoffPoint s.config.line e) = false) (idle : (s.diverter d).state = .idle)
    (full : s.slotFree = false) (ht : t = settle (handOver d tag (s.reserved d tag))) :
    Redirected tag { e with state := .travelling, target := .runOff, reason := s.lateReason d, reservedWith := none }
        (runoffPoint s.config.line e) (.runoff tag) s t
      ∧ UnchangedBut [.table, .watches] s t := by
  obtain ⟨-, empty, out⟩ := (law.1 d).idles idle
  obtain ⟨u, hu⟩ : ∃ u, u = (s.reserved d tag).withDiverter d { s.diverter d with state := .waiting } := ⟨_, rfl⟩
  have waiting : u.diverter d = { s.diverter d with state := .waiting } := hu ▸ diverter_withDiverter ..
  have frame : UnchangedBut [.diverters, .arbiter] (s.reserved d tag) u := hu ▸ unchanged_withDiverter d _ _
  have joined : handOver d tag (s.reserved d tag) = joinPending d tag u := by
    rw [handOver_waits (s := s.reserved d tag) idle full, hu]
    rfl
  have own : (u.withHeld d tag).diverter d = { s.diverter d with state := .waiting, pending := [tag] } := by
    rw [diverter_withHeld, waiting, empty]
    rfl
  have left := leavePending_last (s := u.withHeld d tag) (d := d) (tag := tag) (by rw [own]) (by simp [own])
  rw [joined] at ht
  refine settle_joinPending_first wasted found frame admits first ahead ?_ ?_ ?_ ht
  · refine diverters_ext (d := d) ?_ fun c other => ?_
    · rw [left, diverter_setWaiting, diverter_setDiverter, diverter_setDiverter, own]
      have filtered : [tag].filter (fun x => x != tag) = [] := by simp
      show ({ s.diverter d with state := .idle, pending := [tag].filter (fun x => x != tag) } : Diverter) = _
      rw [filtered, ← idle, ← empty]
    · rw [(leavePending_others other).1, diverter_withHeld_ne other, hu, diverter_withDiverter_ne _ other]
      rfl
  · have back : (s.arbiter.waiting.set d true).set d false = s.arbiter.waiting := by
      rw [Vector.set_set, ← out]
      exact Vector.set_getElem_self _
    rw [left, hu]
    exact congrArg (fun set => { s.arbiter with waiting := set }) back
  · rw [waiting]
    simp [State.lateReason, idle]

end Sys2Proof.Machine
end

