-- ==== Sys2Proof/Proofs/RunoffRemovals.lean ====
section
/-! PROOF. The removal at the run-off, at once with the fire decision. -/

namespace Sys2Proof.Machine

variable {s t u v w left : State} {tag : Tag} {e x : Entry} {d : Station} {p : Position} {k : WatchKind}

/-! ### The removal at the run-off (R32, R53, R54, R101, R123) -/

/-- The notices of a removal at the run-off (R53, R56). -/
def State.removalNotices (s : State) (tag : Tag) (e : Entry) (reason : Reason) : List NoticeBody :=
  (if s.config.line.exitEye = true ∧ e.flags.exitSeen = false then [.exitMissing tag] else [])
    ++ [.outcome tag e.assigned .runOff .runoff reason e.flags]

/-- Everything a removal at the run-off does (R53, R54, R56). -/
theorem runoffRemoval_spec (e : Entry) (s : State) :
    (runoffRemoval e s).table = s.table.filter (fun x => x.tag != e.tag)
      ∧ (runoffRemoval e s).runOff = s.runOff.countRunoff
      ∧ (runoffRemoval e s).induction
          = { s.induction with hold := s.holdAt (s.table.filter (fun x => x.tag != e.tag)).length }
      ∧ Submitted (s.removalNotices e.tag e (runoffReason e)) s (runoffRemoval e s)
      ∧ UnchangedBut [.table, .runOff, .induction, .queue, .transmitter] s (runoffRemoval e s) := by
  obtain ⟨missing, hm⟩ : ∃ missing, missing =
      (if s.config.line.exitEye && !e.flags.exitSeen then submit (.exitMissing e.tag) s else s) := ⟨_, rfl⟩
  have noticed : Submitted (if s.config.line.exitEye = true ∧ e.flags.exitSeen = false then
      [.exitMissing e.tag] else [])
      s missing ∧ UnchangedBut noticeParts s missing := by
    rw [hm]
    by_cases awaited : s.config.line.exitEye = true ∧ e.flags.exitSeen = false
    · rw [if_pos awaited, if_pos (by simpa using awaited)]
      exact ⟨submitted_submit s _, frame_submit _ s⟩
    · rw [if_neg awaited, if_neg (by simpa using awaited)]
      exact ⟨submitted_nil rfl fun _ => rfl, unchanged_refl _ s⟩
  obtain ⟨told, ht⟩ : ∃ told, told = submit
      (.outcome e.tag e.assigned .runOff .runoff (runoffReason e) e.flags) missing :=
    ⟨_, rfl⟩
  have frame : UnchangedBut noticeParts s told := by
    rw [ht]
    exact (noticed.2.trans (frame_submit _ missing)).mono (by decide)
  have removed : runoffRemoval e s = { told with
      table := told.table.filter (fun x => x.tag != e.tag)
      induction := { told.induction with hold := told.holdAt (told.table.filter (fun x => x.tag != e.tag)).length }
      runOff := told.runOff.countRunoff } := by
    unfold runoffRemoval
    dsimp only
    rw [← hm, ← ht, removeEntry_eq]
  have table : told.table = s.table := frame .table (by decide)
  have line : told.line = s.line := frame .line (by decide)
  have config : told.config = s.config := frame .config (by decide)
  have hold (n : Nat) : told.holdAt n = s.holdAt n := by
    unfold State.holdAt
    rw [line, config]
  have notices : Submitted (s.removalNotices e.tag e (runoffReason e)) s told := by
    have outcome := submitted_submit missing (.outcome e.tag e.assigned .runOff .runoff (runoffReason e) e.flags)
    rw [ht]
    exact noticed.1.trans outcome (submit_timeStamp _ _) (congrArg PositionCounter.position (submit_counter _ _))
  rw [removed]
  refine ⟨by rw [table], ?_, ?_, notices.congr rfl rfl rfl rfl, ?_⟩
  · exact congrArg DestRecord.countRunoff (frame .runOff (by decide))
  · rw [table, hold, show told.induction = s.induction from frame .induction (by decide)]
  · refine (frame.trans (b := [.table, .runOff, .induction]) fun q other => ?_).mono (by decide)
    cases q <;> simp_all [Part.same]

/-- The removal of the item at its run-off ends the event: with the last one the line is drained (R32, R53, R123). -/
structure Removes (tag : Tag) (e : Entry) (reason : Reason) (left s t : State) : Prop where
  table : t.table = left.table
  runOff : t.runOff = s.runOff.countRunoff
  notices : Submitted (s.removalNotices tag e reason
    ++ (if left.isDrained then [.lineState .draining .ready .drained] else [])) s t
  drained : left.isDrained → DrainsTo left t
    ∧ UnchangedBut [.table, .watches, .runOff, .induction, .line, .queue, .transmitter] s t
  busy : ¬ left.isDrained → t.watches = s.watches
    ∧ t.induction = { s.induction with hold := s.holdAt left.table.length }
    ∧ UnchangedBut [.table, .watches, .runOff, .induction, .queue, .transmitter] s t

theorem settle_runoffRemoval (wasted : NoSlotWasted s) (frame : UnchangedBut [.table] s w) (own : x.tag = tag)
    (assigned : x.assigned = e.assigned) (flags : x.flags = e.flags)
    (others : w.table.filter (fun x => x.tag != tag) = s.table.filter (fun x => x.tag != tag))
    (is : left = { s with table := s.table.filter (fun x => x.tag != tag) }) :
    Removes tag e (runoffReason x) left s (settle (runoffRemoval x w)) := by
  obtain ⟨table, runOff, induction, notices, rest⟩ := runoffRemoval_spec x w
  obtain ⟨n, hn⟩ : ∃ n, n = runoffRemoval x w := ⟨_, rfl⟩
  have arbiter : w.arbiter = s.arbiter := frame .arbiter (by decide)
  have slots : NoSlotWasted n := hn ▸ (noSlotWasted_arbiter wasted arbiter).same (same_runoffRemoval w x)
  rw [own, others] at table
  rw [own, others, show w.induction = s.induction from frame .induction (by decide)] at induction
  rw [← hn] at table runOff induction notices rest ⊢
  rw [settle, arbitrate_idle slots]
  have all : UnchangedBut [.table, .runOff, .induction, .queue, .transmitter] s n := (frame.trans rest).mono (by decide)
  have line : n.line = left.line := by rw [is]; exact all .line (by decide)
  have config : n.config = left.config := by rw [is]; exact all .config (by decide)
  have watches : n.watches = left.watches := by rw [is]; exact all .watches (by decide)
  have table' : n.table = left.table := by rw [table, is]
  have drains : n.isDrained ↔ left.isDrained :=
    isDrained_congr line table' (by rw [is]; exact all .diverters (by decide))
  have hold (m : Nat) : w.holdAt m = s.holdAt m := by
    unfold State.holdAt
    rw [show w.line = s.line from frame .line (by decide), show w.config = s.config from frame .config (by decide)]
  have removal : w.removalNotices x.tag x (runoffReason x) = s.removalNotices tag e (runoffReason x) := by
    unfold State.removalNotices
    rw [own, assigned, flags, show w.config = s.config from frame .config (by decide)]
  rw [hold] at induction
  rw [removal] at notices
  obtain ⟨told, drained, moved, same⟩ := drainTest_spec n
  have kept := unchanged_drainTest n
  have transmitter : w.link.transmitter = s.link.transmitter := frame .transmitter (by decide)
  have before : Submitted (s.removalNotices tag e (runoffReason x)) s n :=
    notices.of_queue (frame .queue (by decide)) transmitter
  constructor
  case table => exact (kept .table (by decide)).trans table'
  case runOff =>
    rw [show (drainTest n).runOff = n.runOff from kept .runOff (by decide), runOff]
    exact congrArg DestRecord.countRunoff (frame .runOff (by decide))
  case notices =>
    have both := before.trans told (kept .timeStamp (by decide))
      (congrArg PositionCounter.position (kept .counter (by decide)))
    by_cases h : left.isDrained
    · rw [if_pos h]
      rwa [if_pos (drains.mpr h)] at both
    · rw [if_neg h]
      rwa [if_neg (mt drains.mp h)] at both
  case drained =>
    intro h
    obtain ⟨a, b, c⟩ := drained (drains.mpr h)
    refine ⟨⟨by rw [a, line], ?_, by rw [c, watches]⟩, (all.trans (moved (drains.mpr h))).mono (by decide)⟩
    rw [b, induction, config, is]
  case busy =>
    intro h
    rw [same (mt drains.mp h)]
    refine ⟨by rw [watches, is], by rw [induction, is], all.mono (by decide)⟩

theorem filter_setEntry (f : Entry → Entry) (keeps : ∀ x, (f x).tag = x.tag) (s : State) :
    (setEntry tag f s).table.filter (fun x => x.tag != tag) = s.table.filter (fun x => x.tag != tag) := by
  show (s.table.map _).filter _ = _
  rw [List.filter_map]
  have kept : ((fun x : Entry => x.tag != tag) ∘ fun e => if e.tag == tag then f e else e) = fun x => x.tag != tag := by
    funext x
    by_cases own : x.tag = tag <;> simp [own, keeps]
  rw [kept, List.map_congr_left (g := id), List.map_id]
  intro x m
  have other := (List.mem_filter.mp m).2
  rw [if_neg (by simpa using other)]
  rfl

section

variable (wasted : NoSlotWasted s) (found : s.entry tag = some e)
  (first : s.reachedFirst (runoffPoint s.config.line e) s.watches)
  (is : left = { s with table := s.table.filter (fun x => x.tag != tag) })
include wasted found first is

/-- No destination takes an item past its run-off point: it is removed at once (R13, R51, R53). -/
theorem settle_closeToItem_first : Removes tag e .destClosed left s (settle (closeToItem tag s)) := by
  have entry := entry_setEntry_found (s := s) (f := fun e => { e with target := .runOff, reason := .destClosed }) found
    fun _ => rfl
  have placed : closeToItem tag s = runoffRemoval { e with target := .runOff, reason := .destClosed }
      (setEntry tag (fun e => { e with target := .runOff, reason := .destClosed }) s) :=
    placeRunoff_first entry first
  rw [placed]
  exact settle_runoffRemoval (x := { e with target := .runOff, reason := .destClosed }) wasted
    (unchanged_setEntry tag _ s)
    (tag_of_entry entry) rfl rfl (filter_setEntry
      (fun e => { e with target := .runOff, reason := .destClosed }) (fun _ => rfl) s) is

/-- A full pending list gives back an item past its run-off point: it is removed at once (R13, R53, R68). -/
theorem settle_handOver_overflow_first (clear : s.watches.filter (fun w => w.kind.tag? != some tag) = s.watches)
    (admits : (s.destination d).open) (holds : (s.diverter d).holds) (full : (s.diverter d).pending.length = 4) :
    Removes tag e .limit left s (settle (handOver d tag (s.reserved d tag))) := by
  obtain ⟨v, hv⟩ : ∃ v, v = setDestination d DestRecord.giveBack (s.reserved d tag) := ⟨_, rfl⟩
  obtain ⟨w, hw⟩ : ∃ w, w = setEntry tag (fun e => { e with state := .travelling, target := .runOff, reason := .limit })
    (setEntry tag (fun e => { e with reservedWith := none }) v) := ⟨_, rfl⟩
  have back : v.destinations = s.destinations := by
    refine destinations_returned (d := d) (tag := tag) admits ?_ fun c other => ?_
    · rw [hv, destination_setDestination, giveBack_eq]
    · rw [hv, destination_setDestination_ne _ other]
  have frame : UnchangedBut [.table] s v := by
    refine .restore (q := .destinations) ?_ back
    rw [hv]
    exact ((unchanged_reserved s d tag).trans (unchanged_setDestination d _ _)).mono (by decide)
  have frame' : UnchangedBut [.table] s w := by
    rw [hw]
    exact ((frame.trans (unchanged_setEntry tag _ v)).trans (unchanged_setEntry tag _ _)).mono (by decide)
  have reserved := entry_reserved found d
  have held : v.entry tag = some { e with reservedWith := some d } := hv ▸ reserved
  have entry : w.entry tag = some { e with
      state := .travelling, target := .runOff, reason := .limit, reservedWith := none } := by
    rw [hw]
    exact entry_setEntry_found (f := fun e => { e with state := .travelling, target := .runOff, reason := .limit })
      (entry_setEntry_found (f := fun e => { e with reservedWith := none }) held fun _ => rfl) fun _ => rfl
  have watches : w.watches = s.watches := frame' .watches (by decide)
  have same : removeWatch tag w = w := removeWatch_clear (by rw [watches, clear])
  have others : w.table.filter (fun x => x.tag != tag) = s.table.filter (fun x => x.tag != tag) := by
    rw [hw, filter_setEntry (fun e => { e with state := .travelling, target := .runOff, reason := .limit })
      fun _ => rfl,
      filter_setEntry (fun e => { e with reservedWith := none }) fun _ => rfl, hv]
    exact filter_setEntry (fun e => { e with reservedWith := some d }) (fun _ => rfl)
      (setDestination d DestRecord.reserve s)
  have due : w.reachedFirst (runoffPoint w.config.line e) w.watches := by
    rw [State.reachedFirst, watches, show w.counter = s.counter from frame' .counter (by decide),
      show w.config = s.config from frame' .config (by decide)]
    exact first
  have returned : giveBackToBelt tag .limit (s.reserved d tag) = placeRunoff tag (removeWatch tag w) := by
    unfold giveBackToBelt returnUnit sendToRunoff
    rw [reserved, Option.bind_some, hw, hv]
  have placed := placeRunoff_first (v := w) entry due
  rw [handOver_overflow (s := s.reserved d tag) holds full, returned, same, placed]
  exact settle_runoffRemoval (x := { e with
    state := .travelling, target := .runOff, reason := .limit, reservedWith := none }) wasted frame'
    (tag_of_entry entry)
    rfl rfl others is

end

end Sys2Proof.Machine
end

