-- ==== Sys2Proof/Proofs/FireWatches.lean ====
section
/-! PROOF. The delivery of a FIRE watch: O41. -/

namespace Sys2Proof.Machine

variable {s t : State} {tag : Tag} {e : Entry} {d a : Station} {rest : List Watch}

/-- A fire point of the alternate that is reached is decided there at once, as its own FIRE watch would decide it
(R13, R50, R51). -/
theorem exec_fire_alternate (delivers : s.delivers (.fire tag) rest) (found : s.entry tag = some e)
    (target : e.target = .station d) (closed : ¬ (s.destination d).open) (direct : e.flags.viaAlternate = false)
    (alternate : (s.record d).alternate = stationNumber a) (first : s.reachedFirst (firePoint (s.record a) e) rest) :
    exec (.fireWatch tag) s = exec (.fireWatch tag) { s with
      table := s.table.map (fun x =>
        if x.tag = tag then { x with target := .station a, flags := { x.flags with viaAlternate := true } } else x)
      watches := ⟨firePoint (s.record a) e, .fire tag⟩ :: rest } := by
  obtain rfl := tag_of_entry found
  obtain ⟨f, hf⟩ : ∃ f : Entry → Entry,
      f = fun x => { x with target := .station a, flags := { x.flags with viaAlternate := true } } := ⟨_, rfl⟩
  obtain ⟨u, hu⟩ : ∃ u, u = setEntry e.tag f { s with watches := rest } := ⟨_, rfl⟩
  have keeps (x : Entry) : (f x).tag = x.tag := by rw [hf]
  have entry : u.entry e.tag = some (f e) := hu ▸ entry_setEntry_found (s := { s with watches := rest }) found keeps
  have table : s.table.map (fun x => if x.tag = e.tag then
      { x with target := .station a, flags := { x.flags with viaAlternate := true } } else x) = u.table := by
    rw [hu, hf]
    exact List.map_congr_left fun x _ => by simp
  have sent : fireDecision d e { s with watches := rest } = decideAtAlternate a e.tag u := by
    rw [fireDecision_alternate (s := { s with watches := rest }) closed direct alternate, hu, hf]
    exact if_pos ((dueAtOnce_iff _ _).mpr first)
  have decided : fireDecision a (f e) u = decideAtAlternate a e.tag u := by
    unfold fireDecision decideAtAlternate
    rw [keeps, hf]
    simp
  rw [exec_fire delivers found target, sent, ← decided, table]
  have same : { { s with table := u.table, watches := ⟨firePoint (s.record a) e, .fire e.tag⟩ :: rest } with
      watches := rest } = u := by
    rw [hu]
    rfl
  have again := exec_fire (s := { s with table := u.table, watches := ⟨firePoint (s.record a) e, .fire e.tag⟩ :: rest })
    (d := a) ⟨delivers.1, _, rfl, first.1⟩ entry (by rw [hf])
  rw [again, same]

/-! ### The hand-over of each state of the diverter, with the next watch ahead (R67) -/

section

variable (law : DriveLaw s) (wasted : NoSlotWasted s) (found : s.entry tag = some e)
  (ht : t = settle (handOver d tag (s.reserved d tag)))
include found ht

include law wasted in
/-- An IDLE diverter with a free slot energises for the item. -/
theorem settle_handOver_idle (idle : (s.diverter d).state = .idle) (free : s.slotFree = true)
    (ahead : reached s.counter.position (releasePoint (s.record d) e) = false) :
    Takes d tag { e with state := .pushing, reservedWith := some d } ⟨releasePoint (s.record d) e, .release d tag⟩ s t
      ∧ t.diverter d = { s.diverter d with
          state := .energised, output := true, push := [tag]
          maxOnTimer := some (s.timeStamp + BitVec.ofNat 32 (s.record d).maxOn) }
      ∧ t.arbiter = { s.arbiter with slotsInUse := s.arbiter.slotsInUse + 1, lastGranted := d }
      ∧ (∀ d', d' ≠ d → t.diverter d' = s.diverter d')
      ∧ UnchangedBut [.watches, .table, .diverters, .arbiter, .destinations] s t := by
  have frame := unchanged_energise d (s.reserved d tag)
  rw [handOver_idle (s := s.reserved d tag) idle free] at ht
  obtain ⟨takes, diverter, arbiter, others, rest⟩ :=
    settle_joinPush_ahead found frame (fun _ => wasted free) ahead ht
  refine ⟨takes, ?_, arbiter, fun c other => (others c other).trans (diverter_energise_ne other (s.reserved d tag)),
    (((unchanged_reserved s d tag).trans frame).trans rest).mono (by decide)⟩
  rw [diverter, diverter_energise]
  exact congrArg (fun l : List Tag => ({ s.diverter d with
    state := .energised, output := true, push := l ++ [tag]
    maxOnTimer := some (s.timeStamp + BitVec.ofNat 32 (s.record d).maxOn) } : Diverter)) ((law.1 d).idles idle).1

include law in
/-- An IDLE diverter with no free slot waits with the item. -/
theorem settle_handOver_waits (idle : (s.diverter d).state = .idle) (full : s.slotFree = false)
    (ahead : reached s.counter.position (latePoint (s.record d) e) = false) :
    Takes d tag { e with state := .pending, reservedWith := some d } ⟨latePoint (s.record d) e, .late d tag⟩ s t
      ∧ t.diverter d = { s.diverter d with state := .waiting, pending := [tag] }
      ∧ t.waits d = true
      ∧ (∀ d', d' ≠ d → t.diverter d' = s.diverter d' ∧ t.waits d' = s.waits d')
      ∧ UnchangedBut [.watches, .table, .diverters, .arbiter, .destinations] s t := by
  obtain ⟨u, hu⟩ : ∃ u, u = (s.reserved d tag).withDiverter d { s.diverter d with state := .waiting } := ⟨_, rfl⟩
  have frame : UnchangedBut [.diverters, .arbiter] (s.reserved d tag) u := hu ▸ unchanged_withDiverter d _ _
  have joined : handOver d tag (s.reserved d tag) = joinPending d tag u := by
    rw [handOver_waits (s := s.reserved d tag) idle full, hu]
    rfl
  have busy : u.slotFree = false := by
    rw [hu]
    exact full
  rw [joined] at ht
  obtain ⟨takes, diverter, arbiter, others, rest⟩ :=
    settle_joinPending_ahead found frame (fun free => absurd free (by simp [busy])) ahead ht
  have waits (c : Station) : t.waits c = u.waits c := by
    unfold State.waits
    rw [arbiter]
  refine ⟨takes, ?_, ?_, fun c other => ⟨?_, ?_⟩,
    (((unchanged_reserved s d tag).trans frame).trans rest).mono (by decide)⟩
  · rw [diverter, hu, diverter_withDiverter]
    exact congrArg (fun l : List Tag => ({ s.diverter d with state := .waiting, pending := l ++ [tag] } : Diverter))
      ((law.1 d).idles idle).2.1
  · rw [waits, hu, waits_withDiverter]
    rfl
  · rw [others c other, hu, diverter_withDiverter_ne _ other]
    rfl
  · rw [waits, hu, waits_withDiverter_ne _ other]
    rfl

include wasted in
/-- An ENERGISED diverter with room pushes the item, too. -/
theorem settle_handOver_pushes (en : (s.diverter d).state = .energised) (still : (s.diverter d).testPulse = false)
    (room : (s.diverter d).push.length < 4) (ahead : reached s.counter.position (releasePoint (s.record d) e) = false) :
    Takes d tag { e with state := .pushing, reservedWith := some d } ⟨releasePoint (s.record d) e, .release d tag⟩ s t
      ∧ t.diverter d = { s.diverter d with push := (s.diverter d).push ++ [tag] }
      ∧ (∀ d', d' ≠ d → t.diverter d' = s.diverter d')
      ∧ UnchangedBut [.watches, .table, .diverters, .destinations] s t := by
  rw [handOver_pushes (s := s.reserved d tag) en still room] at ht
  obtain ⟨takes, diverter, -, others, rest⟩ := settle_joinPush_ahead found (unchanged_refl _ _) wasted ahead ht
  exact ⟨takes, diverter, others, ((unchanged_reserved s d tag).trans rest).mono (by decide)⟩

include wasted in
/-- A diverter that cannot push the item holds it. -/
theorem settle_handOver_held (holds : (s.diverter d).holds) (room : (s.diverter d).pending.length < 4)
    (ahead : reached s.counter.position (latePoint (s.record d) e) = false) :
    Takes d tag { e with state := .pending, reservedWith := some d } ⟨latePoint (s.record d) e, .late d tag⟩ s t
      ∧ t.diverter d = { s.diverter d with pending := (s.diverter d).pending ++ [tag] }
      ∧ (∀ d', d' ≠ d → t.diverter d' = s.diverter d')
      ∧ UnchangedBut [.watches, .table, .diverters, .destinations] s t := by
  rw [handOver_held (s := s.reserved d tag) holds room] at ht
  obtain ⟨takes, diverter, -, others, rest⟩ := settle_joinPending_ahead found (unchanged_refl _ _) wasted ahead ht
  exact ⟨takes, diverter, others, ((unchanged_reserved s d tag).trans rest).mono (by decide)⟩

end

end Sys2Proof.Machine

open Sys2Proof Sys2Proof.Machine

/-- Settles O41: the decision (`fireDecision_open`, `fireDecision_closed`, `fireDecision_alternate`), then the
hand-over of each state of the diverter, with the next watch ahead or due at once. -/
theorem fireWatchDecides : Obligations.FireWatchDecides := by
  unfold Obligations.FireWatchDecides
  intro tag rest e d s delivers drive slots entry target apart
  obtain ⟨v, hv⟩ : ∃ v, v = { s with watches := rest } := ⟨_, rfl⟩
  have run : exec (.fireWatch tag) s = .next (settle (fireDecision d e v)) := hv ▸ exec_fire delivers entry target
  have own := tag_of_entry entry
  have law : DriveLaw v := hv ▸ drive
  have wasted : NoSlotWasted v := hv ▸ slots
  have found : v.entry tag = some e := hv ▸ entry
  have clear : v.watches.filter (fun w => w.kind.tag? != some tag) = v.watches := by
    rw [hv]
    simpa using apart
  have watches : v.watches = rest := by rw [hv]
  have replaced {t : State} {x : Entry} {p : Position} {k : WatchKind} (h : Redirected tag x p k v t) :
      t.watches = insertSorted ⟨p, k⟩ rest := by rw [h.watches, clear, watches]
  have after {t : State} {l : List Part} (h : UnchangedBut l v t) : UnchangedBut (.watches :: l) s t := by
    refine UnchangedBut.trans (a := [.watches]) (fun p other => ?_) h
    rw [hv]
    cases p <;> simp_all [Part.same]
  have reserves (admits : (v.destination d).open) : exec (.fireWatch tag) s =
      .next (settle (handOver d tag (v.reserved d tag))) :=
    run.trans (by rw [fireDecision_open admits own])
  have closes (closed : ¬ (v.destination d).open) (last : e.flags.viaAlternate = true ∨ (v.record d).alternate = 0) :
      exec (.fireWatch tag) s = .next (settle (closeToItem tag v)) :=
    run.trans (by rw [fireDecision_closed closed last own])
  have sends (a : Station) (closed : ¬ (v.destination d).open) (direct : e.flags.viaAlternate = false)
      (alternate : (v.record d).alternate = stationNumber a) :
      exec (.fireWatch tag) s = .next (settle (sendToAlternate a e v)) :=
    run.trans (by rw [fireDecision_alternate closed direct alternate])
  subst hv
  refine ⟨fun admits idle free ahead => ⟨_, reserves admits, ?_⟩,
    fun admits idle full ahead => ⟨_, reserves admits, ?_⟩,
    fun admits en still room ahead => ⟨_, reserves admits, ?_⟩,
    fun admits holds => ⟨fun room ahead => ⟨_, reserves admits, ?_⟩, fun full ahead => ⟨_, reserves admits, ?_⟩⟩,
    fun closed last ahead => ⟨_, closes closed last, ?_⟩,
    fun a closed direct alternate ahead => ⟨_, sends a closed direct alternate, ?_⟩,
    fun admits first => ⟨fun idle free => ⟨_, reserves admits, ?_⟩,
      fun en still room absent => ⟨_, reserves admits, ?_⟩⟩,
    fun admits first ahead cases => ⟨_, reserves admits, ?_⟩, fun reason left drained first is notices cases => ?_,
    fun a closed direct alternate first => exec_fire_alternate delivers entry target closed direct alternate first⟩
  · obtain ⟨takes, diverter, arbiter, others, frame⟩ := settle_handOver_idle law wasted found rfl idle free ahead
    exact ⟨diverter, arbiter, takes.entry, takes.watches, takes.destination,
      fun c other => ⟨others c other, takes.destinations c other⟩, takes.others, (after frame).mono (by decide)⟩
  · obtain ⟨takes, diverter, waits, others, frame⟩ := settle_handOver_waits law found rfl idle full ahead
    exact ⟨diverter, waits, takes.entry, takes.watches, takes.destination,
      fun c other => ⟨(others c other).1, (others c other).2, takes.destinations c other⟩, takes.others,
      (after frame).mono (by decide)⟩
  · obtain ⟨takes, diverter, others, frame⟩ := settle_handOver_pushes wasted found rfl en still room ahead
    exact ⟨diverter, takes.entry, takes.watches, takes.destination,
      fun c other => ⟨others c other, takes.destinations c other⟩, takes.others, (after frame).mono (by decide)⟩
  · obtain ⟨takes, diverter, others, frame⟩ := settle_handOver_held wasted found rfl holds room ahead
    exact ⟨diverter, takes.entry, takes.watches, takes.destination,
      fun c other => ⟨others c other, takes.destinations c other⟩, takes.others, (after frame).mono (by decide)⟩
  · obtain ⟨moved, frame⟩ := settle_handOver_overflow wasted found admits holds full ahead rfl
    exact ⟨moved.entry, replaced moved, moved.others, (after frame).mono (by decide)⟩
  · obtain ⟨moved, frame⟩ := settle_closeToItem wasted found clear ahead
    exact ⟨moved.entry, replaced moved, moved.others, (after frame).mono (by decide)⟩
  · obtain ⟨moved, frame⟩ := settle_sendToAlternate wasted found clear ahead
    exact ⟨moved.entry, replaced moved, moved.others, (after frame).mono (by decide)⟩
  · obtain ⟨item, diverter, arbiter⟩ := settle_handOver_idle_first law wasted found first idle free rfl rfl
    obtain ⟨e', monitor, ws, destination, others, entries, frame⟩ := released_at_once (unchanged_energise d _) item
    refine ⟨diverter, arbiter, e', monitor, ws, destination, fun c other => ?_, entries, (after frame).mono (by decide)⟩
    obtain ⟨drive, rest⟩ := others c other
    exact ⟨drive.trans (diverter_energise_ne other _), rest⟩
  · obtain ⟨item, diverters, arbiter⟩ := settle_handOver_pushes_first law wasted found first en still room absent rfl
    obtain ⟨e', monitor, ws, destination, others, entries, frame⟩ := released_at_once (unchanged_refl _ _) item
    exact ⟨e', monitor, ws, destination, fun c other => (others c other).2, entries,
      .restore (q := .diverters) (.restore (q := .arbiter) ((after frame).mono (by decide)) arbiter) diverters⟩
  · have moved : Redirected tag { e with
        state := .travelling, target := .runOff, reason := s.lateReason d, reservedWith := none }
        (runoffPoint s.config.line e) (.runoff tag) { s with watches := rest } _
        ∧ UnchangedBut [.table, .watches] _ _ :=
      cases.elim (fun h => settle_handOver_waits_first law wasted found admits first ahead h.1 h.2 rfl)
        fun h => settle_handOver_held_first law wasted found admits first ahead h.1 h.2.1 h.2.2 rfl
    exact ⟨moved.1.entry, replaced moved.1, moved.1.others, (after moved.2).mono (by decide)⟩
  · subst notices
    have removes : ∃ t, exec (.fireWatch tag) s = .next t ∧ Removes tag e reason left { s with watches := rest } t := by
      rcases cases with ⟨admits, full, rfl, holds⟩ | ⟨closed, last, rfl⟩
      · exact ⟨_, reserves admits, settle_handOver_overflow_first wasted found first is clear admits holds full⟩
      · exact ⟨_, closes closed last, settle_closeToItem_first wasted found first is⟩
    obtain ⟨t, ends, removed⟩ := removes
    refine ⟨t, ends, removed.table, removed.runOff, ?_, fun h => ?_, fun h => ?_⟩
    · exact removed.notices.of_queue rfl rfl
    · exact ⟨(removed.drained h).1, (after (removed.drained h).2).mono (by decide)⟩
    · obtain ⟨ws, induction, frame⟩ := removed.busy h
      exact ⟨ws, induction, (after frame).mono (by decide)⟩
end

