-- ==== Sys2Proof/Proofs/Drains.lean ====
section
/-! PROOF. STOP and the completion of a drain: O17. -/

namespace Sys2Proof.Machine

variable {s : State} {number : Half}

/-! ### STOP (R122) -/

/-- The line while it drains: what STOP in RUNNING makes of the line state controller (R122). -/
def State.draining (s : State) : State := { s with line := { s.line with state := .draining } }

/-- What STOP does in RUNNING before the drain test (R32, R122). -/
theorem beginDrain_spec (s : State) : (beginDrain s).line = { s.line with state := .draining }
    ∧ (beginDrain s).induction
        = { s.induction with hold := decide (s.config.line.holdThreshold ≤ s.table.length) }
    ∧ Submitted [.lineState .running .draining .drain] s (beginDrain s)
    ∧ UnchangedBut [.line, .induction, .queue, .transmitter] s (beginDrain s)
    ∧ ((beginDrain s).isDrained ↔ s.draining.isDrained) := by
  unfold beginDrain
  rw [evaluateHold_eq]
  refine ⟨submit_line _ _, (submit_induction _ _).trans (by simp [State.holdAt]),
    .of_queue (submitted_submit _ _) rfl rfl, fun p other => ?_,
    isDrained_congr (submit_line _ _) (submit_table _ _) (submit_diverters _ _)⟩
  cases p <;> simp_all [Part.same, submitLine]

/-- STOP by the line state (R122). -/
theorem stop_rule (s : State) : OrderKind.stop.rule [] s =
    if s.line.state = .running then done (drainTest (beginDrain s))
    else if s.line.state = .draining then done s
    else refuse .state s := by
  show stop [] s = _
  unfold stop
  rw [formChecked_formed ⟨rfl, by decide⟩]
  cases s.line.state <;> rfl

/-- A line that STOP leaves drained has passed through DRAINING to READY (R30, R32, R123). -/
theorem drainTest_beginDrain (drained : s.draining.isDrained) :
    DrainsTo s (drainTest (beginDrain s))
      ∧ Submitted [.lineState .running .draining .drain, .lineState .draining .ready .drained] s
          (drainTest (beginDrain s))
      ∧ UnchangedBut [.line, .induction, .watches, .queue, .transmitter] s (drainTest (beginDrain s)) := by
  obtain ⟨line, induction, notice, frame, drains⟩ := beginDrain_spec s
  generalize beginDrain s = b at line induction notice frame drains ⊢
  obtain ⟨notices, moves, moved, -⟩ := drainTest_spec b
  obtain ⟨line', induction', watches'⟩ := moves (drains.mpr drained)
  have kept := moved (drains.mpr drained)
  rw [if_pos (drains.mpr drained)] at notices
  have config : b.config = s.config := frame .config (by decide)
  refine ⟨⟨by rw [line', line], by rw [induction', induction, config],
    by rw [watches', show b.watches = s.watches from frame .watches (by decide)]⟩, ?_,
    (frame.trans kept).mono (by decide)⟩
  exact notice.trans notices (kept .timeStamp (by decide))
    (congrArg PositionCounter.position (kept .counter (by decide)))

end Sys2Proof.Machine

open Sys2Proof Sys2Proof.Machine

/-- Settles O17: STOP in RUNNING is the start of the drain (`beginDrain_spec`) and then the drain test, which is
DRAIN_COMPLETE as well (`drainTest_spec`). -/
theorem stopDrains : Obligations.StopDrains := by
  unfold Obligations.StopDrains
  refine ⟨fun number s takes => ⟨fun running busy => ?_, fun running drained => ?_, fun draining => ?_, fun off => ?_⟩,
    fun s free => ⟨fun drained => ⟨_, event_free free drainTest, ?_⟩, fun busy => ?_⟩⟩
  · have rule := (stop_rule s).trans (if_pos running)
    obtain ⟨line, induction, notice, frame, drains⟩ := beginDrain_spec s
    rw [drainTest_not (mt drains.mp busy)] at rule
    obtain ⟨t, run, answered, kept, notices⟩ := exec_order_notices takes rule notice
    exact ⟨t, run, answered, (kept .line (by decide)).trans line, (kept .induction (by decide)).trans induction,
      notices, (frame.trans kept).mono (by decide)⟩
  · obtain ⟨moves, notice, frame⟩ := drainTest_beginDrain drained
    obtain ⟨t, run, answered, kept, notices⟩ := exec_order_notices takes ((stop_rule s).trans (if_pos running)) notice
    exact ⟨t, run, answered, (kept .line (by decide)).trans moves.line,
      (kept .induction (by decide)).trans moves.induction, (kept .watches (by decide)).trans moves.watches, notices,
      (frame.trans kept).mono (by decide)⟩
  · exact exec_order takes ((stop_rule s).trans (by rw [draining]))
  · have other : s.line.state ≠ .running ∧ s.line.state ≠ .draining := by
      rcases off with off | off | off <;> simp [off]
    exact exec_refused (r := .state) takes ((stop_rule s).trans ((if_neg other.1).trans (if_neg other.2)))
  · obtain ⟨notice, moves, moved, -⟩ := drainTest_spec s
    obtain ⟨line, induction, watches⟩ := moves drained
    rw [if_pos drained] at notice
    exact ⟨line, induction, watches, notice, moved drained⟩
  · exact (event_free free drainTest).trans (by rw [drainTest_not busy])
end

