-- ==== Sys2Proof/Proofs/RunoffWatches.lean ====
section
/-! PROOF. The delivery of a RUNOFF watch and the exit eye: O42. -/

namespace Sys2Proof.Machine

variable {s left : State} {tag : Tag} {e : Entry} {rest : List Watch}

/-! ### The RUNOFF watch (R53) -/

/-- The reason chosen at the run-off (R53). -/
theorem runoffReason_eq (e : Entry) : runoffReason e =
    if e.reason ≠ .none then e.reason else if e.flags.lateSeen = true then .lateAssign
      else if e.assigned = none then .noAssign else .none := by
  unfold runoffReason
  simp only [Option.isNone_iff_eq_none]

/-- The delivery of a RUNOFF watch is the removal of its entry (R53, R123). -/
theorem exec_runoff (delivers : s.delivers (.runoff tag) rest) (wasted : NoSlotWasted s) (found : s.entry tag = some e)
    (is : left = { s with table := s.table.filter (fun x => x.tag != tag), watches := rest }) :
    ∃ t, exec (.runoffWatch tag) s = .next t
      ∧ Removes tag e (runoffReason e) left { s with watches := rest } t := by
  have handled : handle (.runoff tag) { s with watches := rest } = runoffRemoval e { s with watches := rest } := by
    show deliverRunoff tag { s with watches := rest } = _
    unfold deliverRunoff
    rw [show State.entry { s with watches := rest } tag = some e from found]
  have run := exec_delivers delivers
  rw [handled] at run
  exact ⟨_, run, settle_runoffRemoval (s := { s with watches := rest }) wasted (unchanged_refl _ _)
    (tag_of_entry found) rfl rfl rfl is⟩

/-! ### The exit eye (R56, R57) -/

theorem expectedAtExit_iff (l : LineRecord) (position : Position) (e : Entry) :
    e.expectedAtExit l position = true ↔ e.awaitedAtExit l position := by
  simp only [Entry.expectedAtExit, Bool.and_eq_true, beq_iff_eq, Bool.not_eq_true', decide_eq_true_eq, and_assoc]
  rfl

theorem exitLeadingEdge_off (off : s.config.line.exitEye = false ∨ s.line.state.working = false) :
    exitLeadingEdge s = s := by
  unfold exitLeadingEdge
  rw [if_neg]
  rcases off with off | off <;> simp [off]

section

variable (present : s.config.line.exitEye = true) (working : s.line.state.working = true)
include present working

/-- The first entry that the exit eye awaits is marked (R57). -/
theorem exitLeadingEdge_marks {pre post : List Entry} (table : s.table = pre ++ e :: post)
    (awaited : e.awaitedAtExit s.config.line s.counter.position)
    (before : ∀ x ∈ pre, ¬ x.awaitedAtExit s.config.line s.counter.position) :
    exitLeadingEdge s = setEntry e.tag (fun e => { e with flags := { e.flags with exitSeen := true } }) s := by
  have first : s.table.find? (Entry.expectedAtExit s.config.line s.counter.position) = some e := by
    rw [table]
    refine List.find?_eq_some_iff_append.mpr ⟨(expectedAtExit_iff _ _ e).mpr awaited, pre, post, rfl, fun x m => ?_⟩
    rw [Bool.not_eq_true', Bool.eq_false_iff]
    exact mt (expectedAtExit_iff _ _ x).mp (before x m)
  unfold exitLeadingEdge
  rw [present, working, first]
  rfl

/-- An edge that no entry awaits is reported (R57). -/
theorem exitLeadingEdge_unexpected (unawaited : ∀ x ∈ s.table, ¬ x.awaitedAtExit s.config.line s.counter.position) :
    exitLeadingEdge s = submit .exitUnexpected s := by
  have first : s.table.find? (Entry.expectedAtExit s.config.line s.counter.position) = none :=
    List.find?_eq_none.mpr fun x m => mt (expectedAtExit_iff _ _ x).mp (unawaited x m)
  unfold exitLeadingEdge
  rw [present, working, first]
  rfl

end

end Sys2Proof.Machine

open Sys2Proof Sys2Proof.Machine

/-- Settles O42: the watch is the removal at the run-off (`exec_runoff`), and the edge marks the first entry of the
table that it can be (`exitLeadingEdge_marks`). -/
theorem runoffWatchAndExitEye : Obligations.RunoffWatchAndExitEye := by
  unfold Obligations.RunoffWatchAndExitEye
  refine ⟨fun tag rest e s left drained delivers wasted found is notices => ?_,
    fun s free => ⟨fun off => ?_, fun present working => ⟨fun pre e post table distinct awaited before => ?_,
      fun unawaited => ?_⟩⟩⟩
  · obtain ⟨t, run, removed⟩ := exec_runoff delivers wasted found is
    have after {l : List Part} (h : UnchangedBut l { s with watches := rest } t) :
        UnchangedBut (.watches :: l) s t := by
      refine UnchangedBut.trans (a := [.watches]) (fun p other => ?_) h
      cases p <;> simp_all [Part.same]
    refine ⟨t, run, removed.table, removed.runOff, ?_, fun h => ?_, fun h => ?_⟩
    · rw [← runoffReason_eq, notices]
      exact removed.notices.of_queue rfl rfl
    · exact ⟨(removed.drained h).1, (after (removed.drained h).2).mono (by decide)⟩
    · obtain ⟨watches, induction, frame⟩ := removed.busy h
      exact ⟨watches, induction, (after frame).mono (by decide)⟩
  · exact (event_free free exitLeadingEdge).trans (by rw [exitLeadingEdge_off off])
  · refine ⟨_, event_free free exitLeadingEdge, ?_⟩
    rw [exitLeadingEdge_marks present working table awaited before]
    refine ⟨?_, unchanged_setEntry _ _ s⟩
    have found : s.entry e.tag = some e := entry_of_nodup distinct (by rw [table]; simp)
    simpa using table_redirected (f := fun e => { e with flags := { e.flags with exitSeen := true } }) found
      (by simpa using table) distinct
  · refine ⟨_, event_free free exitLeadingEdge, ?_⟩
    rw [exitLeadingEdge_unexpected present working unawaited]
    exact ⟨submitted_submit s _, frame_submit _ s⟩
end

