-- ==== Sys2Proof/Proofs/Offers.lean ====
section
/-! PROOF. An interval offered for admission, and the LENGTH_LIMIT watch: O46. -/

namespace Sys2Proof.Machine

variable {s t v : State} {lead : Position} {length : Nat} {refused gapShort overlength : Bool} {tag : Tag}
  {slot : Slot} {rest : List Watch}

/-! ### The admission of an item (R25, R27, R28) -/

/-- The gap check (R25). -/
theorem gapShort_iff (s : State) (lead : Position) : s.gapShort lead = true ↔ 0 < s.config.line.minGap
    ∧ ∃ lt, s.induction.lastTrailing = some lt ∧ (lead - lt).toInt < (s.config.line.minGap : Int) := by
  unfold State.gapShort
  cases s.induction.lastTrailing <;> simp

/-- An item that can be admitted under a tag: the first that no entry holds, with the outcome of the gap check, and with
the run-off point ahead of the line (R11, R25, R27). -/
structure Admissible (tag : Tag) (lead : Position) (gapShort : Bool) (s : State) : Prop where
  fresh : ∃ k, freeTag s.induction.nextTag k s.table tag
  gap : gapShort = true ↔ 0 < s.config.line.minGap
    ∧ ∃ lt, s.induction.lastTrailing = some lt ∧ (lead - lt).toInt < (s.config.line.minGap : Int)
  ahead : reached s.counter.position (lead + BitVec.ofNat 32 s.config.line.runoffOffset
    + (if s.config.line.exitEye = true then BitVec.ofNat 32 s.config.line.exitTolerance else 0)) = false

/-- An item admitted: its entry, its RUNOFF watch ahead of the line, INDUCTED and the hold output (R27, R28, R32). -/
theorem admitItem_eq (item : Admissible tag lead gapShort s) (flags : EntryFlags) :
    admitItem lead length flags s = evaluateHold (submit (.inducted tag length flags)
      (insertWatch (runoffPoint s.config.line (newEntry tag lead length flags)) (.runoff tag)
        (appendEntry (newEntry tag lead length flags) (nextTagAfter tag) s))) := by
  obtain ⟨⟨k, free⟩, -, ahead⟩ := item
  have allocated := allocatedTag_of_freeTag free
  have absent : s.entry (newEntry tag lead length flags).tag = none :=
    List.find?_eq_none.mpr fun x m => by simpa [newEntry] using free.2.2.2 x m
  have found : (appendEntry (newEntry tag lead length flags) (nextTagAfter tag) s).entry tag
      = some (newEntry tag lead length flags) :=
    (entry_appendEntry absent (nextTagAfter tag) tag).trans (if_pos rfl)
  have placed := placeRunoff_ahead found ahead
  unfold admitItem
  rw [allocated]
  exact congrArg (fun u => evaluateHold (submit (.inducted tag length flags) u)) placed

/-! ### An interval offered (R24 to R26, R29) -/

/-- An item that is refused, or meets a full table, is not tracked (R26, R29). -/
theorem offerInterval_untracked (ht : t = offerInterval lead length refused overlength s)
    (full : refused = true ∨ 96 ≤ s.table.length) :
    t.induction = { s.induction with lastTrailing := some (lead + BitVec.ofNat 32 length) }
      ∧ Submitted [.noTrack (if refused = true then .draining else .tableFull) length] s t
      ∧ UnchangedBut [.induction, .queue, .transmitter] s t := by
  have told : offerInterval lead length refused overlength s = { submit
      (.noTrack (if refused = true then .draining else .tableFull) length) s with
        induction := { s.induction with lastTrailing := some (lead + BitVec.ofNat 32 length) } } := by
    unfold offerInterval
    cases refused with
    | true => simp [ticks]
    | false =>
      have room : Config.tableCapacity ≤ s.occupancy := full.resolve_left (by simp)
      simp [room, ticks]
  rw [ht, told]
  refine ⟨rfl, (submitted_submit s _).congr rfl rfl rfl rfl, fun p other => ?_⟩
  cases p <;> simp_all [Part.same]

/-- An item that finds room is inducted (R25 to R29). -/
theorem offerInterval_inducts (ht : t = offerInterval lead length refused overlength s)
    (item : Admissible tag lead gapShort s) (accepted : refused = false) (room : s.table.length < 96)
    (working : s.line.state.working = true) :
    Inducts tag lead length { gapShort := gapShort, overlength := overlength } s.induction.slot s.watches s t
      ∧ t.induction.eye = s.induction.eye
      ∧ UnchangedBut [.induction, .table, .watches, .queue, .transmitter] s t := by
  have gap : s.gapShort lead = gapShort := Bool.eq_iff_iff.mpr ((gapShort_iff s lead).trans item.gap.symm)
  obtain ⟨flags, hf⟩ : ∃ flags : EntryFlags, flags = { gapShort := gapShort, overlength := overlength } := ⟨_, rfl⟩
  have admitted : offerInterval lead length refused overlength s = { admitItem lead length flags s with
      induction := { (admitItem lead length flags s).induction with
        lastTrailing := some (lead + BitVec.ofNat 32 length) } } := by
    have few : ¬ Config.tableCapacity ≤ s.occupancy := Nat.not_le.mpr room
    unfold offerInterval
    simp [accepted, few, gap, hf, ticks]
  obtain ⟨u, hu⟩ : ∃ u, u = insertWatch (runoffPoint s.config.line (newEntry tag lead length flags)) (.runoff tag)
    (appendEntry (newEntry tag lead length flags) (nextTagAfter tag) s) := ⟨_, rfl⟩
  have line : s.line.state = .running ∨ s.line.state = .draining := (working_iff _).mp working
  rw [admitItem_eq item, ← hu, evaluateHold_eq] at admitted
  have notice : Submitted [.inducted tag length flags] s (submit (.inducted tag length flags) u) := by
    refine (submitted_submit u _).of_queue ?_ ?_ <;> rw [hu] <;> rfl
  have hold : (submit (.inducted tag length flags) u).holdAt (submit (.inducted tag length flags) u).table.length
      = decide (s.config.line.holdThreshold ≤ s.table.length + 1) := by
    rw [hu]
    simp [State.holdAt, appendEntry, line]
  rw [← hf, ht, admitted]
  refine ⟨⟨?_, ?_, ?_, rfl, hold, ?_, notice.congr rfl rfl rfl rfl⟩, ?_, fun p other => ?_⟩
  all_goals rw [hu]
  · simp [appendEntry, newEntry, admittedReason]
  · simp [appendEntry]
  · simp [appendEntry, nextTagAfter, tagFollowing]
  · simp [appendEntry, runoffPoint, newEntry, ticks]
  · simp [appendEntry]
  · cases p <;> simp_all [Part.same, appendEntry]

/-! ### What came before the offer -/

/-- An admission is told by the table, the configuration and the queue that it met. -/
theorem Inducts.of_unchanged {flags : EntryFlags} {watches : List Watch}
    (h : Inducts tag lead length flags slot watches v t) (frame : UnchangedBut [.induction, .watches] s v) :
    Inducts tag lead length flags slot watches s t := by
  have table : v.table = s.table := frame .table (by decide)
  have config : v.config = s.config := frame .config (by decide)
  obtain ⟨a, b, c, d, hold, f, notice⟩ := h
  rw [table] at a hold
  rw [config] at hold f
  exact ⟨a, b, c, d, hold, f, notice.of_queue (frame .queue (by decide))
    (show v.link.transmitter = s.link.transmitter from frame .transmitter (by decide))⟩

/-- Whether an item can be admitted does not rest on the measuring slot. -/
theorem Admissible.of_unchanged (h : Admissible tag lead gapShort s) (frame : UnchangedBut [.induction, .watches] s v)
    (next : v.induction.nextTag = s.induction.nextTag)
    (trailing : v.induction.lastTrailing = s.induction.lastTrailing) :
    Admissible tag lead gapShort v := by
  have table : v.table = s.table := frame .table (by decide)
  have config : v.config = s.config := frame .config (by decide)
  have counter : v.counter = s.counter := frame .counter (by decide)
  obtain ⟨fresh, gap, ahead⟩ := h
  rw [← next, ← table] at fresh
  rw [← trailing, ← config] at gap
  rw [← config, ← counter] at ahead
  exact ⟨fresh, gap, ahead⟩

/-! ### The LENGTH_LIMIT watch (R24) -/

/-- The LENGTH_LIMIT watch of an open slot offers the interval so far and closes the slot (R24). -/
theorem exec_lengthLimit (delivers : s.delivers .lengthLimit rest) (wasted : NoSlotWasted s)
    (opened : s.induction.slot = .opened lead refused)
    (is : slot = if s.induction.eye = .blocked then .closed else .empty)
    (hv : v = setSlot slot { s with watches := rest }) :
    exec .lengthLimitWatch s = .next (drainTest (offerInterval lead s.config.line.maxLength refused true v)) := by
  have handled : handle .lengthLimit { s with watches := rest }
      = offerInterval lead s.config.line.maxLength refused true v := by
    show deliverLengthLimit { s with watches := rest } = _
    unfold deliverLengthLimit
    rw [hv, is, opened]
  have run := exec_delivers delivers
  have same : SameDrives s (offerInterval lead s.config.line.maxLength refused true v) :=
    SameDrives.trans (t := v) (hv ▸ ⟨rfl, rfl, rfl⟩) (same_offerInterval v _ _ _ _)
  rw [handled, settle, arbitrate_idle (wasted.same same)] at run
  exact run

end Sys2Proof.Machine

open Sys2Proof Sys2Proof.Machine

/-- Settles O46: the watch closes the slot and offers the interval (`exec_lengthLimit`), which is not tracked or is
inducted; neither leaves a drained line. -/
theorem lengthLimitWatchOffers : Obligations.LengthLimitWatchOffers := by
  unfold Obligations.LengthLimitWatchOffers
  intro lead refused rest slot s delivers wasted busy working opened is
  obtain ⟨v, hv⟩ : ∃ v, v = setSlot slot { s with watches := rest } := ⟨_, rfl⟩
  obtain ⟨t, ht⟩ : ∃ t, t = offerInterval lead s.config.line.maxLength refused true v := ⟨_, rfl⟩
  have run := exec_lengthLimit delivers wasted opened is hv
  have before : UnchangedBut [.induction, .watches] s v := fun p other => by
    rw [hv]
    cases p <;> simp_all [Part.same]
  have table : v.table = s.table := before .table (by decide)
  rw [← ht] at run
  refine ⟨fun full => ?_, fun gapShort k tag accepted room free gap ahead => ?_⟩
  · rw [← table] at full
    obtain ⟨induction, notice, after⟩ := offerInterval_untracked ht full
    have frame := before.trans after
    rw [drainTest_not fun drained => busy ((isDrained_congr (frame .line (by decide)) (frame .table (by decide))
      (frame .diverters (by decide))).mp drained)] at run
    refine ⟨t, run, by rw [induction, hv]; rfl, (after .watches (by decide)).trans (by rw [hv]; rfl),
      notice.of_queue (before .queue (by decide)) ?_, frame.mono (by decide)⟩
    exact before .transmitter (by decide)
  · have item : Admissible tag lead gapShort s := ⟨⟨k, free⟩, gap, ahead⟩
    obtain ⟨inducts, eye, after⟩ := offerInterval_inducts ht
      (item.of_unchanged before (by rw [hv]; rfl) (by rw [hv]; rfl)) accepted (by rw [table]; exact room)
      (by rw [show v.line = s.line from before .line (by decide)]; exact working)
    rw [drainTest_table (by rw [inducts.table]; simp)] at run
    rw [show v.induction.slot = slot by rw [hv]; rfl, show v.watches = rest by rw [hv]; rfl] at inducts
    exact ⟨t, run, inducts.of_unchanged before, eye.trans (by rw [hv]; rfl), (before.trans after).mono (by decide)⟩
end

