-- ==== Sys2Proof/Proofs/EntryEye.lean ====
section
/-! PROOF. The entry eye and the measuring slot: O45. -/

namespace Sys2Proof.Machine

variable {s v : State} {lead : Position} {length : Nat} {refused : Bool}

/-- The line is behind the high-water mark exactly when it is not at it (R5). -/
theorem behind_iff (c : PositionCounter) : behind c = true ↔ c.highWater ≠ c.position := by
  have zero : excursion c = 0 ↔ c.highWater = c.position := by
    unfold excursion
    bv_omega
  rw [behind, decide_eq_true_eq, Nat.pos_iff_ne_zero, ne_eq, zero]

theorem behind_eq_false (mark : s.counter.highWater = s.counter.position) : behind s.counter = false :=
  Bool.eq_false_iff.mpr (mt (behind_iff _).mp (not_not.mpr mark))

/-! ### A leading edge (R19, R20) -/

theorem entryLeadingEdge_again (level : s.induction.eye = .blocked) : entryLeadingEdge s = s := if_pos level

/-- A leading edge in a working line at the high-water mark opens an empty slot (R20). -/
theorem entryLeadingEdge_opens (level : s.induction.eye = .clear) (working : s.line.state.working = true)
    (empty : s.induction.slot = .empty) (mark : s.counter.highWater = s.counter.position) :
    entryLeadingEdge s = insertWatch (s.counter.position + BitVec.ofNat 32 s.config.line.maxLength) .lengthLimit
      (setSlot (.opened s.counter.position (decide (s.line.state = .draining))) (setEntryEye .blocked s)) := by
  unfold entryLeadingEdge
  rw [if_neg (by simp [level])]
  simp only [setEntryEye_line, setEntryEye_counter, setEntryEye_induction, working, empty, behind_eq_false mark]
  rfl

/-- Any other leading edge is a new level and no more (R19, R20). -/
theorem entryLeadingEdge_level (level : s.induction.eye = .clear) (other : s.line.state.working = false
      ∨ s.induction.slot ≠ .empty ∨ s.counter.highWater ≠ s.counter.position) :
    entryLeadingEdge s = setEntryEye .blocked s := by
  unfold entryLeadingEdge
  rw [if_neg (by simp [level])]
  refine if_neg ?_
  simp only [setEntryEye_line, setEntryEye_counter, setEntryEye_induction, Bool.and_eq_true, beq_iff_eq,
    Bool.not_eq_true']
  rintro ⟨⟨working, empty⟩, mark⟩
  rcases other with off | slot | away
  · exact absurd working (by simp [off])
  · exact slot empty
  · exact absurd ((behind_iff _).mpr away) (by simp [mark])

/-! ### A trailing edge (R19, R21 to R23) -/

theorem entryTrailingEdge_again (level : s.induction.eye = .clear) : entryTrailingEdge s = s := if_pos level

section

variable (level : s.induction.eye = .blocked)
include level

/-- A trailing edge in a working line closes what the slot holds (R21 to R23). -/
theorem entryTrailingEdge_working (working : s.line.state.working = true) :
    entryTrailingEdge s = closeMeasurement (setEntryEye .clear s) := by
  unfold entryTrailingEdge
  rw [if_neg (by simp [level])]
  exact if_pos working

/-- A trailing edge with nothing to close is a new level and no more (R19, R23). -/
theorem entryTrailingEdge_level (other : s.line.state.working = false ∨ s.induction.slot = .empty
      ∨ (s.induction.slot ≠ .closed ∧ s.counter.highWater ≠ s.counter.position)) :
    entryTrailingEdge s = setEntryEye .clear s := by
  cases working : s.line.state.working
  · unfold entryTrailingEdge
    rw [if_neg (by simp [level])]
    exact if_neg (by simp [working])
  · have rest := other.resolve_left (by simp [working])
    rw [entryTrailingEdge_working level working]
    unfold closeMeasurement
    rw [setEntryEye_induction, setEntryEye_counter]
    cases slot : s.induction.slot with
    | empty => rfl
    | closed => simp [slot] at rest
    | opened lead refused =>
      have away : s.counter.highWater ≠ s.counter.position := (rest.resolve_left (by simp [slot])).2
      exact if_pos ((behind_iff _).mpr away)

/-- The trailing edge after an overlength interval empties the slot (R24). -/
theorem entryTrailingEdge_closed (working : s.line.state.working = true) (slot : s.induction.slot = .closed) :
    entryTrailingEdge s = setSlot .empty (setEntryEye .clear s) := by
  rw [entryTrailingEdge_working level working]
  unfold closeMeasurement
  rw [setEntryEye_induction, slot]

/-- The trailing edge at the high-water mark measures the item: it is noise, or it is offered (R21, R22). -/
theorem entryTrailingEdge_measures (working : s.line.state.working = true)
    (slot : s.induction.slot = .opened lead refused) (mark : s.counter.highWater = s.counter.position)
    (measured : length = (s.counter.position - lead).toNat)
    (hv : v = setSlot .empty (removeLengthLimit (setEntryEye .clear s))) :
    entryTrailingEdge s
      = if length < s.config.line.minLength then v else offerInterval lead length refused false v := by
  rw [entryTrailingEdge_working level working]
  unfold closeMeasurement
  rw [setEntryEye_induction, setEntryEye_counter, slot, behind_eq_false mark, hv, measured]
  rfl

end

end Sys2Proof.Machine

open Sys2Proof Sys2Proof.Machine

/-- Settles O45: a leading edge opens the slot, and a trailing edge measures the item and offers it as the LENGTH_LIMIT
watch does (`offerInterval_untracked`, `offerInterval_inducts`). -/
theorem entryEyeMeasures : Obligations.EntryEyeMeasures := by
  unfold Obligations.EntryEyeMeasures
  refine ⟨fun s free => ⟨fun level => ?_, fun level working slot mark => ⟨_, event_free free entryLeadingEdge, ?_⟩,
      fun level other => ⟨_, event_free free entryLeadingEdge, ?_⟩⟩,
    fun s free => ⟨fun level => ?_, fun level other => ⟨_, event_free free entryTrailingEdge, ?_⟩,
      fun level working slot => ⟨_, event_free free entryTrailingEdge, ?_⟩,
      fun lead refused length watches level working slot mark measured is => ?_⟩⟩
  · exact (event_free free entryLeadingEdge).trans (by rw [entryLeadingEdge_again level])
  · rw [entryLeadingEdge_opens level working slot mark]
    exact ⟨rfl, rfl, fun p hp => by cases p <;> simp_all [Part.same]⟩
  · rw [entryLeadingEdge_level level other]
    exact ⟨rfl, fun p hp => by cases p <;> simp_all [Part.same]⟩
  · exact (event_free free entryTrailingEdge).trans (by rw [entryTrailingEdge_again level])
  · rw [entryTrailingEdge_level level other]
    exact ⟨rfl, fun p hp => by cases p <;> simp_all [Part.same]⟩
  · rw [entryTrailingEdge_closed level working slot]
    exact ⟨rfl, fun p hp => by cases p <;> simp_all [Part.same]⟩
  · obtain ⟨v, hv⟩ : ∃ v, v = setSlot .empty (removeLengthLimit (setEntryEye .clear s)) := ⟨_, rfl⟩
    have run := event_free free entryTrailingEdge
    have before : UnchangedBut [.induction, .watches] s v := fun p other => by
      rw [hv]
      cases p <;> simp_all [Part.same]
    have table : v.table = s.table := before .table (by decide)
    have induction : v.induction = { s.induction with eye := .clear, slot := .empty } := by rw [hv]; rfl
    have filtered : v.watches = watches := by rw [hv, is]; rfl
    rw [entryTrailingEdge_measures level working slot mark measured hv] at run
    refine ⟨fun noise => ?_, fun long full => ?_, fun gapShort k tag long accepted room tagged gap ahead => ?_⟩
    · rw [if_pos noise] at run
      exact ⟨v, run, induction, filtered, before⟩
    · rw [if_neg (Nat.not_lt.mpr long)] at run
      obtain ⟨trailing, notice, after⟩ := offerInterval_untracked rfl (by rw [table]; exact full)
      refine ⟨_, run, trailing.trans (by rw [induction]), (after .watches (by decide)).trans filtered,
        notice.of_queue (before .queue (by decide)) ?_, (before.trans after).mono (by decide)⟩
      exact before .transmitter (by decide)
    · rw [if_neg (Nat.not_lt.mpr long)] at run
      have item : Admissible tag lead gapShort s := ⟨⟨k, tagged⟩, gap, ahead⟩
      obtain ⟨inducts, eye, after⟩ := offerInterval_inducts rfl
        (item.of_unchanged before (by rw [induction]) (by rw [induction])) accepted (by rw [table]; exact room)
        (by rw [show v.line = s.line from before .line (by decide)]; exact working)
      rw [show v.induction.slot = .empty by rw [induction], filtered] at inducts
      exact ⟨_, run, inducts.of_unchanged before, eye.trans (by rw [induction]), (before.trans after).mono (by decide)⟩
end

