-- ==== Sys2Proof/Proofs/Completions.lean ====
section
/-! PROOF. What the completion of entries does: the unit consumed, the end of a batch, and the entries of a confirm list
one after another (R55, R89, R90, R106 to R108). -/

namespace Sys2Proof.Machine

variable {s t u v : State} {d : Station} {tag : Tag} {e : Entry} {due rest : List Tag} {result : OutcomeResult}
  {m : Monitor} {r : DestRecord}

/-! ### Parts that an event leaves -/

theorem monitor_congr (h : t.monitors = s.monitors) (c : Station) : t.monitor c = s.monitor c := by
  unfold State.monitor
  rw [h]

theorem destination_congr (h : t.destinations = s.destinations) (c : Station) : t.destination c = s.destination c := by
  unfold State.destination
  rw [h]

theorem holdAt_congr (line : t.line = s.line) (config : t.config = s.config) (n : Nat) : t.holdAt n = s.holdAt n := by
  unfold State.holdAt
  rw [line, config]

/-! ### The end of a batch (R107, R108) -/

/-- The record after the terminal count test (R107, R108). -/
def DestRecord.ended (r : DestRecord) : DestRecord :=
  if r.atTerminalCount then
    if r.autoReload then { r with remaining := r.base, filled := 0, serial := r.serial + 1 }
    else { r with causes := { r.causes with batchEnd := true } }
  else r

/-- The notices of the terminal count test (R102, R108). -/
def DestRecord.endNotices (d : Station) (r : DestRecord) : List NoticeBody :=
  if r.atTerminalCount then
    .batch d r.serial r.filled r.autoReload ::
      if r.autoReload then [] else [.dest d { r.causes with batchEnd := true } r.remaining]
  else []

theorem atTerminalCount_iff (r : DestRecord) : r.atTerminalCount = true ↔
    0 < r.base ∧ r.remaining = 0 ∧ r.outstanding = 0 ∧ r.causes.batchEnd = false := by
  simp [DestRecord.atTerminalCount, DestRecord.counted, and_assoc]

/-- A batch goes on while a unit is left, and an uncounted or an ended one has no end (R107). -/
theorem ended_open (more : 0 < r.remaining ∨ 0 < r.outstanding ∨ r.base = 0 ∨ r.causes.batchEnd = true) :
    r.ended = r ∧ r.endNotices d = [] := by
  have not : ¬ r.atTerminalCount = true := by
    rw [atTerminalCount_iff]
    rintro ⟨base, remaining, outstanding, ends⟩
    rcases more with more | more | more | more
    · omega
    · omega
    · omega
    · simp [ends] at more
  exact ⟨if_neg not, if_neg not⟩

section

variable (remaining : r.remaining = 0) (outstanding : r.outstanding = 0) (base : 0 < r.base)
  (goes : r.causes.batchEnd = false)
include remaining outstanding base goes

theorem ended_reload (reload : r.autoReload = true) :
    r.ended = { r with remaining := r.base, filled := 0, serial := r.serial + 1 }
      ∧ r.endNotices d = [.batch d r.serial r.filled true] := by
  have full := (atTerminalCount_iff r).mpr ⟨base, remaining, outstanding, goes⟩
  unfold DestRecord.ended DestRecord.endNotices
  rw [if_pos full, if_pos full, reload]
  exact ⟨rfl, rfl⟩

theorem ended_closes (once : r.autoReload = false) :
    r.ended = { r with causes := { r.causes with batchEnd := true } }
      ∧ r.endNotices d = [.batch d r.serial r.filled false, .dest d { r.causes with batchEnd := true } 0] := by
  have full := (atTerminalCount_iff r).mpr ⟨base, remaining, outstanding, goes⟩
  unfold DestRecord.ended DestRecord.endNotices
  rw [if_pos full, if_pos full, once, remaining]
  exact ⟨rfl, rfl⟩

end

/-- The cause BATCH_END is new to a batch that has not ended, so DEST follows (R102, R108). -/
theorem changeCauses_batchEnd (goes : (s.destination d).causes.batchEnd = false) :
    changeCauses d (fun c => { c with batchEnd := true }) s = submit
      (.dest d { (s.destination d).causes with batchEnd := true } (s.destination d).remaining)
      (setDestination d (fun r => { r with causes := { r.causes with batchEnd := true } }) s) := by
  have new : { (s.destination d).causes with batchEnd := true } ≠ (s.destination d).causes := fun same =>
    absurd (congrArg Causes.batchEnd same) (by simp [goes])
  unfold changeCauses submitDest
  rw [if_neg new, destination_setDestination]

/-- The end of a batch (R108). -/
theorem endBatch_spec (full : (s.destination d).atTerminalCount = true) (ht : t = endBatch d s) :
    t.destinations = s.destinations.set d (s.destination d).ended
      ∧ Submitted ((s.destination d).endNotices d) s t
      ∧ UnchangedBut [.destinations, .queue, .transmitter] s t := by
  obtain ⟨base, remaining, outstanding, goes⟩ := (atTerminalCount_iff _).mp full
  obtain ⟨b, hb⟩ : ∃ b, b = submit (.batch d (s.destination d).serial (s.destination d).filled
    (s.destination d).autoReload) s := ⟨_, rfl⟩
  have told :
      Submitted [.batch d (s.destination d).serial (s.destination d).filled (s.destination d).autoReload] s b :=
    hb ▸ submitted_submit s _
  have frame : UnchangedBut noticeParts s b := hb ▸ frame_submit _ s
  have destinations : b.destinations = s.destinations := frame .destinations (by decide)
  have record := destination_congr destinations d
  unfold endBatch at ht
  dsimp only at ht
  rw [← hb] at ht
  cases reload : (s.destination d).autoReload <;> rw [reload] at told ht
  · obtain ⟨ended, notices⟩ := ended_closes (d := d) remaining outstanding base goes reload
    rw [if_neg (by decide), changeCauses_batchEnd (by rw [record]; exact goes), record, remaining] at ht
    rw [ended, notices, ht]
    refine ⟨?_, ?_, ((frame.trans (unchanged_setDestination d _ b)).trans (frame_submit _ _)).mono (by decide)⟩
    · rw [submit_destinations, setDestination_destinations, destinations]
      rfl
    · exact told.trans (.of_queue (submitted_submit _ _) rfl rfl) (submit_timeStamp _ _)
        (congrArg PositionCounter.position (submit_counter _ _))
  · obtain ⟨ended, notices⟩ := ended_reload (d := d) remaining outstanding base goes reload
    rw [if_pos rfl] at ht
    rw [ended, notices, ht]
    refine ⟨?_, told.congr rfl rfl rfl rfl, (frame.trans (unchanged_setDestination d _ b)).mono (by decide)⟩
    rw [setDestination_destinations, destinations]
    rfl

/-- Everything the terminal count test does (R102, R107, R108). -/
theorem terminalCount_spec (d : Station) (s : State) :
    (terminalCount d s).destinations = s.destinations.set d (s.destination d).ended
      ∧ Submitted ((s.destination d).endNotices d) s (terminalCount d s)
      ∧ UnchangedBut [.destinations, .queue, .transmitter] s (terminalCount d s) := by
  unfold terminalCount
  by_cases full : (s.destination d).atTerminalCount = true
  · exact endBatch_spec full (if_pos full)
  · have ended : (s.destination d).ended = s.destination d := if_neg full
    have notices : (s.destination d).endNotices d = [] := if_neg full
    rw [if_neg full, ended, notices]
    exact ⟨(Vector.set_getElem_self d.isLt).symm, submitted_nil rfl fun _ => rfl, unchanged_refl _ s⟩

/-! ### Units consumed (R106) -/

/-- The record after some units have been consumed, before the terminal count test (R106). -/
def DestRecord.consumed (n : Nat) (r : DestRecord) : DestRecord :=
  { r with
    outstanding := r.outstanding - n
    filled := if 0 < r.base then r.filled + n else min 65535 (r.filled + n) }

theorem consume_eq (r : DestRecord) : r.consume = r.consumed 1 := by
  simp [DestRecord.consume, DestRecord.consumed, DestRecord.counted, Config.countLimit]

theorem consumed_consumed (a b : Nat) (r : DestRecord) : (r.consumed a).consumed b = r.consumed (a + b) := by
  unfold DestRecord.consumed
  by_cases counted : 0 < r.base
  · simp [counted, Nat.sub_sub, Nat.add_assoc]
  · simp only [counted, if_false, DestRecord.mk.injEq, true_and, and_true]
    omega

/-- A unit consumed, with the terminal count test (R106 to R108). -/
theorem consumeUnit_spec (d : Station) (s : State) :
    (consumeUnit d s).destinations = s.destinations.set d ((s.destination d).consumed 1).ended
      ∧ Submitted (((s.destination d).consumed 1).endNotices d) s (consumeUnit d s)
      ∧ UnchangedBut [.destinations, .queue, .transmitter] s (consumeUnit d s) := by
  obtain ⟨destinations, notices, frame⟩ := terminalCount_spec d (setDestination d DestRecord.consume s)
  rw [destination_setDestination, consume_eq] at destinations notices
  refine ⟨destinations.trans ?_, notices.of_queue rfl rfl,
    ((unchanged_setDestination d _ s).trans frame).mono (by decide)⟩
  rw [setDestination_destinations]
  exact Vector.set_set _ _

/-! ### Entries completed (R55, R89, R90) -/

/-- The OUTCOME notices of some entries of a station (R55). -/
def State.outcomes (s : State) (d : Station) (result : OutcomeResult) (tags : List Tag) : List NoticeBody :=
  tags.filterMap fun tag => (s.entry tag).map fun e => .outcome tag e.assigned (.station d) result .none e.flags

/-- Some entries of a station were completed, and left the monitor as `m`: the entries are gone, their units are
consumed, OUTCOME is submitted for each, and the batch may end (R32, R55, R106 to R108). -/
structure Completes (d : Station) (due : List Tag) (result : OutcomeResult) (m : Monitor) (s t : State) : Prop where
  table : t.table = s.table.filter (fun x => !due.contains x.tag)
  monitor : t.monitor d = m
  monitors : ∀ d', d' ≠ d → t.monitor d' = s.monitor d'
  destination : t.destination d = ((s.destination d).consumed due.length).ended
  destinations : ∀ d', d' ≠ d → t.destination d' = s.destination d'
  induction : t.induction = { s.induction with hold := s.holdAt t.table.length }
  notices : Submitted (s.outcomes d result due ++ ((s.destination d).consumed due.length).endNotices d) s t
  frame : UnchangedBut [.table, .monitors, .destinations, .induction, .queue, .transmitter] s t

/-- The monitor of a station that is left with a shorter confirm list, its timer toward the next deadline (R88
to R90). -/
def State.monitorLeft (s : State) (d : Station) (rest : List Tag) : Monitor :=
  { s.monitor d with confirm := rest, deadlineTimer := (rest.head?.bind s.entry).bind (·.confirmDeadline) }

/-- A completion leaves every other entry. -/
theorem Completes.entry (h : Completes d due result m s t) {x : Tag} (other : x ∉ due) : t.entry x = s.entry x := by
  unfold State.entry
  rw [h.table, List.find?_filter]
  congr 1
  funext y
  by_cases own : y.tag = x
  · simp [own, other]
  · simp [own]

/-- The rest of a completion, when the entry has left the confirm list (R55, R89, R90). -/
theorem completion_spec (found : s.entry tag = some e) (result : OutcomeResult)
    (hu : u = completion d tag (.outcome tag e.assigned (.station d) result .none e.flags) s) :
    u.table = s.table.filter (fun x => x.tag != tag)
      ∧ u.destinations = s.destinations.set d ((s.destination d).consumed 1).ended
      ∧ u.induction = { s.induction with hold := s.holdAt u.table.length }
      ∧ Submitted (s.outcomes d result [tag] ++ ((s.destination d).consumed 1).endNotices d) s u
      ∧ UnchangedBut [.table, .destinations, .induction, .queue, .transmitter] s u := by
  obtain ⟨b, hb⟩ : ∃ b, b = submit (.outcome tag e.assigned (.station d) result .none e.flags) (removeEntry tag s) :=
    ⟨_, rfl⟩
  have run : u = consumeUnit d b := by
    rw [hu, hb]
    rfl
  have removed : UnchangedBut [.table, .induction] s (removeEntry tag s) := fun p other => by
    cases p <;> simp_all [Part.same]
  have told : UnchangedBut noticeParts (removeEntry tag s) b := hb ▸ frame_submit _ _
  have outcome : Submitted (s.outcomes d result [tag]) s b := by
    simp only [State.outcomes, List.filterMap_cons, List.filterMap_nil, found, Option.map_some]
    exact hb ▸ (submitted_submit (removeEntry tag s) _).of_queue rfl rfl
  obtain ⟨destinations, ends, consumed⟩ := consumeUnit_spec d b
  rw [← run] at destinations ends consumed
  have same : b.destinations = s.destinations := (removed.trans told) .destinations (by decide)
  have record := destination_congr same d
  rw [record] at destinations ends
  have later : UnchangedBut [.destinations, .queue, .transmitter] (removeEntry tag s) u :=
    (told.trans consumed).mono (by decide)
  have table : u.table = s.table.filter (fun x => x.tag != tag) := later .table (by decide)
  refine ⟨table, by rw [destinations, same], ?_, ?_, (removed.trans later).mono (by decide)⟩
  · rw [table, show u.induction = (removeEntry tag s).induction from later .induction (by decide), removeEntry_eq]
  · exact outcome.trans ends (consumed .timeStamp (by decide))
      (congrArg PositionCounter.position (consumed .counter (by decide)))

/-- The first entry of a confirm list is completed (R55, R89, R90). -/
theorem completeEntry_spec (confirm : (s.monitor d).confirm = tag :: rest) (apart : tag ∉ rest)
    (found : s.entry tag = some e) (result : OutcomeResult) :
    Completes d [tag] result (s.monitorLeft d rest) s (completeEntry d tag result s) := by
  obtain ⟨v, hv⟩ : ∃ v, v = setMonitor d (fun m => { m with confirm := m.confirm.filter (fun t => t != tag) }) s :=
    ⟨_, rfl⟩
  obtain ⟨u, hu⟩ : ∃ u, u = completion d tag (.outcome tag e.assigned (.station d) result .none e.flags) v := ⟨_, rfl⟩
  have run : completeEntry d tag result s = aimDeadlineTimer d u := by
    unfold completeEntry
    rw [found, hu, hv]
    rfl
  have left : UnchangedBut [.monitors] s v := fun p other => by
    rw [hv]
    cases p <;> simp_all [Part.same]
  obtain ⟨table, destinations, induction, notices, kept⟩ := completion_spec (s := v) (hv ▸ found) result hu
  rw [show v.destination d = s.destination d by rw [hv]; rfl] at destinations notices
  rw [show v.destinations = s.destinations from left .destinations (by decide)] at destinations
  rw [show v.outcomes d result [tag] = s.outcomes d result [tag] by rw [hv]; rfl] at notices
  rw [show v.table = s.table from left .table (by decide)] at table
  have shorter : (tag :: rest).filter (fun t => t != tag) = rest := by
    simpa [List.filter_eq_self] using fun x m (own : x = tag) => apart (own ▸ m)
  have monitors : u.monitors = v.monitors := kept .monitors (by decide)
  have own : u.monitor d = { s.monitor d with confirm := rest } := by
    rw [monitor_congr monitors, ← shorter, ← confirm, hv]
    exact monitor_setMonitor s d _
  rw [run]
  unfold aimDeadlineTimer
  constructor
  case table =>
    refine table.trans (List.filter_congr fun x _ => ?_)
    simp [bne, beq_eq_decide]
  case monitor =>
    rw [monitor_setMonitor, own]
    unfold State.monitorLeft
    congr 2
    cases rest with
    | nil => rfl
    | cons x rest =>
      have other : x ≠ tag := fun c => apart (by simp [c])
      exact (congrFun (entry_congr (s := removeEntry tag s) table) x).trans (entry_removeEntry_ne s other)
  case monitors =>
    intro d' other
    rw [monitor_setMonitor_ne _ other]
    rw [monitor_congr monitors, hv]
    exact monitor_setMonitor_ne s other _
  case destination =>
    show u.destinations[d] = _
    rw [destinations]
    exact Vector.getElem_set_self d.isLt
  case destinations =>
    intro d' other
    show u.destinations[d'] = _
    rw [destinations]
    exact Vector.getElem_set_ne _ _ fun c => other (Fin.ext c.symm)
  case induction => exact induction.trans (by rw [hv]; rfl)
  case notices =>
    refine (notices.of_queue (left .queue (by decide)) ?_).congr rfl rfl rfl rfl
    exact left .transmitter (by decide)
  case frame =>
    refine ((left.trans kept).trans (b := [.monitors]) fun p other => ?_).mono (by decide)
    cases p <;> simp_all [Part.same]

/-! ### Several entries in turn (R89) -/

/-- A first completion that leaves units outstanding ends no batch, and the others follow it (R89, R107). -/
theorem Completes.cons {m' : Monitor} (h : Completes d [tag] result m' s t) (k : Completes d due result m t u)
    (fresh : tag ∉ due) (more : 1 < (s.destination d).outstanding) : Completes d (tag :: due) result m s u := by
  obtain ⟨goes, silent⟩ := ended_open (d := d) (r := (s.destination d).consumed 1)
    (.inr (.inl (Nat.sub_pos_of_lt more)))
  have record : t.destination d = (s.destination d).consumed 1 := h.destination.trans goes
  have length : 1 + due.length = (tag :: due).length := Nat.add_comm _ _
  have told : s.outcomes d result (tag :: due) = s.outcomes d result [tag] ++ t.outcomes d result due := by
    have same : t.outcomes d result due = s.outcomes d result due :=
      List.filterMap_congr fun x m => by rw [h.entry fun c => fresh (List.mem_singleton.mp c ▸ m)]
    rw [same]
    exact List.filterMap_append (l := [tag])
  constructor
  case table =>
    rw [k.table, h.table, List.filter_filter]
    refine List.filter_congr fun x _ => ?_
    by_cases own : x.tag = tag <;> simp [own]
  case monitor => exact k.monitor
  case monitors => exact fun d' other => (k.monitors d' other).trans (h.monitors d' other)
  case destination => rw [k.destination, record, consumed_consumed, length]
  case destinations => exact fun d' other => (k.destinations d' other).trans (h.destinations d' other)
  case induction =>
    rw [k.induction, h.induction, holdAt_congr (h.frame .line (by decide)) (h.frame .config (by decide))]
  case notices =>
    have first := h.notices
    have following := k.notices
    rw [record, consumed_consumed, length] at following
    rw [show [tag].length = 1 from rfl, silent, List.append_nil] at first
    rw [told, List.append_assoc]
    exact first.trans following (k.frame .timeStamp (by decide))
      (congrArg PositionCounter.position (k.frame .counter (by decide)))
  case frame => exact (h.frame.trans k.frame).mono (by decide)

/-- The entries that are to be completed: they stand at the front of the confirm list, once, and the table holds
each. -/
structure Completable (d : Station) (due rest : List Tag) (s : State) : Prop where
  confirm : (s.monitor d).confirm = due ++ rest
  distinct : due.Nodup
  apart : ∀ tag ∈ due, tag ∉ rest ∧ s.entry tag ≠ none

section

variable (h : Completable d (tag :: due) rest s) (result : OutcomeResult)
include h

theorem Completable.fresh : tag ∉ due ++ rest := by
  rw [List.mem_append, not_or]
  exact ⟨(List.nodup_cons.mp h.distinct).1, (h.apart tag (by simp)).1⟩

/-- The first of the entries is completed (R89, R90). -/
theorem Completable.first :
    Completes d [tag] result (s.monitorLeft d (due ++ rest)) s (completeEntry d tag result s) := by
  obtain ⟨e, found⟩ := Option.ne_none_iff_exists'.mp (h.apart tag (by simp)).2
  exact completeEntry_spec h.confirm h.fresh found result

theorem Completable.entry_first {x : Tag} (m : x ∈ due ++ rest) :
    (completeEntry d tag result s).entry x = s.entry x :=
  (h.first result).entry fun c => h.fresh (List.mem_singleton.mp c ▸ m)

theorem Completable.reached_first {x : Tag} (m : x ∈ due ++ rest) :
    (completeEntry d tag result s).deadlineReached x = s.deadlineReached x := by
  unfold State.deadlineReached expired
  rw [h.entry_first result m, (h.first result).frame .timeStamp (by decide)]

/-- The others can be completed after the first, and leave what they would leave without it (R89). -/
theorem Completable.next : Completable d due rest (completeEntry d tag result s)
    ∧ (completeEntry d tag result s).monitorLeft d rest = s.monitorLeft d rest := by
  have monitor := (h.first result).monitor
  refine ⟨⟨by rw [monitor]; rfl, (List.nodup_cons.mp h.distinct).2, fun x m => ?_⟩, ?_⟩
  · rw [h.entry_first result (List.mem_append_left _ m)]
    exact h.apart x (List.mem_cons_of_mem _ m)
  · unfold State.monitorLeft
    rw [monitor]
    cases rest with
    | nil => rfl
    | cons x rest =>
      simp only [List.head?_cons, Option.bind_some, h.entry_first result (x := x) (by simp)]
      rfl

end

/-- Entries of a confirm list completed one after another, each with a unit to consume, but that one alone needs none
(R55, R89, R90, R106 to R108). -/
theorem completions_spec (h : Completable d due rest s) (some : due ≠ [])
    (units : due.length = 1 ∨ due.length ≤ (s.destination d).outstanding) (result : OutcomeResult) :
    Completes d due result (s.monitorLeft d rest) s (due.foldl (fun t tag => completeEntry d tag result t) s) := by
  induction due generalizing s with
  | nil => exact absurd rfl some
  | cons tag due ih =>
    have first := h.first result
    by_cases more : due = []
    · subst more
      exact first
    · obtain ⟨left, same⟩ := h.next result
      have held : due.length + 1 ≤ (s.destination d).outstanding := units.resolve_left (by simp [more])
      have unit : 1 < (s.destination d).outstanding :=
        Nat.lt_of_lt_of_le (Nat.lt_add_of_pos_left (List.length_pos_of_ne_nil more)) held
      have others := ih left more (.inr (by
        rw [first.destination, (ended_open (d := d) (.inr (.inl (Nat.sub_pos_of_lt unit)))).1]
        exact Nat.le_sub_of_add_le held))
      rw [same] at others
      exact first.cons others (fun c => h.fresh (List.mem_append_left _ c)) unit

/-- The deadline timer's expiry completes the entries at the front of the list that are due, and no other (R89). -/
theorem completeDue_eq (h : Completable d due rest s) (reached : ∀ tag ∈ due, s.deadlineReached tag = true)
    (ahead : ∀ next ∈ rest.head?, s.deadlineReached next = false) :
    completeDue d (due ++ rest) s = due.foldl (fun t tag => completeEntry d tag .unconfirmed t) s := by
  induction due generalizing s with
  | nil =>
    cases rest with
    | nil => rfl
    | cons x rest => exact if_neg (by simp [ahead x rfl])
  | cons tag due ih =>
    exact (if_pos (reached tag (by simp))).trans (ih (h.next .unconfirmed).1
      (fun x m => (h.reached_first _ (List.mem_append_left _ m)).trans (reached x (List.mem_cons_of_mem _ m)))
      fun x m => (h.reached_first _ (List.mem_append_right _ (List.mem_of_head? m))).trans (ahead x m))

/-- The expiry of the deadline timer (R89): the first entry is due whatever its deadline. -/
theorem deadlineExpiry_eq (h : Completable d (tag :: due) rest s) (reached : ∀ x ∈ due, s.deadlineReached x = true)
    (ahead : ∀ next ∈ rest.head?, s.deadlineReached next = false) :
    deadlineExpiry d s = (tag :: due).foldl (fun t tag => completeEntry d tag .unconfirmed t) s := by
  unfold deadlineExpiry
  rw [h.confirm]
  exact completeDue_eq (h.next .unconfirmed).1
    (fun x m => (h.reached_first _ (List.mem_append_left _ m)).trans (reached x m))
    fun x m => (h.reached_first _ (List.mem_append_right _ (List.mem_of_head? m))).trans (ahead x m)

end Sys2Proof.Machine
end

