-- ==== Sys2Proof/Proofs/ConfirmEyes.lean ====
section
/-! PROOF. The leading edge of a confirm eye and the deadline timer: O49. -/

namespace Sys2Proof.Machine

variable {s t u v left : State} {d : Station} {tag : Tag} {due rest : List Tag} {result : OutcomeResult}
  {m : Monitor}

/-! ### The chute at a leading edge (R95) -/

/-- A monitor after a leading edge in the chute table, whose timer would run to `full` (R95). -/
def Monitor.blockedUntil (full : TimeStamp) (m : Monitor) : Monitor :=
  match m.chute with
  | .clear => { m with chute := .filling, chuteTimer := some full }
  | .emptying => { m with chute := .full, chuteTimer := none }
  | .filling => m
  | .full => m

/-- When a chute that is blocked now is full (R95). -/
def State.fullAt (s : State) (d : Station) : TimeStamp := s.timeStamp + BitVec.ofNat 32 (s.record d).chuteFullTime

/-- The monitor of station `d` after a leading edge in the chute table: chute timing is suspended in IDLE (R95, R97). -/
def State.blockedMonitor (s : State) (d : Station) : Monitor :=
  if s.line.state = .idle then s.monitor d else (s.monitor d).blockedUntil (s.fullAt d)

theorem chuteBlocked_eq (d : Station) (s : State) :
    chuteBlocked d s = setMonitor d (fun _ => s.blockedMonitor d) s := by
  have same : setMonitor d (fun _ => s.monitor d) s = s :=
    congrArg (fun l => { s with monitors := l }) (Vector.set_getElem_self d.isLt)
  unfold chuteBlocked State.blockedMonitor
  by_cases idle : s.line.state = .idle
  · rw [if_pos idle, if_pos idle]
    exact same.symm
  · rw [if_neg idle, if_neg idle]
    unfold Monitor.blockedUntil
    cases (s.monitor d).chute with
    | clear => rfl
    | emptying => rfl
    | filling => exact same.symm
    | full => exact same.symm

theorem blockedUntil_eq (full : TimeStamp) (m : Monitor) : m.blockedUntil full = { m with
    chute := match m.chute with | .clear => .filling | .emptying => .full | c => c
    chuteTimer := match m.chute with | .clear => some full | .emptying => none | _ => m.chuteTimer } := by
  obtain ⟨confirm, deadlineTimer, eye, chute, chuteTimer⟩ := m
  cases chute <;> rfl

theorem unchanged_setMonitor (d : Station) (f : Monitor → Monitor) (s : State) :
    UnchangedBut [.monitors] s (setMonitor d f s) := by
  intro q other
  cases q <;> simp_all [Part.same]

/-- What a leading edge does in the chute table, after an event that left the line, the time and the configuration
(R95). -/
theorem chuteBlocked_spec {parts : List Part} (frame : UnchangedBut parts s t) (line : .line ∉ parts)
    (time : .timeStamp ∉ parts) (config : .config ∉ parts) (hu : u = chuteBlocked d t) :
    u.monitor d = (if s.line.state = .idle then t.monitor d else (t.monitor d).blockedUntil (s.fullAt d))
      ∧ (∀ d', d' ≠ d → u.monitor d' = t.monitor d')
      ∧ UnchangedBut [.monitors] t u := by
  have full : t.fullAt d = s.fullAt d := by
    unfold State.fullAt State.record
    rw [show t.timeStamp = s.timeStamp from frame .timeStamp time, show t.config = s.config from frame .config config]
  rw [hu, chuteBlocked_eq, monitor_setMonitor, State.blockedMonitor, full,
    show t.line = s.line from frame .line line]
  exact ⟨rfl, fun d' other => monitor_setMonitor_ne t other _, unchanged_setMonitor d _ t⟩

/-! ### A leading edge (R87, R90, R91) -/

theorem confirmLeading_again (level : (s.monitor d).eye = .blocked) : confirmLeading d s = s := if_pos level

/-- A leading edge of the eye of a diverter that is not installed is a new level and no more (R87). -/
theorem confirmLeading_level (level : (s.monitor d).eye = .clear) (absent : s.installed d = false) :
    confirmLeading d s = setMonitor d (fun m => { m with eye := .blocked }) s := by
  unfold confirmLeading
  rw [if_neg (by simp [level])]
  exact if_neg fun c => absurd (absent.symm.trans c) (by decide)

/-- A leading edge of an installed diverter's eye: the confirm list first, then the chute, then the drain test (R87). -/
theorem confirmLeading_installed (level : (s.monitor d).eye = .clear) (installed : s.installed d = true)
    (hv : v = setMonitor d (fun m => { m with eye := .blocked }) s) :
    confirmLeading d s = drainTest (chuteBlocked d (matchEdge d v)) := by
  unfold confirmLeading
  rw [if_neg (by simp [level]), hv]
  exact if_pos installed

/-- An edge in a working line completes the first entry of the confirm list (R90). -/
theorem matchEdge_sorts (working : s.line.state.working = true) (confirm : (s.monitor d).confirm = tag :: rest) :
    matchEdge d s = completeEntry d tag .sorted s := by
  unfold matchEdge
  rw [if_pos working, confirm]

/-- Any other edge submits STRAY, or nothing in HALTED and IDLE (R91). -/
theorem matchEdge_strays (none : (s.monitor d).confirm = [] ∨ s.line.state = .halted ∨ s.line.state = .idle) :
    matchEdge d s = if s.line.state = .halted ∨ s.line.state = .idle then s else submit (.stray d) s := by
  unfold matchEdge
  cases line : s.line.state <;> simp_all [LineState.working]

/-! ### What completions leave to the drain test (R32, R123) -/

/-- Completions between two changes of the monitor of their station. -/
theorem Completes.between (h : Completes d due result m v t) (before : UnchangedBut [.monitors] s v)
    (others : ∀ d', d' ≠ d → v.monitor d' = s.monitor d') (after : UnchangedBut [.monitors] t u)
    (others' : ∀ d', d' ≠ d → u.monitor d' = t.monitor d') : Completes d due result (u.monitor d) s u := by
  have table : v.table = s.table := before .table (by decide)
  have table' : u.table = t.table := after .table (by decide)
  have destination := destination_congr (before .destinations (by decide))
  have destination' := destination_congr (after .destinations (by decide))
  have told : v.outcomes d result due = s.outcomes d result due := by
    unfold State.outcomes
    rw [entry_congr table]
  have notices := h.notices
  rw [told, destination] at notices
  constructor
  case table => rw [table', h.table, table]
  case monitor => rfl
  case monitors => exact fun d' other => (others' d' other).trans ((h.monitors d' other).trans (others d' other))
  case destination => rw [destination', h.destination, destination]
  case destinations => exact fun d' other => by rw [destination', h.destinations d' other, destination]
  case induction =>
    rw [show u.induction = t.induction from after .induction (by decide), h.induction, table',
      holdAt_congr (before .line (by decide)) (before .config (by decide)),
      show v.induction = s.induction from before .induction (by decide)]
  case notices =>
    exact (notices.of_queue (before .queue (by decide)) (before .transmitter (by decide))).congr
      (after .queue (by decide)) (after .timeStamp (by decide))
      (congrArg PositionCounter.position (after .counter (by decide))) (after .transmitter (by decide))
  case frame => exact ((before.trans h.frame).trans after).mono (by decide)

/-- The drain test at the end of the event: the last removal completes a drain (R123). -/
theorem Completes.drainTest (h : Completes d due result m s u)
    (is : left = { s with table := s.table.filter (fun x => !due.contains x.tag) }) (ht : t = Machine.drainTest u) :
    t.monitor d = m
      ∧ t.table = left.table
      ∧ t.destination d = ((s.destination d).consumed due.length).ended
      ∧ Submitted ((s.outcomes d result due ++ ((s.destination d).consumed due.length).endNotices d)
          ++ (if left.isDrained then [.lineState .draining .ready .drained] else [])) s t
      ∧ (∀ d', d' ≠ d → t.monitor d' = s.monitor d' ∧ t.destination d' = s.destination d')
      ∧ (left.isDrained → DrainsTo s t
          ∧ UnchangedBut [.table, .watches, .monitors, .destinations, .induction, .line, .queue, .transmitter] s t)
      ∧ (¬ left.isDrained → t.induction = { s.induction with hold := s.holdAt left.table.length }
          ∧ UnchangedBut [.table, .monitors, .destinations, .induction, .queue, .transmitter] s t) := by
  have table : u.table = left.table := by rw [h.table, is]
  have drains : u.isDrained ↔ left.isDrained := by
    refine isDrained_congr ?_ table ?_ <;> rw [is]
    · exact h.frame .line (by decide)
    · exact h.frame .diverters (by decide)
  obtain ⟨told, moves, moved, same⟩ := drainTest_spec u
  have kept := unchanged_drainTest u
  rw [← ht] at told moves moved same kept
  have monitor := monitor_congr (kept .monitors (by decide))
  have destination := destination_congr (kept .destinations (by decide))
  refine ⟨(monitor d).trans h.monitor, (kept .table (by decide)).trans table, (destination d).trans h.destination, ?_,
    fun d' other => ⟨(monitor d').trans (h.monitors d' other), (destination d').trans (h.destinations d' other)⟩,
    fun drained => ?_, fun busy => ?_⟩
  · rw [if_congr drains rfl rfl] at told
    exact h.notices.trans told (kept .timeStamp (by decide))
      (congrArg PositionCounter.position (kept .counter (by decide)))
  · obtain ⟨line, induction, watches⟩ := moves (drains.mpr drained)
    refine ⟨⟨?_, ?_, ?_⟩, (h.frame.trans (moved (drains.mpr drained))).mono (by decide)⟩
    · rw [line, show u.line = s.line from h.frame .line (by decide)]
    · rw [induction, h.induction, show u.config = s.config from h.frame .config (by decide)]
    · rw [watches, show u.watches = s.watches from h.frame .watches (by decide)]
  · rw [same (mt drains.mp busy)]
    exact ⟨by rw [h.induction, table], h.frame⟩

/-! ### The events (R87 to R91, R95) -/

section

variable (level : (s.monitor d).eye = .clear) (installed : s.installed d = true)
include level installed

/-- A leading edge that no entry awaits: STRAY outside HALTED and IDLE, and the chute table (R91, R95). -/
theorem confirmLeading_strays (busy : ¬ s.isDrained)
    (unmatched : (s.monitor d).confirm = [] ∨ s.line.state = .halted ∨ s.line.state = .idle)
    (ht : t = confirmLeading d s) :
    t.monitor d = (if s.line.state = .idle then { s.monitor d with eye := .blocked }
        else ({ s.monitor d with eye := .blocked } : Monitor).blockedUntil (s.fullAt d))
      ∧ (∀ d', d' ≠ d → t.monitor d' = s.monitor d')
      ∧ Submitted (if s.line.state = .halted ∨ s.line.state = .idle then [] else [.stray d]) s t
      ∧ UnchangedBut [.monitors, .queue, .transmitter] s t := by
  obtain ⟨v, hv⟩ : ∃ v, v = setMonitor d (fun m => { m with eye := .blocked }) s := ⟨_, rfl⟩
  obtain ⟨w, hw⟩ : ∃ w, w = matchEdge d v := ⟨_, rfl⟩
  have own : v.monitor d = { s.monitor d with eye := .blocked } := hv ▸ monitor_setMonitor s d _
  have others (c : Station) (other : c ≠ d) : v.monitor c = s.monitor c := hv ▸ monitor_setMonitor_ne s other _
  have before : UnchangedBut [.monitors] s v := hv ▸ unchanged_setMonitor d _ s
  have line : v.line = s.line := before .line (by decide)
  have matched : Submitted (if s.line.state = .halted ∨ s.line.state = .idle then [] else [.stray d]) v w
      ∧ UnchangedBut noticeParts v w := by
    rw [hw, matchEdge_strays (by rw [own, line]; exact unmatched), line]
    split
    · exact ⟨submitted_nil rfl fun _ => rfl, unchanged_refl _ v⟩
    · exact ⟨submitted_submit v _, frame_submit _ v⟩
  obtain ⟨notices, told⟩ := matched
  obtain ⟨u, hu⟩ : ∃ u, u = chuteBlocked d w := ⟨_, rfl⟩
  have frame : UnchangedBut [.monitors, .queue, .transmitter] s w := (before.trans told).mono (by decide)
  obtain ⟨monitor, others', after⟩ := chuteBlocked_spec frame (by decide) (by decide) (by decide) hu
  have all := frame.trans after
  have same := monitor_congr (told .monitors (by decide))
  rw [confirmLeading_installed level installed hv, ← hw, ← hu, drainTest_not fun drained => busy
    ((isDrained_congr (all .line (by decide)) (all .table (by decide)) (all .diverters (by decide))).mp drained)] at ht
  rw [ht]
  refine ⟨by rw [monitor, same, own], fun c other => by rw [others' c other, same, others c other], ?_,
    all.mono (by decide)⟩
  exact (notices.of_queue (before .queue (by decide)) (before .transmitter (by decide))).congr
    (after .queue (by decide)) (after .timeStamp (by decide))
    (congrArg PositionCounter.position (after .counter (by decide))) (after .transmitter (by decide))

/-- A leading edge in a working line completes the first entry of the confirm list, and moves the chute table
(R90, R95). -/
theorem confirmLeading_sorts (working : s.line.state.working = true) (h : Completable d [tag] rest s) :
    ∃ u, confirmLeading d s = Machine.drainTest u ∧ Completes d [tag] .sorted
      (({ s.monitorLeft d rest with eye := .blocked } : Monitor).blockedUntil (s.fullAt d)) s u := by
  obtain ⟨v, hv⟩ : ∃ v, v = setMonitor d (fun m => { m with eye := .blocked }) s := ⟨_, rfl⟩
  have own : v.monitor d = { s.monitor d with eye := .blocked } := hv ▸ monitor_setMonitor s d _
  have others (c : Station) (other : c ≠ d) : v.monitor c = s.monitor c := hv ▸ monitor_setMonitor_ne s other _
  have before : UnchangedBut [.monitors] s v := hv ▸ unchanged_setMonitor d _ s
  have entry : v.entry = s.entry := entry_congr (before .table (by decide))
  have item : Completable d [tag] rest v := ⟨by rw [own]; exact h.confirm, h.distinct, by rw [entry]; exact h.apart⟩
  have completes := item.first .sorted
  obtain ⟨w, hw⟩ : ∃ w, w = completeEntry d tag .sorted v := ⟨_, rfl⟩
  obtain ⟨u, hu⟩ : ∃ u, u = chuteBlocked d w := ⟨_, rfl⟩
  have run := confirmLeading_installed level installed hv
  rw [matchEdge_sorts (by rw [show v.line = s.line from before .line (by decide)]; exact working) item.confirm,
    ← hw, ← hu] at run
  rw [← hw] at completes
  obtain ⟨monitor, others', after⟩ := chuteBlocked_spec (before.trans completes.frame) (by decide) (by decide)
    (by decide) hu
  have busy : s.line.state ≠ .idle := fun idle => absurd working (by rw [idle]; decide)
  have left : v.monitorLeft d rest = { s.monitorLeft d rest with eye := .blocked } := by
    unfold State.monitorLeft
    rw [own, entry]
  have final := completes.between before others after others'
  rw [monitor, if_neg busy, completes.monitor] at final
  exact ⟨u, run, left ▸ final⟩

end

/-- The deadline timer's expiry completes every entry at the front of the list that is due (R89). -/
theorem deadlineEvent_completes (due' : expired (s.monitor d).deadlineTimer s = true) (h : Completable d due rest s)
    (some : due ≠ []) (units : due.length = 1 ∨ due.length ≤ (s.destination d).outstanding)
    (reached : ∀ x ∈ due.tail, s.deadlineReached x = true)
    (ahead : ∀ next ∈ rest.head?, s.deadlineReached next = false) :
    ∃ u, deadlineEvent d s = Machine.drainTest u ∧ Completes d due .unconfirmed (s.monitorLeft d rest) s u := by
  have run : deadlineExpiry d s = due.foldl (fun t tag => completeEntry d tag .unconfirmed t) s := by
    cases due with
    | nil => exact absurd rfl some
    | cons tag due => exact deadlineExpiry_eq h reached ahead
  exact ⟨_, (if_pos due').trans (congrArg _ run), completions_spec h some units .unconfirmed⟩

end Sys2Proof.Machine

open Sys2Proof Sys2Proof.Machine

/-- Settles O49: the entries are completed in turn (`completions_spec`), between the new level of the eye and the
chute table when an edge does it, and the drain test ends the event (`Completes.drainTest`). -/
theorem confirmsAndDeadlines : Obligations.ConfirmsAndDeadlines := by
  unfold Obligations.ConfirmsAndDeadlines
  intro d s free
  have edge := stationEvent_free free d confirmLeading
  have expiry := stationEvent_free free d deadlineEvent
  refine ⟨fun level => ?_, fun level absent => ⟨_, edge, ?_⟩, fun level installed busy cases => ⟨_, edge, ?_⟩, ?_,
    fun early => ?_⟩
  · exact edge.trans (by rw [confirmLeading_again level])
  · rw [confirmLeading_level level absent]
    exact ⟨monitor_setMonitor s d _, fun d' other => monitor_setMonitor_ne s other _, unchanged_setMonitor d _ s⟩
  · obtain ⟨monitor, others, notices, frame⟩ := confirmLeading_strays level installed busy cases rfl
    refine ⟨monitor.trans ?_, others, notices, frame⟩
    by_cases idle : s.line.state = .idle
    · simp only [idle, if_true]
    · simp only [idle, if_false]
      exact blockedUntil_eq _ _
  · intro edges c result due rest r left outcomes drained onEdge onExpiry confirm distinct apart units hr is told ends
    have item : Completable d due rest s := ⟨confirm, distinct, apart⟩
    have record : r = (s.destination d).consumed due.length := hr
    have happens : ∃ u, exec c s = .next (drainTest u) ∧ Completes d due result (if edges = true then
        ({ s.monitorLeft d rest with eye := .blocked } : Monitor).blockedUntil (s.fullAt d)
        else s.monitorLeft d rest) s u := by
      cases edges with
      | true =>
        obtain ⟨rfl, rfl, level, installed, working, one⟩ := onEdge rfl
        obtain ⟨tag, rfl⟩ := List.length_eq_one_iff.mp one
        obtain ⟨u, run, completes⟩ := confirmLeading_sorts level installed working item
        exact ⟨u, edge.trans (congrArg _ run), completes⟩
      | false =>
        obtain ⟨rfl, rfl, expired, some, reached, ahead⟩ := onExpiry rfl
        obtain ⟨u, run, completes⟩ := deadlineEvent_completes expired item some units reached ahead
        exact ⟨u, expiry.trans (congrArg _ run), completes⟩
    obtain ⟨u, run, completes⟩ := happens
    obtain ⟨monitor, table, destination, notices, others, drains, busy⟩ := completes.drainTest is rfl
    rw [← record] at destination notices
    rw [← ends, show s.outcomes d result due = outcomes from told.symm] at notices
    refine ⟨_, run, monitor.trans ?_, table, fun more => ?_, fun remaining outstanding base goes reload => ?_,
      fun remaining outstanding base goes once => ?_, others, drains, busy⟩
    · cases edges with
      | true => exact blockedUntil_eq _ _
      | false => rfl
    · obtain ⟨ended, silent⟩ := ended_open (d := d) more
      rw [ended] at destination
      rw [silent, List.append_nil] at notices
      exact ⟨destination, notices⟩
    · obtain ⟨ended, batch⟩ := ended_reload (d := d) remaining outstanding base goes reload
      rw [ended] at destination
      rw [batch] at notices
      exact ⟨destination, notices⟩
    · obtain ⟨ended, batch⟩ := ended_closes (d := d) remaining outstanding base goes once
      rw [ended] at destination
      rw [batch] at notices
      exact ⟨destination, notices⟩
  · refine expiry.trans ?_
    rw [deadlineEvent, early]
    rfl
end

