-- ==== Sys2Proof/Proofs/HaltOrders.lean ====
section
/-! PROOF. HALT: O18. -/

namespace Sys2Proof.Machine

variable {s t u : State} {cause : HaltCause}

/-- HALT asks for a halt with cause ORDER in every line state (R124). -/
theorem halt_rule (s : State) : OrderKind.halt.rule [] s = done (requestHalt .order s) := by
  show halt [] s = _
  unfold halt
  rw [formChecked_formed ⟨rfl, by decide⟩]

/-- The answer of the order that halts a line touches no part that the halt writes (R59, R125, R151). -/
theorem HaltsTo.answered (h : HaltsTo cause s t) (frame : UnchangedBut answerParts t u) : HaltsTo cause s u where
  line := (frame .line (by decide)).trans h.line
  watches := (frame .watches (by decide)).trans h.watches
  diverters d := (congrArg (fun v : Vector Diverter 16 => v[d]) (frame .diverters (by decide))).trans (h.diverters d)
  slots := (frame .arbiter (by decide)).trans h.slots
  monitors d := (congrArg (fun v : Vector Monitor 16 => v[d]) (frame .monitors (by decide))).trans (h.monitors d)
  table := (frame .table (by decide)).trans h.table
  induction := (frame .induction (by decide)).trans h.induction

end Sys2Proof.Machine

open Sys2Proof Sys2Proof.Machine

/-- Settles O18: a line that works is halted (`haltLine_spec`) before the order is answered; elsewhere the request
leaves the state as it is (`requestHalt_off`). -/
theorem haltOrderHalts : Obligations.HaltOrderHalts := by
  unfold Obligations.HaltOrderHalts
  intro number s takes
  have rule := halt_rule s
  refine ⟨fun line => ?_, fun line => ?_⟩
  · rw [requestHalt_working ((working_iff _).mpr line)] at rule
    obtain ⟨halts, notices, halted⟩ := haltLine_spec .order s
    obtain ⟨t, run, answered, frame, notices⟩ := exec_order_notices takes rule notices
    exact ⟨t, run, answered, halts.answered frame, notices, halted.trans frame⟩
  · have off : s.line.state.working = false := by rcases line with line | line | line <;> rw [line] <;> rfl
    rw [requestHalt_off off] at rule
    exact exec_order takes rule
end

