-- ==== Sys2Proof/Proofs/Clears.lean ====
section
/-! PROOF. CLR: O20. -/

namespace Sys2Proof.Machine

variable {s t : State} {tag : Tag} {e : Entry} {line : LineController} {bodies : List NoticeBody}

/-! ### Units returned entry by entry (R61, R105) -/

theorem entry_returnUnit_ne {tag' : Tag} (other : tag' ≠ tag) (s : State) :
    (returnUnit tag s).entry tag' = s.entry tag' := by
  unfold returnUnit
  cases (s.entry tag).bind (·.reservedWith) with
  | none => rfl
  | some d =>
    exact entry_setEntry_ne (setDestination d DestRecord.giveBack s) other (fun e => { e with reservedWith := none })
      fun _ => rfl

theorem frame_returnUnit (tag : Tag) (s : State) : UnchangedBut [.table, .destinations] s (returnUnit tag s) := by
  unfold returnUnit
  cases (s.entry tag).bind (·.reservedWith) with
  | none => exact unchanged_refl _ s
  | some d =>
    intro p hp
    cases p <;> simp_all [Part.same]

/-- An entry returns its unit to the destination that its reserved_with names, and to no other (R105). -/
theorem destination_returnUnit (found : s.entry tag = some e) (d : Station) :
    (returnUnit tag s).destination d
      = if e.reservedWith = some d then (s.destination d).minusOne else s.destination d := by
  unfold returnUnit
  rw [found, Option.bind_some]
  cases e.reservedWith with
  | none => simp
  | some d' =>
    show (setDestination d' DestRecord.giveBack s).destination d = _
    by_cases own : d' = d
    · rw [own, destination_setDestination, giveBack_eq, if_pos rfl]
    · rw [destination_setDestination_ne s (Ne.symm own), if_neg (by simpa using own)]

/-- Entries with distinct tags return their units one after another: each destination gets one unit for each entry that
holds one of its units (R61, R105). -/
theorem returnUnits_spec (l : List Entry) (s : State) (found : ∀ e ∈ l, s.entry e.tag = some e)
    (distinct : (l.map (·.tag)).Nodup) :
    (∀ d, ((l.map (·.tag)).foldl (fun t tag => returnUnit tag t) s).destination d
        = DestRecord.minusOne^[l.countP (fun e => e.reservedWith == some d)] (s.destination d))
      ∧ UnchangedBut [.table, .destinations] s ((l.map (·.tag)).foldl (fun t tag => returnUnit tag t) s) := by
  induction l generalizing s with
  | nil => exact ⟨fun _ => rfl, unchanged_refl _ s⟩
  | cons e l ih =>
    obtain ⟨own, more⟩ := List.forall_mem_cons.mp found
    rw [List.map_cons, List.nodup_cons] at distinct
    obtain ⟨apart, distinct⟩ := distinct
    have other (x : Entry) (m : x ∈ l) : x.tag ≠ e.tag := fun same => apart (same ▸ List.mem_map_of_mem m)
    obtain ⟨units, frame⟩ := ih (returnUnit e.tag s)
      (fun x m => (entry_returnUnit_ne (other x m) s).trans (more x m)) distinct
    rw [List.map_cons, List.foldl_cons]
    refine ⟨fun d => ?_, ((frame_returnUnit e.tag s).trans frame).mono (by decide)⟩
    rw [units, destination_returnUnit own, List.countP_cons]
    by_cases held : e.reservedWith = some d <;> simp [held]

/-! ### Both clears (R127) -/

/-- What CLR answered DONE leaves, with the line state controller and the notices of the clear (R5, R7, R30, R32, R61,
R105, R127). -/
structure Clears (line : LineController) (bodies : List NoticeBody) (s t : State) : Prop where
  line : t.line = line
  table : t.table = []
  watches : t.watches = []
  counter : t.counter = { s.counter with highWater := s.counter.position, faultLatch := false }
  induction : t.induction =
    { s.induction with slot := .empty, lastTrailing := none, hold := decide (s.config.line.holdThreshold ≤ 0) }
  destination : ∀ d, t.destination d = { s.destination d with
    outstanding := (s.destination d).outstanding - s.reservedAt d
    remaining :=
      if 0 < (s.destination d).base then (s.destination d).remaining + s.reservedAt d
      else (s.destination d).remaining }
  notices : Submitted bodies s t
  frame : UnchangedBut [.line, .table, .watches, .counter, .induction, .destinations, .queue, .transmitter] s t

/-- A clear tells the host more, once its work is done. -/
theorem Clears.submit (h : Clears line bodies s t) (body : NoticeBody) :
    Clears line (bodies ++ [body]) s (submit body t) where
  line := (submit_line _ _).trans h.line
  table := (submit_table _ _).trans h.table
  watches := (submit_watches _ _).trans h.watches
  counter := (submit_counter _ _).trans h.counter
  induction := (submit_induction _ _).trans h.induction
  destination d :=
    (congrArg (fun v : Vector DestRecord 16 => v[d]) (submit_destinations _ _)).trans (h.destination d)
  notices := h.notices.trans (submitted_submit t body) (submit_timeStamp _ _)
    (congrArg PositionCounter.position (submit_counter _ _))
  frame := (h.frame.trans (frame_submit body t)).mono (by decide)

/-- The work of a clear: the units go back, and the table, the watches, the measuring slot, the high-water mark and the
latch are cleared (R5, R7, R30, R61, R127). -/
theorem clearWork_spec (distinct : (s.table.map (·.tag)).Nodup) :
    (clearWork s).counter = { s.counter with highWater := s.counter.position, faultLatch := false }
      ∧ (clearWork s).induction = { s.induction with slot := .empty, lastTrailing := none }
      ∧ (∀ d, (clearWork s).destination d = { s.destination d with
          outstanding := (s.destination d).outstanding - s.reservedAt d
          remaining :=
            if 0 < (s.destination d).base then (s.destination d).remaining + s.reservedAt d
            else (s.destination d).remaining })
      ∧ UnchangedBut [.table, .watches, .counter, .induction, .destinations] s (clearWork s) := by
  obtain ⟨units, frame⟩ := returnUnits_spec s.table s (fun _ m => entry_of_nodup distinct m) distinct
  refine ⟨?_, ?_, fun d => (units d).trans (minusOne_iterate _ _), ?_⟩
  · rw [← (frame .counter (by decide) : _ = s.counter)]
    rfl
  · rw [← (frame .induction (by decide) : _ = s.induction)]
    rfl
  · refine UnchangedBut.mono (frame.trans (b := [.table, .watches, .counter, .induction]) fun p other => ?_) (by decide)
    cases p <;> simp_all [Part.same, clearWork, discardEntries, setSlot, forgetTrailing, markHighWater, clearLatch]

/-- The work of a clear and CLEARED, with a line that is READY when the hold output is evaluated (R32, R127). -/
theorem clears_evaluateHold (distinct : (s.table.map (·.tag)).Nodup) (ready : line.state = .ready) :
    Clears line [.cleared s.table.length] s
      (evaluateHold { submit (.cleared s.occupancy) (clearWork s) with line := line }) := by
  obtain ⟨counter, induction, destination, work⟩ := clearWork_spec distinct
  have notice : Submitted [.cleared s.table.length] s (submit (.cleared s.occupancy) (clearWork s)) :=
    .of_queue (submitted_submit _ _) (work .queue (by decide)) (work .transmitter (by decide))
  have told := work.trans (frame_submit (.cleared s.occupancy) (clearWork s))
  have config : (clearWork s).config = s.config := work .config (by decide)
  have table : (clearWork s).table = [] := rfl
  rw [evaluateHold_eq]
  refine ⟨rfl, submit_table _ _, submit_watches _ _, (submit_counter _ _).trans counter, ?_, fun d => ?_,
    notice.congr rfl rfl rfl rfl, fun p other => ?_⟩
  · simp [State.holdAt, ready, config, table, induction]
  · exact (congrArg (fun v : Vector DestRecord 16 => v[d]) (submit_destinations _ _)).trans (destination d)
  · have same := told p
    cases p <;> simp_all [Part.same, noticeParts]

theorem line_cleared (s : State) : (submit (.cleared s.occupancy) (clearWork s)).line = s.line :=
  (submit_line _ _).trans (line_clearWork s)

/-- The clear of a ready line leaves the line state controller as it is (R127). -/
theorem clears_clearReady (distinct : (s.table.map (·.tag)).Nodup) (ready : s.line.state = .ready) :
    Clears s.line [.cleared s.table.length] s (clearReady s) := by
  have same : clearReady s = evaluateHold { submit (.cleared s.occupancy) (clearWork s) with line := s.line } := by
    rw [← line_cleared s]
    rfl
  rw [same]
  exact clears_evaluateHold distinct ready

/-- The clear of a halted line makes it READY and tells so after CLEARED (R127, R128). -/
theorem clears_clearHalted (distinct : (s.table.map (·.tag)).Nodup) :
    Clears { s.line with state := .ready, haltCause := .none }
      [.cleared s.table.length, .lineState .halted .ready .clear] s (clearHalted s) := by
  unfold clearHalted setLine
  rw [line_cleared s]
  exact (clears_evaluateHold distinct rfl).submit (.lineState .halted .ready .clear)

/-! ### CLR (R127) -/

/-- CLR by the line state and the line stop (R127). -/
theorem clr_rule (s : State) : OrderKind.clr.rule [] s =
    if s.line.state = .idle ∨ s.line.state.working then refuse .state s
    else if s.line.lineStop = .active then refuse .state s
    else if s.line.state = .halted then done (clearHalted s)
    else done (clearReady s) := by
  show clr [] s = _
  unfold clr
  rw [formChecked_formed ⟨rfl, by decide⟩]

end Sys2Proof.Machine

open Sys2Proof Sys2Proof.Machine

/-- Settles O20: the clear of a halted and of a ready line (`clears_clearHalted`, `clears_clearReady`), each with the
units returned entry by entry (`returnUnits_spec`). -/
theorem clrClears : Obligations.ClrClears := by
  unfold Obligations.ClrClears
  intro number s takes distinct
  have rule := clr_rule s
  refine ⟨fun line released => ?_, fun line => ?_⟩
  · have clear : ∃ u, OrderKind.clr.rule [] s = done u
        ∧ Clears (if s.line.state = .halted then { s.line with state := .ready, haltCause := .none } else s.line)
          (.cleared s.table.length :: if s.line.state = .halted then [.lineState .halted .ready .clear] else [])
          s u := by
      rcases line with halted | ready
      · simp only [halted, if_true]
        exact ⟨_, rule.trans (by simp [halted, released, LineState.working]), clears_clearHalted distinct⟩
      · simp only [ready, reduceCtorEq, if_false]
        exact ⟨_, rule.trans (by simp [ready, released, LineState.working]), clears_clearReady distinct ready⟩
    obtain ⟨u, rule, clears⟩ := clear
    obtain ⟨t, run, answered, frame, notices⟩ := exec_order_notices takes rule clears.notices
    exact ⟨t, run, answered, (frame .line (by decide)).trans clears.line, (frame .table (by decide)).trans clears.table,
      (frame .watches (by decide)).trans clears.watches, (frame .counter (by decide)).trans clears.counter,
      (frame .induction (by decide)).trans clears.induction,
      fun d => (congrArg (fun v : Vector DestRecord 16 => v[d]) (frame .destinations (by decide))).trans
        (clears.destination d),
      notices, (clears.frame.trans frame).mono (by decide)⟩
  · have refused : OrderKind.clr.rule [] s = refuse .state s := by
      rcases line with line | line | line | stopped
      · simp [rule, line]
      · simp [rule, line, LineState.working]
      · simp [rule, line, LineState.working]
      · simp [rule, stopped]
    exact exec_refused takes refused
end

