-- ==== Sys2Proof/Proofs/ItemAnswers.lean ====
section
/-! PROOF. Item orders that answer from the table and leave it: ASGN turned away, QITM and LIST, O23 and O25. -/

namespace Sys2Proof.Machine

variable {s : State} {tag : Tag} {e : Entry} {i : Nat} {payload : List Byte}

/-! ### The checks of ASGN (R40 to R42) -/

theorem asgn_rule_off (up : s.supervisor.state = .up) (off : s.line.state.working = false)
    (formed : OrderKind.asgn.formed payload) : OrderKind.asgn.rule payload s = refuse .state s := by
  show asgn payload s = _
  unfold asgn
  rw [formChecked_formed formed, lineChecked_off up off]

theorem number_of_ofNumber {n : Nat} {x : Dest} (names : Dest.ofNumber n = some x) : n = x.number := by
  unfold Dest.ofNumber at names
  split at names
  · obtain rfl := Option.some.inj names
    assumption
  · obtain ⟨d, station, rfl⟩ := Option.map_eq_some_iff.mp names
    unfold stationOf at station
    split at station
    · obtain rfl := Option.some.inj station
      simp only [Dest.number, stationNumber]
      omega
    · cases station

/-- ASGN that names no destination, or one whose station is not installed (R41). -/
theorem asgn_rule_absent (up : s.supervisor.state = .up) (working : s.line.state.working = true)
    (formed : OrderKind.asgn.formed payload)
    (absent : ∀ x : Dest, number1 payload 2 = x.number → s.destInstalled x = false) :
    OrderKind.asgn.rule payload s = refuse .badArg s := by
  show asgn payload s = _
  unfold asgn
  rw [formChecked_formed formed, lineChecked_working up working]
  cases names : Dest.ofNumber (number1 payload 2) with
  | none => rfl
  | some x => simp [absent x (number_of_ofNumber names)]

/-- ASGN of a destination that is installed: the checks of the entry, in their order (R41, R42). -/
theorem asgn_rule_entry (up : s.supervisor.state = .up) (working : s.line.state.working = true)
    (formed : OrderKind.asgn.formed payload) {x : Dest} (names : number1 payload 2 = x.number)
    (installed : s.destInstalled x = true) :
    OrderKind.asgn.rule payload s = match s.entry (halfAt payload 0) with
      | none => refuse .noSuchTag s
      | some e =>
        if e.reason.forced then refuse .state s
        else if e.state ≠ .travelling then refuse .late s
        else if reached s.counter.position (s.destPoint x e) then (markLate e s, ⟨.late, []⟩)
        else done (assignEntry x e s) := by
  show asgn payload s = _
  unfold asgn
  rw [formChecked_formed formed, lineChecked_working up working, names, ofNumber_number]
  dsimp only
  rw [installed]
  rfl

/-! ### LATE_SEEN (R42) -/

theorem entry_markLate (found : s.entry tag = some e) : (markLate e s).entry tag
    = some { e with flags := { e.flags with lateSeen := e.flags.lateSeen || e.assigned.isNone } } := by
  obtain rfl := tag_of_entry found
  unfold markLate
  split
  next late =>
    refine (entry_setEntry_found (f := fun e => { e with flags := { e.flags with lateSeen := true } }) found
      fun _ => rfl).trans ?_
    rw [late, Bool.or_true]
  next assigned => simp [found, assigned]

theorem entry_markLate_ne {tag' : Tag} (other : tag' ≠ e.tag) (s : State) :
    (markLate e s).entry tag' = s.entry tag' := by
  unfold markLate
  split
  · exact entry_setEntry_ne s other (fun e => { e with flags := { e.flags with lateSeen := true } }) fun _ => rfl
  · rfl

theorem frame_markLate (e : Entry) (s : State) : UnchangedBut [.table] s (markLate e s) := by
  unfold markLate
  split
  · intro p other
    cases p <;> simp_all [Part.same]
  · exact unchanged_refl _ s

/-! ### QITM (R47) -/

theorem qitm_rule (formed : OrderKind.qitm.formed payload) (s : State) :
    OrderKind.qitm.rule payload s = match s.entry (halfAt payload 0) with
      | none => refuse .noSuchTag s
      | some e => (s, ⟨.done, itemData (s.table.findIdx (fun x => x.tag == e.tag)) e⟩) := by
  show qitm payload s = _
  unfold qitm
  exact formChecked_formed formed _ s

/-- The first entry of the table with a tag is the entry of that tag, and stands at its place (R34, R47). -/
theorem entry_of_first (stands : s.table[i]? = some e) (own : e.tag = tag)
    (first : ∀ j e', j < i → s.table[j]? = some e' → e'.tag ≠ tag) :
    s.entry tag = some e ∧ s.table.findIdx (fun x => x.tag == tag) = i := by
  obtain ⟨bound, stands⟩ := List.getElem?_eq_some_iff.mp stands
  have before (j : Nat) (earlier : j < i) : ((s.table[j]'(by omega)).tag == tag) = false :=
    beq_eq_false_iff_ne.mpr (first j _ earlier (List.getElem?_eq_getElem _))
  have here : (s.table[i].tag == tag) = true := by rw [stands, own, beq_self_eq_true]
  refine ⟨?_, (List.findIdx_eq bound).mpr ⟨here, before⟩⟩
  refine List.find?_eq_some_iff_getElem.mpr ⟨?_, i, bound, stands, fun j earlier => ?_⟩
  · rw [own, beq_self_eq_true]
  · simp [before j earlier]

/-- The data of QITM's answer, field by field (R175). -/
theorem itemData_eq (i : Nat) (e : Entry) : itemData i e =
    bytes2 e.tag ++ [BitVec.ofNat 8 i] ++ bytes4 e.lead ++ bytes2 (BitVec.ofNat 16 e.length)
      ++ [e.flags.byte, destByte e.assigned, e.target.byte, e.reason.code, e.state.code,
        match e.reservedWith with | some d => BitVec.ofNat 8 (stationNumber d) | none => 0,
        match e.stateAtHalt with | some st => st.code | none => 0xFF]
      ++ bytes4 (if e.state = .confirming then e.confirmDeadline.getD 0 else 0) := by
  unfold itemData
  cases e.state with
  | confirming => cases e.confirmDeadline <;> rfl
  | _ => rfl

/-! ### LIST (R48) -/

theorem list_rule (formed : OrderKind.list.formed payload) (s : State) : OrderKind.list.rule payload s =
    if 95 < number1 payload 0 then refuse .badArg s else (s, ⟨.done, listData (number1 payload 0) s.table⟩) := by
  show list payload s = _
  unfold list
  exact formChecked_formed formed _ s

/-- The data of LIST's answer: the occupancy, the first lead shown, and a summary of each entry shown (R175). -/
theorem listData_eq (index : Nat) (table shown : List Entry) (h : shown = (table.drop index).take 7) :
    listData index table =
      [BitVec.ofNat 8 table.length] ++ bytes4 ((shown.head?.map (·.lead)).getD 0)
        ++ shown.flatMap (fun e => bytes2 e.tag
            ++ bytes3 (e.lead - (shown.head?.map (·.lead)).getD 0) ++ [e.state.code]) := by
  unfold listData
  rw [← h]
  cases shown <;> rfl

end Sys2Proof.Machine

open Sys2Proof Sys2Proof.Machine

/-- Settles O23: the line state, the destination and then the entry are checked in turn (`asgn_rule_off`,
`asgn_rule_absent`, `asgn_rule_entry`); past the destination's point the entry notes the order (`entry_markLate`). -/
theorem asgnRefused : Obligations.AsgnRefused := by
  unfold Obligations.AsgnRefused
  intro number p s takes up formed
  refine ⟨fun off => exec_refused takes (asgn_rule_off up off formed),
    fun working absent => exec_refused takes (asgn_rule_absent up working formed absent),
    fun x working names installed => ?_⟩
  have rule := asgn_rule_entry up working formed names installed
  refine ⟨fun none => ?_, fun e found forced => ?_, fun e found own state => ?_, fun e found own state past => ?_⟩
  · rw [none] at rule
    exact exec_refused takes rule
  · rw [found] at rule
    exact exec_refused takes (rule.trans (if_pos forced))
  · rw [found] at rule
    exact exec_refused (r := .late) takes (rule.trans (by simp [own, state]))
  · rw [found] at rule
    obtain ⟨t, run, answered, frame⟩ := exec_order (u := markLate e s) (r := ⟨.late, []⟩) takes
      (rule.trans (by simp [own, state, past]))
    have entry := entry_congr (frame .table (by decide))
    exact ⟨t, run, answered, (congrFun entry _).trans (entry_markLate found),
      fun tag other => (congrFun entry tag).trans (entry_markLate_ne (tag_of_entry found ▸ other) s),
      ((frame_markLate e s).trans frame).mono (by decide)⟩

/-- Settles O25: both rules answer from the table and leave the state (`qitm_rule`, `list_rule`), and their data are the
fields of the layouts (`itemData_eq`, `listData_eq`). -/
theorem itemReads : Obligations.ItemReads := by
  unfold Obligations.ItemReads
  refine ⟨fun number p s takes formed => ⟨fun none => ?_, fun i e stands own first => ?_⟩,
    fun number p s takes formed => ⟨fun above => ?_, fun within => ?_⟩⟩
  · exact exec_refused takes ((qitm_rule formed s).trans (by rw [none]))
  · obtain ⟨found, place⟩ := entry_of_first stands own first
    have rule := qitm_rule formed s
    rw [found] at rule
    dsimp only at rule
    rw [own, place, itemData_eq] at rule
    exact exec_order takes rule
  · exact exec_refused takes ((list_rule formed s).trans (if_pos above))
  · obtain ⟨t, run, answered, frame⟩ := exec_order takes ((list_rule formed s).trans (if_neg (by omega)))
    refine ⟨t, run, fun shown is => ?_, frame⟩
    have data := listData_eq (number1 p 0) s.table shown is
    rw [Reply.bytes, data] at answered
    exact answered
end

