-- ==== Sys2Proof/Proofs/DrivesKept.lean ====
section
/-! PROOF. The law of the diverters and the arbiter, with no slot wasted, at every command and step: O60. -/

namespace Sys2Proof.Machine

variable {s t u : State} {d : Station}

/-! ### The law between two events (R62 to R65) -/

/-- What holds of the diverters and the arbiter between two events: their law, and no free slot beside a waiting
diverter. -/
structure Driven (s : State) : Prop where
  law : DriveLaw s
  unwasted : NoSlotWasted s

theorem Driven.same (h : Driven s) (e : SameDrives s t) : Driven t := ⟨h.law.same e, h.unwasted.same e⟩

/-- The arbiter's examination leaves no slot wasted, whatever was before it (R65). -/
theorem driven_arbitrate (law : DriveLaw s) : Driven (arbitrate s) := ⟨drive_arbitrate law, noSlotWasted_arbitrate s⟩

theorem driven_settle (law : DriveLaw s) : Driven (settle s) := (driven_arbitrate law).same (same_drainTest _)

theorem noSlotWasted_of_none (none : ∀ d, s.waits d = false) : NoSlotWasted s := fun _ => none

theorem SameDrives.told (h : SameDrives s t) (b : NoticeBody) : SameDrives s (submit b t) := h.trans (same_submit t b)

/-- An event leaves the diverters and the arbiter driven when it found them so. -/
def KeepsDriven (s t : State) : Prop := Driven s → Driven t

theorem SameDrives.driven (h : SameDrives s t) : KeepsDriven s t := fun k => k.same h

theorem neutral_driven : Neutral KeepsDriven where
  refl _ := id
  trans h k := k ∘ h
  traffic _ _ _ _ := SameDrives.driven ⟨rfl, rfl, rfl⟩

/-- An event that ends with the arbiter's examination and the drain test (R65, R123). -/
theorem keepsDriven_settle (h : DriveLaw s → DriveLaw t) : KeepsDriven s (settle t) := fun k => driven_settle (h k.law)

/-! ### The diverters one by one -/

/-- An entry that leaves a pending list makes no diverter wait (R70). -/
theorem noSlotWasted_leavePending (h : NoSlotWasted s) (d : Station) (tag : Tag) :
    NoSlotWasted (leavePending d tag s) := by
  intro free x
  rw [State.slotFree, (heldLess_leavePending d tag s).1.arbiter] at free
  have before := h free
  by_cases last : (s.diverter d).state = .waiting ∧ (s.diverter d).pending.filter (fun y => y != tag) = []
  · rw [leavePending_last last.1 last.2]
    by_cases own : x = d
    · rw [own, waits_setWaiting]
    · rw [waits_setWaiting_ne _ own]
      exact before x
  · rw [leavePending_more (not_and_or.mp last)]
    exact before x

theorem driven_leavePending (d : Station) (tag : Tag) (s : State) : KeepsDriven s (leavePending d tag s) :=
  fun h => ⟨drive_leavePending h.law d tag, noSlotWasted_leavePending h.unwasted d tag⟩

/-- A diverter that takes a slot without leaving the waiting set: a slot that is free after was free before. -/
theorem noSlotWasted_takeSlot (h : NoSlotWasted s) : NoSlotWasted (takeSlot s) := by
  intro free
  refine h ?_
  have room : s.arbiter.slotsInUse + 1 < s.arbiter.budget := of_decide_eq_true free
  simpa [State.slotFree] using Nat.lt_of_succ_lt room

theorem driven_enable (dis : (s.diverter d).disabled = true) :
    KeepsDriven s (setDiverter d (fun v => { v with disabled := false, state := .idle }) s) :=
  fun h => ⟨drive_enable h.law dis, h.unwasted⟩

theorem driven_disableDiverter (d : Station) (s : State) : KeepsDriven s (disableDiverter d s) :=
  keepsDriven_settle fun law => (drive_disabled law d).same (same_changeCauses _ d _)

theorem driven_testPulse (idle : (s.diverter d).state = .idle) (free : s.slotFree = true) (timer : TimeStamp) :
    KeepsDriven s (takeSlot (setDiverter d
      (fun v => { v with state := .energised, testPulse := true, push := [], output := true,
                         pulseTimer := some timer }) s)) := by
  intro h
  refine ⟨drive_testPulse h.law idle free timer, noSlotWasted_takeSlot ?_⟩
  exact noSlotWasted_arbiter h.unwasted rfl

/-! ### All diverters together -/

theorem driven_freeze (c : HaltCause) (s : State) : KeepsDriven s (freeze c s) :=
  fun h => ⟨drive_freeze h.law c, noSlotWasted_of_none fun d => Vector.getElem_replicate d.isLt⟩

theorem driven_requestHalt (c : HaltCause) (s : State) : KeepsDriven s (requestHalt c s) := by
  unfold requestHalt
  split
  · exact neutral_driven.trans (driven_freeze c s) (same_submit _ _).driven
  · exact id

/-- A commit leaves every diverter as its record says and none waiting (R85). -/
theorem driven_commit (s : State) : Driven (commit s) := by
  have quiet : Driven (commitDiverters { s with config := s.pendingConfig }) :=
    ⟨drive_commitDiverters _, noSlotWasted_of_none fun d => Vector.getElem_replicate d.isLt⟩
  have told : SameDrives (commitDiverters { s with config := s.pendingConfig })
      (resetDestinations (commitChutes (commitDiverters { s with config := s.pendingConfig }))) := by
    unfold resetDestinations
    refine SameDrives.trans (t := committed s) ⟨rfl, rfl, rfl⟩ (SameDrives.foldl _ (fun t d => ?_) _ _)
    split
    · exact same_submit t _
    · exact .refl t
  refine (quiet.same told).same ?_
  show SameDrives _ (commitLine _)
  unfold commitLine
  split
  · refine .told ?_ _
    exact ⟨rfl, rfl, rfl⟩
  · exact .refl _

/-- A reset (R131). -/
theorem driven_resetState (cause : ResetCause) (levels : Levels) (s : State) : Driven (resetState cause levels s) := by
  have reset : Driven State.reset := ⟨drive_reset, noSlotWasted_reset⟩
  exact reset.same ⟨rfl, rfl, rfl⟩

theorem driven_beginOrderReset (s : State) : Driven (beginOrderReset s) :=
  (driven_resetState .order s.levels s).same ⟨rfl, rfl, rfl⟩

theorem driven_runoffEntry (e : Entry) (s : State) : KeepsDriven s (runoffEntry e s) := by
  unfold runoffEntry
  split
  · exact (same_sendToRunoff s _ _).driven
  · exact neutral_driven.trans (driven_leavePending _ _ s) (same_giveBackToBelt _ _ _).driven
  · exact id

theorem driven_runoffAll (s : State) : KeepsDriven s (runoffAll s) := by
  unfold runoffAll
  generalize s.table = l
  induction l generalizing s with
  | nil => exact id
  | cons e l ih => exact neutral_driven.trans (driven_runoffEntry e s) (ih _)

/-! ### Deliveries -/

theorem driven_deliver (w : Watch) (s : State) : KeepsDriven s (deliver w s) :=
  have left : SameDrives s { s with watches := s.watches.tail } := ⟨rfl, rfl, rfl⟩
  fun h => driven_arbitrate (drive_handle (h.law.same left) w.kind)

theorem driven_deliveryRun (n : Nat) (s : State) : KeepsDriven s (deliveryRun n s) := by
  induction n generalizing s with
  | zero => exact id
  | succ n ih =>
    unfold deliveryRun
    split
    · exact neutral_driven.trans (driven_deliver _ s) (ih _)
    · exact id

theorem driven_deliverNamed (s : State) (k : WatchKind) : KeepsDriven s (deliverNamed k s) := by
  unfold deliverNamed
  split
  · split
    · exact neutral_driven.trans (driven_deliver _ s) (same_drainTest _).driven
    · exact id
  · exact id

/-- With no slot wasted the arbiter has nothing to grant between two events (R65). -/
theorem driven_grantOne (s : State) : KeepsDriven s (grantOne s) := by
  intro h
  suffices idle : grantOne s = s by rwa [idle]
  unfold grantOne
  split
  · rename_i free
    split
    · rename_i d chosen
      exact absurd (waits_of_chosen chosen) (by simp [h.unwasted free d])
    · rfl
  · rfl

/-! ### The belt -/

theorem same_standstillTick (s : State) : SameDrives s (standstillTick s) := by
  unfold standstillTick
  dsimp only
  split
  · exact .refl s
  · split
    · refine .told ?_ _
      exact ⟨rfl, rfl, rfl⟩
    · exact ⟨rfl, rfl, rfl⟩

theorem same_standstillExpiry (s : State) : SameDrives s (standstillExpiry s) := by
  unfold standstillExpiry
  split
  · refine .told ?_ _
    exact ⟨rfl, rfl, rfl⟩
  · exact .refl s

theorem driven_forwardTick (s : State) : KeepsDriven s (forwardTick s) := by
  have moved : SameDrives s (standstillTick { s with counter := s.counter.forward }) :=
    SameDrives.trans (t := { s with counter := s.counter.forward }) ⟨rfl, rfl, rfl⟩ (same_standstillTick _)
  exact neutral_driven.trans moved.driven (neutral_driven.trans (driven_deliveryRun _ _) (same_drainTest _).driven)

theorem driven_reverseTick (s : State) : KeepsDriven s (reverseTick s) := by
  have moved : SameDrives s (standstillTick { s with counter := s.counter.backward }) :=
    SameDrives.trans (t := { s with counter := s.counter.backward }) ⟨rfl, rfl, rfl⟩ (same_standstillTick _)
  refine neutral_driven.trans moved.driven ?_
  show KeepsDriven _ (reverseTest _)
  unfold reverseTest
  split
  · exact driven_requestHalt _ _
  · exact id

theorem driven_illegalTransition (s : State) : KeepsDriven s (illegalTransition s) := by
  have latched : SameDrives s { s with counter := s.counter.illegal } := ⟨rfl, rfl, rfl⟩
  unfold illegalTransition
  dsimp only
  split
  · exact latched.driven
  · exact neutral_driven.trans latched.driven (driven_requestHalt _ _)

theorem driven_lineStopChange (level : StopLevel) (s : State) : KeepsDriven s (lineStopChange level s) := by
  have changed : SameDrives s { s with line := { s.line with lineStop := level } } := ⟨rfl, rfl, rfl⟩
  unfold lineStopChange
  dsimp only
  split
  · exact id
  · split
    · exact neutral_driven.trans changed.driven (driven_requestHalt _ _)
    · exact changed.driven

/-! ### The diverters' timers and the confirm monitors -/

theorem driven_maxOnEvent (s : State) (d : Station) : KeepsDriven s (maxOnEvent d s) := by
  unfold maxOnEvent
  split
  · rename_i due
    exact keepsDriven_settle fun law => drive_maxOnExpiry law due.1
  · exact id

theorem driven_recoveryEvent (s : State) (d : Station) : KeepsDriven s (recoveryEvent d s) := by
  unfold recoveryEvent
  split
  · rename_i due
    exact keepsDriven_settle fun law => drive_endRecovery law due.1
  · exact id

theorem driven_pulseEvent (s : State) (d : Station) : KeepsDriven s (pulseEvent d s) := by
  unfold pulseEvent
  split
  · rename_i due
    exact keepsDriven_settle fun law => drive_endPulse law due.1 (running_of_expired due.2)
  · exact id

theorem same_deadlineEvent (s : State) (d : Station) : SameDrives s (deadlineEvent d s) := by
  unfold deadlineEvent
  split
  · exact .trans (same_deadlineExpiry s d) (same_drainTest _)
  · exact .refl s

theorem same_confirmLeading (s : State) (d : Station) : SameDrives s (confirmLeading d s) := by
  unfold confirmLeading
  dsimp only
  split
  · exact .refl s
  · refine .trans (same_setMonitor s d fun m => { m with eye := .blocked }) ?_
    split
    · exact .trans (.trans (same_matchEdge _ d) (same_chuteBlocked _ d)) (same_drainTest _)
    · exact .refl _

theorem same_confirmTrailing (s : State) (d : Station) : SameDrives s (confirmTrailing d s) := by
  unfold confirmTrailing
  dsimp only
  split
  · exact .refl s
  · refine .trans (same_setMonitor s d fun m => { m with eye := .clear }) ?_
    split
    · exact same_chuteCleared _ d
    · exact .refl _

theorem same_chuteEvent (s : State) (d : Station) : SameDrives s (chuteEvent d s) := by
  unfold chuteEvent
  split
  · exact same_chuteExpiry s d
  · exact .refl s

/-! ### The line's orders -/

theorem same_startLine (s : State) : SameDrives s (startLine s) := by
  refine .told ?_ _
  exact ⟨rfl, rfl, rfl⟩

theorem same_beginDrain (s : State) : SameDrives s (beginDrain s) := by
  refine .told ?_ _
  exact ⟨rfl, rfl, rfl⟩

theorem same_clearWork (s : State) : SameDrives s (clearWork s) := by
  unfold clearWork discardEntries
  exact .trans (.foldl _ (fun t tag => same_returnUnit t tag) _ s) ⟨rfl, rfl, rfl⟩

theorem same_clearHalted (s : State) : SameDrives s (clearHalted s) := by
  refine .told (.trans ((same_clearWork s).told (.cleared s.occupancy)) ?_) _
  exact ⟨rfl, rfl, rfl⟩

theorem same_clearReady (s : State) : SameDrives s (clearReady s) :=
  ((same_clearWork s).told _).trans (same_evaluateHold _)

/-! ### The orders -/

/-- A rule that leaves the diverters and the arbiter driven. -/
abbrev RuleDriven (rule : OrderRule) : Prop := RuleWithin KeepsDriven rule

theorem ruleDriven_cfgl : RuleDriven cfgl := by
  refine neutral_driven.formChecked (neutral_driven.linkChecked fun p s => ?_)
  split
  · split
    · exact SameDrives.driven ⟨rfl, rfl, rfl⟩
    · exact id
  · exact id

theorem ruleDriven_cfgd : RuleDriven cfgd := by
  refine neutral_driven.formChecked (neutral_driven.linkChecked fun p s => ?_)
  split
  · split
    · exact SameDrives.driven ⟨rfl, rfl, rfl⟩
    · exact id
  · exact id

theorem ruleDriven_cmit : RuleDriven cmit := by
  refine neutral_driven.formChecked (neutral_driven.linkChecked fun p s => ?_)
  split
  · split
    · exact id
    · exact fun _ => driven_commit s
  · exact id

theorem ruleDriven_strt : RuleDriven strt := by
  refine neutral_driven.formChecked (neutral_driven.linkChecked fun p s => ?_)
  split
  · exact (same_startLine s).driven
  · exact id

theorem ruleDriven_stop : RuleDriven stop := by
  refine neutral_driven.formChecked fun p s => ?_
  split
  · exact ((same_beginDrain s).trans (same_drainTest _)).driven
  all_goals exact id

theorem ruleDriven_halt : RuleDriven halt := neutral_driven.formChecked fun _ s => driven_requestHalt .order s

theorem ruleDriven_clr : RuleDriven clr := by
  refine neutral_driven.formChecked fun p s => ?_
  split
  · exact id
  · split
    · exact id
    · split
      · exact (same_clearHalted s).driven
      · exact (same_clearReady s).driven

theorem same_markLate (e : Entry) (s : State) : SameDrives s (markLate e s) := by
  unfold markLate
  split
  · exact same_setEntry s e.tag _
  · exact .refl s

theorem ruleDriven_asgn : RuleDriven asgn := by
  refine neutral_driven.formChecked (neutral_driven.lineChecked fun p s _ => ?_)
  split
  · exact id
  · split
    · exact id
    · split
      · exact id
      · split
        · exact id
        · split
          · exact id
          · split
            · exact (same_markLate _ s).driven
            · exact SameDrives.driven ⟨rfl, rfl, rfl⟩

theorem driven_dropPending (e : Entry) (s : State) : KeepsDriven s (dropPending e s) := by
  unfold dropPending
  split
  · exact neutral_driven.trans (driven_leavePending _ _ s) (same_giveBackToBelt _ _ _).driven
  · exact (same_giveBackToBelt s _ _).driven

theorem ruleDriven_drop : RuleDriven drop := by
  refine neutral_driven.formChecked (neutral_driven.lineChecked fun p s _ => ?_)
  split
  · exact id
  · split
    · exact (same_sendToRunoff s _ _).driven
    · exact driven_dropPending _ s
    all_goals exact id

theorem ruleDriven_opnd : RuleDriven opnd := by
  refine neutral_driven.formChecked (neutral_driven.linkChecked (neutral_driven.destinationChecked fun d p s _ => ?_))
  split
  · exact id
  · split
    · exact id
    · exact ((same_setDestination s d _).told _).driven

theorem ruleDriven_clsd : RuleDriven clsd :=
  neutral_driven.formChecked (neutral_driven.linkChecked (neutral_driven.destinationChecked fun d _ s _ =>
    (same_changeCauses s d fun c => { c with host := true }).driven))

theorem ruleDriven_adjd : RuleDriven adjd := by
  refine neutral_driven.formChecked (neutral_driven.linkChecked (neutral_driven.destinationChecked fun d p s _ => ?_))
  split
  · exact id
  · split
    · exact id
    · exact ((same_setDestination s d _).trans (same_terminalCount _ d)).driven

theorem ruleDriven_dena : RuleDriven dena := by
  refine neutral_driven.formChecked (neutral_driven.linkChecked (neutral_driven.diverterChecked fun d p s _ => ?_))
  split
  · rename_i off
    exact neutral_driven.trans (driven_enable off) (same_changeCauses _ d fun c => { c with disabled := false }).driven
  · exact id

theorem ruleDriven_ddis : RuleDriven ddis := by
  refine neutral_driven.formChecked (neutral_driven.linkChecked (neutral_driven.diverterChecked fun d p s _ => ?_))
  split
  · exact id
  · unfold done
    dsimp only
    exact driven_disableDiverter d s

theorem ruleDriven_tfir : RuleDriven tfir := by
  refine neutral_driven.formChecked (neutral_driven.linkChecked fun p s => ?_)
  split
  · exact id
  · split
    · exact id
    · split
      · exact id
      · split
        · exact id
        · rename_i idle
          split
          · exact id
          · rename_i free
            exact driven_testPulse (by simpa using idle) (by simpa using free) _

/-- Every order's rule (R172). -/
theorem ruleDriven_rule (k : OrderKind) : RuleDriven k.rule := by
  cases k
  case cfgl => exact ruleDriven_cfgl
  case cfgd => exact ruleDriven_cfgd
  case cmit => exact ruleDriven_cmit
  case rdcf => exact neutral_driven.rdcf
  case strt => exact ruleDriven_strt
  case stop => exact ruleDriven_stop
  case halt => exact ruleDriven_halt
  case clr => exact ruleDriven_clr
  case rstr => exact neutral_driven.rstr
  case asgn => exact ruleDriven_asgn
  case drop => exact ruleDriven_drop
  case qitm => exact neutral_driven.qitm
  case list => exact neutral_driven.list
  case opnd => exact ruleDriven_opnd
  case clsd => exact ruleDriven_clsd
  case adjd => exact ruleDriven_adjd
  case qdst => exact neutral_driven.qdst
  case dena => exact ruleDriven_dena
  case ddis => exact ruleDriven_ddis
  case tfir => exact ruleDriven_tfir
  case link => exact neutral_driven.link
  case wind => exact neutral_driven.wind
  case ack => exact neutral_driven.ack
  case rsum => exact neutral_driven.rsum
  case stat => exact neutral_driven.stat

theorem ruleDriven_ruleOf (kind : Byte) : RuleDriven (ruleOf kind) := by
  unfold ruleOf
  split
  · exact ruleDriven_rule _
  · exact neutral_driven.unknownRule

/-! ### The link -/

theorem driven_serviceOrders (s : State) : KeepsDriven s (serviceOrders s) := by
  unfold serviceOrders
  split
  · split
    · exact id
    · exact neutral_driven.trans (neutral_driven.traffic s _ s.queue s.supervisor)
        (neutral_driven.takeOrder (ruleDriven_ruleOf _) _ _ _ _)
  · exact id

theorem driven_goodFrame (f : Frame) (s : State) : KeepsDriven s (goodFrame f s) :=
  neutral_driven.trans (neutral_driven.restartSupervision s)
    (neutral_driven.trans (neutral_driven.offerOrder f _) (driven_serviceOrders _))

theorem driven_examine (n : Nat) (bytes : List Byte) (s : State) : KeepsDriven s (examine n bytes s) := by
  induction n generalizing bytes s with
  | zero => exact id
  | succ n ih =>
    cases bytes with
    | nil => exact id
    | cons b rest =>
      have discarded : KeepsDriven s (setReceiver .hunting (countDiscard s)) :=
        neutral_driven.trans (neutral_driven.countDiscard s) (neutral_driven.setReceiver _ _)
      unfold examine
      split
      · exact neutral_driven.trans (neutral_driven.setReceiver _ s) (ih _ _)
      · exact neutral_driven.trans discarded (ih _ _)
      · exact neutral_driven.trans discarded (ih _ _)
      · exact neutral_driven.trans (neutral_driven.setReceiver _ s)
          (neutral_driven.trans (driven_goodFrame _ _) (ih _ _))

theorem driven_receive (b : Byte) (s : State) : KeepsDriven s (receive b s) :=
  neutral_driven.trans (driven_examine _ _ s) (neutral_driven.setGapTimer _)

theorem driven_goodOrderByte (b : Byte) (s : State) : KeepsDriven s (goodOrderByte b s) := by
  unfold goodOrderByte
  split
  · exact driven_receive b s
  all_goals exact id

theorem driven_discardByte (b : Byte) (s : State) : KeepsDriven s (discardByte b s) := by
  unfold discardByte
  split
  · exact driven_receive b s
  · exact driven_receive b s
  all_goals exact id

theorem driven_lossAction (s : State) : KeepsDriven s (lossAction s) := by
  unfold lossAction
  split
  · split
    · exact id
    · exact neutral_driven.trans (driven_runoffAll s) (same_drainTest _).driven
    · exact neutral_driven.trans (driven_freeze .link s) (same_submit _ _).driven
  · exact id

theorem driven_supervisionExpiry (s : State) : KeepsDriven s (supervisionExpiry s) := by
  unfold supervisionExpiry
  dsimp only
  split
  · split
    · exact neutral_driven.trans (neutral_driven.restartSupervision s)
        (neutral_driven.trans (neutral_driven.traffic _ s.link s.queue _)
          (neutral_driven.trans (neutral_driven.submit _ _) (driven_lossAction _)))
    · exact neutral_driven.restartSupervision s
  · exact id

theorem driven_transmitComplete (s : State) : KeepsDriven s (transmitComplete s) := by
  unfold transmitComplete
  dsimp only
  split
  · exact id
  · split
    · exact fun _ => driven_beginOrderReset _
    · exact neutral_driven.trans (neutral_driven.traffic s _ s.queue s.supervisor)
        (neutral_driven.trans (neutral_driven.startNext _) (driven_serviceOrders _))

/-! ### Commands and steps -/

theorem driven_resetPart (cause : ResetCause) (levels : Levels) (s : State) :
    KeepsDriven s (resetPart cause levels s) :=
  fun _ => (driven_resetState cause levels s).same (same_startNext _)

/-- A command that is an event of the part, or nothing while a reset is held. -/
theorem KeepsDriven.event {f : State → State} (h : KeepsDriven s (f s)) (run : event f s = .next t) :
    KeepsDriven s t := by
  unfold Machine.event at run
  obtain rfl := Host.Outcome.next.inj run
  split
  · exact id
  · exact h

theorem KeepsDriven.stationEvent {n : Nat} {f : Station → State → State} (h : ∀ d, KeepsDriven s (f d s))
    (run : stationEvent n f s = .next t) : KeepsDriven s t := by
  unfold Machine.stationEvent at run
  split at run
  · exact .event (h _) run
  · cases run

theorem KeepsDriven.order (k : OrderKind) {n : Half} {p : List Byte} (run : exec (k.command n p) s = .next t) :
    KeepsDriven s t :=
  .event (neutral_driven.takeOrder (ruleDriven_rule k) n k.code p s) (exec_command k n p s ▸ run)

theorem KeepsDriven.unknownKind {n : Half} {k : Byte} {p : List Byte} (run : execUnknownKind n k p s = .next t) :
    KeepsDriven s t := by
  unfold execUnknownKind at run
  split at run
  · cases run
  · exact .event (neutral_driven.takeOrder neutral_driven.unknownRule n k p s) run

theorem KeepsDriven.rstrReset {levels : Levels} (run : execRstrReset levels s = .next t) : KeepsDriven s t := by
  unfold execRstrReset at run
  obtain rfl := Host.Outcome.next.inj run
  split
  · exact driven_resetPart _ _ s
  · exact id

/-- Every command that runs leaves the diverters and the arbiter driven. -/
theorem KeepsDriven.exec {c : Instr} (run : exec c s = .next t) : KeepsDriven s t := by
  cases c
  case cfgl => exact .order .cfgl run
  case cfgd => exact .order .cfgd run
  case cmit => exact .order .cmit run
  case rdcf => exact .order .rdcf run
  case strt => exact .order .strt run
  case stop => exact .order .stop run
  case halt => exact .order .halt run
  case clr => exact .order .clr run
  case rstr => exact .order .rstr run
  case asgn => exact .order .asgn run
  case drop => exact .order .drop run
  case qitm => exact .order .qitm run
  case list => exact .order .list run
  case opnd => exact .order .opnd run
  case clsd => exact .order .clsd run
  case adjd => exact .order .adjd run
  case qdst => exact .order .qdst run
  case dena => exact .order .dena run
  case ddis => exact .order .ddis run
  case tfir => exact .order .tfir run
  case link => exact .order .link run
  case wind => exact .order .wind run
  case ack => exact .order .ack run
  case rsum => exact .order .rsum run
  case stat => exact .order .stat run
  case unknownKind => exact .unknownKind run
  case orderReplay => exact .event (neutral_driven.replayOrder _ _ s) run
  case forwardTick => exact .event (driven_forwardTick s) run
  case reverseTick => exact .event (driven_reverseTick s) run
  case illegalTransition => exact .event (driven_illegalTransition s) run
  case standstillTimerExpiry => exact .event (same_standstillExpiry s).driven run
  case fireWatch => exact .event (driven_deliverNamed s _) run
  case runoffWatch => exact .event (driven_deliverNamed s _) run
  case lateWatch => exact .stationEvent (fun _ => driven_deliverNamed s _) run
  case releaseWatch => exact .stationEvent (fun _ => driven_deliverNamed s _) run
  case lengthLimitWatch => exact .event (driven_deliverNamed s _) run
  case entryEyeLeadingEdge => exact .event (same_entryLeadingEdge s).driven run
  case entryEyeTrailingEdge => exact .event (same_entryTrailingEdge s).driven run
  case exitEyeLeadingEdge => exact .event (same_exitLeadingEdge s).driven run
  case slotGrant =>
    exact .event (f := fun t => drainTest (grantOne t))
      (neutral_driven.trans (driven_grantOne s) (same_drainTest _).driven) run
  case maxOnExpiry => exact .stationEvent (driven_maxOnEvent s) run
  case recoveryTimerExpiry => exact .stationEvent (driven_recoveryEvent s) run
  case pulseTimerExpiry => exact .stationEvent (driven_pulseEvent s) run
  case deadlineTimerExpiry => exact .stationEvent (fun d => (same_deadlineEvent s d).driven) run
  case confirmEyeLeadingEdge => exact .stationEvent (fun d => (same_confirmLeading s d).driven) run
  case confirmEyeTrailingEdge => exact .stationEvent (fun d => (same_confirmTrailing s d).driven) run
  case chuteTimerExpiry => exact .stationEvent (fun d => (same_chuteEvent s d).driven) run
  case lineStopChange => exact .event (driven_lineStopChange _ s) run
  case drainComplete => exact .event (same_drainTest s).driven run
  case powerOn => exact Host.Outcome.next.inj run ▸ driven_resetPart _ _ s
  case pinReset => exact Host.Outcome.next.inj run ▸ driven_resetPart _ _ s
  case rstrReset => exact .rstrReset run
  case goodOrderFrame => exact .event (driven_goodOrderByte _ s) run
  case frameDiscard => exact .event (driven_discardByte _ s) run
  case characterFault => exact .event (neutral_driven.dropFrame s) run
  case gapTimerExpiry => exact .event (neutral_driven.gapExpiry s) run
  case transmitComplete => exact .event (driven_transmitComplete s) run
  case retryTimerExpiry => exact .event (neutral_driven.retryExpiry s) run
  case supervisionTimerExpiry => exact .event (driven_supervisionExpiry s) run
  case characterReceived => exact .event (driven_receive _ s) run

theorem same_millisecond (s : State) : SameDrives s (millisecond s) := by
  unfold millisecond
  split
  · exact .refl s
  · exact .trans (same_startNext s) ⟨rfl, rfl, rfl⟩

/-- Every step leaves the diverters and the arbiter driven: the command at the front of the queue, or a millisecond
(entry 2). -/
theorem KeepsDriven.step (run : step s = .next t) : KeepsDriven s t := by
  unfold Machine.step at run
  split at run
  · have kept := KeepsDriven.exec run
    exact fun h => kept (h.same ⟨rfl, rfl, rfl⟩)
  · exact Host.Outcome.next.inj run ▸ (same_millisecond s).driven

end Sys2Proof.Machine

open Sys2Proof.Machine in
/-- Settles O60: each command and each millisecond leaves the diverters and the arbiter driven (`KeepsDriven.step`). -/
theorem driveLawKept : Obligations.DriveLawKept := by
  intro s t law unwasted run
  obtain ⟨law', unwasted'⟩ := KeepsDriven.step run ⟨law, unwasted⟩
  exact ⟨law', unwasted'⟩
end

