-- ==== Sys2Proof/Proofs/StationOrders.lean ====
section
/-! PROOF. The orders on a station: the checks they share, DENA and the test pulse of TFIR: O26, O31, O33. -/

namespace Sys2Proof.Machine

variable {s t : State} {d : Station} {payload : List Byte}

/-! ### The shared checks (R78, R80, R109) -/

theorem eq_stationNumber {n : Nat} (names : stationOf n = some d) : n = stationNumber d := by
  unfold stationOf at names
  split at names
  · obtain rfl := Option.some.inj names
    simp only [stationNumber]
    omega
  · cases names

section

variable (own : Station → OrderRule)

theorem diverterChecked_idle (idle : s.line.state = .idle) : diverterChecked own payload s = refuse .state s :=
  if_pos idle

theorem destinationChecked_idle (idle : s.line.state = .idle) : destinationChecked own payload s = refuse .state s :=
  if_pos idle

/-- The payload names no installed station. -/
abbrev State.namesNone (s : State) (payload : List Byte) : Prop :=
  ∀ d, number1 payload 0 = stationNumber d → s.installed d = false

theorem diverterChecked_absent (busy : s.line.state ≠ .idle) (absent : s.namesNone payload) :
    diverterChecked own payload s = refuse .badArg s := by
  unfold diverterChecked
  rw [if_neg busy]
  split
  · rename_i d names
    rw [absent d (eq_stationNumber names)]
    rfl
  · rfl

theorem destinationChecked_absent (busy : s.line.state ≠ .idle) (absent : s.namesNone payload) :
    destinationChecked own payload s = refuse .badArg s := by
  unfold destinationChecked
  rw [if_neg busy]
  split
  · rename_i d names
    rw [absent d (number_of_ofNumber names)]
    rfl
  · rfl
  · rfl

/-- A diverter order that names an installed station, while the line is not IDLE, is its own rule (R78, R80). -/
theorem diverterChecked_station (busy : s.line.state ≠ .idle) (names : number1 payload 0 = stationNumber d)
    (installed : s.installed d = true) : diverterChecked own payload s = own d payload s := by
  unfold diverterChecked
  rw [if_neg busy, names, stationOf_stationNumber]
  exact if_pos installed

end

/-- The five orders refuse alike: STATE in IDLE, then BAD_ARG for a number that names no installed station. -/
theorem stationOrder_rule {k : OrderKind} (one : k ∈ ([.opnd, .clsd, .adjd, .dena, .ddis] : List OrderKind))
    (formed : k.formed payload) (up : s.supervisor.state = .up) :
    (s.line.state = .idle → k.rule payload s = refuse .state s)
      ∧ (s.line.state ≠ .idle → s.namesNone payload → k.rule payload s = refuse .badArg s) := by
  have destination (own : Station → OrderRule)
      (rule : k.rule = formChecked k (linkChecked (destinationChecked own))) :
      (s.line.state = .idle → k.rule payload s = refuse .state s)
        ∧ (s.line.state ≠ .idle → s.namesNone payload → k.rule payload s = refuse .badArg s) := by
    rw [rule, formChecked_formed formed, linkChecked_up up]
    exact ⟨destinationChecked_idle own, destinationChecked_absent own⟩
  have diverter (own : Station → OrderRule)
      (rule : k.rule = formChecked k (linkChecked (diverterChecked own))) :
      (s.line.state = .idle → k.rule payload s = refuse .state s)
        ∧ (s.line.state ≠ .idle → s.namesNone payload → k.rule payload s = refuse .badArg s) := by
    rw [rule, formChecked_formed formed, linkChecked_up up]
    exact ⟨diverterChecked_idle own, diverterChecked_absent own⟩
  simp only [List.mem_cons, List.not_mem_nil, or_false] at one
  rcases one with rfl | rfl | rfl | rfl | rfl
  · exact destination _ rfl
  · exact destination _ rfl
  · exact destination _ rfl
  · exact diverter _ rfl
  · exact diverter _ rfl

/-! ### The causes of a destination (R102) -/

/-- A changed causes set, with the DEST that follows a change. -/
structure Caused (d : Station) (f : Causes → Causes) (s t : State) : Prop where
  destination : t.destination d = { s.destination d with causes := f (s.destination d).causes }
  others : ∀ d', d' ≠ d → t.destination d' = s.destination d'
  notices : Submitted (if f (s.destination d).causes = (s.destination d).causes then []
    else [.dest d (f (s.destination d).causes) (s.destination d).remaining]) s t
  frame : UnchangedBut [.destinations, .queue, .transmitter] s t

theorem caused_changeCauses (d : Station) (f : Causes → Causes) (s : State) : Caused d f s (changeCauses d f s) := by
  unfold changeCauses
  split
  · rename_i same
    refine ⟨?_, fun _ _ => rfl, ?_, unchanged_refl _ s⟩
    · rw [same]
    · rw [if_pos same]
      exact submitted_nil rfl fun _ => rfl
  · rename_i changes
    obtain ⟨v, hv⟩ : ∃ v, v = setDestination d (fun r => { r with causes := f r.causes }) s := ⟨_, rfl⟩
    have own : v.destination d = { s.destination d with causes := f (s.destination d).causes } := by
      rw [hv, destination_setDestination]
    have kept (x : Station) : (submitDest d v).destination x = v.destination x := by
      simp [submitDest, State.destination]
    rw [← hv]
    refine ⟨(kept d).trans own, fun x other => (kept x).trans ?_, ?_, ?_⟩
    · rw [hv, destination_setDestination_ne s other]
    · rw [if_neg changes]
      have told := submitted_submit v (.dest d (v.destination d).causes (v.destination d).remaining)
      rw [own] at told
      refine Submitted.of_queue (s := v) ?_ (by rw [hv]; rfl) (by rw [hv]; rfl)
      unfold submitDest
      rw [own]
      exact told
    · rw [hv]
      exact ((unchanged_setDestination d _ s).trans (frame_submit _ _)).mono (by decide)

/-! ### DENA (R80) -/

/-- The diverter that DENA enables, before the causes of its destination change. -/
def State.enabled (s : State) (d : Station) : State :=
  setDiverter d (fun v => { v with disabled := false, state := .idle }) s

/-- DENA at an installed station. -/
theorem dena_rule (grants : s.grantsStation .dena payload d) : OrderKind.dena.rule payload s =
    if (s.diverter d).disabled then done (changeCauses d (fun c => { c with disabled := false }) (s.enabled d))
    else done s := by
  obtain ⟨up, busy, formed, names, installed⟩ := grants
  show dena payload s = _
  unfold dena
  rw [formChecked_formed formed, linkChecked_up up, diverterChecked_station _ busy names installed]
  rfl

/-! ### TFIR (R82) -/

/-- The state of a test pulse of `n` milliseconds (R82). -/
def State.pulsing (s : State) (d : Station) (n : Nat) : State :=
  takeSlot (setDiverter d (fun v => { v with
    state := .energised, testPulse := true, push := [], output := true, pulseTimer := timerFor n s }) s)

theorem unchanged_pulsing (s : State) (d : Station) (n : Nat) :
    UnchangedBut [.diverters, .arbiter] s (s.pulsing d n) := by
  intro p hp
  cases p <;> simp_all [Part.same, State.pulsing, takeSlot]

section

variable (up : s.supervisor.state = .up) (formed : OrderKind.tfir.formed payload)

include up formed

theorem tfir_rule_line (line : s.line.state ≠ .ready) : OrderKind.tfir.rule payload s = refuse .state s := by
  show tfir payload s = _
  unfold tfir
  rw [formChecked_formed formed, linkChecked_up up]
  exact if_pos line

/-- TFIR that names no station it may pulse that long. -/
theorem tfir_rule_absent (ready : s.line.state = .ready) (absent : ∀ d, number1 payload 0 = stationNumber d →
    s.installed d = false ∨ number2 payload 2 = 0 ∨ (s.record d).maxOn < number2 payload 2) :
    OrderKind.tfir.rule payload s = refuse .badArg s := by
  show tfir payload s = _
  unfold tfir
  rw [formChecked_formed formed, linkChecked_up up, if_neg (not_not.mpr ready)]
  split
  · rfl
  · rename_i d names
    refine if_pos ?_
    simp only [Bool.or_eq_true, Bool.not_eq_true', inRange, Bool.and_eq_false_iff, decide_eq_false_iff_not]
    exact (absent d (eq_stationNumber names)).imp_right fun range => by omega

/-- TFIR at an installed station with a duration in range. -/
theorem tfir_rule_station (ready : s.line.state = .ready) (names : number1 payload 0 = stationNumber d)
    (installed : s.installed d = true) (positive : 1 ≤ number2 payload 2)
    (most : number2 payload 2 ≤ (s.record d).maxOn) :
    OrderKind.tfir.rule payload s =
      if (s.diverter d).state ≠ .idle ∨ s.arbiter.budget ≤ s.arbiter.slotsInUse then refuse .busy s
      else done (s.pulsing d (number2 payload 2)) := by
  show tfir payload s = _
  unfold tfir
  rw [formChecked_formed formed, linkChecked_up up, if_neg (not_not.mpr ready), names, stationOf_stationNumber]
  dsimp only
  rw [if_neg (by simp [installed, inRange, positive, most])]
  by_cases idle : (s.diverter d).state = .idle
  · rw [if_neg (not_not.mpr idle)]
    by_cases free : s.arbiter.slotsInUse < s.arbiter.budget
    · rw [if_neg (by simp [State.slotFree, free]), if_neg (by simp [idle, free])]
      rfl
    · rw [if_pos (by simp [State.slotFree, free]), if_pos (.inr (not_lt.mp free))]
  · rw [if_pos idle, if_pos (.inl idle)]

end

end Sys2Proof.Machine

open Sys2Proof Sys2Proof.Machine

/-- Settles O26: the shared checks of the five orders (`stationOrder_rule`). -/
theorem stationOrdersRefused : Obligations.StationOrdersRefused := by
  unfold Obligations.StationOrdersRefused
  intro k one number p s takes formed up
  obtain ⟨idle, absent⟩ := stationOrder_rule one formed up
  exact ⟨fun line => exec_refused takes (idle line), fun line none => exec_refused takes (absent line none)⟩

/-- Settles O31: `dena_rule`, and what a changed causes set leaves (`caused_changeCauses`). -/
theorem denaEnables : Obligations.DenaEnables := by
  unfold Obligations.DenaEnables
  intro number p d s takes grants
  have rule := dena_rule grants
  refine ⟨fun enabled => ?_, fun off => ?_⟩
  · rw [enabled] at rule
    exact exec_order takes rule
  · rw [if_pos off] at rule
    obtain ⟨u, hu⟩ : ∃ u, u = changeCauses d (fun c => { c with disabled := false }) (s.enabled d) := ⟨_, rfl⟩
    have caused := caused_changeCauses d (fun c => { c with disabled := false }) (s.enabled d)
    have drives := same_changeCauses (s.enabled d) d fun c => { c with disabled := false }
    rw [← hu] at rule caused drives
    obtain ⟨destination, others, notices, frame⟩ := caused
    obtain ⟨t, run, answered, left, told⟩ := exec_order_notices takes rule (notices.of_queue rfl rfl)
    have diverter (x : Station) : t.diverter x = (s.enabled d).diverter x :=
      (congrArg (fun v : Vector Diverter 16 => v[x]) (left .diverters (by decide))).trans (drives.diverter x)
    have record (x : Station) : t.destination x = u.destination x :=
      congrArg (fun v : Vector DestRecord 16 => v[x]) (left .destinations (by decide))
    refine ⟨t, run, answered, ?_, (record d).trans destination, fun x other => ⟨?_, (record x).trans (others x other)⟩,
      fun closed => ?_, ?_⟩
    · rw [diverter, State.enabled, diverter_setDiverter]
    · rw [diverter, State.enabled, diverter_setDiverter_ne s other]
    · have changes : ({ (s.destination d).causes with disabled := false } : Causes) ≠ (s.destination d).causes := by
        intro c
        have := congrArg Causes.disabled c
        simp [closed] at this
      have one : (if ({ (s.destination d).causes with disabled := false } : Causes) = (s.destination d).causes then []
          else [NoticeBody.dest d { (s.destination d).causes with disabled := false } (s.destination d).remaining]) = _ :=
        if_neg changes
      exact one ▸ told
    · exact (((unchanged_setDiverter d _ s).trans frame).trans left).mono (by decide)

/-- Settles O33: the rule of TFIR, branch by branch. -/
theorem tfirPulses : Obligations.TfirPulses := by
  unfold Obligations.TfirPulses
  intro number p s takes up formed
  refine ⟨fun line => exec_refused takes (tfir_rule_line up formed line),
    fun ready absent => exec_refused takes (tfir_rule_absent up formed ready absent),
    fun d ready names installed positive most => ⟨fun busy => ?_, fun idle free => ?_⟩⟩
  · have rule := tfir_rule_station up formed ready names installed positive most
    rw [if_pos busy] at rule
    exact exec_refused takes rule
  · have rule := tfir_rule_station up formed ready names installed positive most
    rw [if_neg (by simp [idle, free])] at rule
    obtain ⟨t, run, answered, left⟩ := exec_order takes rule
    have diverter (x : Station) : t.diverter x = (s.pulsing d (number2 p 2)).diverter x :=
      congrArg (fun v : Vector Diverter 16 => v[x]) (left .diverters (by decide))
    refine ⟨t, run, answered, ?_, fun x other => ?_, left .arbiter (by decide), (unchanged_pulsing s d _).trans left⟩
    · rw [diverter, State.pulsing, diverter_takeSlot, diverter_setDiverter]
      rfl
    · rw [diverter, State.pulsing, diverter_takeSlot, diverter_setDiverter_ne s other]
end

