-- ==== Sys2Proof/Proofs/LateWatches.lean ====
section
/-! PROOF. The LATE watch: its item is given back to the belt: O43. -/

namespace Sys2Proof.Machine

variable {s : State} {d : Station} {tag : Tag} {e : Entry}

/-- An item that holds a unit of station `d` leaves the pending list there, and goes back to the belt ahead of its
run-off point (R37, R70, R105). -/
structure LeavesPending (d : Station) (tag : Tag) (e : Entry) (r : Reason) (s t : State) : Prop where
  moved : Redirected tag { e with state := .travelling, target := .runOff, reason := r, reservedWith := none }
    (runoffPoint s.config.line e) (.runoff tag) s t
  diverter : t.diverter d = (leavePending d tag s).diverter d
  arbiter : t.arbiter = (leavePending d tag s).arbiter
  destination : t.destination d = (s.destination d).minusOne
  others : ∀ d', d' ≠ d → t.diverter d' = s.diverter d' ∧ t.waits d' = s.waits d' ∧ t.destination d' = s.destination d'
  frame : UnchangedBut [.watches, .table, .diverters, .arbiter, .destinations] s t

theorem leavesPending (found : s.entry tag = some e) (unit : e.reservedWith = some d)
    (ahead : reached s.counter.position (runoffPoint s.config.line e) = false) (r : Reason) :
    LeavesPending d tag e r s (giveBackToBelt tag r (leavePending d tag s)) := by
  have left := frame_leavePending d tag s
  have config := left .config (by decide)
  have counter := left .counter (by decide)
  have table := left .table (by decide)
  have before (x : Station) : (leavePending d tag s).destination x = s.destination x :=
    congrArg (fun v : Vector DestRecord 16 => v[x]) (left .destinations (by decide))
  obtain ⟨moved, returned, others, changed⟩ := redirected_giveBackToBelt (r := r)
    ((congrFun (entry_congr table) tag).trans found) unit (by rw [config, counter]; exact ahead)
  have drives := same_giveBackToBelt (leavePending d tag s) tag r
  rw [config] at moved
  refine ⟨moved.congr table (left .watches (by decide)) rfl rfl, drives.diverter d, drives.arbiter, ?_,
    fun x other => ⟨?_, ?_, ?_⟩, (left.trans changed).mono (by decide)⟩
  · rw [returned, before]
  · rw [drives.diverter, (leavePending_others other).1]
  · rw [drives.waits, (leavePending_others other).2]
  · rw [others x other, before]

end Sys2Proof.Machine

open Sys2Proof Sys2Proof.Machine

/-- Settles O43: the delivery gives the item back (`leavesPending`), and leaves the arbiter nothing to grant. -/
theorem lateWatchMisses : Obligations.LateWatchMisses := by
  unfold Obligations.LateWatchMisses
  intro d tag rest e s delivers wasted held found unit ahead
  obtain ⟨v, hv⟩ : ∃ v, v = { s with watches := rest } := ⟨_, rfl⟩
  obtain ⟨r, hr⟩ : ∃ r : Reason, r = if (s.diverter d).state = .waiting then .noSlot else .recovery := ⟨_, rfl⟩
  obtain ⟨u, hu⟩ : ∃ u, u = giveBackToBelt tag r (leavePending d tag v) := ⟨_, rfl⟩
  obtain ⟨moved, diverter, arbiter, destination, others, frame⟩ : LeavesPending d tag e r v u :=
    hu ▸ leavesPending (by rw [hv]; exact found) unit (by rw [hv]; exact ahead) r
  have late : deliverLate d tag v = u := by
    subst hv hr hu
    exact if_pos held
  have unwasted : NoSlotWasted u := noSlotWasted_arbiter
    (noSlotWasted_leavePending (s := v) (noSlotWasted_arbiter wasted (by rw [hv])) d tag) arbiter
  have run : exec (.lateWatch (stationNumber d) tag) s = .next u := by
    have run := exec_delivers delivers
    rw [← hv, show handle (.late d tag) v = u from late, settle_quiet unwasted moved.entry] at run
    exact run
  have same : v.diverter d = s.diverter d := by rw [hv]; rfl
  refine ⟨u, run, by rw [moved.entry, hr], ?_, fun waiting last => ?_, fun more => ?_, ?_, fun x other => ?_,
    fun x other => ?_, ?_⟩
  · rw [moved.watches, hv]
  · rw [diverter, arbiter, leavePending_last (by rw [same]; exact waiting) (by rw [same]; exact last)]
    exact ⟨by simp [same, last], by simp [setWaiting, hv]⟩
  · rw [diverter, arbiter, leavePending_more (by rw [same]; exact more)]
    exact ⟨by simp [same], by simp [hv]⟩
  · rw [destination, hv]
    rfl
  · have kept := others x other
    rw [hv] at kept
    exact kept
  · have kept := moved.others x other
    rw [hv] at kept
    exact kept
  · refine ((UnchangedBut.trans (a := [.watches]) ?_ frame).mono (by decide))
    intro p hp
    cases p <;> simp_all [Part.same]
end

