-- ==== Sys2Proof/Proofs/Commits.lean ====
section
/-! PROOF. CMIT: the commit values of every block, and the notices that follow them: O14. -/

namespace Sys2Proof.Machine

variable {s t : State} {payload : List Byte}

/-! ### The notices of a commit (R116, R120) -/

/-- The DEST notices of some stations with their records at the reset values, in the order of the stations (R116). -/
def resetNotices (p : Station → Bool) (l : List Station) : List NoticeBody :=
  (l.filter p).map fun d => .dest d { host := true } 0

theorem submitted_resetNotices (p : Station → Bool) (l : List Station)
    (reset : ∀ d, s.destination d = DestRecord.atReset) :
    Submitted (resetNotices p l) s (l.foldl (fun t d => if p d then submitDest d t else t) s)
      ∧ UnchangedBut noticeParts s (l.foldl (fun t d => if p d then submitDest d t else t) s) := by
  induction l generalizing s with
  | nil => exact ⟨submitted_nil rfl fun _ => rfl, unchanged_refl _ s⟩
  | cons d rest ih =>
    rw [List.foldl_cons]
    cases sends : p d with
    | false =>
      have skipped : resetNotices p (d :: rest) = resetNotices p rest := by simp [resetNotices, sends]
      rw [skipped]
      exact ih reset
    | true =>
      have told : Submitted [.dest d { host := true } 0] s (submitDest d s) := by
        have told := submitted_submit s (.dest d (s.destination d).causes (s.destination d).remaining)
        rw [reset d] at told
        unfold submitDest
        rw [reset d]
        exact told
      have frame : UnchangedBut noticeParts s (submitDest d s) := frame_submit _ s
      have kept (x : Station) : (submitDest d s).destination x = DestRecord.atReset :=
        (congrArg (fun v : Vector DestRecord 16 => v[x]) (frame .destinations (by decide))).trans (reset x)
      obtain ⟨others, after⟩ := ih kept
      have split : resetNotices p (d :: rest) = .dest d { host := true } 0 :: resetNotices p rest := by
        simp [resetNotices, sends]
      rw [split]
      exact ⟨told.trans others (after .timeStamp (by decide)) (congrArg _ (after .counter (by decide))),
        (frame.trans after).mono (by decide)⟩

/-- IDLE becomes READY with its notice (R120). -/
theorem submitted_commitLine (s : State) :
    Submitted (if s.line.state = .idle then [.lineState .idle .ready .commit] else []) s (commitLine s)
      ∧ (s.line.state = .idle ∨ s.line.state = .ready → (commitLine s).line = { s.line with state := .ready })
      ∧ UnchangedBut [.line, .queue, .transmitter] s (commitLine s) := by
  unfold commitLine
  split
  · obtain ⟨v, hv⟩ : ∃ v, v = setLine .ready s.line.haltCause s.line.runPermit s := ⟨_, rfl⟩
    have line : UnchangedBut [.line] s v := by
      intro p hp
      cases p <;> simp_all [Part.same, setLine]
    rw [← hv]
    refine ⟨.of_queue (submitted_submit v _) (by rw [hv]; rfl) (by rw [hv]; rfl), fun _ => ?_,
      (line.trans (frame_submit _ v)).mono (by decide)⟩
    exact (submit_line _ v).trans (by rw [hv]; rfl)
  · rename_i other
    refine ⟨submitted_nil rfl fun _ => rfl, fun line => ?_, unchanged_refl _ s⟩
    have ready := line.resolve_left other
    rw [← ready]

/-! ### The commit (R139) -/

theorem unchanged_committed (s : State) :
    UnchangedBut [.config, .diverters, .arbiter, .monitors, .destinations, .runOff] s (committed s) := by
  intro p hp
  cases p <;> simp_all [Part.same, committed, commitChutes, commitDiverters]

/-- What the notices and the line state of a commit leave of its values. -/
theorem commit_spec (s : State) :
    Submitted (resetNotices (fun d => s.pendingConfig.diverters[d].installed
          && (s.destination d).causes != { host := true }) (List.finRange 16)
        ++ (if s.line.state = .idle then [.lineState .idle .ready .commit] else [])) s (commit s)
      ∧ (s.line.state = .idle ∨ s.line.state = .ready → (commit s).line = { s.line with state := .ready })
      ∧ UnchangedBut [.line, .queue, .transmitter] (committed s) (commit s) := by
  obtain ⟨sends, hs⟩ : ∃ sends : Station → Bool, sends = fun d => s.pendingConfig.diverters[d].installed
    && (s.destination d).causes != { host := true } := ⟨_, rfl⟩
  obtain ⟨told, frame⟩ := submitted_resetNotices sends (List.finRange 16) (destination_committed s)
  obtain ⟨w, hw⟩ : ∃ w, w = (List.finRange 16).foldl (fun t d => if sends d then submitDest d t else t)
    (committed s) := ⟨_, rfl⟩
  have run : commit s = commitLine w := by
    rw [hw, hs]
    rfl
  rw [← hw] at told frame
  obtain ⟨last, line, changed⟩ := submitted_commitLine w
  have same : w.line = s.line := frame .line (by decide)
  rw [← hs, run]
  rw [same] at last line
  have notices := told.trans last (changed .timeStamp (by decide)) (congrArg _ (changed .counter (by decide)))
  exact ⟨notices.of_queue rfl rfl, line, (frame.trans changed).mono (by decide)⟩

/-- CMIT with a valid written copy, in IDLE or READY (R136, R137). -/
theorem cmit_rule (up : s.supervisor.state = .up) (line : s.line.state = .idle ∨ s.line.state = .ready)
    (valid : s.pendingConfig.failure = none) : OrderKind.cmit.rule [] s = done (commit s) := by
  show cmit [] s = _
  unfold cmit
  rw [formChecked_formed ⟨rfl, by decide⟩, linkChecked_up up, if_pos line, valid]

end Sys2Proof.Machine

open Sys2Proof Sys2Proof.Machine

/-- Settles O14: the commit values (`committed`), which the notices and the line state leave (`commit_spec`). -/
theorem cmitCommits : Obligations.CmitCommits := by
  unfold Obligations.CmitCommits
  intro number s takes up line valid
  obtain ⟨notices, ready, changed⟩ := commit_spec s
  obtain ⟨t, run, answered, left, told⟩ := exec_order_notices takes (cmit_rule up line valid) notices
  have frame := (changed.trans left).mono (b := [.line, .queue, .transmitter] ++ answerParts) (by decide)
  have arbiter : t.arbiter = (committed s).arbiter := frame .arbiter (by decide)
  have record (d : Station) : (committed s).record d = s.pendingConfig.diverters[d] := rfl
  refine ⟨t, run, answered, frame .config (by decide), (left .line (by decide)).trans (ready line), fun d => ?_,
    by rw [arbiter]; rfl, by rw [arbiter]; rfl, fun d => ?_, by rw [arbiter]; rfl, fun d => ?_, fun d => ?_,
    frame .runOff (by decide), told, ((unchanged_committed s).trans frame).mono (by decide)⟩
  · have diverter : t.diverter d = (committed s).diverter d :=
      congrArg (fun v : Vector Diverter 16 => v[d]) (frame .diverters (by decide))
    rw [diverter, diverter_committed, record]
    rfl
  · rw [State.waits, arbiter]
    exact waits_committed s d
  · have monitor : t.monitor d = (committed s).monitor d :=
      congrArg (fun v : Vector Monitor 16 => v[d]) (frame .monitors (by decide))
    rw [monitor, monitor_committed, record]
    simp only [Monitor.afterCommit, Bool.and_eq_true, beq_iff_eq]
    rfl
  · have destination : t.destination d = (committed s).destination d :=
      congrArg (fun v : Vector DestRecord 16 => v[d]) (frame .destinations (by decide))
    rw [destination, destination_committed]
    rfl
end

