-- ==== Sys2Proof/Proofs/Disables.lean ====
section
/-! PROOF. What the steps of a disable leave before the arbiter's examination, and what the examination leaves of them. -/

namespace Sys2Proof.Machine

variable {s t u left : State} {tag : Tag} {e : Entry} {c d : Station} {tags : List Tag}

/-! ### Diverters that the arbiter does not grant (R65, R69) -/

/-- The diverter of station `d` and the destinations are as they were. -/
structure Spares (d : Station) (s t : State) : Prop where
  diverter : t.diverter d = s.diverter d
  destinations : t.destinations = s.destinations

namespace Spares

theorem refl (s : State) : Spares d s s := ⟨rfl, rfl⟩

theorem setDiverter (h : Spares d s t) (other : d ≠ c) (f : Diverter → Diverter) : Spares d s (setDiverter c f t) :=
  ⟨(diverter_setDiverter_ne t other f).trans h.diverter, h.destinations⟩

theorem markPushing (h : Spares d s t) (tags : List Tag) : Spares d s (markPushing tags t) := by
  rw [markPushing_eq]
  exact ⟨h.diverter, h.destinations⟩

theorem endRecovery (h : Spares d s t) (other : d ≠ c) : Spares d s (endRecovery c t) := by
  unfold Machine.endRecovery
  split
  · exact h.setDiverter other _
  · obtain ⟨diverter, destinations⟩ := h.setDiverter (c := c) other
      fun v => { v with state := .waiting, recoveryTimer := none }
    exact ⟨diverter, destinations⟩

theorem releaseDiverter (h : Spares d s t) (other : d ≠ c) : Spares d s (releaseDiverter c t) := by
  have freed (f : Diverter → Diverter) : Spares d s (freeSlot (Machine.setDiverter c f t)) :=
    ⟨(h.setDiverter other f).diverter, (h.setDiverter other f).destinations⟩
  unfold Machine.releaseDiverter
  dsimp only
  split
  · exact (freed _).endRecovery other
  · exact (freed _).setDiverter other _

theorem deliverRelease (h : Spares d s t) (other : d ≠ c) (tag : Tag) : Spares d s (deliverRelease c tag t) := by
  have joined (f : Diverter → Diverter) : Spares d s (joinConfirmList c tag (Machine.setDiverter c f t)) :=
    ⟨(h.setDiverter other f).diverter, (h.setDiverter other f).destinations⟩
  unfold Machine.deliverRelease
  dsimp only
  split
  · split
    · exact (joined _).releaseDiverter other
    · exact joined _
  · exact h

theorem placeRelease (h : Spares d s t) (other : d ≠ c) (tag : Tag) : Spares d s (placeRelease c tag t) := by
  unfold Machine.placeRelease
  split
  · split
    · exact h.deliverRelease other tag
    · exact ⟨h.diverter, h.destinations⟩
  · exact h

theorem releases (h : Spares d s t) (other : d ≠ c) (l : List Tag) :
    Spares d s (l.foldl (fun t tag => Machine.placeRelease c tag (removeWatch tag t)) t) := by
  induction l generalizing t with
  | nil => exact h
  | cons tag l ih =>
    have removed : Spares d s (removeWatch tag t) := ⟨h.diverter, h.destinations⟩
    exact ih (removed.placeRelease other tag)

theorem energise (h : Spares d s t) (other : d ≠ c) : Spares d s (energise c t) := by
  obtain ⟨diverter, destinations⟩ := h.setDiverter (c := c) other
    fun v => { v with state := .energised, output := true, maxOnTimer := timerFor (t.record c).maxOn t }
  exact ⟨diverter, destinations⟩

theorem grant (h : Spares d s t) (other : d ≠ c) : Spares d s (grant c t) := by
  have left : Spares d s (setWaiting c false t) := ⟨h.diverter, h.destinations⟩
  exact ((((left.energise other).setDiverter other _).markPushing _).releases other _)

theorem arbitrateRounds (n : Nat) (h : Spares d s t) (out : t.waits d = false) :
    Spares d s (arbitrateRounds n t) ∧ (arbitrateRounds n t).waits d = false := by
  induction n generalizing t with
  | zero => exact ⟨h, out⟩
  | succ n ih =>
    unfold Machine.arbitrateRounds
    split
    · split
      · rename_i c chosen
        have other : d ≠ c := by
          rintro rfl
          exact absurd (waits_of_chosen chosen) (by simp [out])
        exact ih (h.grant other) (((granted_grant t c).others d other).trans out)
      · exact ⟨h, out⟩
    · exact ⟨h, out⟩

end Spares

/-- The arbiter's examination and the drain test spare a diverter that does not wait (R65, R123). -/
theorem spares_settle (out : s.waits d = false) : Spares d s (settle s) ∧ (settle s).waits d = false := by
  obtain ⟨⟨diverter, destinations⟩, after⟩ := Spares.arbitrateRounds 16 (Spares.refl (d := d) s) out
  have same := same_drainTest (arbitrate s)
  have kept := unchanged_drainTest (arbitrate s) .destinations (by decide)
  exact ⟨⟨(same.diverter d).trans diverter, kept.trans destinations⟩, (same.waits d).trans after⟩

/-- Through the grants a diverter that does not wait keeps its monitor too (R69). -/
theorem Grants.spares (h : Grants s u) (out : s.waits d = false) : u.monitor d = s.monitor d := by
  induction h with
  | stay => rfl
  | @next s t _ c _ first one _ _ ih =>
    have other : d ≠ c := by
      rintro rfl
      exact absurd first.1 (by simp [out])
    exact (ih (by rw [one.waits, out, Bool.and_false])).trans (one.others d other).2

/-! ### The causes of a destination through a disable (R102, R105) -/

theorem destinations_sendToRunoff (tag : Tag) (r : Reason) (s : State) :
    (sendToRunoff tag r s).destinations = s.destinations := by
  have removed (e : Entry) (t : State) : (runoffRemoval e t).destinations = t.destinations := by
    unfold runoffRemoval
    dsimp only
    split <;> simp
  unfold sendToRunoff placeRunoff
  split
  · split
    · unfold deliverRunoff
      split
      · rw [removed]
        rfl
      · rfl
    · rfl
  · rfl

/-- A unit given back leaves the causes of every destination (R105). -/
theorem causes_giveBackToBelt (tag : Tag) (r : Reason) (s : State) (d : Station) :
    ((giveBackToBelt tag r s).destination d).causes = (s.destination d).causes := by
  have sent : (giveBackToBelt tag r s).destination d = (returnUnit tag s).destination d :=
    congrArg (fun v : Vector DestRecord 16 => v[d]) (destinations_sendToRunoff tag r _)
  rw [sent]
  unfold returnUnit
  split
  · rename_i x _
    show ((setDestination x DestRecord.giveBack s).destination d).causes = _
    by_cases own : d = x
    · rw [own, destination_setDestination]
      rfl
    · rw [destination_setDestination_ne s own]
  · rfl

theorem causes_givenBack (r : Reason) (tags : List Tag) (s : State) (d : Station) :
    ((tags.foldl (fun t tag => giveBackToBelt tag r t) s).destination d).causes = (s.destination d).causes := by
  induction tags generalizing s with
  | nil => rfl
  | cons tag rest ih => exact (ih _).trans (causes_giveBackToBelt tag r s d)

theorem endPush_eq (d : Station) (s : State) : endPush d s =
    State.truncations (setDiverter d (fun v => { v with push := [] }) s) d (s.diverter d).push := rfl

theorem destinations_endPush (d : Station) (s : State) : (endPush d s).destinations = s.destinations := by
  rw [endPush_eq, truncations_eq]
  rfl

theorem causes_emptied (d : Station) (s : State) (x : Station) :
    ((emptyPending d (endPush d s)).destination x).causes = (s.destination x).causes := by
  refine (causes_givenBack _ _ _ x).trans ?_
  exact congrArg (fun v : Vector DestRecord 16 => v[x].causes) (destinations_endPush d s)

/-! ### The steps of a disable (R79) -/

/-- A diverter that is switched off. -/
def Diverter.isOff : Diverter := { Diverter.atReset with disabled := true }

/-- Steps 1 to 4 of a disable, with the change of the causes that follows them (R79, R102). -/
def State.switchedOff (s : State) (d : Station) : State :=
  changeCauses d (fun c => { c with disabled := true }) (switchOff d (emptyPending d (endPush d s)))

/-- The arbiter after a disable: the slot of an ENERGISED diverter is free, and the waiting set is left (R79). -/
def State.arbiterOff (s : State) (d : Station) : Arbiter := { s.arbiter with
  slotsInUse := if (s.diverter d).state = .energised then s.arbiter.slotsInUse - 1 else s.arbiter.slotsInUse
  waiting := s.arbiter.waiting.set d false }

/-- The drives after a disable, whatever the items meet (R79). -/
theorem drives_switchedOff (d : Station) (s : State) :
    (s.switchedOff d).diverters = s.diverters.set d .isOff ∧ (s.switchedOff d).arbiter = s.arbiterOff d := by
  obtain ⟨v, hv⟩ : ∃ v, v = emptyPending d (endPush d s) := ⟨_, rfl⟩
  have pushed := same_truncations d (s.diverter d).push (setDiverter d (fun v => { v with push := [] }) s)
  have emptied := same_givenBack .disabled ((endPush d s).diverter d).pending
    (setDiverter d (fun v => { v with pending := [] }) (endPush d s))
  have causes := same_changeCauses (switchOff d v) d fun c => { c with disabled := true }
  have diverters : v.diverters = s.diverters.set d { s.diverter d with push := [], pending := [] } := by
    rw [hv]
    refine emptied.diverters.trans ?_
    show (endPush d s).diverters.set d { (endPush d s).diverter d with pending := [] } = _
    have first : (endPush d s).diverters = s.diverters.set d { s.diverter d with push := [] } := pushed.diverters
    have own : (endPush d s).diverter d = { s.diverter d with push := [] } :=
      (pushed.diverter d).trans (diverter_setDiverter s d _)
    rw [own, first, Vector.set_set]
  have arbiter : v.arbiter = s.arbiter := by
    rw [hv]
    exact emptied.arbiter.trans pushed.arbiter
  have own : v.diverter d = { s.diverter d with push := [], pending := [] } := by
    unfold State.diverter at diverters ⊢
    rw [diverters]
    exact Vector.getElem_set_self _
  unfold State.switchedOff
  rw [← hv, causes.diverters, causes.arbiter]
  unfold switchOff
  refine ⟨?_, ?_⟩
  · have off : Diverter.disable (v.diverter d) = .isOff := by rw [own]; rfl
    have kept : (setWaiting d false (if (v.diverter d).state = .energised then freeSlot v else v)).diverters
        = v.diverters := by split <;> rfl
    rw [setDiverter_diverters, kept]
    show v.diverters.set d (Diverter.disable (v.diverter d)) = _
    rw [off, diverters, Vector.set_set]
  · unfold State.arbiterOff
    rw [own]
    dsimp only
    split <;> simp [setWaiting, freeSlot, arbiter]

/-! ### The items given back (R37, R79, R105) -/

/-- An entry that a disable gives back to the belt (R37, R79). -/
def Entry.givenBack (e : Entry) : Entry :=
  { e with state := .travelling, target := .runOff, reason := .disabled, reservedWith := none }

/-- An entry after the items of some tags have been given back. -/
def Entry.givenBackIn (tags : List Tag) (e : Entry) : Entry := if e.tag ∈ tags then e.givenBack else e

theorem givenBackIn_tag (tags : List Tag) (e : Entry) : (e.givenBackIn tags).tag = e.tag := by
  unfold Entry.givenBackIn
  split <;> rfl

theorem givenBackIn_deadline (tags : List Tag) (e : Entry) :
    (e.givenBackIn tags).confirmDeadline = e.confirmDeadline := by
  unfold Entry.givenBackIn
  split <;> rfl

theorem releasePoint_givenBackIn (tags : List Tag) (r : DiverterRecord) (e : Entry) :
    releasePoint r (e.givenBackIn tags) = releasePoint r e := by
  unfold Entry.givenBackIn
  split <;> rfl

theorem givenBackIn_nil (table : List Entry) : table.map (Entry.givenBackIn []) = table :=
  (List.map_congr_left fun _ _ => if_neg List.not_mem_nil).trans (List.map_id' _)

theorem entry_of_givenBackIn (table : t.table = s.table.map (Entry.givenBackIn tags)) (tag : Tag) :
    t.entry tag = (s.entry tag).map (Entry.givenBackIn tags) := by
  have keeps : ((fun x : Entry => x.tag == tag) ∘ Entry.givenBackIn tags) = fun x => x.tag == tag := by
    funext x
    simp [givenBackIn_tag]
  unfold State.entry
  rw [table, List.find?_map, keeps]

/-- The entry of a tag holds a unit of station `d`, with its run-off point ahead of the line. -/
abbrev State.returnable (s : State) (d : Station) (tag : Tag) : Prop :=
  ∃ e, s.entry tag = some e ∧ e.reservedWith = some d ∧ reached s.counter.position (runoffPoint s.config.line e) = false

/-- The items of some tags went back to the belt one after another, each with its unit returned (R37, R79, R105). -/
structure GivesBack (d : Station) (tags : List Tag) (s t : State) : Prop where
  table : t.table = s.table.map (Entry.givenBackIn tags)
  watches : t.watches = runoffWatches s.config.line (tags.filterMap s.entry) s.watches
  destination : t.destination d = DestRecord.minusOne^[tags.length] (s.destination d)
  others : ∀ x, x ≠ d → t.destination x = s.destination x
  frame : UnchangedBut [.table, .watches, .destinations] s t

theorem table_giveBackToBelt (found : s.entry tag = some e) (unit : e.reservedWith = some d)
    (ahead : reached s.counter.position (runoffPoint s.config.line e) = false) :
    (giveBackToBelt tag .disabled s).table = s.table.map (Entry.givenBackIn [tag]) := by
  rw [giveBackToBelt_ahead found unit ahead]
  show List.map _ (List.map _ s.table) = _
  rw [List.map_map]
  refine List.map_congr_left fun x _ => ?_
  by_cases own : x.tag = tag <;> simp [Entry.givenBackIn, Entry.givenBack, own]

theorem givesBack (tags : List Tag) (s : State) (distinct : tags.Nodup) (all : ∀ tag ∈ tags, s.returnable d tag) :
    GivesBack d tags s (tags.foldl (fun t tag => giveBackToBelt tag .disabled t) s) := by
  induction tags generalizing s with
  | nil => exact ⟨(givenBackIn_nil _).symm, rfl, rfl, fun _ _ => rfl, unchanged_refl _ s⟩
  | cons tag rest ih =>
    obtain ⟨fresh, distinct⟩ := List.nodup_cons.mp distinct
    obtain ⟨e, found, unit, ahead⟩ := all tag List.mem_cons_self
    obtain ⟨moved, returned, kept, changed⟩ := redirected_giveBackToBelt found unit ahead .disabled
    have table := table_giveBackToBelt found unit ahead
    obtain ⟨v, hv⟩ : ∃ v, v = giveBackToBelt tag .disabled s := ⟨_, rfl⟩
    rw [← hv] at moved returned kept changed table
    have config : v.config = s.config := changed .config (by decide)
    have counter : v.counter = s.counter := changed .counter (by decide)
    have entry (x : Tag) (m : x ∈ rest) : v.entry x = s.entry x := moved.others x fun c => fresh (c ▸ m)
    have left := ih v distinct fun x m => by
      rw [State.returnable, entry x m, config, counter]
      exact all x (List.mem_cons_of_mem _ m)
    rw [List.foldl_cons, ← hv]
    refine ⟨left.table.trans ?_, left.watches.trans ?_, left.destination.trans ?_,
      fun x other => (left.others x other).trans (kept x other), (changed.trans left.frame).mono (by decide)⟩
    · rw [table, List.map_map]
      refine List.map_congr_left fun x _ => ?_
      by_cases own : x.tag = tag <;> by_cases later : x.tag ∈ rest <;>
        simp_all [Entry.givenBackIn, Entry.givenBack]
    · rw [config, moved.watches, List.filterMap_cons_some found, runoffWatches_cons, tag_of_entry found,
        List.filterMap_congr entry]
    · rw [returned, ← Function.iterate_succ_apply, List.length_cons]

/-! ### What a disable leaves of items ahead of their run-off points (R79, R88) -/

/-- Every item that diverter `d` holds back may be given back: it stands in the pending list once, and not in the push
list. -/
structure HeldAhead (s : State) (d : Station) : Prop where
  distinct : (s.diverter d).pending.Nodup
  apart : ∀ tag ∈ (s.diverter d).pending, tag ∉ (s.diverter d).push
  all : ∀ tag ∈ (s.diverter d).pending, s.returnable d tag

/-- The table after a disable of diverter `d` (R79, R88). -/
def State.tableOff (s : State) (d : Station) : List Entry :=
  (s.confirmingTable d (s.diverter d).push true).map (Entry.givenBackIn (s.diverter d).pending)

/-- The watch list after a disable of diverter `d` (R14, R79). -/
def State.watchesOff (s : State) (d : Station) : List Watch :=
  runoffWatches s.config.line ((s.diverter d).pending.filterMap s.entry)
    (watchesWithout (s.diverter d).push s.watches)

/-- What a disable of diverter `d` leaves before the arbiter's examination (R79, R88, R102, R105). -/
structure Disabled (d : Station) (s u : State) : Prop where
  diverters : u.diverters = s.diverters.set d .isOff
  arbiter : u.arbiter = s.arbiterOff d
  table : u.table = s.tableOff d
  watches : u.watches = s.watchesOff d
  monitor : u.monitor d =
    if (s.diverter d).push = [] then s.monitor d
    else s.monitorWith { s with table := s.tableOff d } d (s.diverter d).push
  monitors : ∀ x, x ≠ d → u.monitor x = s.monitor x
  destination : u.destination d = { s.destination d with
    outstanding := (s.destination d).outstanding - (s.diverter d).pending.length
    remaining :=
      if 0 < (s.destination d).base then (s.destination d).remaining + (s.diverter d).pending.length
      else (s.destination d).remaining
    causes := { (s.destination d).causes with disabled := true } }
  destinations : ∀ x, x ≠ d → u.destination x = s.destination x
  notices : Submitted (if (s.destination d).causes.disabled = true then []
    else [.dest d { (s.destination d).causes with disabled := true } (u.destination d).remaining]) s u
  frame : UnchangedBut [.diverters, .arbiter, .table, .watches, .monitors, .destinations, .queue, .transmitter] s u

/-- Giving items back moves no confirm deadline. -/
theorem monitorWith_givenBackIn {a b : State} (table : b.table = a.table.map (Entry.givenBackIn tags)) (l : List Tag) :
    s.monitorWith b d l = s.monitorWith a d l := by
  have deadline (tag : Tag) : (b.entry tag).bind (·.confirmDeadline) = (a.entry tag).bind (·.confirmDeadline) := by
    rw [entry_of_givenBackIn table]
    cases a.entry tag with
    | none => rfl
    | some e => exact givenBackIn_deadline tags e
  unfold State.monitorWith
  cases ((s.monitor d).confirm ++ l).head? with
  | none => rfl
  | some tag => simp only [Option.bind_some, deadline]

/-- What the end of a push leaves (R79, R88). -/
structure PushEnded (d : Station) (s v : State) : Prop where
  table : v.table = s.confirmingTable d (s.diverter d).push true
  watches : v.watches = watchesWithout (s.diverter d).push s.watches
  monitor : v.monitor d =
    if (s.diverter d).push = [] then s.monitor d else s.monitorWith v d (s.diverter d).push
  monitors : ∀ x, x ≠ d → v.monitor x = s.monitor x
  diverter : v.diverter d = { s.diverter d with push := [] }
  frame : UnchangedBut [.diverters, .table, .watches, .monitors] s v

theorem pushEnded (d : Station) (s : State) : PushEnded d s (endPush d s) := by
  obtain ⟨a, ha⟩ : ∃ a, a = setDiverter d (fun v => { v with push := [] }) s := ⟨_, rfl⟩
  have ended : endPush d s = a.truncations d (s.diverter d).push := by rw [endPush_eq, ha]
  have drives := same_truncations d (s.diverter d).push a
  have monitor (x : Station) : a.monitor x = s.monitor x := by rw [ha]; rfl
  rw [ended]
  refine ⟨?_, ?_, ?_, fun x other => (truncations_monitor_ne other _ a).trans (monitor x), ?_, ?_⟩
  · rw [truncations_table, ha]
    rfl
  · rw [truncations_eq, ha]
    rfl
  · by_cases none : (s.diverter d).push = []
    · rw [if_pos none, none]
      exact monitor d
    · rw [if_neg none, truncations_monitor none, State.monitorWith, monitor]
      rfl
  · rw [show State.diverter (a.truncations d _) d = _ from drives.diverter d, ha, diverter_setDiverter]
  · rw [truncations_eq, ha]
    intro p other
    cases p <;> simp_all [Part.same]

theorem unchanged_switchOff (d : Station) (s : State) : UnchangedBut [.diverters, .arbiter] s (switchOff d s) := by
  intro p other
  unfold switchOff
  split <;> cases p <;> simp_all [Part.same, freeSlot]

/-- Steps 1 to 4 of a disable with every held item ahead of its run-off point. -/
theorem disabled_switchedOff (held : HeldAhead s d) : Disabled d s (s.switchedOff d) := by
  obtain ⟨v, hv⟩ : ∃ v, v = endPush d s := ⟨_, rfl⟩
  obtain ⟨b, hb⟩ : ∃ b, b = setDiverter d (fun v => { v with pending := [] }) v := ⟨_, rfl⟩
  obtain ⟨w, hw⟩ : ∃ w, w = emptyPending d v := ⟨_, rfl⟩
  have ended : PushEnded d s v := hv ▸ pushEnded d s
  have pending : (v.diverter d).pending = (s.diverter d).pending := by rw [ended.diverter]
  have table : b.table = s.confirmingTable d (s.diverter d).push true := by
    rw [hb]
    exact ended.table
  have started : UnchangedBut [.diverters, .table, .watches, .monitors] s b := by
    rw [hb]
    exact (ended.frame.trans (unchanged_setDiverter d _ v)).mono (by decide)
  have config : b.config = s.config := started .config (by decide)
  have counter : b.counter = s.counter := started .counter (by decide)
  have entry (tag : Tag) (m : tag ∈ (s.diverter d).pending) : b.entry tag = s.entry tag :=
    entry_none_of_confirmingTable table (held.apart tag m)
  have back : GivesBack d (s.diverter d).pending b w := by
    have back := givesBack (d := d) (s.diverter d).pending b held.distinct fun tag m => by
      rw [State.returnable, entry tag m, config, counter]
      exact held.all tag m
    rw [hw, emptyPending, pending, ← hb]
    exact back
  have off := unchanged_switchOff d w
  obtain ⟨destination, others, notices, changed⟩ :=
    caused_changeCauses d (fun c => { c with disabled := true }) (switchOff d w)
  have run : s.switchedOff d = changeCauses d (fun c => { c with disabled := true }) (switchOff d w) := by
    rw [hw, hv]
    rfl
  rw [← run] at destination others notices changed
  have after : UnchangedBut [.diverters, .arbiter, .destinations, .queue, .transmitter] w (s.switchedOff d) :=
    (off.trans changed).mono (by decide)
  have same (x : Station) : (switchOff d w).destination x = w.destination x :=
    congrArg (fun v : Vector DestRecord 16 => v[x]) (off .destinations (by decide))
  have before (x : Station) : b.destination x = s.destination x :=
    congrArg (fun v : Vector DestRecord 16 => v[x]) (started .destinations (by decide))
  have monitorOf (x : Station) : (s.switchedOff d).monitor x = v.monitor x := by
    refine (congrArg (fun m : Vector Monitor 16 => m[x]) (after .monitors (by decide))).trans ?_
    refine (congrArg (fun m : Vector Monitor 16 => m[x]) (back.frame .monitors (by decide))).trans ?_
    rw [hb]
    rfl
  have record : (switchOff d w).destination d
      = DestRecord.minusOne^[(s.diverter d).pending.length] (s.destination d) := by
    rw [same, back.destination, before]
  rw [record, minusOne_iterate] at destination notices
  have final : (s.switchedOff d).table = s.tableOff d := by
    rw [after .table (by decide), back.table, table]
    rfl
  refine ⟨(drives_switchedOff d s).1, (drives_switchedOff d s).2, final, ?_, ?_,
    fun x other => (monitorOf x).trans (ended.monitors x other), destination,
    fun x other => ?_, ?_, ?_⟩
  · rw [after .watches (by decide), back.watches, config, List.filterMap_congr entry, hb]
    show runoffWatches _ _ v.watches = _
    rw [ended.watches]
    rfl
  · rw [monitorOf, ended.monitor]
    have kept : s.monitorWith { s with table := s.tableOff d } d (s.diverter d).push
        = s.monitorWith v d (s.diverter d).push := by
      refine monitorWith_givenBackIn (tags := (s.diverter d).pending) ?_ _
      rw [ended.table]
      rfl
    rw [kept]
  · rw [others x other, same, back.others x other, before]
  · have causes : (s.destination d).causes.disabled = true ↔
        ({ (s.destination d).causes with disabled := true } : Causes) = (s.destination d).causes := by
      cases (s.destination d).causes
      simp [eq_comm]
    have start : UnchangedBut [.diverters, .arbiter, .table, .watches, .monitors, .destinations] s (switchOff d w) :=
      ((started.trans back.frame).trans off).mono (by decide)
    rw [destination]
    simp only [causes]
    exact notices.of_queue (start .queue (by decide)) (start .transmitter (by decide))
  · exact ((started.trans back.frame).trans after).mono (by decide)

end Sys2Proof.Machine
end

