-- ==== Sys2Proof/Proofs/DisableOrders.lean ====
section
/-! PROOF. DDIS: the end of a disable under the laws, with the slot it may free and the line it may drain: O32. -/

namespace Sys2Proof.Machine

variable {s t u v left : State} {tag : Tag} {e : Entry} {c d : Station} {tags : List Tag} {payload : List Byte}

/-! ### DDIS (R78) -/

theorem same_answered (h : UnchangedBut answerParts s t) : SameDrives s t :=
  ⟨h .diverters (by decide), h .arbiter (by decide), h .config (by decide)⟩

/-- DDIS at an installed station. -/
theorem ddis_rule (grants : s.grantsStation .ddis payload d) : OrderKind.ddis.rule payload s =
    if (s.diverter d).disabled then done s else done (settle (s.switchedOff d)) := by
  obtain ⟨up, busy, formed, names, installed⟩ := grants
  show ddis payload s = _
  unfold ddis
  rw [formChecked_formed formed, linkChecked_up up, diverterChecked_station _ busy names installed]
  rfl

/-! ### What a disable keeps to under the law of the diverters alone (R62 to R65, R79) -/

theorem Work.unchanged (h : Work s t) : UnchangedBut [.watches, .induction, .table, .diverters, .arbiter, .monitors,
    .destinations, .runOff, .queue, .transmitter] s t := by
  intro p other
  cases p
  case timeStamp => exact h.timeStamp
  case counter => exact h.counter
  case line => exact h.line
  case pendingConfig => exact h.pendingConfig
  case config => exact h.config
  case reception => exact ⟨h.rate, h.receiver, h.gapTimer, h.framingErrors, h.overruns⟩
  case orders => exact h.orders
  case answer => exact h.answer
  case lastOrder => exact h.last
  case resetDue => exact h.resetDue
  case supervisor => exact h.supervisor
  case held => exact h.held
  case waitingCommands => exact h.pending
  all_goals exact absurd other (by decide)

theorem work_switchedOff (d : Station) (s : State) : Work s (s.switchedOff d) :=
  (((work_endPush s d).trans (work_emptyPending _ d)).trans (work_switchOff _ d)).trans (work_changeCauses _ d _)

theorem drive_switchedOff (law : DriveLaw s) (d : Station) : DriveLaw (s.switchedOff d) :=
  (drive_disabled law d).same (same_changeCauses _ d _)

theorem diverter_switchedOff (d : Station) (s : State) : (s.switchedOff d).diverter d = .isOff := by
  unfold State.diverter
  rw [(drives_switchedOff d s).1]
  exact Vector.getElem_set_self _

theorem waits_switchedOff (d : Station) (s : State) : (s.switchedOff d).waits d = false := by
  unfold State.waits
  rw [(drives_switchedOff d s).2]
  exact Vector.getElem_set_self _

theorem causes_switchedOff (d : Station) (s : State) :
    ((s.switchedOff d).destination d).causes = { (s.destination d).causes with disabled := true } := by
  obtain ⟨w, hw⟩ : ∃ w, w = emptyPending d (endPush d s) := ⟨_, rfl⟩
  have caused := caused_changeCauses d (fun c => { c with disabled := true }) (switchOff d w)
  have same : (switchOff d w).destination d = w.destination d :=
    congrArg (fun v : Vector DestRecord 16 => v[d]) (unchanged_switchOff d w .destinations (by decide))
  have before : (w.destination d).causes = (s.destination d).causes := hw ▸ causes_emptied d s d
  have run : s.switchedOff d = changeCauses d (fun c => { c with disabled := true }) (switchOff d w) := by
    rw [hw]
    rfl
  rw [run, caused.destination, same, before]

theorem unchanged_settle_switchedOff (d : Station) (s : State) :
    UnchangedBut [.watches, .induction, .table, .diverters, .arbiter, .monitors, .destinations, .runOff, .line, .queue,
      .transmitter] s (settle (s.switchedOff d)) :=
  (((work_switchedOff d s).trans (work_arbitrate _)).unchanged.trans (unchanged_drainTest _)).mono (by decide)

/-! ### The parts that the grants do not read (R65) -/

/-- A state with the destinations and the traffic of another. -/
def State.inside (t v : State) : State := { t with destinations := v.destinations, queue := v.queue, link := v.link }

theorem eq_inside (h : UnchangedBut [.destinations, .queue, .transmitter, .answer, .lastOrder] s t) :
    t = s.inside t := by
  show State.mk .. = State.mk ..
  rw [State.mk.injEq]
  exact ⟨h .timeStamp (by decide), h .counter (by decide), h .watches (by decide), h .induction (by decide),
    h .table (by decide), h .diverters (by decide), h .arbiter (by decide), h .monitors (by decide), rfl,
    h .runOff (by decide), h .line (by decide), h .pendingConfig (by decide), h .config (by decide), rfl, rfl,
    h .supervisor (by decide), h .held (by decide), h .waitingCommands (by decide)⟩

theorem freeSlot_inside (s v : State) :
    State.inside { s with arbiter := (freeSlot s).arbiter } v = freeSlot (s.inside v) := rfl

theorem GrantTo.inside (h : GrantTo c s t) (v w : State) : GrantTo c (s.inside v) (t.inside w) :=
  ⟨h.diverter, h.arbiter, h.table, h.watches, h.monitor, h.others⟩

theorem UnchangedBut.inside {parts : List Part} (h : UnchangedBut parts s t) (v : State) :
    UnchangedBut parts (s.inside v) (t.inside v) := by
  intro p other
  have same := h p other
  cases p
  case reception => exact ⟨rfl, rfl, rfl, rfl, rfl⟩
  case destinations | orders | answer | lastOrder | transmitter | resetDue | queue => exact rfl
  all_goals exact same

theorem Grants.inside (h : Grants s u) (v : State) : Grants (s.inside v) (u.inside v) := by
  induction h with
  | stay idle => exact .stay idle
  | next free first one frame _ ih => exact .next free first (one.inside v v) (frame.inside v) ih

/-- The slot that an event frees, whatever the destinations and the traffic around it are (R65). -/
theorem FreesSlot.inside (h : FreesSlot (left.inside v) t) (w : State) : FreesSlot left (t.inside w) := by
  refine ⟨h.none, fun c first some => (h.granted c first some).inside left w, ?_, h.budget⟩
  obtain ⟨u, grants, diverters, arbiter, table, monitors, watches⟩ := h.grants
  exact ⟨u.inside left, grants.inside left, diverters, arbiter, table, monitors, watches⟩

/-! ### The diverter switched off -/

namespace Disabled

variable (off : Disabled d s u)

include off

theorem diverter : u.diverter d = .isOff := by
  unfold State.diverter
  rw [off.diverters]
  exact Vector.getElem_set_self _

theorem diverter_ne (other : c ≠ d) : u.diverter c = s.diverter c := by
  unfold State.diverter
  rw [off.diverters]
  exact Vector.getElem_set_ne _ _ fun h => other (Fin.ext h.symm)

theorem waits : u.waits d = false := by
  unfold State.waits
  rw [off.arbiter]
  exact Vector.getElem_set_self _

theorem waits_ne (other : c ≠ d) : u.waits c = s.waits c := by
  unfold State.waits
  rw [off.arbiter]
  exact Vector.getElem_set_ne d.isLt c.isLt fun h => other (Fin.ext h.symm)

theorem pending (c : Station) : (u.diverter c).pending = if c = d then [] else (s.diverter c).pending := by
  split
  · rename_i own
    rw [own, off.diverter]
    rfl
  · rename_i other
    rw [off.diverter_ne other]

theorem waits_of (h : u.waits c = true) : c ≠ d ∧ s.waits c = true := by
  have other : c ≠ d := by
    rintro rfl
    rw [off.waits] at h
    cases h
  exact ⟨other, off.waits_ne other ▸ h⟩

/-- A diverter that held no slot leaves no slot wasted (R65). -/
theorem unwasted (wasted : NoSlotWasted s) (idle : (s.diverter d).state ≠ .energised) : NoSlotWasted u := by
  intro free c
  rw [State.slotFree, off.arbiter, State.arbiterOff, if_neg idle] at free
  by_contra waits
  obtain ⟨-, before⟩ := off.waits_of (by simpa using waits)
  rw [wasted free c] at before
  cases before

/-- The entry of an item after a disable (R79, R88). -/
theorem entry (found : s.entry tag = some e) : u.entry tag = some
    ((if tag ∈ (s.diverter d).push then e.confirmedBy (s.deadlineAt d) true else e).givenBackIn
      (s.diverter d).pending) := by
  obtain ⟨a, ha⟩ : ∃ a : State, a = { s with table := s.confirmingTable d (s.diverter d).push true } := ⟨_, rfl⟩
  have table : u.table = a.table.map (Entry.givenBackIn (s.diverter d).pending) := by
    rw [off.table, ha]
    rfl
  rw [entry_of_givenBackIn table, entry_of_confirmingTable (by rw [ha]) found]
  rfl

theorem entry_pushed (found : s.entry tag = some e) (pushed : tag ∈ (s.diverter d).push)
    (free : tag ∉ (s.diverter d).pending) : u.entry tag = some (e.confirmedBy (s.deadlineAt d) true) := by
  rw [off.entry found, if_pos pushed, Entry.givenBackIn, if_neg]
  show e.tag ∉ _
  rwa [tag_of_entry found]

theorem entry_held (found : s.entry tag = some e) (held : tag ∈ (s.diverter d).pending)
    (free : tag ∉ (s.diverter d).push) : u.entry tag = some e.givenBack := by
  rw [off.entry found, if_neg free, Entry.givenBackIn, tag_of_entry found, if_pos held]

/-- With nothing pushed the table changes by the held items alone. -/
theorem table_unpushed (none : (s.diverter d).push = []) :
    u.table = s.table.map (Entry.givenBackIn (s.diverter d).pending) := by
  have same : s.confirmingTable d [] true = s.table := by simp [State.confirmingTable]
  rw [off.table, State.tableOff, none, same]

theorem table_nil (empty : u.table = []) : s.table = [] := by
  rw [off.table, State.tableOff, List.map_eq_nil_iff, State.confirmingTable, List.map_eq_nil_iff] at empty
  exact empty

theorem monitors_unpushed (none : (s.diverter d).push = []) : u.monitors = s.monitors := by
  refine Vector.ext fun i hi => ?_
  by_cases own : ⟨i, hi⟩ = d
  · subst own
    exact off.monitor.trans (if_pos none)
  · exact off.monitors ⟨i, hi⟩ own

/-- The disable of an IDLE diverter does not drain a line. -/
theorem drained_of (idle : (s.diverter d).state = .idle) (drained : u.isDrained) : s.isDrained := by
  obtain ⟨line, empty, quiet⟩ := drained
  refine ⟨(off.frame .line (by decide)) ▸ line, off.table_nil empty, fun c => ?_⟩
  by_cases own : c = d
  · rw [own, idle]
    exact ⟨by decide, by decide⟩
  · rw [← off.diverter_ne own]
    exact quiet c

end Disabled

/-! ### A disable under the laws (R79) -/

/-- The state that a disable leaves before the grants, with the slot still counted and the destinations and the traffic
as they were. -/
def State.leftOff (s : State) (d : Station) : State :=
  setMonitor d (fun _ => s.monitorWith { s with table := s.tableOff d } d (s.diverter d).push)
    { s.withDiverter d .isOff with table := s.tableOff d, watches := s.watchesOff d }

theorem monitor_leftOff (s : State) (d : Station) : (s.leftOff d).monitor d
    = s.monitorWith { s with table := s.tableOff d } d (s.diverter d).push :=
  monitor_setMonitor { s.withDiverter d .isOff with table := s.tableOff d, watches := s.watchesOff d } d _

theorem monitor_leftOff_ne (other : c ≠ d) (s : State) : (s.leftOff d).monitor c = s.monitor c :=
  monitor_setMonitor_ne { s.withDiverter d .isOff with table := s.tableOff d, watches := s.watchesOff d } other _

/-- The premises of a disable of an enabled diverter: the laws, and run-off points ahead of the line. -/
structure MayDisable (s : State) (d : Station) : Prop where
  tags : TagLaw s
  drive : DriveLaw s
  wasted : NoSlotWasted s
  place : PlaceLaw s
  monitor : MonitorLaw s
  ahead : ∀ e ∈ (s.diverter d).pending.filterMap s.entry,
    reached s.counter.position (runoffPoint s.config.line e) = false

namespace MayDisable

variable (may : MayDisable s d)

include may

/-- The entry of an item in a pending list, and that no push list holds it (R36). -/
theorem held (m : tag ∈ (s.diverter c).pending) :
    ∃ e, s.entry tag = some e ∧ e.reservedWith = some c ∧ tag ∉ (s.diverter d).push := by
  obtain ⟨e, found, member, state, target⟩ := pending_entry may.tags may.place m
  obtain ⟨x, toward, unit, -⟩ := may.place.taken e member (.inl state)
  obtain rfl : c = x := Dest.station.inj (target.symm.trans toward)
  refine ⟨e, found, unit, fun pushed => ?_⟩
  obtain ⟨y, found', state'⟩ := push_entry may.tags may.place pushed
  rw [found] at found'
  obtain rfl := Option.some.inj found'
  rw [state] at state'
  cases state'

theorem heldAhead : HeldAhead s d where
  distinct := (holdsItems_of_laws may.tags may.place d).distinct
  apart tag m := by
    obtain ⟨-, -, -, free⟩ := may.held m
    exact free
  all tag m := by
    obtain ⟨e, found, unit, -⟩ := may.held m
    exact ⟨e, found, unit, may.ahead e (List.mem_filterMap.mpr ⟨tag, m, found⟩)⟩

/-- The state before the arbiter's examination. -/
theorem disabled : Disabled d s (s.switchedOff d) := disabled_switchedOff may.heldAhead

theorem law : DriveLaw (s.switchedOff d) := drive_switchedOff may.drive d

theorem holds (c : Station) : HoldsItems (s.switchedOff d) c := by
  have items := holdsItems_of_laws may.tags may.place c
  refine ⟨?_, fun tag m => ?_⟩
  · rw [may.disabled.pending]
    split
    · exact List.nodup_nil
    · exact items.distinct
  · rw [may.disabled.pending] at m
    split at m
    · cases m
    · obtain ⟨e, found⟩ := items.found tag m
      exact ⟨_, may.disabled.entry found⟩

/-- An item in no pending list after the disable keeps its entry through the grants. -/
theorem entry_settle (free : ∀ c, tag ∉ ((s.switchedOff d).diverter c).pending) :
    (settle (s.switchedOff d)).entry tag = (s.switchedOff d).entry tag :=
  (congrFun (entry_congr (unchanged_drainTest _ .table (by decide))) tag).trans
    ((grants_arbitrate may.law may.holds).entry free)

theorem monitor_settle : (settle (s.switchedOff d)).monitor d = (s.switchedOff d).monitor d :=
  (congrArg (fun m : Vector Monitor 16 => m[d]) (unchanged_drainTest _ .monitors (by decide))).trans
    ((grants_arbitrate may.law may.holds).spares (waits_switchedOff d s))

theorem entries_pushed (pushed : tag ∈ (s.diverter d).push) (found : s.entry tag = some e) :
    (settle (s.switchedOff d)).entry tag = some (e.confirmedBy (s.deadlineAt d) true) := by
  obtain ⟨x, found', state⟩ := push_entry may.tags may.place pushed
  have free (c : Station) : tag ∉ (s.diverter c).pending :=
    not_pending_of_entry may.tags may.place found' (by simp [state]) c
  rw [may.entry_settle fun c => ?_, may.disabled.entry_pushed found pushed (free d)]
  rw [may.disabled.pending]
  split
  · exact List.not_mem_nil
  · exact free c

theorem entries_held (held : tag ∈ (s.diverter d).pending) (found : s.entry tag = some e) :
    (settle (s.switchedOff d)).entry tag = some e.givenBack := by
  obtain ⟨x, found', member, -, target⟩ := pending_entry may.tags may.place held
  rw [may.entry_settle fun c => ?_, may.disabled.entry_held found held (may.heldAhead.apart tag held)]
  rw [may.disabled.pending]
  split
  · exact List.not_mem_nil
  · rename_i other
    intro elsewhere
    obtain ⟨y, found'', -, -, target'⟩ := pending_entry may.tags may.place elsewhere
    rw [found'] at found''
    obtain rfl := Option.some.inj found''
    exact other (Dest.station.inj (target'.symm.trans target))

/-- The monitor of the diverter, with its pushed items at the tail (R79, R88). -/
theorem monitor_off : (settle (s.switchedOff d)).monitor d = { s.monitor d with
    confirm := (s.monitor d).confirm ++ (s.diverter d).push
    deadlineTimer :=
      if (s.monitor d).confirm = [] ∧ (s.diverter d).push ≠ [] then some (s.deadlineAt d)
      else (s.monitor d).deadlineTimer } := by
  rw [may.monitor_settle, may.disabled.monitor]
  by_cases none : (s.diverter d).push = []
  · simp [none]
  · obtain ⟨a, ha⟩ : ∃ a : State, a = setMonitor d
        (fun _ => s.monitorWith { s with table := s.confirmingTable d (s.diverter d).push true } d (s.diverter d).push)
        { s with table := s.confirmingTable d (s.diverter d).push true } := ⟨_, rfl⟩
    have own : a.monitor d = s.monitorWith a d (s.diverter d).push := by
      rw [ha, monitor_setMonitor]
      rfl
    have same : s.monitorWith { s with table := s.tableOff d } d (s.diverter d).push
        = s.monitorWith a d (s.diverter d).push :=
      monitorWith_givenBackIn (tags := (s.diverter d).pending) (by rw [ha]; rfl) _
    have timer := deadlineTimer_of_monitorWith may.tags may.place may.monitor none (fun _ m => m)
      (t := a) (cut := true) (by rw [ha]; rfl) own
    rw [own] at timer
    rw [if_neg none, same]
    simp only [none, ne_eq, not_false_eq_true, and_true]
    rw [← timer]
    rfl

theorem monitors_off (ahead : ∀ c, s.waits c = true → s.releasesAhead c) {x : Station} (other : x ≠ d) :
    (settle (s.switchedOff d)).monitor x = s.monitor x := by
  have off := may.disabled
  have same := (grants_arbitrate may.law may.holds).monitors fun c waits tag m => by
    obtain ⟨ne, before⟩ := off.waits_of waits
    rw [off.pending, if_neg ne] at m
    obtain ⟨e, found, far⟩ := ahead c before tag m
    refine ⟨_, off.entry found, ?_⟩
    rw [off.frame .counter (by decide), State.record, off.frame .config (by decide), releasePoint_givenBackIn, ← far]
    split <;> rfl
  refine (congrArg (fun m : Vector Monitor 16 => m[x]) (unchanged_drainTest _ .monitors (by decide))).trans ?_
  exact (congrArg (fun m : Vector Monitor 16 => m[x]) same).trans (off.monitors x other)

/-- The notices of the disable itself, and of a line that it drains (R102, R123, R128). -/
theorem notices_settle : Submitted (if (s.switchedOff d).isDrained then [.lineState .draining .ready .drained] else [])
    (s.switchedOff d) (settle (s.switchedOff d)) := by
  by_cases drained : (s.switchedOff d).isDrained
  · rw [settle_drained may.law may.holds drained]
    exact (drainTest_spec _).1
  · have grants := (grants_arbitrate may.law may.holds).unchanged
    rw [settle_busy may.law may.holds drained, if_neg drained]
    exact submitted_nil (grants .queue (by decide)) fun _ => grants .transmitter (by decide)

/-! ### The state left before the grants -/

/-- The state left before the grants, but for the arbiter's count, is the one the disable leaves. -/
theorem unchanged_leftOff : UnchangedBut [.destinations, .queue, .transmitter, .answer, .lastOrder]
    { s.leftOff d with arbiter := s.arbiterOff d } (s.switchedOff d) := by
  have off := may.disabled
  have monitor : (s.switchedOff d).monitor d
      = s.monitorWith { s with table := s.tableOff d } d (s.diverter d).push := by
    rw [off.monitor]
    split
    · rename_i none
      have same : s.monitorWith { s with table := s.tableOff d } d [] = s.monitorWith s d [] :=
        monitorWith_givenBackIn (tags := (s.diverter d).pending)
          (off.table.symm.trans (off.table_unpushed none)) _
      rw [none, same, State.monitorWith, List.append_nil, ← may.monitor.deadline]
    · rfl
  intro p other
  have kept := off.frame p
  cases p
  case diverters => exact off.diverters
  case arbiter => exact off.arbiter
  case table => exact off.table
  case watches => exact off.watches
  case monitors =>
    refine Vector.ext fun i hi => ?_
    by_cases own : ⟨i, hi⟩ = d
    · subst own
      exact monitor.trans (monitor_leftOff s _).symm
    · exact (off.monitors ⟨i, hi⟩ own).trans (monitor_leftOff_ne own s).symm
  all_goals first | exact absurd other (by decide) | exact kept (by decide)

theorem switchedOff_energised (en : (s.diverter d).state = .energised) :
    s.switchedOff d = freeSlot ((s.leftOff d).inside (s.switchedOff d)) := by
  have arbiter : s.arbiterOff d = (freeSlot (s.leftOff d)).arbiter := by
    rw [State.arbiterOff, if_pos en]
    rfl
  exact (eq_inside may.unchanged_leftOff).trans
    ((congrArg (fun a => State.inside { s.leftOff d with arbiter := a } (s.switchedOff d)) arbiter).trans
      (freeSlot_inside _ _))

theorem switchedOff_idle (idle : (s.diverter d).state ≠ .energised) :
    s.switchedOff d = (s.leftOff d).inside (s.switchedOff d) := by
  have arbiter : s.arbiterOff d = (s.leftOff d).arbiter := by
    rw [State.arbiterOff, if_neg idle]
    rfl
  exact (eq_inside may.unchanged_leftOff).trans
    (congrArg (fun a => State.inside { s.leftOff d with arbiter := a } (s.switchedOff d)) arbiter)

theorem isDrained_leftOff : (s.switchedOff d).isDrained ↔ (s.leftOff d).isDrained :=
  isDrained_congr (may.unchanged_leftOff .line (by decide)) (may.unchanged_leftOff .table (by decide))
    (may.unchanged_leftOff .diverters (by decide))

/-- The slot of an ENERGISED diverter goes to the first that waits, or stays free (R65, R66, R79). -/
theorem freesSlot (en : (s.diverter d).state = .energised) :
    FreesSlot ((s.leftOff d).inside (s.switchedOff d)) (settle (s.switchedOff d)) := by
  obtain ⟨w, hw⟩ : ∃ w, w = (s.leftOff d).inside (s.switchedOff d) := ⟨_, rfl⟩
  have run : s.switchedOff d = freeSlot w := hw ▸ may.switchedOff_energised en
  have law := may.law
  have holds := may.holds
  have used := slotsInUse_pos may.drive en
  have within := may.drive.2.2
  have arbiter : w.arbiter = (s.withDiverter d .isOff).arbiter := by rw [hw]; rfl
  have slots : w.arbiter.slotsInUse = s.arbiter.slotsInUse := by rw [arbiter]; rfl
  have budget : w.arbiter.budget = s.arbiter.budget := by rw [arbiter]; rfl
  have waits (c : Station) : w.waits c = (s.withDiverter d .isOff).waits c := by
    unfold State.waits
    rw [arbiter]
  rw [← hw]
  rw [run] at law holds ⊢
  refine freesSlot_settle law holds ?_ (slots ▸ used) fun free c c' one _ => ?_
  · show decide (w.arbiter.slotsInUse - 1 < w.arbiter.budget) = true
    rw [slots, budget, decide_eq_true_eq]
    omega
  · have none := may.wasted (by simpa [State.slotFree, slots, budget] using free)
    rw [waits] at one
    by_cases own : c = d
    · rw [own, waits_withDiverter] at one
      cases one
    · rw [waits_withDiverter_ne s own, none] at one
      cases one

/-- A diverter that held no slot leaves the arbiter nothing to grant (R65). -/
theorem settle_idle (idle : (s.diverter d).state ≠ .energised) :
    settle (s.switchedOff d) = drainTest (s.switchedOff d) :=
  congrArg drainTest (arbitrate_idle (may.disabled.unwasted may.wasted idle))

/-- A line that a disable leaves drained had no item before it. -/
theorem lists_of_drained (drained : (s.switchedOff d).isDrained) :
    (s.diverter d).push = [] ∧ s.table = [] := by
  have empty := may.disabled.table_nil drained.2.1
  refine ⟨List.eq_nil_iff_forall_not_mem.mpr fun tag m => ?_, empty⟩
  obtain ⟨e, found, -⟩ := push_entry may.tags may.place m
  exact table_ne_nil_of_entry found empty

/-- A line drained by the disable (R123). -/
theorem drains (drained : (s.switchedOff d).isDrained) :
    DrainsTo (s.leftOff d) (settle (s.switchedOff d))
      ∧ UnchangedBut [.watches, .diverters, .arbiter, .destinations, .induction, .line, .queue, .transmitter] s
          (settle (s.switchedOff d)) := by
  obtain ⟨none, empty⟩ := may.lists_of_drained drained
  have off := may.disabled
  have table : (s.switchedOff d).table = s.table := drained.2.1.trans empty.symm
  have frame := UnchangedBut.restore (q := .monitors) (UnchangedBut.restore (q := .table)
    (l := [.monitors, .diverters, .arbiter, .watches, .destinations, .queue, .transmitter]) (off.frame.mono (by decide))
    table) (off.monitors_unpushed none)
  have left : UnchangedBut [.arbiter, .destinations, .queue, .transmitter, .answer, .lastOrder] (s.leftOff d)
      (s.switchedOff d) := by
    have counted : UnchangedBut [.arbiter] (s.leftOff d) { s.leftOff d with arbiter := s.arbiterOff d } := by
      intro p other
      cases p <;> simp_all [Part.same]
    exact (counted.trans may.unchanged_leftOff).mono (by decide)
  obtain ⟨-, drains, changed, -⟩ := drainTest_spec (s.switchedOff d)
  rw [settle_drained may.law may.holds drained]
  exact ⟨(drains drained).of_unchanged left (by decide) (by decide) (by decide) (by decide),
    (frame.trans (changed drained)).mono (by decide)⟩

/-- A line that the disable does not drain: its watches, when nothing is granted, and its frame (R79). -/
theorem busy (busy : ¬ (s.switchedOff d).isDrained) :
    ((s.diverter d).state ≠ .energised ∨ (∀ c, s.waits c = false) →
        (settle (s.switchedOff d)).watches = s.watchesOff d)
      ∧ UnchangedBut [.watches, .table, .diverters, .arbiter, .monitors, .destinations, .queue, .transmitter] s
          (settle (s.switchedOff d)) := by
  have off := may.disabled
  refine ⟨fun quiet => ?_, ?_⟩
  · have idle : NoSlotWasted (s.switchedOff d) := by
      rcases quiet with idle | none
      · exact off.unwasted may.wasted idle
      · refine noSlotWasted_of_none fun c => ?_
        by_contra waits
        obtain ⟨-, before⟩ := off.waits_of (c := c) (by simpa using waits)
        rw [none c] at before
        cases before
    rw [settle, arbitrate_idle idle, drainTest_not busy]
    exact off.watches
  · rw [settle_busy may.law may.holds busy]
    exact (off.frame.trans (grants_arbitrate may.law may.holds).unchanged).mono (by decide)

/-- Every item that the diverter holds back has its entry. -/
theorem length_items : ((s.diverter d).pending.filterMap s.entry).length = (s.diverter d).pending.length := by
  refine List.filterMap_length_eq_length.mpr fun tag m => ?_
  obtain ⟨e, found, -⟩ := may.held m
  rw [found]
  rfl

/-- The notices of a disable with its grants and its drain test (R102, R123, R128). -/
theorem notices : Submitted ((if (s.destination d).causes.disabled = true then []
      else [.dest d { (s.destination d).causes with disabled := true } ((s.switchedOff d).destination d).remaining])
    ++ (if (s.leftOff d).isDrained then [.lineState .draining .ready .drained] else []))
    s (settle (s.switchedOff d)) := by
  have last := may.notices_settle
  simp only [may.isDrained_leftOff] at last
  have kept : UnchangedBut _ (s.switchedOff d) (settle (s.switchedOff d)) :=
    (work_arbitrate _).unchanged.trans (unchanged_drainTest _)
  exact may.disabled.notices.trans last (kept .timeStamp (by decide)) (congrArg _ (kept .counter (by decide)))

end MayDisable

/-! ### A disable of a diverter that pushes or holds no item -/

theorem heldAhead_nil (none : (s.diverter d).pending = []) : HeldAhead s d := by
  constructor <;> simp [none]

theorem watchesOff_unpushed (none : (s.diverter d).push = []) :
    s.watchesOff d = runoffWatches s.config.line ((s.diverter d).pending.filterMap s.entry) s.watches := by
  simp [State.watchesOff, none, watchesWithout]

theorem watchesOff_unheld (none : (s.diverter d).pending = []) :
    s.watchesOff d = watchesWithout (s.diverter d).push s.watches := by
  rw [State.watchesOff, none]
  rfl

theorem arbiterOff_idle (idle : (s.diverter d).state ≠ .energised) (out : s.waits d = false) :
    s.arbiterOff d = s.arbiter := by
  have same : s.arbiter.waiting.set d false = s.arbiter.waiting := by
    rw [← out]
    exact Vector.set_getElem_self _
  rw [State.arbiterOff, if_neg idle, same]

/-- An IDLE diverter holds nothing, so that its disable changes nothing else (R63, R79). -/
theorem settle_idleDisable (law : DriveLaw s) (wasted : NoSlotWasted s) (idle : (s.diverter d).state = .idle)
    (busy : ¬ s.isDrained) : Disabled d s (s.switchedOff d) ∧ settle (s.switchedOff d) = s.switchedOff d
      ∧ (s.diverter d).pending = []
      ∧ UnchangedBut [.diverters, .destinations, .queue, .transmitter] s (s.switchedOff d) := by
  have unpushed : (s.diverter d).push = [] := by
    by_contra pushing
    exact absurd ((law.1 d).pushing pushing).1 (by simp [idle])
  have unheld : (s.diverter d).pending = [] := (law.1 d).idle (.inr idle)
  have out : s.waits d = false := by simpa [idle] using (law.1 d).waiting
  have off := disabled_switchedOff (heldAhead_nil unheld)
  have state : (s.diverter d).state ≠ .energised := by simp [idle]
  refine ⟨off, ?_, unheld, ?_⟩
  · rw [settle, arbitrate_idle (off.unwasted wasted state), drainTest_not (mt (off.drained_of idle) busy)]
  · have table : (s.switchedOff d).table = s.table := by rw [off.table_unpushed unpushed, unheld, givenBackIn_nil]
    have watches : (s.switchedOff d).watches = s.watches := by
      rw [off.watches, watchesOff_unpushed unpushed, unheld]
      rfl
    have arbiter : (s.switchedOff d).arbiter = s.arbiter := off.arbiter.trans (arbiterOff_idle state out)
    exact .restore (q := .table) (.restore (q := .watches) (.restore (q := .arbiter) (.restore (q := .monitors)
      (off.frame.mono (by decide)) (off.monitors_unpushed unpushed)) arbiter) watches) table

/-- The one notice of such a disable (R102). -/
theorem submitted_idleDisable (law : DriveLaw s) (wasted : NoSlotWasted s) (idle : (s.diverter d).state = .idle)
    (busy : ¬ s.isDrained) (unmarked : (s.destination d).causes.disabled = false) :
    Submitted [.dest d { (s.destination d).causes with disabled := true } (s.destination d).remaining] s
      (settle (s.switchedOff d)) := by
  obtain ⟨off, quiet, unheld, -⟩ := settle_idleDisable law wasted idle busy
  have notices := off.notices
  rw [off.destination, unheld, if_neg (by simp [unmarked])] at notices
  simp only [List.length_nil, add_zero, ite_self] at notices
  rw [quiet]
  exact notices

/-- A diverter that pushes one item, with no diverter waiting (R79, R88). -/
theorem settle_pushDisable (push : (s.diverter d).push = [tag]) (pending : (s.diverter d).pending = [])
    (alone : ∀ c, s.waits c = false) (found : s.entry tag = some e) :
    Disabled d s (s.switchedOff d) ∧ settle (s.switchedOff d) = s.switchedOff d
      ∧ (s.switchedOff d).entry tag = some (e.confirmedBy (s.deadlineAt d) true) := by
  have off := disabled_switchedOff (heldAhead_nil pending)
  have entry := off.entry_pushed found (by simp [push]) (by simp [pending])
  have none (c : Station) : (s.switchedOff d).waits c = false := by
    by_contra waits
    obtain ⟨-, before⟩ := off.waits_of (c := c) (by simpa using waits)
    rw [alone c] at before
    cases before
  exact ⟨off, settle_quiet (noSlotWasted_of_none none) entry, entry⟩

/-- A diverter that holds one item back and has no slot (R79, R105). -/
theorem settle_heldDisable (push : (s.diverter d).push = []) (pending : (s.diverter d).pending = [tag])
    (wasted : NoSlotWasted s) (found : s.entry tag = some e) (unit : e.reservedWith = some d)
    (idle : (s.diverter d).state ≠ .energised)
    (ahead : reached s.counter.position (runoffPoint s.config.line e) = false) :
    Disabled d s (s.switchedOff d) ∧ settle (s.switchedOff d) = s.switchedOff d
      ∧ (s.switchedOff d).entry tag = some e.givenBack := by
  have held : HeldAhead s d := by
    refine ⟨by simp [pending], by simp [push], fun x m => ?_⟩
    rw [pending, List.mem_singleton] at m
    exact m ▸ ⟨e, found, unit, ahead⟩
  have off := disabled_switchedOff held
  have entry := off.entry_held found (by simp [pending]) (by simp [push])
  exact ⟨off, settle_quiet (off.unwasted wasted idle) entry, entry⟩

/-! ### What the answer leaves of a disable -/

section

variable (answered : UnchangedBut answerParts (settle (s.switchedOff d)) t)

include answered

theorem destination_answered (x : Station) : t.destination x = (settle (s.switchedOff d)).destination x :=
  congrArg (fun v : Vector DestRecord 16 => v[x]) (answered .destinations (by decide))

theorem monitor_answered (x : Station) : t.monitor x = (settle (s.switchedOff d)).monitor x :=
  congrArg (fun v : Vector Monitor 16 => v[x]) (answered .monitors (by decide))

theorem entry_answered (tag : Tag) : t.entry tag = (settle (s.switchedOff d)).entry tag :=
  congrFun (entry_congr (answered .table (by decide))) tag

/-- A disable under the law of the diverters alone (R62 to R65, R79). -/
theorem lawful_disable (law : DriveLaw s) : t.diverter d = .isOff ∧ t.waits d = false
    ∧ (t.destination d).causes = { (s.destination d).causes with disabled := true } ∧ Driven t
    ∧ UnchangedBut ([.watches, .induction, .table, .diverters, .arbiter, .monitors, .destinations, .runOff, .line,
        .queue] ++ answerParts) s t := by
  obtain ⟨⟨diverter, destinations⟩, out⟩ := spares_settle (waits_switchedOff d s)
  have same := same_answered answered
  have destination : (settle (s.switchedOff d)).destination d = (s.switchedOff d).destination d :=
    congrArg (fun v : Vector DestRecord 16 => v[d]) destinations
  refine ⟨?_, (same.waits d).trans out, ?_, (driven_settle (drive_switchedOff law d)).same same,
    ((unchanged_settle_switchedOff d s).trans answered).mono (by decide)⟩
  · rw [same.diverter, diverter, diverter_switchedOff]
  · rw [destination_answered answered, destination, causes_switchedOff]

/-- The disable of an IDLE diverter (R63, R79). -/
theorem idle_disable (law : DriveLaw s) (wasted : NoSlotWasted s) (idle : (s.diverter d).state = .idle)
    (busy : ¬ s.isDrained) :
    (∀ x, x ≠ d → t.diverter x = s.diverter x ∧ t.destination x = s.destination x)
      ∧ UnchangedBut ([.diverters, .destinations, .queue] ++ answerParts) s t := by
  obtain ⟨off, quiet, -, frame⟩ := settle_idleDisable law wasted idle busy
  have same := same_answered answered
  have destination := destination_answered answered
  rw [quiet] at answered same destination
  refine ⟨fun x other => ⟨?_, ?_⟩, (frame.trans answered).mono (by decide)⟩
  · rw [same.diverter, off.diverter_ne other]
  · rw [destination, off.destinations x other]

/-- The disable of a diverter that pushes one item (R79, R88). -/
theorem push_disable (push : (s.diverter d).push = [tag]) (pending : (s.diverter d).pending = []) (law : DriveLaw s)
    (alone : ∀ c, s.waits c = false) (found : s.entry tag = some e) (confirm : (s.monitor d).confirm = []) :
    t.entry tag = some (e.confirmedBy (s.deadlineAt d) true)
      ∧ (t.monitor d).confirm = [tag] ∧ (t.monitor d).deadlineTimer = some (s.deadlineAt d)
      ∧ t.watches = s.watches.filter (fun w => w.kind.tag? != some tag)
      ∧ t.arbiter.slotsInUse = s.arbiter.slotsInUse - 1 := by
  have en := ((law.1 d).pushes (by simp [push])).1
  obtain ⟨off, quiet, entry⟩ := settle_pushDisable push pending alone found
  have entryOf := entry_answered answered tag
  have monitorOf := monitor_answered answered d
  rw [quiet] at answered entryOf monitorOf
  have monitor : t.monitor d = s.monitorWith (s.switchedOff d) d [tag] := by
    rw [monitorOf, off.monitor, push, if_neg (List.cons_ne_nil _ _)]
    unfold State.monitorWith
    rw [entry_congr (s := s.switchedOff d) (t := { s with table := s.tableOff d }) off.table.symm]
  rw [State.monitorWith, confirm, List.nil_append, List.head?_cons, Option.bind_some, entry] at monitor
  refine ⟨entryOf.trans entry, by rw [monitor], by rw [monitor]; rfl, ?_, ?_⟩
  · rw [answered .watches (by decide), off.watches, watchesOff_unheld pending, push]
    simp [watchesWithout]
  · rw [answered .arbiter (by decide), off.arbiter, State.arbiterOff, if_pos en]

/-- The disable of a diverter that holds one item back (R79, R105). -/
theorem held_disable (push : (s.diverter d).push = []) (pending : (s.diverter d).pending = [tag])
    (wasted : NoSlotWasted s) (found : s.entry tag = some e) (unit : e.reservedWith = some d)
    (idle : (s.diverter d).state ≠ .energised)
    (ahead : reached s.counter.position (runoffPoint s.config.line e) = false) :
    t.entry tag = some e.givenBack
      ∧ t.watches = insertSorted ⟨runoffPoint s.config.line e, .runoff tag⟩
          (s.watches.filter (fun w => w.kind.tag? != some tag))
      ∧ (t.destination d).outstanding = (s.destination d).outstanding - 1 := by
  obtain ⟨off, quiet, entry⟩ := settle_heldDisable push pending wasted found unit idle ahead
  have entryOf := entry_answered answered tag
  have destination := destination_answered answered d
  rw [quiet] at answered entryOf destination
  refine ⟨entryOf.trans entry, ?_, ?_⟩
  · rw [answered .watches (by decide), off.watches, watchesOff_unpushed push, pending, List.filterMap_cons_some found,
      List.filterMap_nil, runoffWatches_cons, tag_of_entry found]
    rfl
  · rw [destination, off.destination, pending]
    rfl

/-- The destinations after a disable with its grants and its drain test (R102, R105). -/
theorem Disabled.destinations_answered (off : Disabled d s (s.switchedOff d)) :
    (∀ x, t.destination x = (s.switchedOff d).destination x)
      ∧ ∀ x, x ≠ d → t.destination x = s.destination x := by
  obtain ⟨spared, -⟩ := spares_settle (waits_switchedOff d s)
  have same (x : Station) : t.destination x = (s.switchedOff d).destination x :=
    (destination_answered answered x).trans (congrArg (fun v : Vector DestRecord 16 => v[x]) spared.destinations)
  exact ⟨same, fun x other => (same x).trans (off.destinations x other)⟩

/-- The slot that a disable frees, in the state with the answer (R65, R79). -/
theorem MayDisable.freesSlot_answered (may : MayDisable s d) (en : (s.diverter d).state = .energised) :
    FreesSlot (s.leftOff d) t := by
  rw [eq_inside (answered.mono (by decide))]
  exact (may.freesSlot en).inside t

/-- A disable that frees no slot leaves the drives of the state before the grants (R65, R79). -/
theorem MayDisable.idle_answered (may : MayDisable s d) (idle : (s.diverter d).state ≠ .energised) :
    (∀ x, t.diverter x = (s.leftOff d).diverter x) ∧ t.arbiter = (s.leftOff d).arbiter ∧ t.table = s.tableOff d := by
  have same := (same_drainTest (s.switchedOff d)).trans (may.settle_idle idle ▸ same_answered answered)
  have left : SameDrives (s.leftOff d) (s.switchedOff d) := by
    rw [may.switchedOff_idle idle]
    exact ⟨rfl, rfl, rfl⟩
  have drives := left.trans same
  refine ⟨drives.diverter, drives.arbiter, ?_⟩
  rw [answered .table (by decide), may.settle_idle idle, unchanged_drainTest _ .table (by decide), may.disabled.table]

/-- A line that the disable drains, in the state with the answer (R123). -/
theorem MayDisable.drains_answered (may : MayDisable s d) (drained : (s.leftOff d).isDrained) :
    DrainsTo (s.leftOff d) t
      ∧ UnchangedBut ([.watches, .diverters, .arbiter, .destinations, .induction, .line, .queue] ++ answerParts)
          s t := by
  obtain ⟨⟨line, induction, watches⟩, frame⟩ := may.drains (may.isDrained_leftOff.mpr drained)
  exact ⟨⟨(answered .line (by decide)).trans line, (answered .induction (by decide)).trans induction,
    (answered .watches (by decide)).trans watches⟩, (frame.trans answered).mono (by decide)⟩

/-- A line that the disable does not drain, in the state with the answer (R79). -/
theorem MayDisable.busy_answered (may : MayDisable s d) (busy : ¬ (s.leftOff d).isDrained) :
    ((s.diverter d).state ≠ .energised ∨ (∀ c, s.waits c = false) → t.watches = s.watchesOff d)
      ∧ UnchangedBut ([.watches, .table, .diverters, .arbiter, .monitors, .destinations, .queue] ++ answerParts)
          s t := by
  obtain ⟨watches, frame⟩ := may.busy (mt may.isDrained_leftOff.mp busy)
  exact ⟨fun quiet => (answered .watches (by decide)).trans (watches quiet), (frame.trans answered).mono (by decide)⟩

end

end Sys2Proof.Machine

open Sys2Proof Sys2Proof.Machine

/-- Settles O32: a disabled diverter stays; what an enabled one leaves before the grants is `disabled_switchedOff`, and
what the grants and the drain test make of it `MayDisable` says; the clauses without the laws of the items need only the
arbiter to spare a diverter that does not wait (`spares_settle`). -/
theorem ddisDisables : Obligations.DdisDisables := by
  unfold Obligations.DdisDisables
  intro number p d s takes grants
  have rule := ddis_rule grants
  have ends (enabled : (s.diverter d).disabled = false) :
      OrderKind.ddis.rule p s = done (settle (s.switchedOff d)) := by
    rw [rule, enabled]
    rfl
  refine ⟨fun disabled => ?_, fun enabled law => ?_, fun idle enabled law wasted busy causes => ?_,
    fun tag e push pending law alone found confirm => ?_,
    fun tag e push pending law wasted found unit idle ahead => ?_, ?_⟩
  · rw [if_pos disabled] at rule
    exact exec_order takes rule
  · obtain ⟨t, run, answered, left⟩ := exec_order takes (ends enabled)
    obtain ⟨diverter, waits, causes, driven, frame⟩ := lawful_disable left law
    exact ⟨t, run, answered, diverter, waits, causes, driven.law, driven.unwasted, frame⟩
  · obtain ⟨t, run, -, left, told⟩ :=
      exec_order_notices takes (ends enabled) (submitted_idleDisable law wasted idle busy causes)
    exact ⟨t, run, told, idle_disable left law wasted idle busy⟩
  · have enabled := (law.energised ((law.1 d).pushes (by simp [push])).1).2.2
    obtain ⟨t, run, -, left⟩ := exec_order takes (ends enabled)
    obtain ⟨entry, rest⟩ := push_disable left push pending law alone found confirm
    exact ⟨t, run, entry.trans (by rw [confirmedBy_cut]; rfl), rest⟩
  · have enabled : (s.diverter d).disabled = false := by
      by_contra disabled
      have empty := (law.1 d).idle (.inl ((law.1 d).disabled (by simpa using disabled)))
      rw [pending] at empty
      cases empty
    obtain ⟨t, run, -, left⟩ := exec_order takes (ends enabled)
    exact ⟨t, run, held_disable left push pending wasted found unit idle ahead⟩
  · intro items table watches left drained enabled tags law wasted place monitor isItems ahead isTable isWatches isLeft
      notice
    have may : MayDisable s d := ⟨tags, law, wasted, place, monitor, isItems ▸ ahead⟩
    have isLeft : left = s.leftOff d := by subst isLeft isTable isWatches isItems; rfl
    have isTable : table = s.tableOff d := isTable
    have isWatches : watches = s.watchesOff d := by subst isWatches isItems; rfl
    obtain ⟨t, run, -, answered, told⟩ := exec_order_notices takes (ends enabled) may.notices
    obtain ⟨same, others⟩ := may.disabled.destinations_answered answered
    have length := may.length_items
    subst isLeft isTable isWatches notice
    rw [← isItems] at length
    refine ⟨t, run, fun tag m e found => ?_, ?_, fun e m => ?_, ?_, fun x other => ⟨others x other, fun far => ?_⟩, ?_,
      may.freesSlot_answered answered, may.idle_answered answered, may.drains_answered answered,
      may.busy_answered answered⟩
    · rw [entry_answered answered, may.entries_pushed m found, confirmedBy_cut]
      rfl
    · rw [monitor_answered answered, may.monitor_off]
      rfl
    · obtain ⟨tag, held, found⟩ := List.mem_filterMap.mp (isItems ▸ m)
      obtain rfl := tag_of_entry found
      exact (entry_answered answered _).trans (may.entries_held held found)
    · rw [same, may.disabled.destination, length]
    · rw [monitor_answered answered, may.monitors_off far other]
    · rw [same]
      exact told
end

