-- ==== Sys2Proof/Proofs/ChuteTiming.lean ====
section
/-! PROOF. The trailing edge of a confirm eye and the chute timer: O50. -/

namespace Sys2Proof.Machine

variable {s t : State} {d : Station} {full : Bool}

/-! ### A monitor replaced -/

theorem setMonitor_congr {f g : Monitor → Monitor} (same : f (s.monitor d) = g (s.monitor d)) :
    setMonitor d f s = setMonitor d g s :=
  congrArg (fun m => { s with monitors := s.monitors.set d m }) same

theorem setMonitor_same (d : Station) (s : State) : setMonitor d (fun m => m) s = s :=
  congrArg (fun l => { s with monitors := l }) (Vector.set_getElem_self d.isLt)

theorem setMonitor_setMonitor (d : Station) (f g : Monitor → Monitor) (s : State) :
    setMonitor d g (setMonitor d f s) = setMonitor d (fun m => g (f m)) s := by
  simp [setMonitor]

/-! ### The chute at a trailing edge (R95) -/

/-- A monitor after a trailing edge in the chute table, whose timer would run to `clear` (R95). -/
def Monitor.clearedUntil (clear : TimeStamp) (m : Monitor) : Monitor :=
  match m.chute with
  | .filling => { m with chute := .clear, chuteTimer := none }
  | .full => { m with chute := .emptying, chuteTimer := some clear }
  | .clear => m
  | .emptying => m

/-- When a full chute that is unblocked now is clear (R95). -/
def State.clearAt (s : State) (d : Station) : TimeStamp := s.timeStamp + BitVec.ofNat 32 (s.record d).chuteClearTime

theorem chuteCleared_idle (idle : s.line.state = .idle) : chuteCleared d s = s := if_pos idle

theorem chuteCleared_eq (busy : s.line.state ≠ .idle) :
    chuteCleared d s = setMonitor d (Monitor.clearedUntil (s.clearAt d)) s := by
  unfold chuteCleared
  rw [if_neg busy]
  cases chute : (s.monitor d).chute with
  | filling => exact setMonitor_congr (by simp [Monitor.clearedUntil, chute])
  | full => exact setMonitor_congr (by simp [Monitor.clearedUntil, chute, timerFor, ticks, State.clearAt])
  | clear => exact (setMonitor_same d s).symm.trans (setMonitor_congr (by simp [Monitor.clearedUntil, chute]))
  | emptying => exact (setMonitor_same d s).symm.trans (setMonitor_congr (by simp [Monitor.clearedUntil, chute]))

theorem clearedUntil_keeps {clear : TimeStamp} {m : Monitor} (rests : m.chute = .clear ∨ m.chute = .emptying) :
    m.clearedUntil clear = m := by
  unfold Monitor.clearedUntil
  obtain chute | chute := rests <;> rw [chute]

/-! ### A trailing edge (R87, R96) -/

/-- What a trailing edge makes of the monitor of station `d`: in IDLE and for a diverter not installed only the level
changes (R87, R96). -/
def State.trailed (s : State) (d : Station) (m : Monitor) : Monitor :=
  if s.installed d = true ∧ s.line.state ≠ .idle then ({ m with eye := .clear } : Monitor).clearedUntil (s.clearAt d)
  else { m with eye := .clear }

theorem confirmTrailing_again (level : (s.monitor d).eye = .clear) : confirmTrailing d s = s := if_pos level

theorem confirmTrailing_eq (level : (s.monitor d).eye = .blocked) :
    confirmTrailing d s = setMonitor d (s.trailed d) s := by
  obtain ⟨v, hv⟩ : ∃ v, v = setMonitor d (fun m => { m with eye := .clear }) s := ⟨_, rfl⟩
  have line : v.line = s.line := hv ▸ rfl
  have clearAt : v.clearAt d = s.clearAt d := hv ▸ rfl
  have run : confirmTrailing d s = if s.installed d then chuteCleared d v else v := by
    unfold confirmTrailing
    rw [if_neg (by simp [level]), hv]
    rfl
  rw [run]
  by_cases installed : s.installed d = true
  · rw [if_pos installed]
    by_cases idle : s.line.state = .idle
    · rw [chuteCleared_idle (line ▸ idle), hv]
      exact setMonitor_congr (if_neg fun c => c.2 idle).symm
    · rw [chuteCleared_eq (line ▸ idle), clearAt, hv, setMonitor_setMonitor]
      exact setMonitor_congr (if_pos ⟨installed, idle⟩).symm
  · rw [if_neg installed, hv]
    exact setMonitor_congr (if_neg fun c => installed c.1).symm

theorem trailed_level {m : Monitor} (rests : s.installed d = false ∨ s.line.state = .idle ∨ m.chute = .clear
    ∨ m.chute = .emptying) : s.trailed d m = { m with eye := .clear } := by
  unfold State.trailed
  split
  case isTrue times =>
    obtain ⟨installed, busy⟩ := times
    obtain absent | idle | rests := rests
    · exact absurd (absent.symm.trans installed) (by decide)
    · exact absurd idle busy
    · exact clearedUntil_keeps rests
  case isFalse => rfl

theorem trailed_times {m : Monitor} (installed : s.installed d = true) (busy : s.line.state ≠ .idle) :
    s.trailed d m = ({ m with eye := .clear } : Monitor).clearedUntil (s.clearAt d) := if_pos ⟨installed, busy⟩

/-! ### The chute timer (R95, R96) -/

/-- A monitor whose chute timer has run out: the chute is full, or it is clear again (R95). -/
def Monitor.ranOut (full : Bool) (m : Monitor) : Monitor :=
  { m with chute := if full = true then .full else .clear, chuteTimer := none }

theorem chuteEvent_rests (rests : s.installed d = false ∨ s.line.state = .idle
    ∨ expired (s.monitor d).chuteTimer s = false) : chuteEvent d s = s := by
  refine if_neg fun ⟨installed, busy, due⟩ => ?_
  obtain absent | idle | early := rests
  · exact absurd (absent.symm.trans installed) (by decide)
  · exact busy idle
  · exact absurd (early.symm.trans due) (by decide)

/-- The expiry as three steps: the chute state, CHUTE, and the CHUTE cause with its DEST (R95, R96). -/
theorem chuteEvent_eq (installed : s.installed d = true) (busy : s.line.state ≠ .idle)
    (due : expired (s.monitor d).chuteTimer s = true)
    (chute : (s.monitor d).chute = if full = true then .filling else .emptying) :
    chuteEvent d s = changeCauses d (fun c => { c with chute := full })
      (submit (.chute d full) (setMonitor d (Monitor.ranOut full) s)) := by
  unfold chuteEvent chuteExpiry
  rw [if_pos ⟨installed, busy, due⟩, chute]
  cases full with
  | true => rfl
  | false => rfl

theorem chuteCause_same (c : Causes) : ({ c with chute := full } : Causes) = c ↔ c.chute = full :=
  ⟨fun same => (congrArg Causes.chute same).symm, fun same => same ▸ rfl⟩

/-- CHUTE and the CHUTE cause, on a state whose monitor has moved in the chute table (R95, R96, R102). -/
theorem caused_chute (ht : t = changeCauses d (fun c => { c with chute := full }) (submit (.chute d full) s)) :
    t.destination d = { s.destination d with causes := { (s.destination d).causes with chute := full } }
      ∧ (∀ d', d' ≠ d → t.destination d' = s.destination d')
      ∧ Submitted (.chute d full ::
          if (s.destination d).causes.chute = full then []
          else [.dest d { (s.destination d).causes with chute := full } (s.destination d).remaining]) s t
      ∧ UnchangedBut [.destinations, .queue, .transmitter] s t := by
  obtain ⟨v, hv⟩ : ∃ v, v = submit (.chute d full) s := ⟨_, rfl⟩
  have told : Submitted [.chute d full] s v := hv ▸ submitted_submit s _
  have before : UnchangedBut noticeParts s v := hv ▸ frame_submit _ s
  have same := destination_congr (before .destinations (by decide))
  obtain ⟨destination, others, notices, frame⟩ := caused_changeCauses d (fun c => { c with chute := full }) v
  rw [← hv] at ht
  rw [← ht] at destination others notices frame
  rw [same] at destination notices
  rw [if_congr (chuteCause_same _) rfl rfl] at notices
  exact ⟨destination, fun d' other => (others d' other).trans (same d'),
    told.trans notices (frame .timeStamp (by decide))
      (congrArg PositionCounter.position (frame .counter (by decide))),
    (before.trans frame).mono (by decide)⟩

end Sys2Proof.Machine

open Sys2Proof Sys2Proof.Machine

/-- Settles O50: the edge is one new monitor (`confirmTrailing_eq`), and the expiry moves the monitor (`chuteEvent_eq`)
before CHUTE and the CHUTE cause of the destination (`caused_chute`). -/
theorem chuteTiming : Obligations.ChuteTiming := by
  unfold Obligations.ChuteTiming
  intro d s free
  have edge := stationEvent_free free d confirmTrailing
  have expiry := stationEvent_free free d chuteEvent
  refine ⟨fun level => ?_, fun level => ⟨setMonitor d (s.trailed d) s, ?_, fun rests => ?_,
    fun installed busy filling => ?_, fun installed busy full => ?_, fun d' other => ?_, ?_⟩,
    fun full installed busy due chute => ?_, fun rests => ?_⟩
  · exact edge.trans (congrArg _ (confirmTrailing_again level))
  · exact edge.trans (congrArg _ (confirmTrailing_eq level))
  · rw [monitor_setMonitor, trailed_level rests]
  · rw [monitor_setMonitor, trailed_times installed busy]
    simp [Monitor.clearedUntil, filling]
  · rw [monitor_setMonitor, trailed_times installed busy]
    simp [Monitor.clearedUntil, full, State.clearAt]
  · exact monitor_setMonitor_ne s other _
  · exact unchanged_setMonitor d _ s
  · obtain ⟨v, hv⟩ : ∃ v, v = setMonitor d (Monitor.ranOut full) s := ⟨_, rfl⟩
    have before : UnchangedBut [.monitors] s v := hv ▸ unchanged_setMonitor d _ s
    have record := destination_congr (before .destinations (by decide))
    obtain ⟨t, ht⟩ : ∃ t, t = changeCauses d (fun c => { c with chute := full }) (submit (.chute d full) v) := ⟨_, rfl⟩
    obtain ⟨destination, others, notices, frame⟩ := caused_chute ht
    have monitor := monitor_congr (frame .monitors (by decide))
    rw [record] at destination notices
    refine ⟨t, ?_, ?_, destination,
      notices.of_queue (before .queue (by decide)) (before .transmitter (by decide)),
      fun d' other => ⟨?_, (others d' other).trans (record d')⟩, (before.trans frame).mono (by decide)⟩
    · exact expiry.trans (congrArg _ (by rw [chuteEvent_eq installed busy due chute, ht, hv]))
    · rw [monitor, hv, monitor_setMonitor, Monitor.ranOut]
    · rw [monitor, hv, monitor_setMonitor_ne s other]
  · exact expiry.trans (congrArg _ (chuteEvent_rests rests))
end

