-- ==== Sys2Proof/Proofs/BatchOrders.lean ====
section
/-! PROOF. The orders on the destination table: OPND, CLSD, ADJD and QDST: O27 to O30. -/

namespace Sys2Proof.Machine

variable {s t u : State} {d : Station} {payload : List Byte} {r : DestRecord} {l : List NoticeBody}

/-! ### The shared checks (R109) -/

/-- A destination order that names an installed station, while the line is not IDLE, is its own rule (R109). -/
theorem destinationChecked_station (own : Station → OrderRule) (busy : s.line.state ≠ .idle)
    (names : number1 payload 0 = stationNumber d) (installed : s.installed d = true) :
    destinationChecked own payload s = own d payload s := by
  unfold destinationChecked
  rw [if_neg busy, show Dest.ofNumber (number1 payload 0) = some (.station d) from names ▸ ofNumber_number (.station d)]
  exact if_pos installed

/-- Past the common checks a destination order is its own rule for the station (R109). -/
theorem destinationOrder_rule {k : OrderKind} {own : Station → OrderRule}
    (rule : k.rule = formChecked k (linkChecked (destinationChecked own))) (grants : s.grantsStation k payload d) :
    k.rule payload s = own d payload s := by
  obtain ⟨up, busy, formed, names, installed⟩ := grants
  rw [rule, formChecked_formed formed, linkChecked_up up, destinationChecked_station own busy names installed]

/-! ### One record changed, with its notices -/

/-- Nothing but the record of one station changed, and these notices followed. -/
structure Amended (d : Station) (r : DestRecord) (l : List NoticeBody) (s t : State) : Prop where
  destination : t.destination d = r
  others : ∀ d', d' ≠ d → t.destination d' = s.destination d'
  notices : Submitted l s t
  frame : UnchangedBut [.destinations, .queue, .transmitter] s t

theorem amended_submitDest (d : Station) (f : DestRecord → DestRecord) (s : State) :
    Amended d (f (s.destination d)) [.dest d (f (s.destination d)).causes (f (s.destination d)).remaining] s
      (submitDest d (setDestination d f s)) := by
  have kept (x : Station) :
      (submitDest d (setDestination d f s)).destination x = (setDestination d f s).destination x :=
    destination_congr (submit_destinations _ _) x
  refine ⟨?_, fun x other => ?_, ?_, ?_⟩
  · rw [kept, destination_setDestination]
  · rw [kept, destination_setDestination_ne s other]
  · rw [submitDest, destination_setDestination]
    exact (submitted_submit _ _).of_queue rfl rfl
  · exact ((unchanged_setDestination d f s).trans (frame_submit _ _)).mono (by decide)

theorem amended_changeCauses {f : Causes → Causes} (changes : f (s.destination d).causes ≠ (s.destination d).causes) :
    Amended d { s.destination d with causes := f (s.destination d).causes }
      [.dest d (f (s.destination d).causes) (s.destination d).remaining] s (changeCauses d f s) := by
  obtain ⟨destination, others, notices, frame⟩ := caused_changeCauses d f s
  rw [if_neg changes] at notices
  exact ⟨destination, others, notices, frame⟩

/-- A record changed and put to the terminal count test (R107, R108). -/
theorem amended_terminalCount (d : Station) (f : DestRecord → DestRecord) (s : State) :
    Amended d (f (s.destination d)).ended ((f (s.destination d)).endNotices d) s
      (terminalCount d (setDestination d f s)) := by
  obtain ⟨destinations, notices, frame⟩ := terminalCount_spec d (setDestination d f s)
  rw [destination_setDestination] at destinations notices
  have ends : (terminalCount d (setDestination d f s)).destinations
      = (setDestination d (fun _ => (f (s.destination d)).ended) s).destinations :=
    destinations.trans (Vector.set_set _ _)
  refine ⟨?_, fun x other => ?_, notices.of_queue rfl rfl,
    ((unchanged_setDestination d f s).trans frame).mono (by decide)⟩
  · rw [destination_congr ends, destination_setDestination]
  · rw [destination_congr ends, destination_setDestination_ne s other]

/-- An order answered DONE keeps what its rule made of the record, apart from the answer's own parts (R151, R175). -/
theorem exec_amended {k : OrderKind} {number : Half} (takes : s.takes number k.code)
    (rule : k.rule payload s = done u) (amended : Amended d r l s u) :
    ∃ t, exec (k.command number payload) s = .next t ∧ Answered t number k.code [0] ∧ t.destination d = r
      ∧ (∀ d', d' ≠ d → t.destination d' = s.destination d') ∧ Submitted l s t
      ∧ UnchangedBut ([.destinations, .queue] ++ answerParts) s t := by
  obtain ⟨destination, others, notices, frame⟩ := amended
  obtain ⟨t, run, answered, left, told⟩ := exec_order_notices takes rule notices
  have record := destination_congr (left .destinations (by decide))
  exact ⟨t, run, answered, (record d).trans destination, fun x other => (record x).trans (others x other), told,
    (frame.trans left).mono (by decide)⟩

/-- An event that submits no notice leaves the queue. -/
theorem Submitted.silent (h : Submitted [] s t) : t.queue = s.queue := by
  obtain ⟨pointer, highest, timer⟩ | ⟨some, _⟩ := h.sent
  · rw [h.queue, pointer, highest, timer]
    rfl
  · exact absurd rfl some

/-! ### OPND (R110) -/

theorem boolOfCode_none {b : Byte} (no : b ≠ 0) (yes : b ≠ 1) : boolOfCode b = none := by
  rw [boolOfCode, if_neg no, if_neg yes]

theorem boolOfCode_some {b : Byte} (code : b = 0 ∨ b = 1) : boolOfCode b = some (decide (b = 1)) := by
  obtain rfl | rfl := code
  · rfl
  · rfl

section

variable (grants : s.grantsStation .opnd payload d)
include grants

/-- OPND with an auto_reload value that names nothing. -/
theorem opnd_rule_code (code : boolOfCode (byteAt payload 1) = none) :
    OrderKind.opnd.rule payload s = refuse .badArg s := by
  rw [destinationOrder_rule rfl grants, code]

theorem opnd_rule_reload {reload : Bool} (code : boolOfCode (byteAt payload 1) = some reload) :
    OrderKind.opnd.rule payload s =
      if 0 < (s.destination d).outstanding then refuse .busy s
      else done (submitDest d (setDestination d (DestRecord.openedBy (number2 payload 2) reload) s)) := by
  rw [destinationOrder_rule rfl grants, code]

end

/-! ### CLSD (R111) -/

theorem clsd_rule (grants : s.grantsStation .clsd payload d) :
    OrderKind.clsd.rule payload s = done (changeCauses d (fun c => { c with host := true }) s) :=
  destinationOrder_rule rfl grants

theorem hostCause_same (c : Causes) : ({ c with host := true } : Causes) = c ↔ c.host = true :=
  ⟨fun same => (congrArg Causes.host same).symm, fun same => same ▸ rfl⟩

/-! ### ADJD (R107, R108, R112) -/

theorem adjd_rule (grants : s.grantsStation .adjd payload d) :
    OrderKind.adjd.rule payload s =
      if (s.destination d).base = 0 then refuse .state s
      else if (s.destination d).base < (s.destination d).outstanding + number2 payload 2 then refuse .badArg s
      else done (terminalCount d (setDestination d (DestRecord.adjustedTo (number2 payload 2)) s)) := by
  rw [destinationOrder_rule rfl grants]
  exact if_congr (by simp [DestRecord.counted]) rfl rfl

/-- A batch that counts all of its units as filled (R107, R112). -/
def DestRecord.allFilled (r : DestRecord) : DestRecord := { r with remaining := 0, filled := r.base }

theorem adjustedTo_zero (empty : r.outstanding = 0) : r.adjustedTo 0 = r.allFilled := by
  simp [DestRecord.adjustedTo, DestRecord.allFilled, empty]

/-- The three counts of an adjusted batch sum to its base (R112). -/
theorem adjustedTo_sum {n : Nat} (within : r.outstanding + n ≤ r.base) :
    (r.adjustedTo n).remaining + (r.adjustedTo n).outstanding + (r.adjustedTo n).filled = r.base := by
  simp only [DestRecord.adjustedTo]
  omega

/-- The terminal count test keeps the sum of the three counts (R107, R108). -/
theorem ended_sum (sum : r.remaining + r.outstanding + r.filled = r.base) :
    r.ended.remaining + r.ended.outstanding + r.ended.filled = r.base := by
  unfold DestRecord.ended
  split
  case isTrue full =>
    obtain ⟨_, _, outstanding, _⟩ := (atTerminalCount_iff r).mp full
    split
    · simp [outstanding]
    · exact sum
  case isFalse => exact sum

/-! ### QDST (R113) -/

/-- The record of a destination, the run-off's or a station's (R100, R101). -/
def State.destRecord (s : State) : Dest → DestRecord
  | .runOff => s.runOff
  | .station d => s.destination d

section

variable (formed : OrderKind.qdst.formed payload)
include formed

theorem qdst_rule_idle (idle : s.line.state = .idle) : OrderKind.qdst.rule payload s = refuse .state s := by
  show qdst payload s = _
  unfold qdst
  rw [formChecked_formed formed, if_pos idle]

/-- QDST that names no destination, or one whose station is not installed (R109). -/
theorem qdst_rule_absent (busy : s.line.state ≠ .idle)
    (absent : ∀ x : Dest, number1 payload 0 = x.number → s.destInstalled x = false) :
    OrderKind.qdst.rule payload s = refuse .badArg s := by
  show qdst payload s = _
  unfold qdst
  rw [formChecked_formed formed, if_neg busy]
  cases names : Dest.ofNumber (number1 payload 0) with
  | none => rfl
  | some x =>
    have out := absent x (number_of_ofNumber names)
    cases x with
    | runOff => cases out
    | station d => exact if_neg (by rw [show s.installed d = false from out]; decide)

theorem qdst_rule_installed {x : Dest} (busy : s.line.state ≠ .idle) (names : number1 payload 0 = x.number)
    (installed : s.destInstalled x = true) :
    OrderKind.qdst.rule payload s = (s, ⟨.done, destData x.number (s.destRecord x)⟩) := by
  show qdst payload s = _
  unfold qdst
  rw [formChecked_formed formed, if_neg busy, names, ofNumber_number]
  cases x with
  | runOff => rfl
  | station d => exact if_pos installed

/-- QDST answers from the table in every case (R113). -/
theorem qdst_rule_reads (s : State) : ∃ reply, OrderKind.qdst.rule payload s = (s, reply) := by
  by_cases idle : s.line.state = .idle
  · exact ⟨_, qdst_rule_idle formed idle⟩
  by_cases absent : ∀ x : Dest, number1 payload 0 = x.number → s.destInstalled x = false
  · exact ⟨_, qdst_rule_absent formed idle absent⟩
  · push Not at absent
    obtain ⟨x, names, installed⟩ := absent
    exact ⟨_, qdst_rule_installed formed idle names (by simpa using installed)⟩

end

end Sys2Proof.Machine

open Sys2Proof Sys2Proof.Machine

/-- Settles O27: the rule past the common checks (`opnd_rule_code`, `opnd_rule_reload`), and the record with its DEST
(`amended_submitDest`). -/
theorem opndOpens : Obligations.OpndOpens := by
  unfold Obligations.OpndOpens
  intro number p d s takes grants
  refine ⟨fun no yes => exec_refused takes (opnd_rule_code grants (boolOfCode_none no yes)),
    fun code held => ?_, fun code free => ?_⟩
  · exact exec_refused takes ((opnd_rule_reload grants (boolOfCode_some code)).trans (if_pos held))
  · have rule := (opnd_rule_reload grants (boolOfCode_some code)).trans (if_neg (by omega))
    have opened := amended_submitDest d (DestRecord.openedBy (number2 p 2) (decide (byteAt p 1 = 1))) s
    simp only [DestRecord.openedBy, free] at opened
    exact exec_amended takes rule opened

/-- Settles O28: `clsd_rule`; the causes set changes where HOST is new to it (`hostCause_same`). -/
theorem clsdCloses : Obligations.ClsdCloses := by
  unfold Obligations.ClsdCloses
  intro number p d s takes grants
  have rule := clsd_rule grants
  refine ⟨fun closed => ?_, fun free => ?_⟩
  · rw [changeCauses, if_pos ((hostCause_same _).mpr closed)] at rule
    exact exec_order takes rule
  · have new : ({ (s.destination d).causes with host := true } : Causes) ≠ (s.destination d).causes := by
      rw [Ne, hostCause_same, free]
      decide
    exact exec_amended takes rule (amended_changeCauses (f := fun c => { c with host := true }) new)

/-- Settles O29: the bounds are `adjd_rule`'s; the adjusted record goes through the terminal count test
(`amended_terminalCount`), whose outcomes are `ended_open`, `ended_reload` and `ended_closes`. -/
theorem adjdAdjusts : Obligations.AdjdAdjusts := by
  unfold Obligations.AdjdAdjusts
  intro number p d s takes grants
  have rule := adjd_rule grants
  refine ⟨fun uncounted => ?_, fun counted above => ?_, fun counted within => ?_⟩
  · exact exec_refused takes (rule.trans (if_pos uncounted))
  · exact exec_refused takes (rule.trans ((if_neg (by omega)).trans (if_pos above)))
  · obtain ⟨t, run, answered, record, others, told, frame⟩ := exec_amended takes
      (rule.trans ((if_neg (by omega)).trans (if_neg (by omega))))
      (amended_terminalCount d (DestRecord.adjustedTo (number2 p 2)) s)
    refine ⟨t, run, answered, ?_, others, fun more => ?_, fun last empty goes reload => ?_,
      fun last empty goes once => ?_, frame⟩
    · rw [record]
      exact ended_sum (adjustedTo_sum within)
    · obtain ⟨same, silent⟩ := ended_open (d := d) (r := (s.destination d).adjustedTo (number2 p 2))
        (more.imp_right (Or.imp_right .inr))
      rw [silent] at told
      have left : UnchangedBut (.queue :: .destinations :: answerParts) s t := frame.mono (by decide)
      exact ⟨record.trans same, left.restore told.silent⟩
    · rw [last, adjustedTo_zero empty] at record told
      obtain ⟨ended, notices⟩ := ended_reload (d := d) (r := (s.destination d).allFilled) rfl empty counted goes reload
      exact ⟨record.trans ended, notices ▸ told⟩
    · rw [last, adjustedTo_zero empty] at record told
      obtain ⟨ended, notices⟩ := ended_closes (d := d) (r := (s.destination d).allFilled) rfl empty counted goes once
      exact ⟨record.trans ended, notices ▸ told⟩

/-- Settles O30: QDST leaves the state in every case (`qdst_rule_reads`), and its rule tells the answers apart. -/
theorem qdstReads : Obligations.QdstReads := by
  unfold Obligations.QdstReads
  intro number p s takes formed
  obtain ⟨reply, rule⟩ := qdst_rule_reads formed s
  obtain ⟨t, run, answered, frame⟩ := exec_order takes rule
  have answers {other : Reply} (is : OrderKind.qdst.rule p s = (s, other)) :
      Answered t number OrderKind.qdst.code other.bytes := by
    obtain rfl := (Prod.mk.inj (rule.symm.trans is)).2
    exact answered
  refine ⟨t, run, frame, fun idle => answers (qdst_rule_idle formed idle),
    fun busy absent => answers (qdst_rule_absent formed busy absent), fun x r busy names installed is => ?_⟩
  obtain rfl : r = s.destRecord x := by
    rw [is]
    cases x with
    | runOff => rfl
    | station d => rfl
  exact answers (qdst_rule_installed formed busy names installed)
end

