-- ==== Sys2Proof/Proofs/Resets.lean ====
section
/-! PROOF. The reset values, the reset commands, and the reset that RSTR asks for: O5, O6 and O21. -/

namespace Sys2Proof.Machine

variable {s t : State} {number : Half}

/-! ### Reset values, station by station (R131) -/

@[simp] theorem diverter_reset (d : Station) : State.reset.diverter d = Diverter.atReset :=
  Vector.getElem_replicate d.isLt

@[simp] theorem waits_reset (d : Station) : State.reset.waits d = false :=
  Vector.getElem_replicate d.isLt

@[simp] theorem destination_reset (d : Station) : State.reset.destination d = DestRecord.atReset :=
  Vector.getElem_replicate d.isLt

@[simp] theorem record_reset (d : Station) : State.reset.record d = DiverterRecord.default :=
  Vector.getElem_replicate d.isLt

/-- After a reset a monitor holds nothing but the level of its eye (R86). -/
@[simp] theorem monitor_resetState (cause : ResetCause) (levels : Levels) (s : State) (d : Station) :
    (resetState cause levels s).monitor d =
      { confirm := [], deadlineTimer := none, eye := levels.confirmEyes[d], chute := .clear, chuteTimer := none } :=
  Vector.getElem_map _ d.isLt

@[simp] theorem monitor_reset (d : Station) : State.reset.monitor d =
    { confirm := [], deadlineTimer := none, eye := .clear, chute := .clear, chuteTimer := none } :=
  Vector.getElem_replicate d.isLt

/-! ### The RESTART notice (R131, R152, R159) -/

/-- The notice that a reset leaves in the queue (R131, R157). -/
def restartNotice (cause : ResetCause) : Notice :=
  { number := 0, timeStamp := 0, position := 0, gap := 0, body := .restart cause }

theorem notices_atReset (cause : ResetCause) : (ReportQueue.atReset cause).notices = [restartNotice cause] := rfl

/-- The head stands at 0, so a number is its own distance (R157). -/
theorem distance_atReset (cause : ResetCause) (n : Half) : (ReportQueue.atReset cause).distance n = n.toNat := by
  simp [ReportQueue.distance, ReportQueue.atReset]

theorem eligible_atReset (cause : ResetCause) : (ReportQueue.atReset cause).eligible = true := by
  simp only [ReportQueue.eligible, distance_atReset]
  rfl

/-- RESTART recorded as sent: nothing was in flight, so the retry timer starts (R159, R162). -/
theorem recordSent_atReset (cause : ResetCause) : (ReportQueue.atReset cause).recordSent 0 =
    { ReportQueue.atReset cause with sendPointer := 1, highestSent := 0, retryTimer := some 200 } := by
  have first : (ReportQueue.atReset cause).sendPointer = (ReportQueue.atReset cause).highestSent + 1 := by
    simp [ReportQueue.atReset]
  have unsent : (ReportQueue.atReset cause).inFlight = 0 := by
    rw [ReportQueue.inFlight, ← first, distance_atReset]
    rfl
  rw [ReportQueue.recordSent, if_pos first, if_pos unsent]
  simp [ReportQueue.atReset, ticks]

/-- A whole reset: the reset values, with RESTART begun by the free transmitter (R131, R152, entry 8). -/
theorem resetPart_eq (cause : ResetCause) (levels : Levels) (s : State) : resetPart cause levels s =
    { resetState cause levels s with
      link := { (resetState cause levels s).link with transmitter := .sending false (restartNotice cause).frame.bytes }
      queue := { ReportQueue.atReset cause with sendPointer := 1, highestSent := 0, retryTimer := some 200 } } := by
  have notice : (ReportQueue.atReset cause).notices[(ReportQueue.atReset cause).distance 0]? =
      some (restartNotice cause) := by
    rw [distance_atReset, notices_atReset]
    rfl
  have started := startNext_notice (s := resetState cause levels s) (n := restartNotice cause) rfl rfl
    (eligible_atReset cause) notice
  rw [resetPart, started, ← recordSent_atReset]
  rfl

/-! ### The reset commands (R129 to R131) -/

/-- Each reset command is a whole reset with its cause; RSTR_RESET while RSTR's reset is under way. -/
theorem exec_reset {c : Instr} {cause : ResetCause} {levels : Levels}
    (h : (c = .powerOn levels ∧ cause = .power) ∨ (c = .pinReset levels ∧ cause = .pin)
      ∨ (c = .rstrReset levels ∧ cause = .order ∧ s.held = some .order)) :
    exec c s = .next (resetPart cause levels s) := by
  obtain ⟨rfl, rfl⟩ | ⟨rfl, rfl⟩ | ⟨rfl, rfl, underWay⟩ := h
  · rfl
  · rfl
  · show execRstrReset levels s = _
    rw [execRstrReset, if_pos underWay]

/-! ### RSTR (R130) -/

theorem rstr_rule (s : State) :
    OrderKind.rstr.rule [] s = done { s with link := { s.link with resetDue := true } } := by
  show rstr [] s = _
  rw [rstr, formChecked_formed ⟨rfl, by decide⟩]

/-- The end of the answer that a reset waits for begins that reset (R130). -/
theorem transmitComplete_resetDue {bytes : List Byte} (answering : s.link.transmitter = .sending true bytes)
    (due : s.link.resetDue = true) : transmitComplete s = beginOrderReset s := by
  unfold transmitComplete
  rw [answering, due]
  rfl

/-! ### A part held in reset (R129, R130, entry 9) -/

theorem event_held_stays (held : s.held.isSome = true) {f : State → State} (run : event f s = .next t) : t = s := by
  rw [event, if_pos held] at run
  exact (Host.Outcome.next.inj run).symm

theorem stationEvent_held_stays (held : s.held.isSome = true) {n : Nat} {f : Station → State → State}
    (run : stationEvent n f s = .next t) : t = s := by
  unfold stationEvent at run
  split at run
  · exact event_held_stays held run
  · cases run

theorem unknownKind_held_stays (held : s.held.isSome = true) {kind : Byte} {payload : List Byte}
    (run : execUnknownKind number kind payload s = .next t) : t = s := by
  unfold execUnknownKind at run
  split at run
  · cases run
  · exact event_held_stays held run

/-- Every command but the resets is an event, and a part held in reset acts on no event. -/
theorem exec_held_stays (held : s.held.isSome = true) {c : Instr} (power : ∀ l, c ≠ .powerOn l)
    (pin : ∀ l, c ≠ .pinReset l) (order : ∀ l, c ≠ .rstrReset l) (run : exec c s = .next t) : t = s := by
  cases c
  case powerOn levels => exact absurd rfl (power levels)
  case pinReset levels => exact absurd rfl (pin levels)
  case rstrReset levels => exact absurd rfl (order levels)
  case unknownKind => exact unknownKind_held_stays held run
  case lateWatch | releaseWatch => exact stationEvent_held_stays held run
  case maxOnExpiry | recoveryTimerExpiry | pulseTimerExpiry => exact stationEvent_held_stays held run
  case deadlineTimerExpiry | confirmEyeLeadingEdge | confirmEyeTrailingEdge | chuteTimerExpiry =>
    exact stationEvent_held_stays held run
  case slotGrant => exact event_held_stays (f := fun t => drainTest (grantOne t)) held run
  all_goals exact event_held_stays held run

/-- Time stands while a part is held in reset (entry 9). -/
theorem millisecond_held (held : s.held.isSome = true) : millisecond s = s := by
  rw [millisecond, if_pos held]

end Sys2Proof.Machine

open Sys2Proof Sys2Proof.Machine

/-- Settles O5: the registers of the stations are `diverter_reset` and its like, the others the values that
`State.reset` writes out. -/
theorem resetValues : Obligations.ResetValues := by
  unfold Obligations.ResetValues
  have monitors (d : Station) : (State.reset.monitor d).confirm = [] ∧ (State.reset.monitor d).deadlineTimer = none
      ∧ (State.reset.monitor d).chute = .clear ∧ (State.reset.monitor d).chuteTimer = none := by
    rw [monitor_reset]
    exact ⟨rfl, rfl, rfl, rfl⟩
  exact ⟨rfl, rfl, rfl, rfl, rfl, rfl, rfl, rfl, rfl, rfl, rfl, rfl, diverter_reset, rfl, rfl, waits_reset, rfl,
    monitors, destination_reset, rfl, rfl, rfl, rfl, rfl, record_reset, rfl, rfl, rfl, rfl, rfl, rfl, rfl, rfl, rfl,
    rfl, rfl, rfl, rfl, rfl⟩

/-- Settles O6: each command is a whole reset (`exec_reset`), and `resetPart_eq` gives the state it answers. -/
theorem resetCommands : Obligations.ResetCommands := by
  unfold Obligations.ResetCommands
  intro c cause levels s command
  refine ⟨resetPart cause levels s, exec_reset command, ?_⟩
  rw [resetPart_eq]
  exact ⟨rfl, rfl, rfl, rfl, rfl, rfl, rfl, monitor_resetState cause levels s, rfl, rfl, rfl, rfl, rfl, rfl, rfl, rfl,
    rfl, rfl, rfl, rfl, rfl, rfl, rfl, rfl, rfl⟩

/-- Settles O21: RSTR only makes a reset due (`rstr_rule`), the end of its answer begins that reset
(`transmitComplete_resetDue`), and a part held in it acts on nothing (`exec_held_stays`, `millisecond_held`). -/
theorem rstrResets : Obligations.RstrResets := by
  unfold Obligations.RstrResets
  refine ⟨fun number s takes => ?_, fun bytes s free answering due => ?_, fun c s held formed power pin order => ?_,
    fun s held empty => ?_⟩
  · obtain ⟨t, run, answered, frame⟩ := exec_order takes (rstr_rule s)
    have marked : UnchangedBut [.resetDue] s { s with link := { s.link with resetDue := true } } := by
      intro p hp
      cases p <;> simp_all [Part.same]
    exact ⟨t, run, answered, frame .resetDue (by decide), marked.trans frame⟩
  · have run : exec .transmitComplete s = .next (beginOrderReset s) := by
      rw [← transmitComplete_resetDue answering due]
      exact event_free free transmitComplete
    refine ⟨beginOrderReset s, run, rfl, rfl, rfl, rfl, fun d => ?_, rfl, rfl, rfl, rfl, rfl⟩
    exact congrArg Diverter.output (diverter_reset d)
  · obtain ⟨t, run⟩ := exec_runs formed s
    obtain rfl := exec_held_stays held power pin order run
    exact run
  · unfold step
    rw [empty]
    exact congrArg Host.Outcome.next (millisecond_held held)
end

