-- ==== Sys2Proof/Proofs/ConfigurationOrders.lean ====
section
/-! PROOF. The orders of the configuration store but the commit: CFGL, CFGD, RDCF and a CMIT turned away, with the
bytes of the two records: O11, O12 and O13. -/

namespace Sys2Proof.Machine

variable {s : State} {payload : List Byte} {d : Station} {n : Nat} {b : Byte}

/-! ### Numbers and codes in a payload (R170, R173) -/

theorem number2_eq (p : List Byte) (i : Nat) : number2 p i = twoBytes p i := by
  have low := (byteAt p i).isLt
  rw [number2, halfAt, BitVec.toNat_append, ← Nat.shiftLeft_add_eq_or_of_lt low, Nat.shiftLeft_eq, twoBytes]
  omega

theorem number4_eq (p : List Byte) (i : Nat) : number4 p i = fourBytes p i := by
  have low := (halfAt p i).isLt
  rw [number4, wordAt, BitVec.toNat_append, ← Nat.shiftLeft_add_eq_or_of_lt low, Nat.shiftLeft_eq, fourBytes,
    ← number2_eq, ← number2_eq, number2, number2]
  omega

theorem boolOfCode_eq_some {v : Bool} : boolOfCode b = some v ↔ (b = 0 ∧ v = false) ∨ (b = 1 ∧ v = true) := by
  by_cases code : b = 0 ∨ b = 1
  · obtain rfl | rfl := code <;> cases v <;> decide
  · obtain ⟨no, yes⟩ := not_or.mp code
    rw [boolOfCode_none no yes]
    exact iff_of_false nofun (by tauto)

theorem priorityOfCode_eq_some {m : PriorityMode} :
    PriorityMode.ofCode b = some m ↔ (b = 0 ∧ m = .fixed) ∨ (b = 1 ∧ m = .rotating) := by
  by_cases code : b = 0 ∨ b = 1
  · obtain rfl | rfl := code <;> cases m <;> decide
  · obtain ⟨no, yes⟩ := not_or.mp code
    rw [PriorityMode.ofCode, if_neg no, if_neg yes]
    exact iff_of_false nofun (by tauto)

theorem boolOfCode_boolCode (v : Bool) : boolOfCode (boolCode v) = some v := by cases v <;> rfl

theorem priorityOfCode_code (m : PriorityMode) : PriorityMode.ofCode m.code = some m := by cases m <;> rfl

/-- A number of at most 65535 that stands in two bytes of a payload is read there. -/
theorem eq_twoBytes {i : Nat} (low : byteAt payload i = (BitVec.ofNat 16 n).extractLsb' 0 8)
    (high : byteAt payload (i + 1) = (BitVec.ofNat 16 n).extractLsb' 8 8) (fits : n ≤ 65535) :
    n = twoBytes payload i := by
  simp only [twoBytes, low, high, BitVec.extractLsb'_toNat, BitVec.toNat_ofNat, Nat.shiftRight_eq_div_pow]
  omega

/-- An offset or advance that stands in four bytes of a payload is read there. -/
theorem eq_fourBytes {i : Nat} (first : byteAt payload i = (BitVec.ofNat 32 n).extractLsb' 0 8)
    (second : byteAt payload (i + 1) = (BitVec.ofNat 32 n).extractLsb' 8 8)
    (third : byteAt payload (i + 2) = (BitVec.ofNat 32 n).extractLsb' 16 8)
    (fourth : byteAt payload (i + 2 + 1) = (BitVec.ofNat 32 n).extractLsb' 24 8) (fits : n ≤ 1048575) :
    n = fourBytes payload i := by
  simp only [fourBytes, twoBytes, first, second, third, fourth, BitVec.extractLsb'_toNat, BitVec.toNat_ofNat,
    Nat.shiftRight_eq_div_pow]
  omega

theorem toNat_count1 (fits : n ≤ 255) : (count1 n).toNat = n := by
  rw [count1, BitVec.toNat_ofNat]
  omega

/-! ### The line record (R133, R174) -/

theorem inRange_iff {lo hi : Nat} : inRange lo n hi = true ↔ lo ≤ n ∧ n ≤ hi := by
  rw [inRange, Bool.and_eq_true, decide_eq_true_iff, decide_eq_true_iff]

theorem lineRecord_inRange_iff {r : LineRecord} : r.inRange = true ↔
    (1 ≤ r.minLength ∧ r.minLength ≤ 65535) ∧ (1 ≤ r.maxLength ∧ r.maxLength ≤ 65535) ∧ r.minGap ≤ 65535
      ∧ (1 ≤ r.runoffOffset ∧ r.runoffOffset ≤ 1048575) ∧ (1 ≤ r.exitTolerance ∧ r.exitTolerance ≤ 4095)
      ∧ r.reverseTolerance ≤ 4095 ∧ (50 ≤ r.standstillTime ∧ r.standstillTime ≤ 5000)
      ∧ (1 ≤ r.holdThreshold ∧ r.holdThreshold ≤ 96) ∧ (1 ≤ r.driveBudget ∧ r.driveBudget ≤ 8) := by
  simp only [LineRecord.inRange, inRange_iff, Config.offsetLimit, Bool.and_eq_true, Nat.zero_le,
    true_and, and_assoc]

theorem lineRecordOf_eq_some {r : LineRecord} : lineRecordOf payload = some r ↔
    r.minLength = twoBytes payload 0 ∧ r.maxLength = twoBytes payload 2 ∧ r.minGap = twoBytes payload 4
      ∧ r.runoffOffset = fourBytes payload 6
      ∧ ((byteAt payload 10 = 0 ∧ r.exitEye = false) ∨ (byteAt payload 10 = 1 ∧ r.exitEye = true))
      ∧ ((byteAt payload 11 = 0 ∧ r.priority = .fixed) ∨ (byteAt payload 11 = 1 ∧ r.priority = .rotating))
      ∧ r.exitTolerance = twoBytes payload 12 ∧ r.reverseTolerance = twoBytes payload 14
      ∧ r.standstillTime = twoBytes payload 16
      ∧ r.holdThreshold = (byteAt payload 18).toNat ∧ r.driveBudget = (byteAt payload 19).toNat := by
  rw [← boolOfCode_eq_some, ← priorityOfCode_eq_some]
  simp only [lineRecordOf, number2_eq, number4_eq, number1]
  cases boolOfCode (byteAt payload 10) with
  | none => simp
  | some eye =>
  cases PriorityMode.ofCode (byteAt payload 11) with
  | none => simp
  | some mode =>
    rw [Option.some.injEq, LineRecord.mk.injEq]
    simp only [eq_comm, Option.some.injEq]

/-- A record in range stands in its bytes where CFGL's layout has its fields (R174, R175). -/
theorem lineRecordOf_bytes {r : LineRecord} (range : r.inRange = true) : lineRecordOf r.bytes = some r := by
  obtain ⟨⟨_, minLength⟩, ⟨_, maxLength⟩, minGap, ⟨_, runoff⟩, ⟨_, exit⟩, reverse, ⟨_, standstill⟩, ⟨_, hold⟩, _,
    drive⟩ := lineRecord_inRange_iff.mp range
  simp only [LineRecord.bytes, count2, count4, bytes2, bytes4, List.cons_append, List.nil_append]
  exact lineRecordOf_eq_some.mpr ⟨eq_twoBytes rfl rfl minLength, eq_twoBytes rfl rfl maxLength,
    eq_twoBytes rfl rfl minGap, eq_fourBytes rfl rfl rfl rfl runoff, boolOfCode_eq_some.mp (boolOfCode_boolCode _),
    priorityOfCode_eq_some.mp (priorityOfCode_code _), eq_twoBytes rfl rfl (by omega),
    eq_twoBytes rfl rfl (by omega), eq_twoBytes rfl rfl (by omega), (toNat_count1 (by omega)).symm,
    (toNat_count1 (by omega)).symm⟩

/-! ### A diverter record (R134, R174) -/

theorem diverterRecord_inRange_iff {r : DiverterRecord} : r.inRange = true ↔
    (r.installed = true → 1 ≤ r.offset ∧ r.advance < r.offset) ∧ r.offset ≤ 1048575 ∧ r.advance ≤ 1048575
      ∧ r.lateMargin ≤ 65535 ∧ r.releaseMargin ≤ 65535 ∧ (10 ≤ r.maxOn ∧ r.maxOn ≤ 2000) ∧ r.recovery ≤ 1000
      ∧ (10 ≤ r.confirmTime ∧ r.confirmTime ≤ 5000) ∧ (100 ≤ r.chuteFullTime ∧ r.chuteFullTime ≤ 30000)
      ∧ (100 ≤ r.chuteClearTime ∧ r.chuteClearTime ≤ 30000) ∧ r.alternate ≤ 16 := by
  unfold DiverterRecord.inRange
  simp only [inRange_iff, Config.offsetLimit, Bool.and_eq_true]
  cases r.installed with
  | false =>
    simp only [Bool.false_eq_true, if_false, Bool.and_eq_true, inRange_iff, false_imp_iff, true_and]
    omega
  | true =>
    simp only [if_true, Bool.and_eq_true, inRange_iff, decide_eq_true_iff, true_imp_iff]
    omega

theorem diverterRecordOf_eq_some {r : DiverterRecord} : diverterRecordOf payload = some r ↔
    ((byteAt payload 1 = 0 ∧ r.installed = false) ∨ (byteAt payload 1 = 1 ∧ r.installed = true))
      ∧ r.offset = fourBytes payload 2 ∧ r.advance = fourBytes payload 6 ∧ r.lateMargin = twoBytes payload 10
      ∧ r.releaseMargin = twoBytes payload 12 ∧ r.maxOn = twoBytes payload 14 ∧ r.recovery = twoBytes payload 16
      ∧ r.confirmTime = twoBytes payload 18 ∧ r.chuteFullTime = twoBytes payload 20
      ∧ r.chuteClearTime = twoBytes payload 22 ∧ r.alternate = (byteAt payload 24).toNat := by
  rw [← boolOfCode_eq_some]
  simp only [diverterRecordOf, number2_eq, number4_eq, number1]
  cases boolOfCode (byteAt payload 1) with
  | none => simp
  | some installed =>
    rw [Option.some.injEq, DiverterRecord.mk.injEq]
    simp only [eq_comm, Option.some.injEq]

/-- A record in range stands in its bytes, after the diverter number, where CFGD's layout has its fields (R174,
R175). -/
theorem diverterRecordOf_bytes {r : DiverterRecord} (range : r.inRange = true) (b : Byte) :
    diverterRecordOf (b :: r.bytes) = some r := by
  obtain ⟨_, offset, advance, late, release, ⟨_, maxOn⟩, recovery, ⟨_, confirm⟩, ⟨_, full⟩, ⟨_, clear⟩, alternate⟩ :=
    diverterRecord_inRange_iff.mp range
  simp only [DiverterRecord.bytes, count2, count4, bytes2, bytes4, List.cons_append, List.nil_append]
  exact diverterRecordOf_eq_some.mpr ⟨boolOfCode_eq_some.mp (boolOfCode_boolCode _),
    eq_fourBytes rfl rfl rfl rfl offset, eq_fourBytes rfl rfl rfl rfl advance, eq_twoBytes rfl rfl late,
    eq_twoBytes rfl rfl release, eq_twoBytes rfl rfl (by omega), eq_twoBytes rfl rfl (by omega),
    eq_twoBytes rfl rfl (by omega), eq_twoBytes rfl rfl (by omega), eq_twoBytes rfl rfl (by omega),
    (toNat_count1 (by omega)).symm⟩

/-! ### CFGL and CFGD (R133, R134) -/

theorem unchanged_pendingConfig (s : State) (c : Configuration) :
    UnchangedBut [.pendingConfig] s { s with pendingConfig := c } := by
  intro p hp
  cases p <;> simp_all [Part.same]

section

variable (up : s.supervisor.state = .up)
include up

theorem cfgl_rule_writes (formed : OrderKind.cfgl.formed payload) {r : LineRecord}
    (reads : lineRecordOf payload = some r) (range : r.inRange = true) :
    OrderKind.cfgl.rule payload s = done { s with pendingConfig := { s.pendingConfig with line := r } } := by
  show cfgl payload s = _
  rw [cfgl, formChecked_formed formed, linkChecked_up up, reads]
  exact if_pos range

theorem cfgl_rule_refuses (formed : OrderKind.cfgl.formed payload)
    (out : ∀ r, lineRecordOf payload = some r → r.inRange = false) :
    OrderKind.cfgl.rule payload s = refuse .badArg s := by
  show cfgl payload s = _
  rw [cfgl, formChecked_formed formed, linkChecked_up up]
  cases reads : lineRecordOf payload with
  | none => rfl
  | some r => exact if_neg (Bool.eq_false_iff.mp (out r reads))

theorem cfgd_rule_writes (formed : OrderKind.cfgd.formed payload) (names : number1 payload 0 = stationNumber d)
    {r : DiverterRecord} (reads : diverterRecordOf payload = some r) (range : r.inRange = true) :
    OrderKind.cfgd.rule payload s =
      done { s with pendingConfig := { s.pendingConfig with diverters := s.pendingConfig.diverters.set d r } } := by
  show cfgd payload s = _
  rw [cfgd, formChecked_formed formed, linkChecked_up up, names, stationOf_stationNumber, reads]
  exact if_pos range

theorem cfgd_rule_refuses (formed : OrderKind.cfgd.formed payload)
    (out : stationOf (number1 payload 0) = none ∨ ∀ r, diverterRecordOf payload = some r → r.inRange = false) :
    OrderKind.cfgd.rule payload s = refuse .badArg s := by
  show cfgd payload s = _
  rw [cfgd, formChecked_formed formed, linkChecked_up up]
  cases names : stationOf (number1 payload 0) with
  | none => rfl
  | some d =>
  cases reads : diverterRecordOf payload with
  | none => rfl
  | some r =>
    have range := out.resolve_left (by simp [names]) r reads
    exact if_neg (Bool.eq_false_iff.mp range)

end

/-- An order that writes the pending copy and no more. -/
theorem exec_writes {k : OrderKind} {number : Half} {c : Configuration} (takes : s.takes number k.code)
    (rule : k.rule payload s = done { s with pendingConfig := c }) :
    ∃ t, exec (k.command number payload) s = .next t ∧ Answered t number k.code [0] ∧ t.pendingConfig = c
      ∧ UnchangedBut (.pendingConfig :: answerParts) s t := by
  obtain ⟨t, run, answered, frame⟩ := exec_order takes rule
  exact ⟨t, run, answered, frame .pendingConfig (by decide), (unchanged_pendingConfig s c).trans frame⟩

/-! ### RDCF (R135) -/

/-- The copy of the configuration that an RDCF code names. -/
def State.copy (s : State) (active : Bool) : Configuration := if active then s.config else s.pendingConfig

theorem recordBytes_line (c : Configuration) : c.recordBytes 0 = some c.line.bytes := rfl

theorem recordBytes_station (c : Configuration) (d : Station) :
    c.recordBytes (stationNumber d) = some c.diverters[d].bytes := by
  rw [Configuration.recordBytes, if_neg (by simp [stationNumber]), stationOf_stationNumber]
  rfl

theorem recordBytes_above (c : Configuration) (above : 16 < n) : c.recordBytes n = none := by
  rw [Configuration.recordBytes, if_neg (by omega), stationOf, dif_neg (by omega)]
  rfl

section

variable (formed : OrderKind.rdcf.formed payload)
include formed

theorem rdcf_rule_reads {active : Bool} {bs : List Byte} (code : byteAt payload 0 = boolCode active)
    (holds : (s.copy active).recordBytes (number1 payload 1) = some bs) :
    OrderKind.rdcf.rule payload s = (s, ⟨.done, [boolCode active, byteAt payload 1] ++ bs⟩) := by
  unfold State.copy at holds
  show rdcf payload s = _
  rw [rdcf, formChecked_formed formed, code, boolOfCode_boolCode]
  dsimp only
  rw [holds]

theorem rdcf_rule_refuses (out : (byteAt payload 0 ≠ 0 ∧ byteAt payload 0 ≠ 1) ∨ 16 < number1 payload 1) :
    OrderKind.rdcf.rule payload s = refuse .badArg s := by
  show rdcf payload s = _
  rw [rdcf, formChecked_formed formed]
  obtain ⟨no, yes⟩ | above := out
  · rw [boolOfCode_none no yes]
  · cases boolOfCode (byteAt payload 0) with
    | none => rfl
    | some active =>
      dsimp only
      rw [recordBytes_above _ above]

/-- RDCF answers from a copy in every case (R135). -/
theorem rdcf_rule_keeps (s : State) : ∃ reply, OrderKind.rdcf.rule payload s = (s, reply) := by
  show ∃ reply, rdcf payload s = (s, reply)
  rw [rdcf, formChecked_formed formed]
  split
  · exact ⟨_, rfl⟩
  · split <;> exact ⟨_, rfl⟩

end

/-! ### A CMIT turned away (R136, R138) -/

section

variable (up : s.supervisor.state = .up)
include up

theorem cmit_rule_line (idle : s.line.state ≠ .idle) (ready : s.line.state ≠ .ready) :
    OrderKind.cmit.rule [] s = refuse .state s := by
  show cmit [] s = _
  rw [cmit, formChecked_formed ⟨rfl, by decide⟩, linkChecked_up up, if_neg (not_or.mpr ⟨idle, ready⟩)]

theorem cmit_rule_invalid {code : Nat} (line : s.line.state = .idle ∨ s.line.state = .ready)
    (fails : s.pendingConfig.failure = some (code, n)) :
    OrderKind.cmit.rule [] s = (s, ⟨.configInvalid, [count1 code, count1 n]⟩) := by
  show cmit [] s = _
  rw [cmit, formChecked_formed ⟨rfl, by decide⟩, linkChecked_up up, if_pos line, fails]

end

end Sys2Proof.Machine

open Sys2Proof Sys2Proof.Machine

/-- Settles O11: the two rules write or refuse (`cfgl_rule_writes`, `cfgl_rule_refuses` and their like), and what they
read is `lineRecordOf_eq_some` and `diverterRecordOf_eq_some`. -/
theorem configurationWrites : Obligations.ConfigurationWrites := by
  unfold Obligations.ConfigurationWrites
  refine ⟨fun number p s takes up formed => ⟨fun r reads range => ?_, fun out => ?_⟩, fun r => lineRecord_inRange_iff,
    fun number p s takes up formed => ⟨fun d r names reads range => ?_, fun out => ?_⟩,
    fun r => diverterRecord_inRange_iff, fun p r => lineRecordOf_eq_some, fun p r => diverterRecordOf_eq_some⟩
  · exact exec_writes takes (cfgl_rule_writes up formed reads range)
  · exact exec_refused takes (cfgl_rule_refuses up formed out)
  · exact exec_writes takes (cfgd_rule_writes up formed names reads range)
  · exact exec_refused takes (cfgd_rule_refuses up formed out)

/-- Settles O12: RDCF leaves the state in every case (`rdcf_rule_keeps`), and the records read back from their bytes
(`lineRecordOf_bytes`, `diverterRecordOf_bytes`). -/
theorem rdcfReads : Obligations.RdcfReads := by
  unfold Obligations.RdcfReads
  refine ⟨fun number p s takes formed => ?_, fun r => ⟨rfl, lineRecordOf_bytes⟩,
    fun n r => ⟨rfl, rfl, fun range => diverterRecordOf_bytes range n⟩⟩
  obtain ⟨reply, rule⟩ := rdcf_rule_keeps formed s
  obtain ⟨t, run, answered, frame⟩ := exec_order takes rule
  have answers {other : Reply} (is : OrderKind.rdcf.rule p s = (s, other)) :
      Answered t number OrderKind.rdcf.code other.bytes := by
    obtain rfl := (Prod.mk.inj (rule.symm.trans is)).2
    exact answered
  have line {active : Bool} (code : byteAt p 0 = boolCode active) (zero : byteAt p 1 = 0) :
      Answered t number OrderKind.rdcf.code ([0, boolCode active, 0] ++ (s.copy active).line.bytes) := by
    have holds : (s.copy active).recordBytes (number1 p 1) = some (s.copy active).line.bytes := by
      rw [number1, zero]
      exact recordBytes_line _
    have told := answers (rdcf_rule_reads formed code holds)
    rwa [zero] at told
  have station {active : Bool} {d : Station} (code : byteAt p 0 = boolCode active)
      (names : number1 p 1 = stationNumber d) :
      Answered t number OrderKind.rdcf.code
        ([0, boolCode active, byteAt p 1] ++ (s.copy active).diverters[d].bytes) := by
    have holds : (s.copy active).recordBytes (number1 p 1) = some (s.copy active).diverters[d].bytes := by
      rw [names]
      exact recordBytes_station _ d
    exact answers (rdcf_rule_reads formed code holds)
  exact ⟨t, run, frame, line (active := false), line (active := true), fun d => station (active := false),
    fun d => station (active := true),
    fun out => answers (rdcf_rule_refuses formed out)⟩

/-- Settles O13: neither refusal has changed the state (`cmit_rule_line`, `cmit_rule_invalid`). -/
theorem cmitRefused : Obligations.CmitRefused := by
  unfold Obligations.CmitRefused
  intro number s takes up
  exact ⟨fun idle ready => exec_refused takes (cmit_rule_line up idle ready),
    fun code n line fails => exec_order takes (cmit_rule_invalid up line fails)⟩
end

