-- ==== Sys2Proof/Proofs/Validation.lean ====
section
/-! PROOF. The validation of CMIT: each check finds its lowest failing station, and the first check that fails is the
one reported: O15. -/

namespace Sys2Proof.Machine

namespace Configuration

variable {c : Configuration} {d a : Station} {code : Nat}

/-! ### The installed diverters -/

theorem mem_installedList : d ∈ c.installedList ↔ c.diverters[d].installed = true := by
  simp [installedList]

theorem installedList_sorted (c : Configuration) : c.installedList.Pairwise (· < ·) :=
  (List.pairwise_lt_finRange 16).filter _

theorem installedList_eq_nil : c.installedList = [] ↔ ∀ d : Station, c.diverters[d].installed = false := by
  simp [List.eq_nil_iff_forall_not_mem, mem_installedList]

/-- The installed diverters below one of the list stand before it. -/
theorem installed_before {before after : List Station} (split : c.installedList = before ++ d :: after) (below : a < d)
    (installed : c.diverters[a].installed = true) : a ∈ before := by
  have sorted := c.installedList_sorted
  have mem := mem_installedList.mpr installed
  rw [split] at sorted mem
  obtain ⟨_, above, _⟩ := List.pairwise_append.mp sorted
  rcases List.mem_append.mp mem with first | later
  · exact first
  · rcases List.mem_cons.mp later with rfl | later
    · exact absurd below (lt_irrefl _)
    · exact absurd ((List.pairwise_cons.mp above).1 a later) below.asymm

/-- The last of the installed diverters is the one above which none is installed (C6). -/
theorem getLast_installedList (installed : c.diverters[d].installed = true) :
    c.installedList.getLast? = some d ↔ ∀ a : Station, d < a → c.diverters[a].installed = false := by
  have mem := mem_installedList.mpr installed
  constructor
  · intro last a above
    obtain ⟨before, split⟩ := List.getLast?_eq_some_iff.mp last
    by_contra there
    have mem := mem_installedList.mpr (eq_true_of_ne_false there)
    have sorted := c.installedList_sorted
    rw [split] at sorted mem
    rcases List.mem_append.mp mem with first | own
    · exact ((List.pairwise_append.mp sorted).2.2 a first d (by simp)).asymm above
    · exact above.ne' (List.mem_singleton.mp own)
  · intro highest
    obtain ⟨before, after, split⟩ := List.append_of_mem mem
    have sorted := c.installedList_sorted
    rw [split] at sorted
    obtain ⟨_, above, _⟩ := List.pairwise_append.mp sorted
    cases after with
    | nil => exact List.getLast?_eq_some_iff.mpr ⟨before, split⟩
    | cons x rest =>
      have there : x ∈ c.installedList := by simp [split]
      have off := highest x ((List.pairwise_cons.mp above).1 x (by simp))
      rw [mem_installedList.mp there] at off
      cases off

/-! ### The lowest station that fails a check -/

/-- A check's verdict is its lowest failing installed station, if it has one (R137). -/
def FirstFailing (c : Configuration) (code : Nat) : Option Station → Prop
  | none => c.passesAll code
  | some d => c.diverters[d].installed = true ∧ ¬ c.passes code d
      ∧ ∀ a : Station, a < d → c.diverters[a].installed = true → c.passes code a

/-- A check has one verdict. -/
theorem FirstFailing.unique {v : Option Station} (verdict : c.FirstFailing code v)
    (installed : c.diverters[d].installed = true) (fails : ¬ c.passes code d)
    (least : ∀ a : Station, a < d → c.diverters[a].installed = true → c.passes code a) : v = some d := by
  cases v with
  | none => exact absurd (verdict d installed) fails
  | some x =>
    obtain ⟨there, failing, first⟩ := verdict
    rcases lt_trichotomy x d with below | rfl | above
    · exact absurd (least x below there) failing
    · rfl
    · exact absurd (first d above installed) fails

theorem FirstFailing.none_iff {v : Option Station} (verdict : c.FirstFailing code v) :
    v = none ↔ c.passesAll code := by
  cases v with
  | none => exact iff_of_true rfl verdict
  | some d => exact iff_of_false nofun fun passes => verdict.2.1 (passes d verdict.1)

/-- A search of the installed diverters for one at which a check does not hold gives the verdict of the check. -/
theorem firstFailing_find {holds : Station → Bool}
    (spec : ∀ d : Station, c.diverters[d].installed = true → (holds d = true ↔ c.passes code d)) :
    c.FirstFailing code (c.installedList.find? fun d => !holds d) := by
  cases found : c.installedList.find? fun d => !holds d with
  | none =>
    intro d installed
    have passing := List.find?_eq_none.mp found d (mem_installedList.mpr installed)
    exact (spec d installed).mp (by simpa using passing)
  | some d =>
    obtain ⟨failing, before, after, split, passing⟩ := List.find?_eq_some_iff_append.mp found
    have installed : c.diverters[d].installed = true := mem_installedList.mp (List.mem_of_find?_eq_some found)
    refine ⟨installed, mt (spec d installed).mpr (by simpa using failing), fun a below there => ?_⟩
    exact (spec a there).mp (by simpa using passing a (installed_before split below there))

/-! ### C3: the offsets ascend -/

/-- The offsets of two stations ascend. -/
abbrev Ascend (c : Configuration) (a b : Station) : Prop := c.diverters[a].offset < c.diverters[b].offset

theorem isChain_of_firstOutOfOrder_none {l : List Station} (found : firstOutOfOrder c l = none) :
    l.IsChain c.Ascend := by
  fun_induction firstOutOfOrder c l with
  | case1 a b rest low => cases found
  | case2 a b rest low ih => exact .cons_cons (not_le.mp low) (ih found)
  | case3 l short =>
    match l, short with
    | [], _ => exact .nil
    | [a], _ => exact .singleton a
    | a :: b :: rest, short => exact absurd rfl (short a b rest)

theorem split_of_firstOutOfOrder_some {l : List Station} (found : firstOutOfOrder c l = some d) :
    ∃ before a after, l = before ++ a :: d :: after ∧ (before ++ [a]).IsChain c.Ascend ∧ ¬ c.Ascend a d := by
  fun_induction firstOutOfOrder c l with
  | case1 a b rest low =>
    obtain rfl := Option.some.inj found
    exact ⟨[], a, rest, rfl, .singleton a, not_lt.mpr low⟩
  | case2 a b rest low ih =>
    obtain ⟨before, x, after, split, chain, falls⟩ := ih found
    refine ⟨a :: before, x, after, by rw [split]; rfl, ?_, falls⟩
    cases before
    all_goals
      obtain ⟨rfl, _⟩ := List.cons.inj split
      exact .cons_cons (not_le.mp low) chain
  | case3 l short => cases found

/-- Stations of an ascending list whose offsets ascend from each to the next: a lower station has a smaller offset. -/
theorem ascend_of_lt {l : List Station} (sorted : l.Pairwise (· < ·)) (chain : l.IsChain c.Ascend) (ma : a ∈ l)
    (md : d ∈ l) (below : a < d) : c.Ascend a d := by
  have trans : IsTrans Station c.Ascend := ⟨fun _ _ _ => Nat.lt_trans⟩
  have both := sorted.and (List.isChain_iff_pairwise.mp chain)
  obtain ⟨before, after, rfl⟩ := List.append_of_mem md
  obtain ⟨_, later, first⟩ := List.pairwise_append.mp both
  rcases List.mem_append.mp ma with ma | ma
  · exact (first a ma d (by simp)).2
  · rcases List.mem_cons.mp ma with rfl | ma
    · exact absurd below (lt_irrefl _)
    · exact absurd ((List.pairwise_cons.mp later).1 a ma).1 below.asymm

/-- The walk of C3 along the installed diverters gives the verdict of C3 (R137). -/
theorem firstFailing_order (c : Configuration) : c.FirstFailing 3 (firstOutOfOrder c c.installedList) := by
  have sorted := c.installedList_sorted
  cases found : firstOutOfOrder c c.installedList with
  | none =>
    intro d installed a below there
    exact ascend_of_lt sorted (isChain_of_firstOutOfOrder_none found) (mem_installedList.mpr there)
      (mem_installedList.mpr installed) below
  | some d =>
    obtain ⟨before, x, after, split, chain, falls⟩ := split_of_firstOutOfOrder_some found
    have split' : c.installedList = (before ++ [x]) ++ d :: after := by simp [split]
    have ordering := sorted
    rw [split'] at ordering
    obtain ⟨ordered, _, cross⟩ := List.pairwise_append.mp ordering
    have present (y : Station) (mem : y ∈ (before ++ [x]) ++ d :: after) : c.diverters[y].installed = true :=
      mem_installedList.mp (split' ▸ mem)
    refine ⟨present d (by simp), fun passes => ?_, fun b below there a lower installed => ?_⟩
    · exact falls (passes x (cross x (by simp) d (by simp)) (present x (by simp)))
    · exact ascend_of_lt ordered chain (installed_before split' (lower.trans below) installed)
        (installed_before split' below there) lower

/-! ### C4 to C6 -/

theorem fireClear_iff : c.fireClear d = true ↔ c.passes 4 d := decide_eq_true_iff

theorem alternateUsable_iff : c.alternateUsable d = true ↔ c.passes 5 d := by
  unfold alternateUsable passes
  cases names : stationOf c.diverters[d].alternate with
  | none =>
    refine decide_eq_true_iff.trans (or_iff_left ?_).symm
    rintro ⟨a, _, _, own⟩
    rw [own, stationOf_stationNumber] at names
    cases names
  | some a =>
    have own := eq_stationNumber names
    simp only [Bool.and_eq_true, decide_eq_true_iff, own]
    constructor
    · rintro ⟨installed, above⟩
      exact .inr ⟨a, above, installed, rfl⟩
    · rintro (zero | ⟨x, above, installed, same⟩)
      · exact absurd zero (Nat.succ_ne_zero _)
      · obtain rfl : a = x := Fin.ext (Nat.succ.inj same)
        exact ⟨installed, above⟩

theorem runoffClear_iff (installed : c.diverters[d].installed = true) :
    c.runoffClear (some d == c.installedList.getLast?) d = true ↔ c.passes 6 d := by
  have last : (some d == c.installedList.getLast?) = true
      ↔ ∀ a : Station, d < a → c.diverters[a].installed = false := by
    rw [beq_iff_eq, eq_comm, getLast_installedList installed]
  unfold runoffClear passes
  rw [← last]
  cases some d == c.installedList.getLast? <;> simp

/-! ### The first failure -/

/-- The verdict of a check C3 to C6 as the validation looks for it. -/
def verdict (c : Configuration) : Nat → Option Station
  | 3 => firstOutOfOrder c c.installedList
  | 4 => c.installedList.find? (fun d => !c.fireClear d)
  | 5 => c.installedList.find? (fun d => !c.alternateUsable d)
  | _ => c.installedList.find? (fun d => !c.runoffClear (some d == c.installedList.getLast?) d)

theorem firstFailing_verdict (c : Configuration) (check : code ∈ [3, 4, 5, 6]) :
    c.FirstFailing code (c.verdict code) := by
  simp only [List.mem_cons, List.not_mem_nil, or_false] at check
  rcases check with rfl | rfl | rfl | rfl
  · exact c.firstFailing_order
  · exact firstFailing_find fun d _ => fireClear_iff
  · exact firstFailing_find fun d _ => alternateUsable_iff
  · exact firstFailing_find fun d => runoffClear_iff

/-- The validation is C1, then C2, then the first verdict of C3 to C6 that names a station (R137). -/
theorem failure_eq (c : Configuration) : c.failure =
    if c.installedList = [] then some (1, 0)
    else if c.line.maxLength < c.line.minLength then some (2, 0)
    else [3, 4, 5, 6].findSome? fun code => (c.verdict code).map fun d => (code, stationNumber d) := by
  unfold failure
  dsimp only [verdict, List.findSome?_cons]
  split
  · rfl
  split
  · rfl
  cases firstOutOfOrder c c.installedList with
  | some d => rfl
  | none =>
  cases c.installedList.find? (fun d => !c.fireClear d) with
  | some d => rfl
  | none =>
  cases c.installedList.find? (fun d => !c.alternateUsable d) with
  | some d => rfl
  | none =>
  cases c.installedList.find? (fun d => !c.runoffClear (some d == c.installedList.getLast?) d) with
  | some d => rfl
  | none => rfl

theorem installedList_ne_nil : c.installedList ≠ [] ↔ ∃ d : Station, c.diverters[d].installed = true := by
  simp [installedList_eq_nil]

theorem failure_eq_none : c.failure = none ↔ (∃ d : Station, c.diverters[d].installed = true)
    ∧ c.line.minLength ≤ c.line.maxLength ∧ ∀ code ∈ [3, 4, 5, 6], c.passesAll code := by
  rw [failure_eq, ← installedList_ne_nil, ← not_lt]
  split
  · simp_all
  split
  · simp_all
  rename_i there fits
  rw [List.findSome?_eq_none_iff]
  refine ⟨fun none => ⟨there, fits, fun code check => ?_⟩, fun ⟨_, _, passes⟩ code check => ?_⟩
  · exact (c.firstFailing_verdict check).none_iff.mp (Option.map_eq_none_iff.mp (none code check))
  · rw [(c.firstFailing_verdict check).none_iff.mpr (passes code check)]
    rfl

/-- The first check of C3 to C6 that fails is reported with its lowest failing station (R137). -/
theorem failure_eq_first (there : ∃ a : Station, c.diverters[a].installed = true)
    (fits : c.line.minLength ≤ c.line.maxLength) (check : code ∈ [3, 4, 5, 6])
    (passed : ∀ earlier ∈ [3, 4, 5, 6], earlier < code → c.passesAll earlier)
    (names : c.verdict code = some d) : c.failure = some (code, stationNumber d) := by
  rw [failure_eq, if_neg (installedList_ne_nil.mpr there), if_neg (not_lt.mpr fits)]
  have silent {earlier : Nat} (mem : earlier ∈ [3, 4, 5, 6]) (before : earlier < code) : c.verdict earlier = none :=
    (c.firstFailing_verdict mem).none_iff.mpr (passed earlier mem before)
  simp only [List.mem_cons, List.not_mem_nil, or_false] at check
  rcases check with rfl | rfl | rfl | rfl
  · simp [names]
  · simp [silent (earlier := 3), names]
  · simp [silent (earlier := 3), silent (earlier := 4), names]
  · simp [silent (earlier := 3), silent (earlier := 4), silent (earlier := 5), names]

end Configuration

end Sys2Proof.Machine

open Sys2Proof Sys2Proof.Machine

/-- Settles O15: the validation is C1, C2 and then the verdicts of C3 to C6 in turn (`failure_eq`), each the lowest
station that fails its check (`firstFailing_verdict`). -/
theorem commitChecks : Obligations.CommitChecks := by
  unfold Obligations.CommitChecks
  intro c
  refine ⟨?_, fun empty => ?_, fun there short => ?_, fun code d check there fits passed installed fails least => ?_⟩
  · simpa using c.failure_eq_none
  · rw [c.failure_eq, if_pos (Configuration.installedList_eq_nil.mpr empty)]
  · rw [c.failure_eq, if_neg (Configuration.installedList_ne_nil.mpr there), if_pos short]
  · exact Configuration.failure_eq_first there fits check passed
      ((c.firstFailing_verdict check).unique installed fails least)
end

