-- ==== Sys2Proof/Proofs/LinkLawKept.lean ====
section
/-! PROOF. The law of the link unit at every step: O59. -/

open Sys2Proof.Machine in
/-- Settles O59: each command and each millisecond keeps the law of the link unit beside the other laws
(`KeepsLaws.step`). -/
theorem linkLawKept : Obligations.LinkLawKept := fun _ _ law run => (KeepsLaws.step run).link law
end

