-- ==== Sys2Proof/Proofs/Replays.lean ====
section
/-! PROOF. Orders of unknown KIND, and orders that are replayed: O10. -/

namespace Sys2Proof.Machine

variable {s : State} {number : Half} {kind : Byte} {f : Frame}

/-! ### What the placing of an answer does to the transmitter (R152) -/

theorem transmitter_placeAnswer_free (free : s.link.transmitter = .free) (f : Frame) :
    (placeAnswer f s).link.transmitter = .sending true f.bytes :=
  congrArg (fun t : State => t.link.transmitter)
    (startNext_answering (s := { s with link := { s.link with answer := some f } }) free rfl)

theorem transmitter_placeAnswer_busy (busy : s.link.transmitter ≠ .free) (f : Frame) :
    (placeAnswer f s).link.transmitter = s.link.transmitter := by
  have stays : placeAnswer f s = { s with link := { s.link with answer := some f } } := startNext_busy busy
  rw [stays]

/-- The answer of an executed order goes to a transmitter that the order's rule has left free (R152). -/
theorem transmitter_answerOrder_free {rule : OrderRule} {payload : List Byte}
    (free : (rule payload s).1.link.transmitter = .free) (number : Half) (kind : Byte) :
    (answerOrder rule number kind payload s).link.transmitter =
      .sending true (answerFrame number kind (rule payload s).2).bytes :=
  transmitter_placeAnswer_free (s := recordOrder number kind _ (rule payload s).1) free _

theorem transmitter_answerOrder_busy {rule : OrderRule} {payload : List Byte}
    (busy : (rule payload s).1.link.transmitter ≠ .free) (number : Half) (kind : Byte) :
    (answerOrder rule number kind payload s).link.transmitter = (rule payload s).1.link.transmitter :=
  transmitter_placeAnswer_busy (s := recordOrder number kind _ (rule payload s).1) busy _

theorem frame_placeAnswer (f : Frame) (s : State) : UnchangedBut [.answer, .transmitter] s (placeAnswer f s) := by
  intro p hp
  cases p <;> simp_all [Part.same]

/-! ### Orders of unknown KIND (R150) -/

theorem exec_unknownKind (unknown : OrderKind.ofCode kind = none) (number : Half) (payload : List Byte) (s : State) :
    exec (.unknownKind number kind payload) s = event (takeOrder unknownRule number kind payload) s := by
  show execUnknownKind number kind payload s = _
  rw [execUnknownKind, unknown]

/-! ### Replays (R149) -/

/-- The last order record is found again under its own NUMBER and KIND. -/
theorem replayed_last (last : s.link.last = some ⟨number, kind, f⟩) : s.replayed number kind = some f := by
  rw [State.replayed, last]
  exact if_pos ⟨rfl, rfl⟩

/-- An order like the last is not executed: its stored answer is placed again, whatever its rule is (R149). -/
theorem takeOrder_replayed (empty : s.link.answer = none) (last : s.link.last = some ⟨number, kind, f⟩)
    (rule : OrderRule) (payload : List Byte) : takeOrder rule number kind payload s = placeAnswer f s := by
  rw [takeOrder, if_neg (by simp [empty]), replayed_last last]

theorem replayOrder_replayed (empty : s.link.answer = none) (last : s.link.last = some ⟨number, kind, f⟩) :
    replayOrder number kind s = placeAnswer f s := by
  rw [replayOrder, if_neg (by simp [empty]), replayed_last last]

end Sys2Proof.Machine

open Sys2Proof Sys2Proof.Machine

/-- Settles O10: an unknown KIND has a rule that refuses (`exec_unknownKind`), and a replay places the stored answer
whichever command brings it (`takeOrder_replayed`, `replayOrder_replayed`). -/
theorem unknownAndReplayedOrders : Obligations.UnknownAndReplayedOrders := by
  unfold Obligations.UnknownAndReplayedOrders
  refine ⟨fun number kind p s unknown takes => ?_, fun number kind p f s held empty last => ?_⟩
  · exact ⟨answerOrder unknownRule number kind p s,
      (exec_unknownKind unknown number p s).trans (event_takes takes unknownRule p),
      answered_answerOrder unknownRule number kind p s,
      fun free => transmitter_answerOrder_free (rule := unknownRule) free number kind,
      fun busy => transmitter_answerOrder_busy (rule := unknownRule) busy number kind,
      frame_answerOrder (parts := []) unknownRule number kind p (unchanged_refl [] s)⟩
  · have run {g : State → State} (replay : g s = placeAnswer f s) : event g s = .next (placeAnswer f s) :=
      (event_free held g).trans (congrArg _ replay)
    refine ⟨placeAnswer f s, run (replayOrder_replayed empty last), placeAnswer_answer f s,
      fun free => transmitter_placeAnswer_free free f, fun busy => transmitter_placeAnswer_busy busy f,
      frame_placeAnswer f s, ?_, fun unknown => ?_⟩
    · rintro k rfl
      exact (exec_command k number p s).trans (run (takeOrder_replayed empty last _ p))
    · exact (exec_unknownKind unknown number p s).trans (run (takeOrder_replayed empty last _ p))
end

