-- ==== Sys2Proof/Proofs/StatusReports.lean ====
section
/-! PROOF. STAT: O37. -/

namespace Sys2Proof.Machine

variable {s : State} {payload : List Byte}

/-- STAT with a clear flag that is no code. -/
theorem stat_rule_refuses (formed : OrderKind.stat.formed payload) (code : boolOfCode (byteAt payload 0) = none) :
    OrderKind.stat.rule payload s = refuse .badArg s := by
  show stat payload s = _
  rw [stat, formChecked_formed formed, code]

/-- STAT reports the status as it stands before the error counts are cleared (R154). -/
theorem stat_rule_reports {clear : Bool} (formed : OrderKind.stat.formed payload)
    (code : boolOfCode (byteAt payload 0) = some clear) : OrderKind.stat.rule payload s =
      (if clear then { s with link := { s.link with framingErrors := 0, overruns := 0 } } else s,
        ⟨.done, statData s⟩) := by
  show stat payload s = _
  rw [stat, formChecked_formed formed, code]

/-- The answer of STAT, byte by byte (R175). -/
theorem statReply_bytes (s : State) : Reply.bytes ⟨.done, statData s⟩ =
    [0, s.line.state.code, s.line.haltCause.code, s.supervisor.state.code, BitVec.ofNat 8 s.table.length,
        BitVec.ofNat 8 s.queue.occupancy, if s.counter.belt = .moving then 1 else 0,
        if s.counter.faultLatch = true then 1 else 0, BitVec.ofNat 8 s.energisedCount, 0]
      ++ bytes4 s.counter.position ++ bytes2 (BitVec.ofNat 16 s.link.framingErrors)
      ++ bytes2 (BitVec.ofNat 16 s.link.overruns) ++ bytes4 s.timeStamp := by
  have belt : s.counter.belt.code = if s.counter.belt = .moving then 1 else 0 := by
    cases s.counter.belt <;> rfl
  rw [← belt]
  rfl

end Sys2Proof.Machine

open Sys2Proof Sys2Proof.Machine

/-- Settles O37: `stat_rule_refuses` and `stat_rule_reports`; with clear flag 1 the counts that are then 0 are all that
the rule changes. -/
theorem statReports : Obligations.StatReports := by
  unfold Obligations.StatReports
  refine fun number p s takes formed => ⟨fun no yes => ?_, fun code => ?_⟩
  · exact exec_refused takes (stat_rule_refuses formed (boolOfCode_none no yes))
  · have rule := stat_rule_reports (s := s) formed (boolOfCode_some code)
    obtain ⟨t, run, answered, frame⟩ := exec_order takes rule
    rw [statReply_bytes] at answered
    refine ⟨t, run, answered, fun zero => ?_, fun one => ?_, ?_⟩
    · simpa [zero] using frame
    · obtain ⟨rate, receiver, gapTimer, framingErrors, overruns⟩ := frame .reception (by decide)
      simp only [one, decide_true, if_true] at rate receiver gapTimer framingErrors overruns
      exact ⟨framingErrors, overruns, rate, receiver, gapTimer⟩
    · refine UnchangedBut.trans (a := [.reception]) (fun part other => ?_) frame
      split <;> cases part <;> simp_all [Part.same]
end

