-- ==== Sys2Proof/Proofs/TransmitterTurns.lean ====
section
/-! PROOF. The end of a sent frame: O53. -/

namespace Sys2Proof.Machine

variable {s : State} {f : Frame} {rest : List Frame} {c : Instr}

/-! ### Taking the order at the head of the buffer (R149) -/

theorem serviceOrders_empty (empty : s.link.orders = []) : serviceOrders s = s := by
  rw [serviceOrders, empty]

theorem serviceOrders_full (full : s.link.answer.isSome = true) : serviceOrders s = s := by
  unfold serviceOrders
  split
  · exact if_pos full
  · rfl

/-- The command that takes an order frame, whatever its KIND (R150). -/
abbrev Frame.taking (f : Frame) (c : Instr) : Prop :=
  (∃ k : OrderKind, f.kind = k.code ∧ c = k.command f.number f.payload)
    ∨ (OrderKind.ofCode f.kind = none ∧ c = .unknownKind f.number f.kind f.payload)

/-- The command of an order frame is the link unit taking that frame by the rule of its KIND (R150). -/
theorem exec_taking (taking : f.taking c) (free : s.held = none) :
    exec c s = .next (takeOrder (ruleOf f.kind) f.number f.kind f.payload s) := by
  obtain ⟨k, kind, rfl⟩ | ⟨unknown, rfl⟩ := taking
  · rw [exec_command, event_free free, kind, ruleOf, ofCode_code]
  · rw [exec_unknownKind unknown, event_free free, ruleOf, unknown]

/-- With an empty answer slot the service of the buffer is the command of its first order (R149). -/
theorem serviceOrders_takes (taking : f.taking c) (free : s.held = none) (empty : s.link.answer = none)
    (orders : s.link.orders = f :: rest) :
    .next (serviceOrders s) = exec c { s with link := { s.link with orders := rest } } := by
  rw [exec_taking (s := { s with link := { s.link with orders := rest } }) taking free, serviceOrders, orders]
  exact congrArg _ (if_neg (by simp [empty]))

/-! ### The transmitter becomes free (R151, R152) -/

/-- The transmitter free and the answer slot empty, as the end of a frame leaves them before the next one is chosen. -/
def State.sent (s : State) : State := { s with link := { s.link with transmitter := .free, answer := none } }

theorem transmitComplete_free (free : s.link.transmitter = .free) : transmitComplete s = s := by
  rw [transmitComplete, free]

/-- A notice has been sent while an answer waits, and the answer is started (R152). -/
theorem transmitComplete_answer {bytes : List Byte} (sending : s.link.transmitter = .sending false bytes)
    (waits : s.link.answer = some f) :
    transmitComplete s = { s with link := { s.link with transmitter := .sending true f.bytes } } := by
  have started := startNext_answering (s := { s with link := { s.link with transmitter := .free } }) rfl waits
  have done : transmitComplete s = serviceOrders (startNext { s with link := { s.link with transmitter := .free } }) := by
    rw [transmitComplete, sending]
    rfl
  rw [done, started, serviceOrders_full]
  exact Option.isSome_iff_exists.mpr ⟨f, waits⟩

/-- The next frame is chosen, and then the next order is taken (R149, R152, entry 7). -/
theorem transmitComplete_sent {isAnswer : Bool} {bytes : List Byte} (sending : s.link.transmitter = .sending isAnswer bytes)
    (stays : isAnswer = true → s.link.resetDue = false) (last : isAnswer = false → s.link.answer = none) :
    transmitComplete s = serviceOrders (startNext s.sent) := by
  have empty : (if isAnswer then none else s.link.answer) = none := by cases isAnswer <;> simp_all
  have due : (isAnswer && s.link.resetDue) = false := by cases isAnswer <;> simp_all
  rw [transmitComplete, sending]
  simp only [empty, due]
  rfl

/-- With no eligible notice the transmitter stays free. -/
theorem startNext_sent_free (none : s.queue.eligible = false) : startNext s.sent = s.sent :=
  startNext_none rfl rfl (.inl none)

/-- An eligible notice is started and recorded as sent (R152, R159). -/
theorem startNext_sent_notice {n : Notice} (eligible : s.queue.eligible = true)
    (notice : s.queue.notices[s.queue.distance s.queue.sendPointer]? = some n) :
    startNext s.sent = { s with
      link := { s.link with transmitter := .sending false n.frame.bytes, answer := none }
      queue := s.queue.recordSent s.timeStamp } :=
  startNext_notice (s := s.sent) rfl rfl eligible notice

end Sys2Proof.Machine

open Sys2Proof Sys2Proof.Machine

/-- Settles O53: a waiting answer goes first (`transmitComplete_answer`); else the next frame is chosen
(`startNext_sent_free`, `startNext_sent_notice`), and the first order of the buffer is taken (`serviceOrders_takes`). -/
theorem transmitterTurns : Obligations.TransmitterTurns := by
  unfold Obligations.TransmitterTurns
  intro s held
  have run (t : State) (h : transmitComplete s = t) : exec .transmitComplete s = .next t :=
    (event_free held transmitComplete).trans (congrArg _ h)
  refine ⟨fun free => run _ (transmitComplete_free free), fun bytes f sending waits => ?_,
    fun isAnswer bytes sending stays last => ?_⟩
  · refine ⟨_, run _ (transmitComplete_answer sending waits), rfl, fun p other => ?_⟩
    cases p <;> simp_all [Part.same]
  · have sent := transmitComplete_sent sending stays last
    refine ⟨fun empty none => ?_, fun n empty eligible notice => ?_, fun c f rest orders taking => ⟨fun none => ?_,
      fun n eligible notice => ?_⟩⟩
    · rw [startNext_sent_free none, serviceOrders_empty (s := s.sent) empty] at sent
      refine ⟨_, run _ sent, rfl, rfl, fun p other => ?_⟩
      cases p <;> simp_all [Part.same, State.sent]
    · rw [startNext_sent_notice eligible notice] at sent
      refine ⟨_, run _ (sent.trans (serviceOrders_empty empty)), rfl, rfl, rfl, fun p other => ?_⟩
      cases p <;> simp_all [Part.same]
    · rw [startNext_sent_free none] at sent
      exact (run _ sent).trans (serviceOrders_takes taking held rfl orders)
    · rw [startNext_sent_notice eligible notice] at sent
      exact (run _ sent).trans (serviceOrders_takes taking held rfl orders)
end

