-- ==== Sys2Proof/Proofs/Notices.lean ====
section
/-! PROOF. What the effects of an order do to the link unit and the report queue: they submit notices, of which a free
transmitter may start one, and nothing in them depends on the gap timer. -/

namespace Sys2Proof.Machine

variable {s t u : State} {f g : State → State} {d : Station} {tag : Tag}

/-! ### What notices leave to an answer (R152, R155) -/

/-- What an event that submits notices does to the link unit and the report queue: the queue holds what it held, a busy
transmitter goes on, and a free one may start a notice of the queue, which the send pointer then has passed. -/
structure Notifies (s t : State) : Prop where
  held : t.held = s.held
  receiver : t.link.receiver = s.link.receiver
  answer : t.link.answer = s.link.answer
  notices : ∀ n ∈ s.queue.notices, n ∈ t.queue.notices
  busy : s.link.transmitter ≠ .free →
    t.link.transmitter = s.link.transmitter ∧ t.queue.sendPointer = s.queue.sendPointer
  idle : s.link.transmitter = .free → s.link.answer = none →
    (t.link.transmitter = .free ∧ t.queue.sendPointer = s.queue.sendPointer)
      ∨ ((∃ n ∈ t.queue.notices, t.link.transmitter = .sending false n.frame.bytes)
        ∧ t.queue.sendPointer = s.queue.sendPointer + 1)

namespace Notifies

/-- No notice is submitted, and the transmitter chooses nothing. -/
theorem quiet (held : t.held = s.held) (receiver : t.link.receiver = s.link.receiver)
    (answer : t.link.answer = s.link.answer) (transmitter : t.link.transmitter = s.link.transmitter)
    (notices : t.queue.notices = s.queue.notices) (pointer : t.queue.sendPointer = s.queue.sendPointer) :
    Notifies s t :=
  ⟨held, receiver, answer, fun _ m => notices ▸ m, fun _ => ⟨transmitter, pointer⟩,
    fun free _ => .inl ⟨transmitter.trans free, pointer⟩⟩

theorem refl (s : State) : Notifies s s := quiet rfl rfl rfl rfl rfl rfl

theorem trans (h : Notifies s t) (k : Notifies t u) : Notifies s u := by
  refine ⟨k.held.trans h.held, k.receiver.trans h.receiver, k.answer.trans h.answer,
    fun n m => k.notices n (h.notices n m), fun busy => ?_, fun free empty => ?_⟩
  · obtain ⟨same, pointer⟩ := h.busy busy
    obtain ⟨same', pointer'⟩ := k.busy (by rwa [same])
    exact ⟨same'.trans same, pointer'.trans pointer⟩
  · rcases h.idle free empty with ⟨still, pointer⟩ | ⟨⟨n, m, sending⟩, pointer⟩
    · rw [← pointer]
      exact k.idle still (h.answer.trans empty)
    · obtain ⟨same, pointer'⟩ := k.busy (by rw [sending]; exact Transmitter.noConfusion)
      exact .inr ⟨⟨n, k.notices n m, same.trans sending⟩, pointer'.trans pointer⟩

end Notifies

theorem recordSent_sendPointer (q : ReportQueue) (ts : TimeStamp) :
    (q.recordSent ts).sendPointer = q.sendPointer + 1 := by
  unfold ReportQueue.recordSent
  split <;> rfl

/-- The transmitter's choice is a notice that it starts, or nothing that it was not sending already (R152). -/
theorem notifies_startNext (s : State) : Notifies s (startNext s) := by
  refine ⟨startNext_held s, startNext_receiver s, startNext_answer s, fun n m => by rwa [startNext_queue_notices],
    fun busy => by rw [startNext_busy busy]; exact ⟨rfl, rfl⟩, fun free empty => ?_⟩
  by_cases eligible : s.queue.eligible = true
  · cases notice : s.queue.notices[s.queue.distance s.queue.sendPointer]? with
    | none =>
      rw [startNext_none free empty (.inr notice)]
      exact .inl ⟨free, rfl⟩
    | some n =>
      rw [startNext_notice free empty eligible notice]
      refine .inr ⟨⟨n, ?_, rfl⟩, recordSent_sendPointer _ _⟩
      rw [recordSent_notices]
      exact List.mem_of_getElem? notice
  · rw [startNext_none free empty (.inl (by simpa using eligible))]
    exact .inl ⟨free, rfl⟩

/-- Admission leaves the send pointer and the notices that are held (R158). -/
theorem notifies_offer (body : NoticeBody) (time : TimeStamp) (position : Position) (s : State) :
    Notifies s { s with queue := s.queue.offer body time position } := by
  have pointer := offer_sendPointer s.queue body time position
  refine ⟨rfl, rfl, rfl, fun n m => ?_, fun _ => ⟨rfl, pointer⟩, fun free _ => .inl ⟨free, pointer⟩⟩
  obtain ⟨more, notices⟩ := offer_notices s.queue body time position
  exact notices ▸ List.mem_append_left more m

theorem notifies_submit (body : NoticeBody) (s : State) : Notifies s (submit body s) :=
  (notifies_offer body s.timeStamp s.counter.position s).trans (notifies_startNext _)

/-! ### Effects that submit notices -/

/-- A state with another gap timer. -/
def State.withGap (s : State) (timer : Timer) : State := { s with link := { s.link with gapTimer := timer } }

theorem startNext_withGap (s : State) (timer : Timer) : startNext (s.withGap timer) = (startNext s).withGap timer := by
  by_cases free : s.link.transmitter = .free
  · cases answer : s.link.answer with
    | some f =>
      rw [startNext_answering free answer]
      exact startNext_answering (s := s.withGap timer) free answer
    | none =>
      by_cases starts : s.queue.eligible = false ∨ s.queue.notices[s.queue.distance s.queue.sendPointer]? = none
      · rw [startNext_none free answer starts]
        exact startNext_none (s := s.withGap timer) free answer starts
      · obtain ⟨eligible, notice⟩ := not_or.mp starts
        rw [Bool.not_eq_false] at eligible
        obtain ⟨n, notice⟩ := Option.ne_none_iff_exists'.mp notice
        rw [startNext_notice free answer eligible notice]
        exact startNext_notice (s := s.withGap timer) free answer eligible notice
  · rw [startNext_busy free]
    exact startNext_busy (s := s.withGap timer) free

/-- An effect that acts on the link unit and the report queue through notices alone, and that the gap timer has no say in. -/
structure Tells (f : State → State) : Prop where
  gap : ∀ timer s, f (s.withGap timer) = (f s).withGap timer
  notifies : ∀ s, Notifies s (f s)

namespace Tells

/-- An effect that submits nothing, which holds by computation: it sets registers of other blocks, or settings. -/
theorem quiet (gap : ∀ timer s, f (s.withGap timer) = (f s).withGap timer := by intros; rfl)
    (held : ∀ s, (f s).held = s.held := by intros; rfl)
    (receiver : ∀ s, (f s).link.receiver = s.link.receiver := by intros; rfl)
    (answer : ∀ s, (f s).link.answer = s.link.answer := by intros; rfl)
    (transmitter : ∀ s, (f s).link.transmitter = s.link.transmitter := by intros; rfl)
    (notices : ∀ s, (f s).queue.notices = s.queue.notices := by intros; rfl)
    (pointer : ∀ s, (f s).queue.sendPointer = s.queue.sendPointer := by intros; rfl) : Tells f :=
  ⟨gap, fun s => .quiet (held s) (receiver s) (answer s) (transmitter s) (notices s) (pointer s)⟩

theorem id : Tells id := ⟨fun _ _ => rfl, .refl⟩

theorem comp (hg : Tells g) (hf : Tells f) : Tells fun s => g (f s) :=
  ⟨fun timer s => (congrArg g (hf.gap timer s)).trans (hg.gap timer _), fun s => (hf.notifies s).trans (hg.notifies _)⟩

/-- An effect that goes different ways by something that the gap timer has no say in. -/
theorem cases {α : Type} (k : State → α) (ways : ∀ a, ∃ g, Tells g ∧ ∀ s, k s = a → f s = g s)
    (blind : ∀ timer s, k (s.withGap timer) = k s := by intros; rfl) : Tells f := by
  refine ⟨fun timer s => ?_, fun s => ?_⟩ <;> obtain ⟨g, tells, way⟩ := ways (k s)
  · rw [way _ (blind timer s), way s rfl, tells.gap]
  · rw [way s rfl]
    exact tells.notifies s

theorem ite {c : State → Prop} [DecidablePred c] (hf : Tells f) (hg : Tells g)
    (blind : ∀ timer s, c (s.withGap timer) = c s := by intros; rfl) : Tells fun s => if c s then f s else g s := by
  refine .cases c (fun a => ?_) blind
  by_cases holds : a
  · exact ⟨f, hf, fun s is => if_pos (is ▸ holds)⟩
  · exact ⟨g, hg, fun s is => if_neg (is ▸ holds)⟩

theorem foldl {α : Type} {f : State → α → State} (h : ∀ a, Tells fun s => f s a) (l : List α) :
    Tells fun s => l.foldl f s where
  gap timer s := List.foldl_hom (fun s : State => s.withGap timer) fun s a => (h a).gap timer s
  notifies s := by
    induction l generalizing s with
    | nil => exact .refl s
    | cons a l ih => exact ((h a).notifies s).trans (ih _)

end Tells

theorem tells_submit (body : NoticeBody) : Tells (submit body) :=
  ⟨fun timer s => startNext_withGap { s with queue := s.queue.offer body s.timeStamp s.counter.position } timer,
    notifies_submit body⟩

/-- A notice that says something of the state before other work, and is submitted after it. -/
theorem Tells.submits (body : State → NoticeBody) (h : Tells f)
    (blind : ∀ timer s, body (s.withGap timer) = body s := by intros; rfl) : Tells fun s => submit (body s) (f s) :=
  .cases body (fun b => ⟨_, (tells_submit b).comp h, fun s is => by rw [is]⟩) blind

/-! ### Destinations -/

theorem tells_submitDest (d : Station) : Tells (submitDest d) := .submits _ .id

theorem tells_setDestination (d : Station) (f : DestRecord → DestRecord) : Tells (setDestination d f) := .quiet

theorem tells_changeCauses (d : Station) (f : Causes → Causes) : Tells (changeCauses d f) :=
  .ite .id ((tells_submitDest d).comp (tells_setDestination d _))

theorem tells_endBatch (d : Station) : Tells (endBatch d) :=
  .ite (c := fun s => (s.destination d).autoReload = true) ((tells_setDestination d _).comp (.submits _ .id))
    ((tells_changeCauses d _).comp (.submits _ .id))

theorem tells_terminalCount (d : Station) : Tells (terminalCount d) := .ite (tells_endBatch d) .id

theorem tells_returnUnit (tag : Tag) : Tells (returnUnit tag) := by
  refine .cases (fun s => (s.entry tag).bind (·.reservedWith)) fun o => ?_
  cases o with
  | none => exact ⟨_, .id, fun s none => by rw [returnUnit, none]; rfl⟩
  | some d =>
    exact ⟨fun s => setEntry tag (fun e => { e with reservedWith := none }) (setDestination d DestRecord.giveBack s),
      .quiet, fun s holds => by rw [returnUnit, holds]⟩

theorem tells_resetDestinations : Tells resetDestinations := by
  refine .cases (fun s d => s.installed d && (s.destination d).causes != { host := true })
    fun other => ⟨fun s => (List.finRange 16).foldl (fun t d => if other d then submitDest d t else t)
      { s with
        destinations := Vector.replicate 16 DestRecord.atReset
        runOff := { s.runOff with filled := 0, serial := 0 } }, ?_, ?_⟩
  · refine Tells.comp (.foldl (fun d => ?_) _) .quiet
    exact .ite (c := fun _ => other d = true) (tells_submitDest d) .id
  · rintro s rfl
    rfl

/-! ### The way to the run-off -/

theorem tells_runoffRemoval (e : Entry) : Tells (runoffRemoval e) := by
  have missing : Tells fun s =>
      if (s.config.line.exitEye && !e.flags.exitSeen) = true then submit (.exitMissing e.tag) s else s :=
    .ite (tells_submit _) .id
  exact Tells.comp (g := fun s => { removeEntry e.tag s with runOff := (removeEntry e.tag s).runOff.countRunoff })
    .quiet ((tells_submit _).comp missing)

theorem tells_deliverRunoff (tag : Tag) : Tells (deliverRunoff tag) := by
  refine .cases (fun s => s.entry tag) fun o => ?_
  cases o with
  | none => exact ⟨_, .id, fun s none => by rw [deliverRunoff, none]; rfl⟩
  | some e => exact ⟨_, tells_runoffRemoval e, fun s found => by rw [deliverRunoff, found]⟩

/-- A watch is inserted at a point of the state. -/
theorem tells_insertWatch (p : State → Position) (k : WatchKind)
    (blind : ∀ timer s, p (s.withGap timer) = p s := by intros; rfl) : Tells fun s => insertWatch (p s) k s :=
  .cases p (fun q => ⟨insertWatch q k, .quiet, fun s is => by rw [is]⟩) blind

theorem tells_placeRunoff (tag : Tag) : Tells (placeRunoff tag) := by
  refine .cases (fun s => s.entry tag) fun o => ?_
  cases o with
  | none => exact ⟨_, .id, fun s none => by rw [placeRunoff, none]; rfl⟩
  | some e =>
    exact ⟨_, .ite (c := fun s => dueAtOnce (runoffPoint s.config.line e) s = true) (tells_deliverRunoff tag)
      (tells_insertWatch (fun s => runoffPoint s.config.line e) (.runoff tag)),
      fun s found => by rw [placeRunoff, found]⟩

theorem tells_sendToRunoff (tag : Tag) (r : Reason) : Tells (sendToRunoff tag r) :=
  (tells_placeRunoff tag).comp .quiet

theorem tells_giveBackToBelt (tag : Tag) (r : Reason) : Tells (giveBackToBelt tag r) :=
  (tells_sendToRunoff tag r).comp (tells_returnUnit tag)

/-! ### Diverters and the arbiter -/

theorem tells_leavePending (d : Station) (tag : Tag) : Tells (leavePending d tag) :=
  .ite .quiet .quiet

theorem tells_endRecovery (d : Station) : Tells (endRecovery d) :=
  .ite .quiet .quiet

theorem tells_releaseDiverter (d : Station) : Tells (releaseDiverter d) :=
  .ite (c := fun s => (s.record d).recovery = 0) ((tells_endRecovery d).comp .quiet) .quiet

theorem tells_deliverRelease (d : Station) (tag : Tag) : Tells (deliverRelease d tag) :=
  .ite (.ite ((tells_releaseDiverter d).comp .quiet) .quiet) .id

theorem tells_placeRelease (d : Station) (tag : Tag) : Tells (placeRelease d tag) := by
  refine .cases (fun s => s.entry tag) fun o => ?_
  cases o with
  | none => exact ⟨_, .id, fun s none => by rw [placeRelease, none]; rfl⟩
  | some e =>
    exact ⟨_, .ite (c := fun s => dueAtOnce (releasePoint (s.record d) e) s = true) (tells_deliverRelease d tag)
      (tells_insertWatch (fun s => releasePoint (s.record d) e) (.release d tag)),
      fun s found => by rw [placeRelease, found]⟩

theorem tells_grant (d : Station) : Tells (grant d) := by
  refine .cases (fun s => (s.diverter d).pending) fun tags => ⟨fun s =>
    tags.foldl (fun t tag => placeRelease d tag (removeWatch tag t)) (markPushing tags (setDiverter d
      (fun v => { v with push := v.push ++ tags, pending := [] }) (energise d (setWaiting d false s)))), ?_, ?_⟩
  · have pushing (tag : Tag) : Tells fun t => setEntry tag (fun e => { e with state := .pushing }) t := .quiet
    have removed (tag : Tag) : Tells (removeWatch tag) := .quiet
    have marked : Tells (markPushing tags) := .foldl pushing tags
    exact (Tells.foldl (fun tag => (tells_placeRelease d tag).comp (removed tag)) tags).comp (marked.comp .quiet)
  · rintro s rfl
    rfl

theorem tells_arbitrateRounds (n : Nat) : Tells (arbitrateRounds n) := by
  induction n with
  | zero => exact .id
  | succ n ih =>
    have round : Tells fun s => match s.chosen with | some d => arbitrateRounds n (grant d s) | none => s := by
      refine .cases (State.chosen) fun o => ?_
      cases o with
      | none => exact ⟨_, .id, fun s none => by rw [none]; rfl⟩
      | some d => exact ⟨_, ih.comp (tells_grant d), fun s chosen => by rw [chosen]⟩
    exact .ite (c := fun s => s.slotFree = true) round .id

/-! ### The line -/

theorem tells_requestHalt (cause : HaltCause) : Tells (requestHalt cause) :=
  .ite (.submits (fun s => .lineState s.line.state .halted (.halt cause)) .quiet) .id

theorem tells_drainTest : Tells drainTest := .ite ((tells_submit _).comp .quiet) .id

theorem tells_settle : Tells settle := tells_drainTest.comp (g := drainTest) (f := arbitrate) (tells_arbitrateRounds 16)

theorem tells_startLine : Tells startLine := (tells_submit _).comp .quiet

theorem tells_beginDrain : Tells beginDrain := (tells_submit _).comp .quiet

theorem tells_clearWork : Tells clearWork := by
  refine .cases (fun s => s.table.map (·.tag)) fun tags => ⟨fun s => { setSlot .empty
    (forgetTrailing (markHighWater (clearLatch { tags.foldl (fun t tag => returnUnit tag t) s with table := [] }))) with
      watches := [] }, ?_, ?_⟩
  · exact Tells.comp (g := fun s => { setSlot .empty
      (forgetTrailing (markHighWater (clearLatch { s with table := [] }))) with watches := [] })
      .quiet (.foldl tells_returnUnit tags)
  · rintro s rfl
    rfl

theorem tells_cleared : Tells fun s => submit (.cleared s.occupancy) (clearWork s) :=
  .submits (fun s => .cleared s.occupancy) tells_clearWork

theorem tells_clearHalted : Tells clearHalted := by
  refine .cases (fun s => s.line.runPermit) fun permit => ⟨fun s =>
    submitLine .halted .ready .clear
      (evaluateHold (setLine .ready .none permit (submit (.cleared s.occupancy) (clearWork s)))), ?_, ?_⟩
  · exact (tells_submit _).comp (Tells.comp (g := fun s => evaluateHold (setLine .ready .none permit s))
      .quiet tells_cleared)
  · rintro s rfl
    rfl

theorem tells_clearReady : Tells clearReady :=
  Tells.comp (g := evaluateHold) .quiet tells_cleared

/-! ### The orders' effects -/

theorem tells_commit : Tells commit := by
  have line : Tells commitLine := .ite ((tells_submit _).comp .quiet) .id
  exact line.comp (tells_resetDestinations.comp .quiet)

theorem tells_dropPending (e : Entry) : Tells (dropPending e) := by
  have given := tells_giveBackToBelt e.tag .dropped
  refine .cases (fun _ => e.target) fun x => ?_
  cases x with
  | station d => exact ⟨_, given.comp (tells_leavePending d e.tag), fun s target => by rw [dropPending, target]⟩
  | runOff => exact ⟨_, given, fun s target => by rw [dropPending, target]⟩

theorem tells_endPush (d : Station) : Tells (endPush d) := by
  refine .cases (fun s => (s.diverter d).push) fun tags => ⟨fun s =>
    tags.foldl (fun t tag => truncatePush d tag t) (setDiverter d (fun v => { v with push := [] }) s), ?_, ?_⟩
  · have truncated (tag : Tag) : Tells (truncatePush d tag) := .quiet
    exact (Tells.foldl truncated tags).comp .quiet
  · rintro s rfl
    rfl

theorem tells_emptyPending (d : Station) : Tells (emptyPending d) := by
  refine .cases (fun s => (s.diverter d).pending) fun tags => ⟨fun s =>
    tags.foldl (fun t tag => giveBackToBelt tag .disabled t) (setDiverter d (fun v => { v with pending := [] }) s), ?_, ?_⟩
  · exact (Tells.foldl (fun tag => tells_giveBackToBelt tag .disabled) tags).comp .quiet
  · rintro s rfl
    rfl

theorem tells_switchOff (d : Station) : Tells (switchOff d) := by
  have freed : Tells fun s => if (s.diverter d).state = .energised then freeSlot s else s :=
    .ite .quiet .id
  exact Tells.comp (g := fun s => setDiverter d Diverter.disable (setWaiting d false s)) .quiet freed

theorem tells_disableDiverter (d : Station) : Tells (disableDiverter d) :=
  Tells.comp (g := settle) tells_settle ((tells_changeCauses d _).comp
    ((tells_switchOff d).comp ((tells_emptyPending d).comp (tells_endPush d))))

end Sys2Proof.Machine
end

