-- ==== Sys2Proof/Proofs/OrderRules.lean ====
section
/-! PROOF. What the rules of the orders do to the link unit and the report queue, and the form checks before them: O8. -/

namespace Sys2Proof.Machine

variable {s t : State} {f : State → State} {act other : State → State × Reply} {own : OrderRule} {k : OrderKind}
  {number : Half} {payload : List Byte}

/-! ### What a rule leaves to the answer (R151, R152) -/

/-- What an order's rule does before the answer is placed: a busy transmitter goes on, and a free one may start a notice,
which the report queue then shows. -/
structure Starts (s t : State) : Prop where
  held : t.held = s.held
  receiver : t.link.receiver = s.link.receiver
  answer : t.link.answer = s.link.answer
  busy : s.link.transmitter ≠ .free → t.link.transmitter = s.link.transmitter
  idle : s.link.transmitter = .free → s.link.answer = none →
    t.link.transmitter = .free
      ∨ ((∃ n ∈ t.queue.notices, t.link.transmitter = .sending false n.frame.bytes) ∧ t.queue ≠ s.queue)

theorem Notifies.starts (h : Notifies s t) : Starts s t := by
  refine ⟨h.held, h.receiver, h.answer, fun busy => (h.busy busy).1, fun free empty => ?_⟩
  rcases h.idle free empty with ⟨still, -⟩ | ⟨sending, pointer⟩
  · exact .inl still
  · refine .inr ⟨sending, fun same => ?_⟩
    rw [same] at pointer
    exact absurd pointer (by simp)

/-- A rule with its payload: the gap timer has no say in it, and it leaves to the answer what `Starts` says. -/
structure Acts (act : State → State × Reply) : Prop where
  gap : ∀ timer s, act (s.withGap timer) = ((act s).1.withGap timer, (act s).2)
  starts : ∀ s, Starts s (act s).1

namespace Acts

/-- An effect with its answer. -/
theorem tells (h : Tells f) (reply : State → Reply)
    (blind : ∀ timer s, reply (s.withGap timer) = reply s := by intros; rfl) : Acts fun s => (f s, reply s) :=
  ⟨fun timer s => by rw [h.gap, blind], fun s => (h.notifies s).starts⟩

theorem done (h : Tells f) : Acts fun s => done (f s) := .tells h fun _ => ⟨.done, []⟩

theorem refuse (r : Result) : Acts (refuse r) := .tells .id fun _ => ⟨r, []⟩

theorem cases {α : Type} (k : State → α) (ways : ∀ a, ∃ other, Acts other ∧ ∀ s, k s = a → act s = other s)
    (blind : ∀ timer s, k (s.withGap timer) = k s := by intros; rfl) : Acts act := by
  refine ⟨fun timer s => ?_, fun s => ?_⟩ <;> obtain ⟨other, acts, way⟩ := ways (k s)
  · rw [way _ (blind timer s), way s rfl, acts.gap]
  · rw [way s rfl]
    exact acts.starts s

theorem ite {c : State → Prop} [DecidablePred c] (h : Acts act) (h' : Acts other)
    (blind : ∀ timer s, c (s.withGap timer) = c s := by intros; rfl) :
    Acts fun s => if c s then act s else other s := by
  refine .cases c (fun a => ?_) blind
  by_cases holds : a
  · exact ⟨act, h, fun s is => if_pos (is ▸ holds)⟩
  · exact ⟨other, h', fun s is => if_neg (is ▸ holds)⟩

end Acts

/-! ### The checks before a rule -/

theorem acts_formChecked (h : ∀ p, Acts (own p)) (p : List Byte) : Acts (formChecked k own p) :=
  .ite (.refuse _) (.ite (.refuse _) (h p))

theorem acts_linkChecked (h : ∀ p, Acts (own p)) (p : List Byte) : Acts (linkChecked own p) :=
  .ite (.refuse _) (h p)

theorem acts_lineChecked (h : ∀ p, Acts (own p)) (p : List Byte) : Acts (lineChecked own p) :=
  acts_linkChecked (fun p => .ite (h p) (.refuse _)) p

theorem acts_destinationChecked {own : Station → OrderRule} (h : ∀ d p, Acts (own d p)) (p : List Byte) :
    Acts (destinationChecked own p) := by
  refine .ite (.refuse _) ?_
  cases Dest.ofNumber (number1 p 0) with
  | none => exact .refuse _
  | some x =>
    cases x with
    | runOff => exact .refuse _
    | station d => exact .ite (h d p) (.refuse _)

theorem acts_diverterChecked {own : Station → OrderRule} (h : ∀ d p, Acts (own d p)) (p : List Byte) :
    Acts (diverterChecked own p) := by
  refine .ite (.refuse _) ?_
  cases stationOf (number1 p 0) with
  | none => exact .refuse _
  | some d => exact .ite (h d p) (.refuse _)

/-! ### The rules -/

theorem acts_cfgl : ∀ p, Acts (cfgl p) := by
  refine acts_formChecked (acts_linkChecked fun p => ?_)
  cases lineRecordOf p with
  | none => exact .refuse _
  | some r => exact .ite (.done .quiet) (.refuse _)

theorem acts_cfgd : ∀ p, Acts (cfgd p) := by
  refine acts_formChecked (acts_linkChecked fun p => ?_)
  cases stationOf (number1 p 0) with
  | none => exact .refuse _
  | some d =>
    cases diverterRecordOf p with
    | none => exact .refuse _
    | some r => exact .ite (.done .quiet) (.refuse _)

theorem acts_cmit : ∀ p, Acts (cmit p) := by
  refine acts_formChecked (acts_linkChecked fun p => .ite ?_ (.refuse _))
  refine .cases (fun s => s.pendingConfig.failure) fun o => ?_
  cases o with
  | none => exact ⟨_, .done tells_commit, fun s none => by rw [none]⟩
  | some fails =>
    exact ⟨_, .tells .id fun _ => ⟨.configInvalid, [count1 fails.1, count1 fails.2]⟩, fun s some => by rw [some]; rfl⟩

theorem acts_rdcf : ∀ p, Acts (rdcf p) := by
  refine acts_formChecked fun p => ?_
  cases boolOfCode (byteAt p 0) with
  | none => exact .refuse _
  | some active =>
    refine .cases (fun s => (if active then s.config else s.pendingConfig).recordBytes (number1 p 1)) fun o => ?_
    cases o with
    | none => exact ⟨_, .refuse .badArg, fun s none => by dsimp only; rw [none]⟩
    | some bytes =>
      exact ⟨_, .tells .id fun _ => ⟨.done, [byteAt p 0, byteAt p 1] ++ bytes⟩,
        fun s some => by dsimp only; rw [some]; rfl⟩

theorem acts_strt : ∀ p, Acts (strt p) :=
  acts_formChecked (acts_linkChecked fun _ => .ite (.done tells_startLine) (.refuse _))

theorem acts_stop : ∀ p, Acts (stop p) := by
  refine acts_formChecked fun p => .cases (fun s => s.line.state) fun line => ?_
  cases line with
  | running => exact ⟨_, .done (tells_drainTest.comp tells_beginDrain), fun s line => by rw [line]⟩
  | draining => exact ⟨_, .done .id, fun s line => by rw [line]; rfl⟩
  | idle | ready | halted => exact ⟨_, .refuse .state, fun s line => by rw [line]⟩

theorem acts_halt : ∀ p, Acts (halt p) := acts_formChecked fun _ => .done (tells_requestHalt .order)

theorem acts_clr : ∀ p, Acts (clr p) :=
  acts_formChecked fun _ => .ite (.refuse _) (.ite (.refuse _) (.ite (.done tells_clearHalted) (.done tells_clearReady)))

theorem acts_rstr : ∀ p, Acts (rstr p) := acts_formChecked fun _ => .done .quiet

theorem acts_asgn : ∀ p, Acts (asgn p) := by
  refine acts_formChecked (acts_lineChecked fun p => ?_)
  cases Dest.ofNumber (number1 p 2) with
  | none => exact .refuse _
  | some d =>
    refine .ite (.refuse _) (.cases (fun s => s.entry (halfAt p 0)) fun o => ?_)
    cases o with
    | none => exact ⟨_, .refuse .noSuchTag, fun s none => by rw [none]⟩
    | some e =>
      have late : Tells (markLate e) := .ite .quiet .id
      have assigned : Tells (assignEntry d e) := .quiet
      exact ⟨_, .ite (c := fun _ => e.reason.forced = true) (.refuse .state)
        (.ite (c := fun _ => e.state ≠ .travelling) (.refuse .late)
          (.ite (c := fun s => reached s.counter.position (s.destPoint d e) = true)
            (.tells late fun _ => ⟨.late, []⟩) (.done assigned))),
        fun s found => by rw [found]⟩

theorem acts_drop : ∀ p, Acts (drop p) := by
  refine acts_formChecked (acts_lineChecked fun p => .cases (fun s => s.entry (halfAt p 0)) fun o => ?_)
  cases o with
  | none => exact ⟨_, .refuse .noSuchTag, fun s none => by rw [none]⟩
  | some e =>
    cases state : e.state with
    | travelling => exact ⟨_, .done (tells_sendToRunoff e.tag .dropped), fun s found => by rw [found]; simp only [state]⟩
    | pending => exact ⟨_, .done (tells_dropPending e), fun s found => by rw [found]; simp only [state]⟩
    | pushing | confirming | frozen => exact ⟨_, .refuse .late, fun s found => by rw [found]; simp only [state]⟩

theorem acts_qitm : ∀ p, Acts (qitm p) := by
  refine acts_formChecked fun p => .cases (fun s => s.entry (halfAt p 0)) fun o => ?_
  cases o with
  | none => exact ⟨_, .refuse .noSuchTag, fun s none => by rw [none]⟩
  | some e =>
    exact ⟨_, .tells .id fun s => ⟨.done, itemData (s.table.findIdx (fun x => x.tag == e.tag)) e⟩,
      fun s found => by rw [found]; rfl⟩

theorem acts_list : ∀ p, Acts (list p) :=
  acts_formChecked fun p => .ite (.refuse _) (.tells .id fun s => ⟨.done, listData (number1 p 0) s.table⟩)

theorem acts_opnd : ∀ p, Acts (opnd p) := by
  refine acts_formChecked (acts_linkChecked (acts_destinationChecked fun d p => ?_))
  cases boolOfCode (byteAt p 1) with
  | none => exact .refuse _
  | some reload => exact .ite (.refuse _) (.done ((tells_submitDest d).comp (tells_setDestination d _)))

theorem acts_clsd : ∀ p, Acts (clsd p) :=
  acts_formChecked (acts_linkChecked (acts_destinationChecked fun d _ => .done (tells_changeCauses d _)))

theorem acts_adjd : ∀ p, Acts (adjd p) :=
  acts_formChecked (acts_linkChecked (acts_destinationChecked fun d _ =>
    .ite (.refuse _) (.ite (.refuse _) (.done ((tells_terminalCount d).comp (tells_setDestination d _))))))

theorem acts_qdst : ∀ p, Acts (qdst p) := by
  refine acts_formChecked fun p => .ite (.refuse _) ?_
  cases Dest.ofNumber (number1 p 0) with
  | none => exact .refuse _
  | some x =>
    cases x with
    | runOff => exact .tells .id fun s => ⟨.done, destData 0 s.runOff⟩
    | station d =>
      exact .ite (.tells .id fun s => ⟨.done, destData (stationNumber d) (s.destination d)⟩) (.refuse _)

theorem acts_dena : ∀ p, Acts (dena p) :=
  acts_formChecked (acts_linkChecked (acts_diverterChecked fun d _ =>
    .ite (.done ((tells_changeCauses d _).comp .quiet)) (.done .id)))

theorem acts_ddis : ∀ p, Acts (ddis p) :=
  acts_formChecked (acts_linkChecked (acts_diverterChecked fun d _ =>
    .ite (.done .id) (.done (tells_disableDiverter d))))

theorem acts_tfir : ∀ p, Acts (tfir p) := by
  refine acts_formChecked (acts_linkChecked fun p => .ite (.refuse _) ?_)
  cases stationOf (number1 p 0) with
  | none => exact .refuse _
  | some d => exact .ite (.refuse _) (.ite (.refuse _) (.ite (.refuse _) (.done .quiet)))

theorem acts_link : ∀ p, Acts (link p) := by
  refine acts_formChecked fun p => ?_
  cases LossAction.ofCode (byteAt p 2) with
  | none => exact .refuse _
  | some action => exact .ite (.done .quiet) (.refuse _)

theorem tells_startNext : Tells startNext := ⟨fun timer s => startNext_withGap s timer, notifies_startNext⟩

theorem acts_wind : ∀ p, Acts (wind p) :=
  acts_formChecked fun _ => .ite (.refuse _) (.done (tells_startNext.comp .quiet))

/-- A valid ACK moves the head: the in-flight count is too small for the number before the head (R157, R161). -/
theorem ack_moves_head {q : ReportQueue} {n : Half} (valid : q.distance n < q.inFlight) : n + 1 ≠ q.head := by
  have few : q.inFlight < 65536 := (q.highestSent + 1 - q.head).isLt
  intro same
  rw [ReportQueue.distance, ← same, show n - (n + 1) = 65535#16 by bv_omega] at valid
  exact absurd valid (by simp; omega)

/-- The state in which a valid ACK leaves the choice of the next frame (R161). -/
def State.acknowledged (s : State) (n : Half) : State := { s with queue := s.queue.acknowledge n s.timeStamp }

theorem acts_ack : ∀ p, Acts (ack p) := by
  refine acts_formChecked fun p => ⟨fun timer s => ?_, fun s => ?_⟩
  · by_cases valid : s.queue.distance (halfAt p 0) < s.queue.inFlight
    · rw [if_pos valid]
      exact (if_pos valid).trans (congrArg done (startNext_withGap (s.acknowledged (halfAt p 0)) timer))
    · rw [if_neg valid]
      exact if_neg valid
  · split
    · rename_i valid
      obtain ⟨held, receiver, answer, busy, idle⟩ := (notifies_startNext (s.acknowledged (halfAt p 0))).starts
      refine ⟨held, receiver, answer, busy, fun free empty => ?_⟩
      refine (idle free empty).imp_right fun ⟨sending, _⟩ => ⟨sending, fun same => ?_⟩
      exact ack_moves_head valid ((startNext_queue_head _).symm.trans (congrArg ReportQueue.head same))
    · exact (Notifies.refl s).starts

theorem acts_rsum : ∀ p, Acts (rsum p) :=
  acts_formChecked fun _ => .ite (.done ((tells_submit _).comp .quiet)) (.done .id)

theorem acts_stat : ∀ p, Acts (stat p) := by
  refine acts_formChecked fun p => ?_
  cases boolOfCode (byteAt p 0) with
  | none => exact .refuse _
  | some clear => exact .tells (.ite (c := fun _ => clear = true) .quiet .id) fun s => ⟨.done, statData s⟩

/-- Every order's rule (R172). -/
theorem acts_rule (k : OrderKind) : ∀ p, Acts (k.rule p) := by
  cases k
  case cfgl => exact acts_cfgl
  case cfgd => exact acts_cfgd
  case cmit => exact acts_cmit
  case rdcf => exact acts_rdcf
  case strt => exact acts_strt
  case stop => exact acts_stop
  case halt => exact acts_halt
  case clr => exact acts_clr
  case rstr => exact acts_rstr
  case asgn => exact acts_asgn
  case drop => exact acts_drop
  case qitm => exact acts_qitm
  case list => exact acts_list
  case opnd => exact acts_opnd
  case clsd => exact acts_clsd
  case adjd => exact acts_adjd
  case qdst => exact acts_qdst
  case dena => exact acts_dena
  case ddis => exact acts_ddis
  case tfir => exact acts_tfir
  case link => exact acts_link
  case wind => exact acts_wind
  case ack => exact acts_ack
  case rsum => exact acts_rsum
  case stat => exact acts_stat

/-! ### The form checks (R150) -/

/-- Every order's rule begins with the form checks. -/
theorem rule_formChecked (k : OrderKind) : ∃ own, k.rule = formChecked k own := by
  cases k <;> exact ⟨_, rfl⟩

theorem rule_badLength (wrong : payload.length ≠ k.payloadLength) (s : State) :
    k.rule payload s = refuse .badLength s := by
  obtain ⟨own, rule⟩ := rule_formChecked k
  rw [rule, formChecked, if_pos wrong]

theorem rule_reserved (right : payload.length = k.payloadLength) (set : ∃ i ∈ k.reserved, byteAt payload i ≠ 0)
    (s : State) : k.rule payload s = refuse .badArg s := by
  have any : k.reserved.any (fun i => byteAt payload i != 0) = true := by simpa using set
  obtain ⟨own, rule⟩ := rule_formChecked k
  rw [rule, formChecked, if_neg (not_not.mpr right), if_pos any]

end Sys2Proof.Machine

open Sys2Proof Sys2Proof.Machine

/-- Settles O8: the rule leaves the transmitter as `Starts` says (`acts_rule`), and a transmitter that is still free
takes the answer; the form checks are `rule_badLength` and `rule_reserved`. -/
theorem orderFormChecks : Obligations.OrderFormChecks := by
  unfold Obligations.OrderFormChecks
  intro k number p s takes
  refine ⟨?_, fun wrong => exec_refused takes (rule_badLength wrong s),
    fun right set => exec_refused takes (rule_reserved right set s)⟩
  obtain ⟨-, -, empty, busy, idle⟩ := (acts_rule k p).starts s
  have queue : (answerOrder k.rule number k.code p s).queue = (k.rule p s).1.queue := placeAnswer_queue _ _
  have sends (still : (k.rule p s).1.link.transmitter = .free) := transmitter_answerOrder_free still number k.code
  have keeps (on : (k.rule p s).1.link.transmitter ≠ .free) := transmitter_answerOrder_busy on number k.code
  refine ⟨answerOrder k.rule number k.code p s, answerFrame number k.code (k.rule p s).2,
    (exec_command k number p s).trans (event_takes takes k.rule p), placeAnswer_answer _ _,
    answered_answerOrder k.rule number k.code p s, fun on => ?_, fun free same => ?_, fun free => ?_⟩
  · have on' := busy on
    rw [← on']
    exact keeps (on' ▸ on)
  · rw [queue] at same
    rcases idle free takes.2.1 with still | ⟨-, other⟩
    · exact sends still
    · exact absurd same other
  · rw [queue]
    rcases idle free takes.2.1 with still | ⟨⟨n, m, sending⟩, -⟩
    · exact .inl (sends still)
    · exact .inr ⟨n, m, (keeps (by rw [sending]; exact Transmitter.noConfusion)).trans sending⟩
end

