-- ==== Sys2Proof/Proofs/Reexamination.lean ====
section
/-! PROOF. Characters at the receiver: what one character does, the re-examination of held bytes as if they arrived one
after another, and the order that a good frame brings. -/

namespace Sys2Proof.Machine

variable {s t : State} {f : Frame} {rest : List Frame} {rule : OrderRule} {number : Half} {kind : Byte}

/-! ### Orders are taken whatever the gap timer is (R149) -/

theorem acts_ruleOf (kind : Byte) : ∀ p, Acts (ruleOf kind p) := by
  unfold ruleOf
  cases OrderKind.ofCode kind with
  | none => exact fun _ => .refuse _
  | some k => exact acts_rule k

theorem placeAnswer_withGap (f : Frame) (s : State) (timer : Timer) :
    placeAnswer f (s.withGap timer) = (placeAnswer f s).withGap timer :=
  startNext_withGap { s with link := { s.link with answer := some f } } timer

theorem answerOrder_withGap (acts : ∀ p, Acts (rule p)) (number : Half) (kind : Byte) (payload : List Byte) (s : State)
    (timer : Timer) :
    answerOrder rule number kind payload (s.withGap timer) = (answerOrder rule number kind payload s).withGap timer := by
  unfold answerOrder
  rw [(acts payload).gap]
  exact placeAnswer_withGap _ (recordOrder number kind _ (rule payload s).1) timer

theorem takeOrder_withGap (acts : ∀ p, Acts (rule p)) (number : Half) (kind : Byte) (payload : List Byte) (s : State)
    (timer : Timer) :
    takeOrder rule number kind payload (s.withGap timer) = (takeOrder rule number kind payload s).withGap timer := by
  unfold takeOrder
  rw [show (s.withGap timer).replayed number kind = s.replayed number kind from rfl]
  cases s.replayed number kind with
  | none =>
    rw [answerOrder_withGap acts]
    exact (apply_ite (State.withGap · timer) _ _ _).symm
  | some f =>
    dsimp only
    rw [placeAnswer_withGap]
    exact (apply_ite (State.withGap · timer) _ _ _).symm

/-- Taking an order leaves the receiver, and neither begins nor ends a reset. -/
theorem takeOrder_keeps (acts : ∀ p, Acts (rule p)) (number : Half) (kind : Byte) (payload : List Byte) (s : State) :
    (takeOrder rule number kind payload s).link.receiver = s.link.receiver
      ∧ (takeOrder rule number kind payload s).held = s.held := by
  have starts := (acts payload).starts s
  unfold takeOrder
  split
  · exact ⟨rfl, rfl⟩
  · split
    · exact ⟨placeAnswer_receiver _ s, placeAnswer_held _ s⟩
    · exact ⟨(placeAnswer_receiver _ _).trans starts.receiver, (placeAnswer_held _ _).trans starts.held⟩

theorem serviceOrders_cons (orders : s.link.orders = f :: rest) : serviceOrders s =
    if s.link.answer.isSome then s
    else takeOrder (ruleOf f.kind) f.number f.kind f.payload { s with link := { s.link with orders := rest } } := by
  rw [serviceOrders, orders]

theorem serviceOrders_withGap (s : State) (timer : Timer) :
    serviceOrders (s.withGap timer) = (serviceOrders s).withGap timer := by
  cases orders : s.link.orders with
  | nil =>
    rw [serviceOrders_empty orders]
    exact serviceOrders_empty (s := s.withGap timer) orders
  | cons f rest =>
    have taken := takeOrder_withGap (acts_ruleOf f.kind) f.number f.kind f.payload
      { s with link := { s.link with orders := rest } } timer
    rw [serviceOrders_cons orders, apply_ite (State.withGap · timer), ← taken]
    exact serviceOrders_cons (s := s.withGap timer) orders

theorem serviceOrders_keeps (s : State) :
    (serviceOrders s).link.receiver = s.link.receiver ∧ (serviceOrders s).held = s.held := by
  cases orders : s.link.orders with
  | nil =>
    rw [serviceOrders_empty orders]
    exact ⟨rfl, rfl⟩
  | cons f rest =>
    rw [serviceOrders_cons orders]
    split
    · exact ⟨rfl, rfl⟩
    · exact takeOrder_keeps (acts_ruleOf f.kind) f.number f.kind f.payload _

/-- The buffer takes two frames, and a third is counted as an overrun (R148). -/
theorem offerOrder_eq (f : Frame) (s : State) : offerOrder f s = { s with link := { s.link with
    orders := if s.link.orders.length < 2 then s.link.orders ++ [f] else s.link.orders
    overruns := if s.link.orders.length < 2 then s.link.overruns else min 65535 (s.link.overruns + 1) } } := by
  by_cases room : s.link.orders.length < 2
  · rw [if_pos room, if_pos room]
    exact if_pos room
  · rw [if_neg room, if_neg room]
    exact if_neg room

theorem goodFrame_withGap (f : Frame) (s : State) (timer : Timer) :
    goodFrame f (s.withGap timer) = (goodFrame f s).withGap timer := by
  have offered : offerOrder f (restartSupervision (s.withGap timer)) = (offerOrder f (restartSupervision s)).withGap timer := by
    rw [offerOrder_eq, offerOrder_eq]
    rfl
  rw [goodFrame, offered, serviceOrders_withGap]
  rfl

theorem goodFrame_keeps (f : Frame) (s : State) :
    (goodFrame f s).link.receiver = s.link.receiver ∧ (goodFrame f s).held = s.held := by
  obtain ⟨receiver, held⟩ := serviceOrders_keeps (offerOrder f (restartSupervision s))
  rw [offerOrder_eq] at receiver held
  rw [goodFrame, offerOrder_eq]
  exact ⟨receiver, held⟩

/-! ### One character (R144, R146) -/

theorem judge_hunting (b : Byte) :
    judge .hunting b = if b = syncByte then .more (.assembling [b]) else .more .hunting := rfl

theorem judge_assembling (before : List Byte) (b : Byte) : judge (.assembling before) b =
    if (before ++ [b]).length < 2 then .more (.assembling (before ++ [b]))
    else if 48 < number1 (before ++ [b]) 1 then .again (before ++ [b]).tail
    else if (before ++ [b]).length < number1 (before ++ [b]) 1 + 8 then .more (.assembling (before ++ [b]))
    else judgeComplete (before ++ [b]) := rfl

theorem judgeComplete_eq (held : List Byte) : judgeComplete held =
    if crc ((held.drop 1).take (number1 held 1 + 5)) ≠ halfAt held (number1 held 1 + 6) then .again held.tail
    else if byteAt held 2 ≠ classOrder then .foreign
    else .good {
      cls := byteAt held 2, kind := byteAt held 3, number := halfAt held 4
      payload := (held.drop 6).take (number1 held 1) } := rfl

/-- Everything that a character can do: it joins the held bytes or leaves the receiver in HUNTING, or it ends a frame,
and the bytes examined again are the held ones from the second on (R144, R146). -/
theorem judge_cases (r : Receiver) (b : Byte) :
    (∃ r', judge r b = .more r' ∧ r'.held.length ≤ r.held.length + 1)
      ∨ judge r b = .again (r.held ++ [b]).tail ∨ judge r b = .foreign ∨ ∃ f, judge r b = .good f := by
  cases r with
  | hunting =>
    rw [judge_hunting]
    split
    · exact .inl ⟨_, rfl, le_rfl⟩
    · exact .inl ⟨_, rfl, Nat.zero_le _⟩
  | assembling before =>
    have joins : (Receiver.assembling (before ++ [b])).held.length ≤ (Receiver.assembling before).held.length + 1 := by
      simp [Receiver.held]
    rw [judge_assembling, judgeComplete_eq]
    split
    · exact .inl ⟨_, rfl, joins⟩
    · split
      · exact .inr (.inl rfl)
      · split
        · exact .inl ⟨_, rfl, joins⟩
        · split
          · exact .inr (.inl rfl)
          · split
            · exact .inr (.inr (.inl rfl))
            · exact .inr (.inr (.inr ⟨_, rfl⟩))

/-- A frame discarded, with its held bytes still to be examined again (R146). -/
def State.discard (s : State) : State := setReceiver .hunting (countDiscard s)

/-- What one character does: the held bytes that it makes the receiver examine again, and the state (R144, R146, R147). -/
def hear (b : Byte) (s : State) : List Byte × State :=
  match judge s.link.receiver b with
  | .more r => ([], setReceiver r s)
  | .again held => (held, s.discard)
  | .foreign => ([], s.discard)
  | .good f => ([], goodFrame f (setReceiver .hunting s))

theorem examine_cons (n : Nat) (b : Byte) (bytes : List Byte) (s : State) :
    examine (n + 1) (b :: bytes) s = examine n ((hear b s).1 ++ bytes) (hear b s).2 := by
  rw [examine, hear]
  cases judge s.link.receiver b <;> rfl

theorem hear_withGap (b : Byte) (s : State) (timer : Timer) :
    hear b (s.withGap timer) = ((hear b s).1, (hear b s).2.withGap timer) := by
  unfold hear
  rw [show (s.withGap timer).link.receiver = s.link.receiver from rfl]
  cases judge s.link.receiver b with
  | more r => rfl
  | again held => rfl
  | foreign => rfl
  | good f => exact congrArg (Prod.mk []) (goodFrame_withGap f (setReceiver .hunting s) timer)

theorem hear_held (b : Byte) (s : State) : (hear b s).2.held = s.held := by
  unfold hear
  cases judge s.link.receiver b with
  | more r => rfl
  | again held => rfl
  | foreign => rfl
  | good f => exact (goodFrame_keeps f _).2

/-! ### The bound of a re-examination (entry 18) -/

/-- What is left to examine: each character takes one from the list or drops one for good. -/
def examineCost (r : Receiver) (bytes : List Byte) : Nat := (r.held.length + bytes.length) ^ 2 + bytes.length

theorem examineCost_hear (b : Byte) (bytes : List Byte) (s : State) :
    examineCost (hear b s).2.link.receiver ((hear b s).1 ++ bytes) < examineCost s.link.receiver (b :: bytes) := by
  have taken {r : Receiver} (held : r.held.length ≤ s.link.receiver.held.length + 1) :
      examineCost r bytes < examineCost s.link.receiver (b :: bytes) :=
    Nat.add_lt_add_of_le_of_lt (Nat.pow_le_pow_left (by rw [List.length_cons]; omega) 2) (Nat.lt_succ_self _)
  rcases judge_cases s.link.receiver b with ⟨r, judged, held⟩ | judged | judged | ⟨f, judged⟩ <;> rw [hear, judged]
  · exact taken held
  · have dropped : ((s.link.receiver.held ++ [b]).tail ++ bytes).length = s.link.receiver.held.length + bytes.length := by
      simp
    show (0 + List.length _) ^ 2 + List.length _ < (_ + (bytes.length + 1)) ^ 2 + (bytes.length + 1)
    rw [dropped]
    nlinarith
  · exact taken (Nat.zero_le _)
  · dsimp only
    rw [(goodFrame_keeps f _).1]
    exact taken (Nat.zero_le _)

/-- A bound that is not used up has no say in the examination. -/
theorem examine_enough {n m : Nat} {bytes : List Byte} (hn : examineCost s.link.receiver bytes ≤ n)
    (hm : examineCost s.link.receiver bytes ≤ m) : examine n bytes s = examine m bytes s := by
  have nil (k : Nat) (u : State) : examine k [] u = u := by cases k <;> rfl
  induction n generalizing m bytes s with
  | zero =>
    have empty : bytes = [] := by
      rw [← List.length_eq_zero_iff]
      unfold examineCost at hn
      omega
    rw [empty, nil, nil]
  | succ n ih =>
    cases bytes with
    | nil => rw [nil, nil]
    | cons b bytes =>
      have less := examineCost_hear b bytes s
      obtain ⟨m, rfl⟩ : ∃ k, m = k + 1 := ⟨m - 1, by omega⟩
      rw [examine_cons, examine_cons]
      exact ih (by omega) (by omega)

/-! ### Examining characters (R146) -/

/-- All of the characters examined, and the bytes examined again on the way with them. -/
def examined (bytes : List Byte) (s : State) : State := examine (examineCost s.link.receiver bytes) bytes s

theorem examined_nil (s : State) : examined [] s = s := by
  unfold examined
  cases examineCost s.link.receiver [] <;> rfl

theorem examined_cons (b : Byte) (bytes : List Byte) (s : State) :
    examined (b :: bytes) s = examined ((hear b s).1 ++ bytes) (hear b s).2 := by
  have less := examineCost_hear b bytes s
  obtain ⟨n, cost⟩ : ∃ k, examineCost s.link.receiver (b :: bytes) = k + 1 :=
    ⟨examineCost s.link.receiver (b :: bytes) - 1, by omega⟩
  rw [examined, cost, examine_cons]
  exact examine_enough (by omega) le_rfl

/-- What holds of every examination. -/
theorem examined_induction {P : List Byte → State → Prop} (nil : ∀ s, P [] s)
    (cons : ∀ b bytes s, P ((hear b s).1 ++ bytes) (hear b s).2 → P (b :: bytes) s) (bytes : List Byte) (s : State) :
    P bytes s := by
  induction cost : examineCost s.link.receiver bytes using Nat.strong_induction_on generalizing bytes s with
  | _ n ih =>
    cases bytes with
    | nil => exact nil s
    | cons b bytes => exact cons b bytes s (ih _ (cost ▸ examineCost_hear b bytes s) _ _ rfl)

/-- Characters are examined one after another. -/
theorem examined_append (first second : List Byte) (s : State) :
    examined (first ++ second) s = examined second (examined first s) := by
  induction first, s using examined_induction with
  | nil s => rw [List.nil_append, examined_nil]
  | cons b bytes s ih => rw [List.cons_append, examined_cons, examined_cons, ← List.append_assoc, ih]

theorem examined_withGap (bytes : List Byte) (s : State) (timer : Timer) :
    examined bytes (s.withGap timer) = (examined bytes s).withGap timer := by
  induction bytes, s using examined_induction with
  | nil s => rw [examined_nil, examined_nil]
  | cons b bytes s ih => rw [examined_cons, examined_cons, hear_withGap, ih]

theorem examined_held (bytes : List Byte) (s : State) : (examined bytes s).held = s.held := by
  induction bytes, s using examined_induction with
  | nil s => rw [examined_nil]
  | cons b bytes s ih => rw [examined_cons, ih, hear_held]

/-! ### A character arrives (R144, R145) -/

/-- The bound that a character gives its examination is not used up (entry 18). -/
theorem receive_eq (b : Byte) (s : State) : receive b s = setGapTimer (examined [b] s) := by
  refine congrArg setGapTimer (examine_enough ?_ le_rfl)
  unfold examineCost examineBound
  simp only [List.length_singleton]
  nlinarith

/-- The gap timer that ran before a character has no say in what the character does. -/
theorem receive_withGap (b : Byte) (s : State) (timer : Timer) : receive b (s.withGap timer) = receive b s := by
  rw [receive_eq, receive_eq, examined_withGap]
  rfl

theorem receive_hear (b : Byte) (s : State) : receive b s = setGapTimer (examined (hear b s).1 (hear b s).2) := by
  rw [receive_eq, examined_cons, List.append_nil]

/-- A character that ends no frame. -/
theorem receive_more {b : Byte} {r : Receiver} (judged : judge s.link.receiver b = .more r) :
    receive b s = setGapTimer (setReceiver r s) := by
  rw [receive_hear, hear, judged]
  exact congrArg setGapTimer (examined_nil _)

/-- A character for which the frame is discarded, and its bytes from the second on are examined again (R146). -/
theorem receive_again {b : Byte} {held : List Byte} (judged : judge s.link.receiver b = .again held) :
    receive b s = setGapTimer (examined held s.discard) := by
  rw [receive_hear, hear, judged]

/-- The last character of a frame of another class (R146). -/
theorem receive_foreign {b : Byte} (judged : judge s.link.receiver b = .foreign) :
    receive b s = setGapTimer s.discard := by
  rw [receive_hear, hear, judged]
  exact congrArg setGapTimer (examined_nil _)

/-- The last character of a good order frame (R147). -/
theorem receive_good {b : Byte} (judged : judge s.link.receiver b = .good f) :
    receive b s = setGapTimer (goodFrame f (setReceiver .hunting s)) := by
  rw [receive_hear, hear, judged]
  exact congrArg setGapTimer (examined_nil _)

theorem setReceiver_same {r : Receiver} (same : s.link.receiver = r) : setReceiver r s = s := by
  subst same
  rfl

/-- A receiver in HUNTING hears nothing but SYNC (R144). -/
theorem examined_hunting {bytes : List Byte} (hunting : s.link.receiver = .hunting) (silent : syncByte ∉ bytes) :
    examined bytes s = s := by
  induction bytes with
  | nil => exact examined_nil s
  | cons b bytes ih =>
    obtain ⟨other, silent⟩ := List.ne_and_not_mem_of_not_mem_cons silent
    have heard : hear b s = ([], s) := by
      rw [hear, hunting, judge, if_neg other.symm]
      exact congrArg (Prod.mk []) (setReceiver_same hunting)
    rw [examined_cons, heard]
    exact ih silent

/-- Characters that arrive one after another do what they do when they are examined again (R146). -/
theorem receive_each {bytes : List Byte} {v : Nat → State} (free : s.held = none) (start : v 0 = setGapTimer s)
    (each : ∀ i x, bytes[i]? = some x → exec (.characterReceived x) (v i) = .next (v (i + 1))) {i : Nat}
    (bound : i ≤ bytes.length) : v i = setGapTimer (examined (bytes.take i) s) := by
  induction i with
  | zero => rw [start, List.take_zero, examined_nil]
  | succ i ih =>
    have here : bytes[i]? = some bytes[i] := List.getElem?_eq_getElem bound
    have before := ih (by omega)
    have held : (v i).held = none := by
      rw [before]
      exact (examined_held _ s).trans free
    have run := (event_free held (receive bytes[i])).symm.trans (each i _ here)
    rw [← Host.Outcome.next.inj run, before, List.take_add_one, here, Option.toList_some, examined_append, ← receive_eq]
    exact receive_withGap _ _ _

end Sys2Proof.Machine
end

