-- ==== Sys2Proof/Proofs/ReceivedFrames.lean ====
section
/-! PROOF. Frames at the receiver: O51 and O52. -/

namespace Sys2Proof.Machine

variable {s : State} {f : Frame} {b : Byte} {held : List Byte}

/-! ### The bytes of a frame are judged to be that frame (R144, R146, R170) -/

theorem extract_bytes (h : Half) : h.extractLsb' 8 8 ++ h.extractLsb' 0 8 = h :=
  (BitVec.extractLsb'_append_extractLsb'_eq_extractLsb' rfl).trans BitVec.extractLsb'_eq_self

theorem halfAt_append_bytes2 (bytes : List Byte) (h : Half) : halfAt (bytes ++ bytes2 h) bytes.length = h := by
  rw [halfAt, byteAt, byteAt, List.getD_append_right _ _ _ _ (Nat.le_succ _), List.getD_append_right _ _ _ _ le_rfl,
    Nat.succ_sub le_rfl, Nat.sub_self]
  exact extract_bytes h

theorem length_body (f : Frame) : f.body.length = f.payload.length + 5 := by
  simp [Frame.body, bytes2]

theorem length_frameBytes (f : Frame) : f.bytes.length = f.payload.length + 8 := by
  simp [Frame.bytes, bytes2, length_body]

theorem number1_frameBytes (fits : f.payload.length ≤ 255) : number1 f.bytes 1 = f.payload.length := toNat_count1 fits

theorem frameBytes_covered (f : Frame) : (f.bytes.drop 1).take (f.payload.length + 5) = f.body :=
  List.take_left' (length_body f)

theorem frameBytes_crc (f : Frame) : halfAt f.bytes (f.payload.length + 6) = crc f.body := by
  have place : f.payload.length + 6 = (syncByte :: f.body).length := by rw [List.length_cons, length_body]
  rw [place]
  exact halfAt_append_bytes2 (syncByte :: f.body) (crc f.body)

theorem judgeComplete_frameBytes (fits : f.payload.length ≤ 255) :
    judgeComplete f.bytes = if f.cls ≠ classOrder then .foreign else .good f := by
  have number : halfAt f.bytes 4 = f.number := extract_bytes f.number
  have payload : (f.bytes.drop 6).take f.payload.length = f.payload := List.take_left' rfl
  rw [judgeComplete_eq, number1_frameBytes fits, frameBytes_covered, frameBytes_crc, number, payload]
  exact if_neg (not_not_intro rfl)

theorem judge_frameBytes (complete : held ++ [b] = f.bytes) (fits : f.payload.length ≤ 48) :
    judge (.assembling held) b = if f.cls ≠ classOrder then .foreign else .good f := by
  have length := length_frameBytes f
  rw [judge_assembling, complete, number1_frameBytes (by omega), if_neg (by omega), if_neg (by omega),
    if_neg (by omega), judgeComplete_frameBytes (by omega)]

/-! ### Frames that are not complete, and frames that are wrong (R144, R146) -/

theorem judge_incomplete (filled : held ≠ []) (fits : number1 (held ++ [b]) 1 ≤ 48)
    (short : (held ++ [b]).length < number1 (held ++ [b]) 1 + 8) :
    judge (.assembling held) b = .more (.assembling (held ++ [b])) := by
  have length := List.length_pos_iff.mpr filled
  rw [judge_assembling, if_neg (by rw [List.length_append, List.length_singleton]; omega), if_neg (by omega),
    if_pos short]

theorem judge_tooLong (first : held.length = 1) (long : 48 < b.toNat) : judge (.assembling held) b = .again [b] := by
  obtain ⟨a, rfl⟩ := List.length_eq_one_iff.mp first
  rw [judge_assembling]
  exact if_pos long

/-- A wrong CRC: the frame's length was known before its last byte. -/
theorem judge_wrongCrc (two : 2 ≤ held.length) (fits : number1 held 1 ≤ 48)
    (complete : (held ++ [b]).length = number1 held 1 + 8)
    (wrong : crc ((held.drop 1).take (number1 held 1 + 5)) ≠ halfAt (held ++ [b]) (number1 held 1 + 6)) :
    judge (.assembling held) b = .again (held ++ [b]).tail := by
  have len : number1 (held ++ [b]) 1 = number1 held 1 := congrArg BitVec.toNat (List.getD_append _ _ _ _ two)
  have length : held.length = number1 held 1 + 7 := by simpa using complete
  have covered : ((held ++ [b]).drop 1).take (number1 held 1 + 5) = (held.drop 1).take (number1 held 1 + 5) := by
    rw [List.drop_append_of_le_length (by omega), List.take_append_of_le_length (by rw [List.length_drop]; omega)]
  rw [judge_assembling, judgeComplete_eq, len, covered, if_neg (by omega), if_neg (by omega), if_neg (by omega),
    if_pos wrong]

/-! ### The commands of the receiver (entry 6) -/

theorem exec_characterReceived (free : s.held = none) (b : Byte) :
    exec (.characterReceived b) s = .next (receive b s) := event_free free (receive b)

theorem exec_goodOrderFrame (free : s.held = none) (judged : judge s.link.receiver b = .good f) :
    exec (.goodOrderFrame b) s = .next (receive b s) := by
  refine (event_free free (goodOrderByte b)).trans ?_
  rw [goodOrderByte, judged]

theorem exec_frameDiscard_again (free : s.held = none) (judged : judge s.link.receiver b = .again held) :
    exec (.frameDiscard b) s = .next (receive b s) := by
  refine (event_free free (discardByte b)).trans ?_
  rw [discardByte, judged]

theorem exec_frameDiscard_foreign (free : s.held = none) (judged : judge s.link.receiver b = .foreign) :
    exec (.frameDiscard b) s = .next (receive b s) := by
  refine (event_free free (discardByte b)).trans ?_
  rw [discardByte, judged]

/-! ### A good order frame (R147 to R149) -/

/-- The state in which a good order frame is offered: supervision restarted, the receiver in HUNTING. -/
def State.framed (s : State) : State := restartSupervision (setReceiver .hunting s)

theorem goodFrame_waits (full : s.link.answer.isSome = true) (f : Frame) :
    goodFrame f (setReceiver .hunting s) = offerOrder f s.framed := by
  refine serviceOrders_full ?_
  rw [offerOrder_eq]
  exact full

/-- A good order frame that finds nothing waiting is taken at once (R149). -/
theorem goodFrame_taken (empty : s.link.answer = none) (orders : s.link.orders = []) (f : Frame) :
    goodFrame f (setReceiver .hunting s) = takeOrder (ruleOf f.kind) f.number f.kind f.payload s.framed := by
  have buffer : (offerOrder f s.framed).link.orders = [f] := by
    rw [offerOrder_eq]
    simp [orders, State.framed, restartSupervision, setReceiver]
  have back : { offerOrder f s.framed with link := { (offerOrder f s.framed).link with orders := [] } } = s.framed := by
    rw [offerOrder_eq]
    simp [orders, State.framed, restartSupervision, setReceiver]
  have slot : ¬ (offerOrder f s.framed).link.answer.isSome = true := by
    rw [offerOrder_eq]
    simp [empty, State.framed, restartSupervision, setReceiver]
  show serviceOrders (offerOrder f s.framed) = _
  rw [serviceOrders_cons buffer, if_neg slot, back]

/-- A receiver in HUNTING has no gap timer. -/
theorem setGapTimer_hunting (hunting : s.link.receiver = .hunting) : setGapTimer s = s.withGap none := by
  rw [setGapTimer, hunting]
  rfl

/-- A good order frame that finds nothing waiting is its order's command, on the state that the frame leaves. -/
theorem receive_taken {c : Instr} (judged : judge s.link.receiver b = .good f) (free : s.held = none)
    (empty : s.link.answer = none) (orders : s.link.orders = []) (taking : f.taking c) :
    .next (receive b s) = exec c (s.framed.withGap none) := by
  have acts := acts_ruleOf f.kind
  have hunting : (takeOrder (ruleOf f.kind) f.number f.kind f.payload s.framed).link.receiver = .hunting :=
    (takeOrder_keeps acts _ _ _ _).1
  rw [receive_good judged, goodFrame_taken empty orders, setGapTimer_hunting hunting,
    exec_taking (s := s.framed.withGap none) taking free, takeOrder_withGap acts]

/-! ### A discarded frame (R145, R146) -/

theorem dropFrame_assembling (assembling : s.link.receiver = .assembling held) :
    dropFrame s = setGapTimer s.discard := by
  rw [dropFrame, assembling]
  rfl

/-- A discarded frame whose bytes start no other. -/
theorem receive_silent {again : List Byte} (judged : judge s.link.receiver b = .again again)
    (silent : syncByte ∉ again) : receive b s = setGapTimer s.discard := by
  rw [receive_again judged, examined_hunting rfl silent]

/-- A SYNC where LEN should be discards the frame and starts another (R144, R146). -/
theorem receive_sync (judged : judge s.link.receiver b = .again [syncByte]) :
    receive b s = setGapTimer (setReceiver (.assembling [syncByte]) s.discard) := by
  rw [receive_again judged, examined_cons]
  exact congrArg setGapTimer (examined_nil _)

/-- What the receiver does short of a good order frame is within the part of the reception. -/
theorem frame_receiver (r : Receiver) (s : State) : UnchangedBut [.reception] s (setGapTimer (setReceiver r s)) := by
  intro p other
  cases p <;> simp_all [Part.same, setGapTimer, setReceiver]

theorem frame_discard (r : Receiver) (s : State) :
    UnchangedBut [.reception] s (setGapTimer (setReceiver r s.discard)) := by
  intro p other
  cases p <;> simp_all [Part.same, setGapTimer, setReceiver, State.discard, countDiscard]

theorem frame_offered (f : Frame) (s : State) :
    UnchangedBut [.reception, .orders, .supervisor] s (setGapTimer (offerOrder f s.framed)) := by
  rw [offerOrder_eq]
  intro p other
  cases p <;> simp_all [Part.same, setGapTimer, State.framed, restartSupervision, setReceiver]

end Sys2Proof.Machine

open Sys2Proof Sys2Proof.Machine

/-- Settles O51: a character of an unfinished frame joins the held bytes (`judge_hunting`, `judge_incomplete`), and the
bytes of an order frame are judged to be that frame (`judge_frameBytes`), which waits behind a full answer slot
(`goodFrame_waits`) and is otherwise its order's command (`receive_taken`). -/
theorem framesReceived : Obligations.FramesReceived := by
  unfold Obligations.FramesReceived
  intro b s free
  have run := exec_characterReceived free b
  refine ⟨fun hunting => ?_, fun held assembling filled fits short => ?_,
    fun held f timer assembling complete order fits restarted => ?_⟩
  · have judged : judge s.link.receiver b = .more (if b = 0xA6 then .assembling [b] else .hunting) := by
      rw [hunting, judge_hunting]
      exact (apply_ite Verdict.more _ _ _).symm
    refine ⟨_, run.trans (congrArg _ (receive_more judged)), rfl, ?_, rfl, rfl, rfl, frame_receiver _ s⟩
    by_cases sync : b = 0xA6
    · rw [if_pos sync, if_pos sync]
      rfl
    · rw [if_neg sync, if_neg sync]
      rfl
  · have judged : judge s.link.receiver b = .more (.assembling (held ++ [b])) := by
      rw [assembling, judge_incomplete filled fits short]
    exact ⟨_, run.trans (congrArg _ (receive_more judged)), rfl, rfl, rfl, rfl, rfl, frame_receiver _ s⟩
  · have judged : judge s.link.receiver b = .good f := by
      rw [assembling, judge_frameBytes complete fits, if_neg (not_not_intro order)]
    have good := exec_goodOrderFrame free judged
    subst restarted
    refine ⟨run.trans good.symm, fun g answer => ?_, fun k empty orders kind => ?_, fun empty orders unknown => ?_⟩
    · have full : s.link.answer.isSome = true := Option.isSome_iff_exists.mpr ⟨g, answer⟩
      have waits : receive b s = setGapTimer (offerOrder f s.framed) :=
        (receive_good judged).trans (congrArg setGapTimer (goodFrame_waits full f))
      refine ⟨_, good.trans (congrArg _ waits), ?_, ?_, frame_offered f s⟩ <;> rw [offerOrder_eq] <;> rfl
    · exact good.trans (receive_taken judged free empty orders (.inl ⟨k, kind, rfl⟩))
    · exact good.trans (receive_taken judged free empty orders (.inr ⟨unknown, rfl⟩))

/-- Settles O52: a frame is discarded for a LEN above 48, another class or a wrong CRC (`judge_tooLong`,
`judge_frameBytes`, `judge_wrongCrc`), and its bytes from the second on are examined as if they arrived one after another
(`receive_each`), where nothing but SYNC leaves HUNTING (`examined_hunting`). -/
theorem framesDiscarded : Obligations.FramesDiscarded := by
  unfold Obligations.FramesDiscarded
  intro s free
  refine ⟨fun b held assembling bad => ?_, fun b held v assembling two fits complete wrong start each => ?_,
    fun b held assembling first sync => ?_, fun hunting => ?_, fun held assembling => ?_, fun runs => ?_⟩
  · suffices discarded : exec (.frameDiscard b) s = .next (receive b s) ∧ receive b s = setGapTimer s.discard by
      obtain ⟨discards, drops⟩ := discarded
      rw [discards, exec_characterReceived free, drops]
      exact ⟨_, rfl, rfl, rfl, rfl, rfl, rfl, frame_discard .hunting s, rfl⟩
    obtain ⟨first, long, noSync⟩ | ⟨f, bytes, cls, fits⟩ | ⟨two, fits, complete, wrong, silent⟩ := bad
    · have judged := (congrArg (judge · b) assembling).trans (judge_tooLong first long)
      exact ⟨exec_frameDiscard_again free judged,
        receive_silent judged fun sync => noSync (List.mem_singleton.mp sync).symm⟩
    · have judged : judge s.link.receiver b = .foreign := by
        rw [assembling, judge_frameBytes bytes fits, if_pos cls]
      exact ⟨exec_frameDiscard_foreign free judged, receive_foreign judged⟩
    · have judged := (congrArg (judge · b) assembling).trans (judge_wrongCrc two fits complete wrong)
      exact ⟨exec_frameDiscard_again free judged, receive_silent judged silent⟩
  · have judged := (congrArg (judge · b) assembling).trans (judge_wrongCrc two fits complete wrong)
    have all : (held ++ [b]).tail.length = held.length := by simp
    have last := receive_each (s := s.discard) free start each all.ge
    rw [← all, List.take_length] at last
    rw [← all, last, ← receive_again judged]
    exact exec_frameDiscard_again free judged
  · subst sync
    have judged := (congrArg (judge · syncByte) assembling).trans (judge_tooLong first (by decide))
    exact ⟨_, (exec_frameDiscard_again free judged).trans (congrArg _ (receive_sync judged)), rfl, rfl, rfl, rfl, rfl,
      frame_discard _ s⟩
  · refine (event_free free dropFrame).trans ?_
    rw [dropFrame, hunting]
  · have drops := dropFrame_assembling assembling
    refine ⟨setGapTimer s.discard, (event_free free dropFrame).trans (congrArg _ drops), rfl, rfl, rfl, rfl, rfl,
      frame_discard .hunting s, fun expires => ?_⟩
    exact (event_free free gapExpiry).trans (congrArg _ ((if_pos expires).trans drops))
  · exact (event_free free gapExpiry).trans (congrArg _ (if_neg (by rw [runs]; exact Bool.false_ne_true)))
end

