-- ==== Sys2Proof/Proofs/ReportQueue.lean ====
section
/-! PROOF. Notices and the report queue: its law at every step, admission and sending, WIND, ACK and the retry timer: O58,
O55, O35, O36 and O54. -/

namespace Sys2Proof.Machine

variable {s : State} {q : ReportQueue} {b : NoticeBody} {number : Half} {payload : List Byte}

/-! ### Admission (R158) -/

/-- An admitted notice takes the next number, and the drop count as its gap. -/
theorem offer_admits (room : q.occupancy < (if b.kept = true then 64 else 60)) (time : TimeStamp) (position : Position) :
    q.offer b time position = { q with
      notices := q.notices ++
        [{ number := q.next, timeStamp := time, position := position, gap := q.drops, body := b }]
      next := q.next + 1
      drops := 0 } := if_pos room

/-- A dropped notice is counted, and nothing else changes. -/
theorem offer_drops (full : (if b.kept = true then 64 else 60) ≤ q.occupancy) (time : TimeStamp) (position : Position) :
    q.offer b time position = { q with drops := min 255 (q.drops + 1) } := if_neg (not_lt_of_ge full)

/-- The notices that are admitted up to the queue's capacity are RESTART, LINESTATE and LINK. -/
theorem kept_iff :
    b.kept = true ↔ (∃ c, b = .restart c) ∨ (∃ x y c, b = .lineState x y c) ∨ ∃ r, b = .link r := by
  cases b <;> simp [NoticeBody.kept]

/-! ### Sending (R159, R162) -/

theorem eligible_iff : q.eligible = true ↔ q.sendPointer ≠ q.next ∧ (q.sendPointer - q.head).toNat < q.window := by
  rw [ReportQueue.eligible, Bool.and_eq_true, bne_iff_ne, decide_eq_true_eq, ReportQueue.distance]

/-- A notice sent for the first time becomes highest sent and starts the retry timer when nothing was in flight; a notice
sent again moves the send pointer alone. -/
theorem recordSent_eq (q : ReportQueue) (time : TimeStamp) : q.recordSent time = { q with
    sendPointer := q.sendPointer + 1
    highestSent := if q.sendPointer = q.highestSent + 1 then q.sendPointer else q.highestSent
    retryTimer :=
      if q.sendPointer = q.highestSent + 1 ∧ (q.highestSent + 1 - q.head).toNat = 0 then
        some (time + BitVec.ofNat 32 q.retryTime)
      else q.retryTimer } := by
  unfold ReportQueue.recordSent
  by_cases first : q.sendPointer = q.highestSent + 1
  · simp only [first, if_true, true_and]
    rfl
  · simp only [first, if_false, false_and]

/-! ### The transmitter's choice after a change of the queue (R152, entry 7) -/

/-- With no answer waiting, a busy transmitter and a queue without an eligible notice start nothing. -/
theorem startNext_stays (empty : s.link.answer = none) (idle : s.link.transmitter ≠ .free ∨ s.queue.eligible = false) :
    startNext s = s := by
  by_cases free : s.link.transmitter = .free
  · exact startNext_none free empty (.inl (idle.resolve_left (not_not_intro free)))
  · exact startNext_busy free

/-- The transmitter's choice is within the report queue and the transmitter. -/
theorem frame_startNext (s : State) : UnchangedBut noticeParts s (startNext s) := by
  intro p other
  cases p <;> simp_all [Part.same, noticeParts]

theorem frame_queue (s : State) (q : ReportQueue) : UnchangedBut [.queue] s { s with queue := q } := by
  intro p other
  cases p <;> simp_all [Part.same]

/-- The transmitter chooses after a new queue. -/
theorem frame_startNext_queue (s : State) (q : ReportQueue) :
    UnchangedBut noticeParts s (startNext { s with queue := q }) :=
  ((frame_queue s q).trans (frame_startNext _)).mono (by decide)

/-- An order that is DONE with a new report queue, after which the transmitter chooses. -/
theorem exec_order_queue {k : OrderKind} (takes : s.takes number k.code)
    (rule : k.rule payload s = done (startNext { s with queue := q })) :
    ∃ t, exec (k.command number payload) s = .next t
      ∧ Answered t number k.code [0]
      ∧ (s.link.transmitter ≠ .free ∨ q.eligible = false → t.queue = q)
      ∧ (s.link.transmitter = .free → q.eligible = true → q.notices[q.distance q.sendPointer]? ≠ none →
          t.queue = q.recordSent s.timeStamp)
      ∧ UnchangedBut (.queue :: answerParts) s t := by
  have ⟨_, empty, _⟩ := takes
  obtain ⟨t, run, answered, frame⟩ := exec_order takes rule
  have queue : t.queue = (startNext { s with queue := q }).queue := frame .queue (by decide)
  refine ⟨t, run, answered, fun idle => ?_, fun free eligible present => ?_,
    ((frame_startNext_queue s q).trans frame).mono (by decide)⟩
  · rw [queue, startNext_stays (s := { s with queue := q }) empty idle]
  · obtain ⟨n, notice⟩ := Option.ne_none_iff_exists'.mp present
    rw [queue, startNext_notice (s := { s with queue := q }) free empty eligible notice]

/-! ### WIND and ACK (R160, R161) -/

/-- What WIND does with a formed payload. -/
theorem wind_rule (formed : OrderKind.wind.formed payload) :
    OrderKind.wind.rule payload s =
      if 16 < number1 payload 0 then refuse .badArg s
      else done (startNext { s with queue := s.queue.setWindow (number1 payload 0) s.timeStamp }) := by
  show wind payload s = _
  rw [wind, formChecked_formed formed]

/-- What ACK does with a formed payload. -/
theorem ack_rule (formed : OrderKind.ack.formed payload) :
    OrderKind.ack.rule payload s =
      if s.queue.distance (halfAt payload 0) < s.queue.inFlight then
        done (startNext { s with queue := s.queue.acknowledge (halfAt payload 0) s.timeStamp })
      else refuse .badArg s := by
  show ack payload s = _
  rw [ack, formChecked_formed formed]

/-! ### The retry timer (R162) -/

/-- The queue gone back to its head, with the retry timer restarted. -/
def State.goneBack (s : State) : ReportQueue :=
  { s.queue with sendPointer := s.queue.head, retryTimer := some (s.timeStamp + BitVec.ofNat 32 s.queue.retryTime) }

theorem goneBack_distance (s : State) : s.goneBack.distance s.goneBack.sendPointer = 0 := s.queue.distance_head

theorem retryExpiry_unexpired (early : expired s.queue.retryTimer s = false) : retryExpiry s = s :=
  if_neg (ne_true_of_eq_false early)

theorem retryExpiry_expired (expires : expired s.queue.retryTimer s = true) :
    retryExpiry s = startNext { s with queue := s.goneBack } := if_pos expires

theorem exec_retryTimerExpiry {t : State} (free : s.held = none) (result : retryExpiry s = t) :
    exec .retryTimerExpiry s = .next t := (event_free free retryExpiry).trans (congrArg _ result)

end Sys2Proof.Machine

open Sys2Proof Sys2Proof.Machine

/-- Settles O58: each command and each millisecond keeps the law of the report queue (`KeepsLaws.step`, from
`QueueLaw.offer`, `QueueLaw.recordSent` and the other operations of the queue). -/
theorem queueLawKept : Obligations.QueueLawKept := fun _ _ law run => (KeepsLaws.step run).queue law

/-- Settles O35: WIND refuses a window above 16 and sets any other (`wind_rule`) before the transmitter chooses
(`exec_order_queue`). -/
theorem windSets : Obligations.WindSets := by
  unfold Obligations.WindSets
  refine fun number p s takes formed => ⟨fun large => ?_, fun q fits queue => ?_⟩
  · exact exec_refused takes ((wind_rule formed).trans (if_pos large))
  · subst queue
    exact exec_order_queue takes ((wind_rule formed).trans (if_neg (not_lt_of_ge fits)))

/-- Settles O36: ACK refuses a number that is not in flight and removes the notices through any other (`ack_rule`) before
the transmitter chooses (`exec_order_queue`). -/
theorem ackAcknowledges : Obligations.AckAcknowledges := by
  unfold Obligations.AckAcknowledges
  refine fun number p s takes formed => ⟨fun outside => ?_, fun n q number sent queue => ?_⟩
  · exact exec_refused takes ((ack_rule formed).trans (if_neg (not_lt_of_ge outside)))
  · subst number queue
    exact exec_order_queue takes ((ack_rule formed).trans (if_pos sent))

/-- Settles O54: an expired timer sends the queue back (`retryExpiry_expired`), where the notice at the send pointer is the
first one held (`goneBack_distance`), and the transmitter chooses (`startNext_stays`, `startNext_notice`). -/
theorem retryGoesBack : Obligations.RetryGoesBack := by
  unfold Obligations.RetryGoesBack
  refine fun s held => ⟨fun early => exec_retryTimerExpiry held (retryExpiry_unexpired early),
    fun q expires queue => ?_⟩
  obtain rfl : q = s.goneBack := queue
  refine ⟨_, exec_retryTimerExpiry held (retryExpiry_expired expires), fun busy => ?_,
    fun n free empty eligible first => ?_, fun free empty nothing => ?_, frame_startNext_queue s s.goneBack⟩
  · rw [startNext_busy (s := { s with queue := s.goneBack }) busy]
    exact ⟨rfl, rfl⟩
  · rw [← goneBack_distance s] at first
    rw [startNext_notice (s := { s with queue := s.goneBack }) free empty eligible first]
    exact ⟨rfl, rfl⟩
  · rw [startNext_stays (s := { s with queue := s.goneBack }) empty (.inr nothing)]
    exact ⟨rfl, rfl⟩

/-- Settles O55: `offer_admits` and `offer_drops`, with the kinds of `kept_iff`; `eligible_iff` and `recordSent_eq`. -/
theorem noticeAdmission : Obligations.NoticeAdmission := by
  unfold Obligations.NoticeAdmission
  exact fun q b time position => ⟨fun room => offer_admits room time position,
    fun full => offer_drops full time position, kept_iff, eligible_iff, recordSent_eq q time⟩
end

