-- ==== Sys2Proof/Proofs/LinkOrders.lean ====
section
/-! PROOF. LINK, and the orders that a LOST link refuses: O34 and O9. -/

namespace Sys2Proof.Machine

variable {s : State} {payload : List Byte}

/-! ### Orders that a LOST link refuses (R168) -/

theorem linkChecked_lost (lost : s.supervisor.state = .lost) (own : OrderRule) (payload : List Byte) :
    linkChecked own payload s = refuse .linkLost s := if_pos lost

/-- The orders that a LOST link refuses come to the link check right after their form checks (R150, R168). -/
theorem rule_linkChecked {k : OrderKind}
    (refused : k ∈ ([.asgn, .drop, .strt, .cmit, .cfgl, .cfgd, .opnd, .clsd, .adjd, .dena, .ddis, .tfir]
      : List OrderKind)) : ∃ own, k.rule = formChecked k (linkChecked own) := by
  simp only [List.mem_cons, List.not_mem_nil, or_false] at refused
  rcases refused with rfl | rfl | rfl | rfl | rfl | rfl | rfl | rfl | rfl | rfl | rfl | rfl <;> exact ⟨_, rfl⟩

/-! ### LINK (R165) -/

theorem lossAction_ofCode_undefined {code : Byte} (large : 2 < code.toNat) : LossAction.ofCode code = none := by
  have other (n : Byte) (small : n.toNat ≤ 2) : code ≠ n := by
    rintro rfl
    omega
  rw [LossAction.ofCode, if_neg (other 0 (by decide)), if_neg (other 1 (by decide)), if_neg (other 2 (by decide))]

theorem lossAction_ofCode_defined {code : Byte} (small : code.toNat ≤ 2) : LossAction.ofCode code =
    some (if code.toNat = 0 then .continueOn else if code.toNat = 1 then .runoffAll else .halt) := by
  obtain rfl | rfl | rfl : code = 0#8 ∨ code = 1#8 ∨ code = 2#8 := by bv_omega
  all_goals rfl

/-- LINK with a supervision time, a loss action or a retry time out of range. -/
theorem link_rule_refuses (formed : OrderKind.link.formed payload)
    (outside : (1 ≤ number2 payload 0 ∧ number2 payload 0 ≤ 49) ∨ 10000 < number2 payload 0 ∨ 2 < number1 payload 2
      ∨ number2 payload 4 < 20 ∨ 2000 < number2 payload 4) : OrderKind.link.rule payload s = refuse .badArg s := by
  show link payload s = _
  rw [link, formChecked_formed formed]
  by_cases defined : number1 payload 2 ≤ 2
  · rw [lossAction_ofCode_defined defined]
    refine if_neg ?_
    simp only [inRange, Bool.and_eq_true, decide_eq_true_eq]
    omega
  · rw [lossAction_ofCode_undefined (not_le.mp defined)]

/-- LINK with its three values in range: they are written together, and the supervision timer restarts with the new time
(R164, R165). -/
theorem link_rule_sets (formed : OrderKind.link.formed payload)
    (supervision : number2 payload 0 = 0 ∨ (50 ≤ number2 payload 0 ∧ number2 payload 0 ≤ 10000))
    (action : number1 payload 2 ≤ 2) (least : 20 ≤ number2 payload 4) (most : number2 payload 4 ≤ 2000) :
    OrderKind.link.rule payload s = done { s with
      supervisor :=
        { state := s.supervisor.state, time := number2 payload 0,
          action := if number1 payload 2 = 0 then .continueOn else if number1 payload 2 = 1 then .runoffAll else .halt,
          timer := if number2 payload 0 = 0 then none else some (s.timeStamp + BitVec.ofNat 32 (number2 payload 0)) }
      queue := { s.queue with retryTime := number2 payload 4 } } := by
  show link payload s = _
  rw [link, formChecked_formed formed, lossAction_ofCode_defined action]
  refine if_pos ?_
  simp only [inRange, Bool.and_eq_true, decide_eq_true_eq]
  exact ⟨supervision, least, most⟩

theorem frame_supervisor_queue (v : Supervisor) (q : ReportQueue) (s : State) :
    UnchangedBut [.supervisor, .queue] s { s with supervisor := v, queue := q } :=
  (frame_supervisor v s).trans (frame_queue { s with supervisor := v } q)

end Sys2Proof.Machine

open Sys2Proof Sys2Proof.Machine

/-- Settles O9: such an order's link check comes right after its form checks (`rule_linkChecked`), and refuses it. -/
theorem lostLinkRefuses : Obligations.LostLinkRefuses := by
  unfold Obligations.LostLinkRefuses
  intro k refused number p s takes formed lost
  obtain ⟨own, rule⟩ := rule_linkChecked refused
  refine exec_refused takes (r := .linkLost) ?_
  rw [rule, formChecked_formed formed, linkChecked_lost lost]

/-- Settles O34: LINK refuses a value out of range (`link_rule_refuses`) and writes all three otherwise
(`link_rule_sets`), with no notice. -/
theorem linkSets : Obligations.LinkSets := by
  unfold Obligations.LinkSets
  refine fun number p s takes formed => ⟨fun outside => exec_refused takes (link_rule_refuses formed outside),
    fun supervision action least most => ?_⟩
  obtain ⟨t, run, answered, frame⟩ := exec_order takes (link_rule_sets formed supervision action least most)
  exact ⟨t, run, answered, frame .supervisor (by decide), frame .queue (by decide),
    (frame_supervisor_queue _ _ s).trans frame⟩
end

