-- ==== Sys2Proof/Proofs/LinkRates.lean ====
section
/-! PROOF. The link rate: the resets take it from the baud straps, and every other command leaves it: O7. -/

namespace Sys2Proof.Machine

variable {s t u : State}

/-- The link rate is as it was. -/
def SameRate (s t : State) : Prop := t.link.rate = s.link.rate

namespace SameRate

theorem refl (s : State) : SameRate s s := rfl

theorem trans (h : SameRate s t) (k : SameRate t u) : SameRate s u := Eq.trans k h

theorem ite {c : Prop} [Decidable c] (h : SameRate s t) (k : SameRate s u) : SameRate s (if c then t else u) := by
  split
  · exact h
  · exact k

/-- A rule that answers in one of two ways. -/
theorem answers {c : Prop} [Decidable c] {a b : State × Reply} (h : SameRate s a.1) (k : SameRate s b.1) :
    SameRate s (if c then a else b).1 := by
  split
  · exact h
  · exact k

theorem done (h : SameRate s t) : SameRate s (done t).1 := h

/-- The rate belongs to the reception (R142). -/
theorem of_frame {parts : List Part} (h : UnchangedBut parts s t) (kept : .reception ∉ parts := by decide) :
    SameRate s t := (h .reception kept).1

end SameRate

theorem Work.sameRate (h : Work s t) : SameRate s t := h.rate

/-! ### The effects of events and orders -/

theorem sameRate_submit (b : NoticeBody) (s : State) : SameRate s (submit b s) := submit_rate b s

theorem sameRate_drainTest (s : State) : SameRate s (drainTest s) := .of_frame (unchanged_drainTest s)

theorem sameRate_settle (s : State) : SameRate s (settle s) := (work_arbitrate s).sameRate.trans (sameRate_drainTest _)

theorem sameRate_requestHalt (c : HaltCause) (s : State) : SameRate s (requestHalt c s) :=
  .ite (.of_frame (haltLine_spec c s).2.2) rfl

theorem sameRate_standstillTick (s : State) : SameRate s (standstillTick s) :=
  .ite rfl (.ite (submit_rate _ _) rfl)

theorem sameRate_commit (s : State) : SameRate s (commit s) :=
  .of_frame ((unchanged_committed s).trans (commit_spec s).2.2)

theorem sameRate_clearWork (s : State) : SameRate s (clearWork s) :=
  (Work.foldl (fun t tag => returnUnit tag t) (fun t tag => work_returnUnit t tag) _ s).sameRate

theorem sameRate_cleared (s : State) : SameRate s (submit (.cleared s.occupancy) (clearWork s)) :=
  (sameRate_clearWork s).trans (sameRate_submit _ _)

theorem sameRate_clearHalted (s : State) : SameRate s (clearHalted s) :=
  (sameRate_cleared s).trans (submit_rate _ _)

theorem sameRate_disableDiverter (d : Station) (s : State) : SameRate s (disableDiverter d s) := by
  have off : Work s (switchOff d (emptyPending d (endPush d s))) :=
    ((work_endPush s d).trans (work_emptyPending _ d)).trans (work_switchOff _ d)
  exact (off.trans (work_changeCauses _ d _)).sameRate.trans (sameRate_settle _)

/-! ### The orders' rules -/

/-- A rule that leaves the link rate. -/
abbrev RuleKeepsRate (rule : OrderRule) : Prop := RuleWithin SameRate rule

theorem keepsRate_formChecked {k : OrderKind} {own : OrderRule} (h : RuleKeepsRate own) :
    RuleKeepsRate (formChecked k own) := fun p s => .answers rfl (.answers rfl (h p s))

theorem keepsRate_linkChecked {own : OrderRule} (h : RuleKeepsRate own) : RuleKeepsRate (linkChecked own) :=
  fun p s => .answers rfl (h p s)

theorem keepsRate_lineChecked {own : OrderRule} (h : RuleKeepsRate own) : RuleKeepsRate (lineChecked own) :=
  keepsRate_linkChecked fun p s => .answers (h p s) rfl

theorem keepsRate_destinationChecked {own : Station → OrderRule} (h : ∀ d, RuleKeepsRate (own d)) :
    RuleKeepsRate (destinationChecked own) := by
  refine fun p s => .answers rfl ?_
  split
  · exact .answers (h _ p s) rfl
  · rfl
  · rfl

theorem keepsRate_diverterChecked {own : Station → OrderRule} (h : ∀ d, RuleKeepsRate (own d)) :
    RuleKeepsRate (diverterChecked own) := by
  refine fun p s => .answers rfl ?_
  split
  · exact .answers (h _ p s) rfl
  · rfl

theorem keepsRate_cfgl : RuleKeepsRate cfgl := by
  refine keepsRate_formChecked (keepsRate_linkChecked fun p s => ?_)
  split
  · exact .answers rfl rfl
  · rfl

theorem keepsRate_cfgd : RuleKeepsRate cfgd := by
  refine keepsRate_formChecked (keepsRate_linkChecked fun p s => ?_)
  split
  · exact .answers rfl rfl
  · rfl

theorem keepsRate_cmit : RuleKeepsRate cmit := by
  refine keepsRate_formChecked (keepsRate_linkChecked fun p s => .answers ?_ rfl)
  split
  · rfl
  · exact .done (sameRate_commit s)

theorem keepsRate_rdcf : RuleKeepsRate rdcf := by
  refine keepsRate_formChecked fun p s => ?_
  split
  · rfl
  · split <;> rfl

theorem keepsRate_strt : RuleKeepsRate strt :=
  keepsRate_formChecked (keepsRate_linkChecked fun _ _ => .answers (.done (submit_rate _ _)) rfl)

theorem keepsRate_stop : RuleKeepsRate stop := by
  refine keepsRate_formChecked fun p s => ?_
  split
  · exact .done (.trans (t := beginDrain s) (submit_rate _ _) (sameRate_drainTest _))
  all_goals rfl

theorem keepsRate_halt : RuleKeepsRate halt := keepsRate_formChecked fun _ s => .done (sameRate_requestHalt .order s)

theorem keepsRate_clr : RuleKeepsRate clr :=
  keepsRate_formChecked fun _ s =>
    .answers rfl (.answers rfl (.answers (.done (sameRate_clearHalted s)) (.done (sameRate_cleared s))))

theorem keepsRate_rstr : RuleKeepsRate rstr := keepsRate_formChecked fun _ _ => rfl

theorem keepsRate_asgn : RuleKeepsRate asgn := by
  refine keepsRate_formChecked (keepsRate_lineChecked fun p s => ?_)
  split
  · rfl
  · refine .answers rfl ?_
    split
    · rfl
    · exact .answers rfl (.answers rfl (.answers (.of_frame (frame_markLate _ s)) rfl))

theorem keepsRate_drop : RuleKeepsRate drop := by
  refine keepsRate_formChecked (keepsRate_lineChecked fun p s => ?_)
  split
  · rfl
  · split
    · exact .done (work_sendToRunoff s _ _).sameRate
    · exact .done (work_dropPending _ s).sameRate
    all_goals rfl

theorem keepsRate_qitm : RuleKeepsRate qitm := by
  refine keepsRate_formChecked fun p s => ?_
  split <;> rfl

theorem keepsRate_list : RuleKeepsRate list := keepsRate_formChecked fun _ _ => .answers rfl rfl

theorem keepsRate_opnd : RuleKeepsRate opnd := by
  refine keepsRate_formChecked (keepsRate_linkChecked (keepsRate_destinationChecked fun d p s => ?_))
  split
  · rfl
  · exact .answers rfl (.done (submit_rate _ _))

theorem keepsRate_clsd : RuleKeepsRate clsd :=
  keepsRate_formChecked (keepsRate_linkChecked (keepsRate_destinationChecked fun d _ s =>
    .done (work_changeCauses s d _).sameRate))

theorem keepsRate_adjd : RuleKeepsRate adjd :=
  keepsRate_formChecked (keepsRate_linkChecked (keepsRate_destinationChecked fun d _ s =>
    .answers rfl (.answers rfl (.done ((work_setDestination s d _).trans (work_terminalCount _ d)).sameRate))))

theorem keepsRate_qdst : RuleKeepsRate qdst := by
  refine keepsRate_formChecked fun p s => .answers rfl ?_
  split
  · rfl
  · exact .answers rfl rfl
  · rfl

theorem keepsRate_dena : RuleKeepsRate dena :=
  keepsRate_formChecked (keepsRate_linkChecked (keepsRate_diverterChecked fun d _ s =>
    .answers (.done ((work_setDiverter s d _).trans (work_changeCauses _ d _)).sameRate) rfl))

theorem keepsRate_ddis : RuleKeepsRate ddis :=
  keepsRate_formChecked (keepsRate_linkChecked (keepsRate_diverterChecked fun d _ s =>
    .answers rfl (.done (sameRate_disableDiverter d s))))

theorem keepsRate_tfir : RuleKeepsRate tfir := by
  refine keepsRate_formChecked (keepsRate_linkChecked fun p s => .answers rfl ?_)
  split
  · rfl
  · exact .answers rfl (.answers rfl (.answers rfl rfl))

theorem keepsRate_link : RuleKeepsRate link := by
  refine keepsRate_formChecked fun p s => ?_
  split
  · rfl
  · exact .answers rfl rfl

theorem keepsRate_wind : RuleKeepsRate wind := keepsRate_formChecked fun _ _ => .answers rfl (.done (startNext_rate _))

theorem keepsRate_ack : RuleKeepsRate ack := keepsRate_formChecked fun _ _ => .answers (.done (startNext_rate _)) rfl

theorem keepsRate_rsum : RuleKeepsRate rsum := keepsRate_formChecked fun _ _ => .answers (.done (submit_rate _ _)) rfl

theorem keepsRate_stat : RuleKeepsRate stat := by
  refine keepsRate_formChecked fun p s => ?_
  split
  · rfl
  · exact .ite rfl rfl

/-- Every order's rule (R172). -/
theorem keepsRate_rule (k : OrderKind) : RuleKeepsRate k.rule := by
  cases k
  case cfgl => exact keepsRate_cfgl
  case cfgd => exact keepsRate_cfgd
  case cmit => exact keepsRate_cmit
  case rdcf => exact keepsRate_rdcf
  case strt => exact keepsRate_strt
  case stop => exact keepsRate_stop
  case halt => exact keepsRate_halt
  case clr => exact keepsRate_clr
  case rstr => exact keepsRate_rstr
  case asgn => exact keepsRate_asgn
  case drop => exact keepsRate_drop
  case qitm => exact keepsRate_qitm
  case list => exact keepsRate_list
  case opnd => exact keepsRate_opnd
  case clsd => exact keepsRate_clsd
  case adjd => exact keepsRate_adjd
  case qdst => exact keepsRate_qdst
  case dena => exact keepsRate_dena
  case ddis => exact keepsRate_ddis
  case tfir => exact keepsRate_tfir
  case link => exact keepsRate_link
  case wind => exact keepsRate_wind
  case ack => exact keepsRate_ack
  case rsum => exact keepsRate_rsum
  case stat => exact keepsRate_stat

theorem keepsRate_unknownRule : RuleKeepsRate unknownRule := fun _ _ => rfl

theorem keepsRate_ruleOf (kind : Byte) : RuleKeepsRate (ruleOf kind) := by
  unfold ruleOf
  split
  · exact keepsRate_rule _
  · exact keepsRate_unknownRule

/-! ### The receiver and the transmitter -/

theorem sameRate_takeOrder {rule : OrderRule} (h : RuleKeepsRate rule) (number : Half) (kind : Byte) (p : List Byte)
    (s : State) : SameRate s (takeOrder rule number kind p s) := by
  refine .ite rfl ?_
  split
  · exact placeAnswer_rate _ s
  · exact (h p s).trans (placeAnswer_rate _ _)

theorem sameRate_replayOrder (number : Half) (kind : Byte) (s : State) : SameRate s (replayOrder number kind s) := by
  refine .ite rfl ?_
  split
  · exact placeAnswer_rate _ s
  · rfl

theorem sameRate_serviceOrders (s : State) : SameRate s (serviceOrders s) := by
  unfold serviceOrders
  split
  · exact .ite rfl (sameRate_takeOrder (keepsRate_ruleOf _) _ _ _ _)
  · rfl

theorem sameRate_goodFrame (f : Frame) (s : State) : SameRate s (goodFrame f s) :=
  .trans (t := offerOrder f (restartSupervision s)) (.ite rfl rfl) (sameRate_serviceOrders _)

theorem sameRate_examine (n : Nat) (bytes : List Byte) (s : State) : SameRate s (examine n bytes s) := by
  induction n generalizing bytes s with
  | zero => rfl
  | succ n ih =>
    cases bytes with
    | nil => rfl
    | cons b rest =>
      unfold examine
      split
      · exact ih _ _
      · exact ih _ _
      · exact ih _ _
      · exact .trans (t := goodFrame _ (setReceiver .hunting s)) (sameRate_goodFrame _ _) (ih _ _)

theorem sameRate_receive (b : Byte) (s : State) : SameRate s (receive b s) := sameRate_examine _ [b] s

theorem sameRate_goodOrderByte (b : Byte) (s : State) : SameRate s (goodOrderByte b s) := by
  unfold goodOrderByte
  split
  · exact sameRate_receive b s
  all_goals rfl

theorem sameRate_discardByte (b : Byte) (s : State) : SameRate s (discardByte b s) := by
  unfold discardByte
  split
  · exact sameRate_receive b s
  · exact sameRate_receive b s
  all_goals rfl

theorem sameRate_dropFrame (s : State) : SameRate s (dropFrame s) := by
  unfold dropFrame
  split <;> rfl

theorem sameRate_gapExpiry (s : State) : SameRate s (gapExpiry s) := .ite (sameRate_dropFrame s) rfl

/-- A reset that RSTR begins shows the straps that give the rate the part had (R178, entry 9). -/
theorem sameRate_beginOrderReset (s : State) : SameRate s (beginOrderReset s) := by
  show rateOf s.levels.strap1Closed s.levels.strap0Closed = s.link.rate
  unfold State.levels
  cases s.link.rate <;> rfl

theorem sameRate_transmitComplete (s : State) : SameRate s (transmitComplete s) := by
  unfold transmitComplete
  split
  · rfl
  · have next (freed : State) : SameRate freed (serviceOrders (startNext freed)) :=
      .trans (startNext_rate freed) (sameRate_serviceOrders _)
    exact .ite (sameRate_beginOrderReset _) (next _)

/-! ### The events -/

theorem sameRate_lossAction (s : State) : SameRate s (lossAction s) := by
  refine .ite ?_ rfl
  split
  · rfl
  · exact (work_runoffAll s).sameRate.trans (sameRate_drainTest _)
  · exact .of_frame (haltLine_spec .link s).2.2

theorem sameRate_supervisionExpiry (s : State) : SameRate s (supervisionExpiry s) := by
  have lost (u : State) : SameRate u (lossAction (submit (.link false) u)) :=
    (sameRate_submit _ u).trans (sameRate_lossAction _)
  exact .ite (.ite (lost _) rfl) rfl

theorem sameRate_retryExpiry (s : State) : SameRate s (retryExpiry s) := .ite (startNext_rate _) rfl

theorem sameRate_forwardTick (s : State) : SameRate s (forwardTick s) := by
  have ticked : SameRate s (standstillTick { s with counter := s.counter.forward }) := sameRate_standstillTick _
  exact (ticked.trans (work_deliveryRun _ _).sameRate).trans (sameRate_drainTest _)

theorem sameRate_reverseTick (s : State) : SameRate s (reverseTick s) := by
  have ticked : SameRate s (standstillTick { s with counter := s.counter.backward }) := sameRate_standstillTick _
  exact ticked.trans (.ite (sameRate_requestHalt _ _) rfl)

theorem sameRate_illegalTransition (s : State) : SameRate s (illegalTransition s) :=
  .ite rfl (sameRate_requestHalt .encoder { s with counter := s.counter.illegal })

theorem sameRate_standstillExpiry (s : State) : SameRate s (standstillExpiry s) := .ite (submit_rate _ _) rfl

theorem sameRate_lineStopChange (level : StopLevel) (s : State) : SameRate s (lineStopChange level s) :=
  .ite rfl (.ite (sameRate_requestHalt .lineStop { s with line := { s.line with lineStop := level } }) rfl)

theorem sameRate_deliverNamed (k : WatchKind) (s : State) : SameRate s (deliverNamed k s) := by
  unfold deliverNamed
  split
  · exact .ite ((work_deliver s _).sameRate.trans (sameRate_drainTest _)) rfl
  · rfl

theorem sameRate_maxOnEvent (d : Station) (s : State) : SameRate s (maxOnEvent d s) :=
  .ite ((work_maxOnExpiry s d).sameRate.trans (sameRate_settle _)) rfl

theorem sameRate_recoveryEvent (d : Station) (s : State) : SameRate s (recoveryEvent d s) :=
  .ite ((work_endRecovery s d).sameRate.trans (sameRate_settle _)) rfl

theorem sameRate_pulseEvent (d : Station) (s : State) : SameRate s (pulseEvent d s) :=
  .ite ((work_releaseDiverter s d).sameRate.trans (sameRate_settle _)) rfl

theorem sameRate_deadlineEvent (d : Station) (s : State) : SameRate s (deadlineEvent d s) :=
  .ite ((work_deadlineExpiry s d).sameRate.trans (sameRate_drainTest _)) rfl

theorem sameRate_confirmLeading (d : Station) (s : State) : SameRate s (confirmLeading d s) := by
  have seen := ((work_setMonitor s d fun m => { m with eye := .blocked }).trans (work_matchEdge _ d)).trans
    (work_chuteBlocked _ d)
  exact .ite rfl (.ite (seen.sameRate.trans (sameRate_drainTest _)) rfl)

theorem sameRate_confirmTrailing (d : Station) (s : State) : SameRate s (confirmTrailing d s) := by
  have seen := (work_setMonitor s d fun m => { m with eye := .clear }).trans (work_chuteCleared _ d)
  exact .ite rfl (.ite seen.sameRate rfl)

theorem sameRate_chuteEvent (d : Station) (s : State) : SameRate s (chuteEvent d s) :=
  .ite (work_chuteExpiry s d).sameRate rfl

/-! ### The commands -/

namespace SameRate

theorem event {f : State → State} (h : SameRate s (f s)) (run : event f s = .next t) : SameRate s t :=
  Host.Outcome.next.inj run ▸ .ite rfl h

theorem stationEvent {n : Nat} {f : Station → State → State} (h : ∀ d, SameRate s (f d s))
    (run : stationEvent n f s = .next t) : SameRate s t := by
  unfold Machine.stationEvent at run
  split at run
  · exact .event (h _) run
  · cases run

theorem order (k : OrderKind) {number : Half} {p : List Byte} (run : exec (k.command number p) s = .next t) :
    SameRate s t :=
  .event (sameRate_takeOrder (keepsRate_rule k) number k.code p s) (exec_command k number p s ▸ run)

theorem unknownKind {number : Half} {kind : Byte} {p : List Byte} (run : execUnknownKind number kind p s = .next t) :
    SameRate s t := by
  unfold execUnknownKind at run
  split at run
  · cases run
  · exact .event (sameRate_takeOrder keepsRate_unknownRule number kind p s) run

/-- Every command but the resets leaves the link rate. -/
theorem exec {c : Instr} (power : ∀ l, c ≠ .powerOn l) (pin : ∀ l, c ≠ .pinReset l) (order : ∀ l, c ≠ .rstrReset l)
    (run : exec c s = .next t) : SameRate s t := by
  cases c
  case powerOn levels => exact absurd rfl (power levels)
  case pinReset levels => exact absurd rfl (pin levels)
  case rstrReset levels => exact absurd rfl (order levels)
  case cfgl => exact .order .cfgl run
  case cfgd => exact .order .cfgd run
  case cmit => exact .order .cmit run
  case rdcf => exact .order .rdcf run
  case strt => exact .order .strt run
  case stop => exact .order .stop run
  case halt => exact .order .halt run
  case clr => exact .order .clr run
  case rstr => exact .order .rstr run
  case asgn => exact .order .asgn run
  case drop => exact .order .drop run
  case qitm => exact .order .qitm run
  case list => exact .order .list run
  case opnd => exact .order .opnd run
  case clsd => exact .order .clsd run
  case adjd => exact .order .adjd run
  case qdst => exact .order .qdst run
  case dena => exact .order .dena run
  case ddis => exact .order .ddis run
  case tfir => exact .order .tfir run
  case link => exact .order .link run
  case wind => exact .order .wind run
  case ack => exact .order .ack run
  case rsum => exact .order .rsum run
  case stat => exact .order .stat run
  case unknownKind => exact .unknownKind run
  case orderReplay => exact .event (sameRate_replayOrder _ _ s) run
  case forwardTick => exact .event (sameRate_forwardTick s) run
  case reverseTick => exact .event (sameRate_reverseTick s) run
  case illegalTransition => exact .event (sameRate_illegalTransition s) run
  case standstillTimerExpiry => exact .event (sameRate_standstillExpiry s) run
  case fireWatch | runoffWatch | lengthLimitWatch => exact .event (sameRate_deliverNamed _ s) run
  case lateWatch | releaseWatch => exact .stationEvent (fun _ => sameRate_deliverNamed _ s) run
  case entryEyeLeadingEdge => exact .event (work_entryLeadingEdge s).sameRate run
  case entryEyeTrailingEdge => exact .event (work_entryTrailingEdge s).sameRate run
  case exitEyeLeadingEdge => exact .event (work_exitLeadingEdge s).sameRate run
  case slotGrant =>
    exact .event (f := fun t => drainTest (grantOne t)) ((work_grantOne s).sameRate.trans (sameRate_drainTest _)) run
  case maxOnExpiry => exact .stationEvent (fun d => sameRate_maxOnEvent d s) run
  case recoveryTimerExpiry => exact .stationEvent (fun d => sameRate_recoveryEvent d s) run
  case pulseTimerExpiry => exact .stationEvent (fun d => sameRate_pulseEvent d s) run
  case deadlineTimerExpiry => exact .stationEvent (fun d => sameRate_deadlineEvent d s) run
  case confirmEyeLeadingEdge => exact .stationEvent (fun d => sameRate_confirmLeading d s) run
  case confirmEyeTrailingEdge => exact .stationEvent (fun d => sameRate_confirmTrailing d s) run
  case chuteTimerExpiry => exact .stationEvent (fun d => sameRate_chuteEvent d s) run
  case lineStopChange => exact .event (sameRate_lineStopChange _ s) run
  case drainComplete => exact .event (sameRate_drainTest s) run
  case goodOrderFrame => exact .event (sameRate_goodOrderByte _ s) run
  case frameDiscard => exact .event (sameRate_discardByte _ s) run
  case characterFault => exact .event (sameRate_dropFrame s) run
  case gapTimerExpiry => exact .event (sameRate_gapExpiry s) run
  case transmitComplete => exact .event (sameRate_transmitComplete s) run
  case retryTimerExpiry => exact .event (sameRate_retryExpiry s) run
  case supervisionTimerExpiry => exact .event (sameRate_supervisionExpiry s) run
  case characterReceived => exact .event (sameRate_receive _ s) run

end SameRate

/-- A whole reset ends with the rate of the straps sampled then (R178). -/
theorem rate_resetPart (cause : ResetCause) (levels : Levels) (s : State) :
    (resetPart cause levels s).link.rate = rateOf levels.strap1Closed levels.strap0Closed := startNext_rate _

end Sys2Proof.Machine

open Sys2Proof Sys2Proof.Machine

/-- Settles O7: a reset command is a whole reset (`exec_reset`), which takes the rate of its straps (`rate_resetPart`);
every other command leaves the rate (`SameRate.exec`). -/
theorem linkRateFollowsStraps : Obligations.LinkRateFollowsStraps := by
  unfold Obligations.LinkRateFollowsStraps
  refine ⟨fun c levels s command => ?_, fun c s t run power pin order => SameRate.exec power pin order run⟩
  obtain ⟨cause, run⟩ : ∃ cause, exec c s = .next (resetPart cause levels s) := by
    rcases command with power | pin | ⟨order, underWay⟩
    · exact ⟨.power, exec_reset (.inl ⟨power, rfl⟩)⟩
    · exact ⟨.pin, exec_reset (.inr (.inl ⟨pin, rfl⟩))⟩
    · exact ⟨.order, exec_reset (.inr (.inr ⟨order, rfl, underWay⟩))⟩
  refine ⟨_, run, ?_⟩
  rw [rate_resetPart]
  refine ⟨fun one zero => ?_, fun one zero => ?_, fun one zero => ?_, fun one zero => ?_⟩ <;> rw [one, zero] <;> rfl
end
